-- ==== Sys2Proof/Word.lean ====
section
/-!
DEFINITION. The word types of the part: bytes, 32-bit and 64-bit words, 128-bit register pairs, lane masks.
-/
namespace Sys2Proof

abbrev Byte := BitVec 8
abbrev Half := BitVec 32
abbrev Word := BitVec 64
/-- A register pair, the odd register above the even one (R42); a single register is the low half. -/
abbrev Pair := BitVec 128
/-- One bit per lane of a team: lane l is bit l (R16). -/
abbrev LaneMask := BitVec 1024

/-- The low 64 bits, the even register of a pair. -/
def Pair.even (p : Pair) : Word := p.extractLsb' 0 64
/-- The high 64 bits, the odd register of a pair. -/
def Pair.odd (p : Pair) : Word := p.extractLsb' 64 64
def Pair.mk (even odd : Word) : Pair := odd ++ even
/-- A single register as the low half of a pair. -/
def Word.toPair (w : Word) : Pair := w.setWidth 128

end Sys2Proof
end

