-- ==== Sys2Proof/Syntax.lean ====
section
/-!
DEFINITION. The abstract syntax: every row of the opcode table is one constructor of `Instr`. Scalar and lane words
have the operands of their formats (R37 to R49); the steps of the part's other agents name the agent they move.
-/
namespace Sys2Proof

/-- A three-valued truth value (R41, R55): false, true, undecided. -/
inductive Tri where
  | f | t | u
deriving DecidableEq, Repr, Inhabited

/-- The scopes of R39, narrowest first. -/
inductive Scope where
  | team | core | cluster | device | system
deriving DecidableEq, Repr, Inhabited

/-- The integer conditions of R39. -/
inductive Cond where
  | eq | ne | lt | le | gt | ge | ltu | leu | gtu | geu
deriving DecidableEq, Repr, Inhabited

/-- The conditions of FCMP (R116). -/
inductive FCond where
  | eq | ne | lt | le | gt | ge | subset | disjoint | contains
deriving DecidableEq, Repr, Inhabited

/-- Guard and branch modes (R41). `always` stands for no guard. -/
inductive GMode where
  | always | t | f | u | nt | nf
deriving DecidableEq, Repr, Inhabited

/-- A guard: predicate and mode (R41). -/
structure Guard where
  q : BitVec 4
  m : GMode
deriving DecidableEq, Repr, Inhabited

/-- The type codes of R42. -/
inductive LTy where
  | iv32 | pt32 | iv64 | pt64 | bf16 | ivi32 | i32 | n32 | i64 | n64 | mrad32 | i8 | n8 | i16 | n16 | b64
deriving DecidableEq, Repr, Inhabited

/-- Rounding modifiers (R92, R106). -/
inductive RM where
  | rne | rz | rd | ru
deriving DecidableEq, Repr, Inhabited

/-- Half selection (.lo, .hi, .all) of R106. -/
inductive HSel where
  | lo | hi | all
deriving DecidableEq, Repr, Inhabited

/-- The operations of SKOP (R57). -/
inductive KOp where
  | and | or | not | ff | ft | isu | mov | setu
deriving DecidableEq, Repr, Inhabited

/-- The forms of QFORCE (R135). -/
inductive QForce where
  | f | t | isu
deriving DecidableEq, Repr, Inhabited

/-- Where a lane load or store goes and how strong it is (R267): the pad, a plain access, a strong access, or an
ordered one (`.acq` in LD, `.rel` in ST). -/
inductive Access where
  | pad | plain | strong (s : Scope) | ordered (s : Scope)
deriving DecidableEq, Repr, Inhabited

/-- Order suffixes of atomics (R274). -/
inductive Ord where
  | relaxed | acq | rel | ar
deriving DecidableEq, Repr, Inhabited

/-- The operations of ATOM (R274). -/
inductive AtomOp where
  | add | min | max | and | or | xor | exch | hull | cap
deriving DecidableEq, Repr, Inhabited

/-- The operations of SCAN, RED and COLL (R235, R318). -/
inductive RedOp where
  | add | min | max | and | or | xor
deriving DecidableEq, Repr, Inhabited

/-- The modes of SHFL (R234). -/
inductive ShMode where
  | idx | up | down | xor
deriving DecidableEq, Repr, Inhabited

/-- The directions of a copy (R220). -/
inductive Dir where
  | toPad | memToMem | padToMem
deriving DecidableEq, Repr, Inhabited

/-- A vector source field (R43 to R45): register or, with `u`, uniform slot; `fe` marks a trapping source. -/
structure Src where
  n  : BitVec 9
  u  : Bool
  fe : Bool
deriving DecidableEq, Repr, Inhabited

/-- A field that the opcode does not use. -/
def Src.none : Src := ⟨0, false, false⟩

/-- Lane operands: destination and one source. -/
structure V1 where
  g : Guard
  ty : LTy
  d : BitVec 9
  a : Src
deriving DecidableEq, Repr, Inhabited

structure V2 where
  g : Guard
  ty : LTy
  d : BitVec 9
  a : Src
  b : Src
deriving DecidableEq, Repr, Inhabited

structure V3 where
  g : Guard
  ty : LTy
  d : BitVec 9
  a : Src
  b : Src
  c : Src
deriving DecidableEq, Repr, Inhabited

/-- Immediate forms (R46): the immediate stands in place of the last source. -/
structure V0i where
  g : Guard
  ty : LTy
  d : BitVec 9
  imm : Half
deriving DecidableEq, Repr, Inhabited

structure V1i where
  g : Guard
  ty : LTy
  d : BitVec 9
  a : Src
  imm : Half
deriving DecidableEq, Repr, Inhabited

structure V2i where
  g : Guard
  ty : LTy
  d : BitVec 9
  a : Src
  b : Src
  imm : Half
deriving DecidableEq, Repr, Inhabited

/-- Comparison operands: a predicate destination (R116, R127). -/
structure C2 where
  g : Guard
  ty : LTy
  d : BitVec 4
  a : Src
  b : Src
deriving DecidableEq, Repr, Inhabited

structure C1i where
  g : Guard
  ty : LTy
  d : BitVec 4
  a : Src
  imm : Half
deriving DecidableEq, Repr, Inhabited

/-- Selection operands: a predicate as first source (R118, R128). -/
structure QS where
  g : Guard
  ty : LTy
  d : BitVec 9
  q : BitVec 4
  b : Src
  c : Src
deriving DecidableEq, Repr, Inhabited

structure QSi where
  g : Guard
  ty : LTy
  d : BitVec 9
  q : BitVec 4
  b : Src
  imm : Half
deriving DecidableEq, Repr, Inhabited

/-- An LM address: base and byte offset (R43, R263). -/
structure Adr where
  a : Src
  off : BitVec 24
deriving DecidableEq, Repr, Inhabited

/-- The operands of CPY (R220). -/
structure CpyOps where
  g : Guard
  d : BitVec 9
  a : Src
  b : Src
  c : Src
  pb : Bool
  st : Bool
  tk : Bool
  dir : Dir
  rs : Bool
  arv : Bool
  tok : BitVec 14
deriving DecidableEq, Repr, Inhabited

/-- What an uncorrectable error struck (R387). -/
inductive EccTarget where
  /-- Eight bytes of stacked DRAM or of L2 at a physical address. -/
  | memory (pa : Nat)
  /-- Eight bytes of a core's L1, by the key of their memory: device, host or peer memory. -/
  | copy (core key : Nat)
  /-- Eight bytes of a slot of a core's instruction store, at an offset in its page. -/
  | code (core slot off : Nat)
  /-- A register or pad word of a team. -/
  | team (t : Nat)
deriving DecidableEq, Repr, Inhabited

/-- What a host or peer access does (R260, R382). -/
inductive ExtAccess where
  | read
  | write (size : Nat) (value : Word)
  /-- An RMW of an aligned doubleword. -/
  | rmw (op : AtomOp) (ty : LTy) (operand : Word)
  | cas (expected new : Word)
deriving DecidableEq, Repr, Inhabited

/-- A link of a die (R320). -/
inductive Link where
  | up | down | peer (port : Nat)
deriving DecidableEq, Repr, Inhabited

/-- Which stream of a team waits (R60, R230). -/
inductive WaitOf where
  | scalar
  | fragment (slot : Nat)
deriving DecidableEq, Repr, Inhabited

/-- One constructor per row of the opcode table. -/
inductive Instr where
  /-- NOP (R66). -/
  | nop
  /-- SEND (R33). -/
  | send
  /-- LSYNC (R32). -/
  | lsync
  /-- FBAR (R74). -/
  | fbar
  /-- ERET (R331). -/
  | eret
  /-- BKPT_SCALAR (R76). -/
  | bkptScalar
  /-- CRIT (R78). -/
  | crit
  /-- CRITX (R78). -/
  | critx
  /-- SADD (R53). -/
  | sadd (d a b : BitVec 7)
  /-- SSUB (R53). -/
  | ssub (d a b : BitVec 7)
  /-- SMUL (R53). -/
  | smul (d a b : BitVec 7)
  /-- SMULH (R53). -/
  | smulh (d a b : BitVec 7)
  /-- SDIV (R53). -/
  | sdiv (d a b : BitVec 7)
  /-- SREM (R53). -/
  | srem (d a b : BitVec 7)
  /-- SAND (R53). -/
  | sand (d a b : BitVec 7)
  /-- SOR (R53). -/
  | sor (d a b : BitVec 7)
  /-- SXOR (R53). -/
  | sxor (d a b : BitVec 7)
  /-- SANDN (R53). -/
  | sandn (d a b : BitVec 7)
  /-- SSHL (R53). -/
  | sshl (d a b : BitVec 7)
  /-- SSHR (R53). -/
  | sshr (d a b : BitVec 7)
  /-- SSAR (R53). -/
  | ssar (d a b : BitVec 7)
  /-- SMIN (R53). -/
  | smin (d a b : BitVec 7)
  /-- SMAX (R53). -/
  | smax (d a b : BitVec 7)
  /-- SMOV (R53). -/
  | smov (d a : BitVec 7)
  /-- SCLZ (R53). -/
  | sclz (d a : BitVec 7)
  /-- SPOP (R53). -/
  | spop (d a : BitVec 7)
  /-- SSEL (R58). -/
  | ssel (d a b : BitVec 7) (k : BitVec 3)
  /-- SCMP (R56). -/
  | scmp (k : BitVec 3) (a b : BitVec 7) (c : Cond)
  /-- SKOP (R57). -/
  | skop (d a b : BitVec 3) (op : KOp)
  /-- SFENCE (R61). -/
  | sfence (s : Scope)
  /-- SEMPTY (R65). -/
  | sempty (d : BitVec 7) (n : BitVec 4)
  /-- SWAITA (R60). -/
  | swaita (d a : BitVec 7) (c : Cond)
  /-- LAUNCH (R67). -/
  | launch (a : BitVec 7)
  /-- TASK (R69). -/
  | task (a : BitVec 7)
  /-- SIGNAL (R70). -/
  | signal (a : BitVec 7)
  /-- CFETCH (R71). -/
  | cfetch (a b : BitVec 7)
  /-- CINV (R72). -/
  | cinv (a b : BitVec 7)
  /-- SRET (R62). -/
  | sret (a : BitVec 7)
  /-- SJF (R62). -/
  | sjf (a : BitVec 7)
  /-- TRAP_SCALAR (R76). -/
  | trapScalar (code : BitVec 18)
  /-- RGN (R79). -/
  | rgn (i : BitVec 18)
  /-- MFX_SCALAR (R75). -/
  | mfxScalar (d : BitVec 7) (x : BitVec 12)
  /-- MTX_SCALAR (R75). -/
  | mtxScalar (d : BitVec 7) (x : BitVec 12)
  /-- SLI (R55). -/
  | sli (d : BitVec 7) (i : BitVec 18)
  /-- SLIH (R55). -/
  | slih (d : BitVec 7) (i : BitVec 18)
  /-- SCALL (R62). -/
  | scall (d : BitVec 7) (i : BitVec 18)
  /-- SBR (R62). -/
  | sbr (k : BitVec 3) (m : GMode) (i : BitVec 19)
  /-- SJ (R62). -/
  | sj (i : BitVec 19)
  /-- SADD_IMM (R53). -/
  | saddImm (d a : BitVec 7) (i : BitVec 11)
  /-- SMUL_IMM (R53). -/
  | smulImm (d a : BitVec 7) (i : BitVec 11)
  /-- SAND_IMM (R53). -/
  | sandImm (d a : BitVec 7) (i : BitVec 11)
  /-- SOR_IMM (R53). -/
  | sorImm (d a : BitVec 7) (i : BitVec 11)
  /-- SXOR_IMM (R53). -/
  | sxorImm (d a : BitVec 7) (i : BitVec 11)
  /-- SSHL_IMM (R54). -/
  | sshlImm (d a : BitVec 7) (i : BitVec 6)
  /-- SSHR_IMM (R54). -/
  | sshrImm (d a : BitVec 7) (i : BitVec 6)
  /-- SSAR_IMM (R54). -/
  | ssarImm (d a : BitVec 7) (i : BitVec 6)
  /-- SMIN_IMM (R53). -/
  | sminImm (d a : BitVec 7) (i : BitVec 11)
  /-- SMAX_IMM (R53). -/
  | smaxImm (d a : BitVec 7) (i : BitVec 11)
  /-- SLD (R59). -/
  | sld (d a : BitVec 7) (i : BitVec 11)
  /-- SST (R59). -/
  | sst (d a : BitVec 7) (i : BitVec 11)
  /-- LQ (R64). -/
  | lq (a : BitVec 7) (n : BitVec 4) (e : BitVec 14)
  /-- IADD (R120). -/
  | iadd (o : V2) (sat : Bool)
  /-- ISUB (R120). -/
  | isub (o : V2) (sat : Bool)
  /-- IMUL (R120). -/
  | imul (o : V2) (sat : Bool)
  /-- IMULH (R120). -/
  | imulh (o : V2)
  /-- IMAD (R120). -/
  | imad (o : V3)
  /-- IDIV (R121). -/
  | idiv (o : V2)
  /-- IREM (R121). -/
  | irem (o : V2)
  /-- IMIN (R122). -/
  | imin (o : V2)
  /-- IMAX (R122). -/
  | imax (o : V2)
  /-- IABS (R122). -/
  | iabs (o : V1) (sat : Bool)
  /-- AND (R124). -/
  | land (o : V2)
  /-- OR (R124). -/
  | lor (o : V2)
  /-- XOR (R124). -/
  | lxor (o : V2)
  /-- ANDN (R124). -/
  | andn (o : V2)
  /-- SHL (R124). -/
  | shl (o : V2)
  /-- SHR (R124). -/
  | shr (o : V2)
  /-- SAR (R124). -/
  | sar (o : V2)
  /-- ROT (R124). -/
  | rot (o : V2)
  /-- POPC (R125). -/
  | popc (o : V1)
  /-- CLZ (R125). -/
  | clz (o : V1)
  /-- BFX (R126). -/
  | bfx (o : V2)
  /-- BFI (R126). -/
  | bfi (o : V3)
  /-- ICMP (R127). -/
  | icmp (o : C2) (c : Cond) (es : HSel)
  /-- ISEL (R128). -/
  | isel (o : QS)
  /-- MOV (R128). -/
  | mov (o : V1)
  /-- IADD_IMM (R120). -/
  | iaddImm (o : V1i) (sat : Bool)
  /-- ISUB_IMM (R120). -/
  | isubImm (o : V1i) (sat : Bool)
  /-- IMUL_IMM (R120). -/
  | imulImm (o : V1i) (sat : Bool)
  /-- IMULH_IMM (R120). -/
  | imulhImm (o : V1i)
  /-- IMAD_IMM (R120). -/
  | imadImm (o : V2i)
  /-- IDIV_IMM (R121). -/
  | idivImm (o : V1i)
  /-- IREM_IMM (R121). -/
  | iremImm (o : V1i)
  /-- IMIN_IMM (R122). -/
  | iminImm (o : V1i)
  /-- IMAX_IMM (R122). -/
  | imaxImm (o : V1i)
  /-- AND_IMM (R124). -/
  | landImm (o : V1i)
  /-- OR_IMM (R124). -/
  | lorImm (o : V1i)
  /-- XOR_IMM (R124). -/
  | lxorImm (o : V1i)
  /-- ANDN_IMM (R124). -/
  | andnImm (o : V1i)
  /-- SHL_IMM (R124). -/
  | shlImm (o : V1i)
  /-- SHR_IMM (R124). -/
  | shrImm (o : V1i)
  /-- SAR_IMM (R124). -/
  | sarImm (o : V1i)
  /-- ROT_IMM (R124). -/
  | rotImm (o : V1i)
  /-- BFX_IMM (R126). -/
  | bfxImm (o : V1i)
  /-- BFI_IMM (R126). -/
  | bfiImm (o : V2i)
  /-- ICMP_IMM (R127). -/
  | icmpImm (o : C1i) (c : Cond) (es : HSel)
  /-- ISEL_IMM (R128). -/
  | iselImm (o : QSi)
  /-- MOVI (R128). -/
  | movi (o : V0i)
  /-- FADD (R109). -/
  | fadd (o : V2) (rm : RM)
  /-- FSUB (R109). -/
  | fsub (o : V2) (rm : RM)
  /-- FMUL (R109). -/
  | fmul (o : V2) (rm : RM)
  /-- FDIV (R109). -/
  | fdiv (o : V2) (rm : RM)
  /-- FFMA (R109). -/
  | ffma (o : V3) (rm : RM)
  /-- FSQRT (R109). -/
  | fsqrt (o : V1) (rm : RM)
  /-- FRCP (R109). -/
  | frcp (o : V1) (rm : RM)
  /-- FRSQ (R109). -/
  | frsq (o : V1) (rm : RM)
  /-- FEXP2 (R109). -/
  | fexp2 (o : V1) (rm : RM)
  /-- FLOG2 (R109). -/
  | flog2 (o : V1) (rm : RM)
  /-- FMIN (R111). -/
  | fmin (o : V2)
  /-- FMAX (R111). -/
  | fmax (o : V2)
  /-- FABS (R112). -/
  | fabs (o : V1)
  /-- FNEG (R112). -/
  | fneg (o : V1)
  /-- FHULL (R113). -/
  | fhull (o : V2)
  /-- FCAP (R113). -/
  | fcap (o : V2)
  /-- FMID (R114). -/
  | fmid (o : V1)
  /-- FRAD (R114). -/
  | frad (o : V1)
  /-- FWID (R114). -/
  | fwid (o : V1)
  /-- FLO (R114). -/
  | flo (o : V1)
  /-- FHI (R114). -/
  | fhi (o : V1)
  /-- FMK (R115). -/
  | fmk (o : V2)
  /-- FCMP (R116). -/
  | fcmp (o : C2) (c : FCond) (es : BitVec 3)
  /-- FCLASS (R117). -/
  | fclass (o : V1)
  /-- FSEL (R118). -/
  | fsel (o : QS)
  /-- FADD_IMM (R109). -/
  | faddImm (o : V1i) (rm : RM)
  /-- FSUB_IMM (R109). -/
  | fsubImm (o : V1i) (rm : RM)
  /-- FMUL_IMM (R109). -/
  | fmulImm (o : V1i) (rm : RM)
  /-- FDIV_IMM (R109). -/
  | fdivImm (o : V1i) (rm : RM)
  /-- FFMA_IMM (R109). -/
  | ffmaImm (o : V2i) (rm : RM)
  /-- FMIN_IMM (R111). -/
  | fminImm (o : V1i)
  /-- FMAX_IMM (R111). -/
  | fmaxImm (o : V1i)
  /-- FHULL_IMM (R113). -/
  | fhullImm (o : V1i)
  /-- FCAP_IMM (R113). -/
  | fcapImm (o : V1i)
  /-- FCMP_IMM (R116). -/
  | fcmpImm (o : C1i) (c : FCond) (es : BitVec 3)
  /-- FSEL_IMM (R118). -/
  | fselImm (o : QSi)
  /-- CVT (R129). -/
  | cvt (o : V1) (sty : LTy) (es : HSel) (rm : RM)
  /-- PACK (R131). -/
  | pack (o : V2) (rm : RM)
  /-- UNPK (R132). -/
  | unpk (o : V1) (es : HSel)
  /-- QNT (R195). -/
  | qnt (o : V2) (nib : Bool) (pos : BitVec 4) (rm : RM)
  /-- QNT_SCALE (R196). -/
  | qntScale (o : V2)
  /-- DQN (R197). -/
  | dqn (o : V2) (nib : Bool) (pos : BitVec 4) (rm : RM)
  /-- QAND (R135). -/
  | qand (g : Guard) (d a b : BitVec 4)
  /-- QOR (R135). -/
  | qor (g : Guard) (d a b : BitVec 4)
  /-- QNOT (R135). -/
  | qnot (g : Guard) (d a : BitVec 4)
  /-- QFORCE (R135). -/
  | qforce (g : Guard) (d a : BitVec 4) (op : QForce)
  /-- QSET (R135). -/
  | qset (g : Guard) (d : BitVec 4) (v : Tri)
  /-- VOTE (R136). -/
  | vote (g : Guard) (d a : BitVec 4) (or all : Bool)
  /-- VOTE_SCALAR (R136). -/
  | voteScalar (g : Guard) (d : BitVec 7) (a : BitVec 4) (or all : Bool)
  /-- LEAD (R137). -/
  | lead (g : Guard) (d : BitVec 4)
  /-- BQ (R144). -/
  | bq (q : BitVec 4) (tt ut jt : BitVec 20)
  /-- BC (R144). -/
  | bc (q : BitVec 4) (tt jt : BitVec 20)
  /-- JMP (R144). -/
  | jmp (tt : BitVec 20)
  /-- CALL (R145). -/
  | call (tt : BitVec 20)
  /-- CALLI (R146). -/
  | calli (a : Src)
  /-- RET (R147). -/
  | ret
  /-- BRK (R148). -/
  | brk (n tt : BitVec 20)
  /-- EXIT (R149). -/
  | exit (g : Guard)
  /-- LEND (R150). -/
  | lend
  /-- SPUT (R138). -/
  | sput (g : Guard) (d : BitVec 7) (a : Src)
  /-- LD (R268). -/
  | ld (g : Guard) (ty : LTy) (d : BitVec 9) (p : Adr) (acc : Access)
  /-- ST (R268). -/
  | st (g : Guard) (ty : LTy) (p : Adr) (b : Src) (acc : Access)
  /-- LDS (R269). -/
  | lds (g : Guard) (d : BitVec 9) (p : Adr) (pad : Bool) (n : BitVec 3)
  /-- STS (R269). -/
  | sts (g : Guard) (p : Adr) (b : Src) (pad : Bool) (n : BitVec 3)
  /-- LDFE (R270). -/
  | ldfe (g : Guard) (ty : LTy) (d : BitVec 9) (p : Adr) (w1 : Bool)
  /-- STFE (R270). -/
  | stfe (g : Guard) (ty : LTy) (p : Adr) (b : Src) (w1 : Bool)
  /-- PFETCH (R271). -/
  | pfetch (g : Guard) (p : Adr) (l2 : Bool)
  /-- ATOM (R275). -/
  | atom (g : Guard) (ty : LTy) (d : BitVec 9) (p : Adr) (b : Src) (op : AtomOp) (pad nr : Bool) (s : Scope) (o : Ord)
  /-- ATOMC (R276). -/
  | atomc (g : Guard) (ty : LTy) (d : BitVec 9) (a b c : Src) (pad : Bool) (s : Scope) (o : Ord)
  /-- WAITA (R273). -/
  | waita (g : Guard) (ty : LTy) (p : Adr) (b : Src) (c : Cond) (pad : Bool) (s : Scope)
  /-- FENCE (R272). -/
  | fence (g : Guard) (s : Scope)
  /-- TKWAIT (R286). -/
  | tkwait (g : Guard) (d : BitVec 4) (p : Adr) (lv : BitVec 3)
  /-- TKPASS (R286). -/
  | tkpass (g : Guard) (p : Adr) (lv : BitVec 3)
  /-- CPY (R221). -/
  | cpy (o : CpyOps)
  /-- CPYS (R225). -/
  | cpys (g : Guard) (d : BitVec 9) (a : Src)
  /-- PBINIT (R230). -/
  | pbinit (g : Guard) (a b c : Src)
  /-- PBEXP (R230). -/
  | pbexp (g : Guard) (a b : Src)
  /-- PBARV (R230). -/
  | pbarv (g : Guard) (a b : Src)
  /-- PBWAIT (R230). -/
  | pbwait (g : Guard) (d : BitVec 4) (a : Src) (gen : Bool) (n : BitVec 8)
  /-- BAR (R232). -/
  | bar (g : Guard) (cohort : Bool)
  /-- COMB (R279). -/
  | comb (g : Guard) (d : BitVec 9) (p : Adr) (b : Src) (qs : BitVec 4) (meth : BitVec 8)
  /-- CRET (R281). -/
  | cret (g : Guard) (a : BitVec 4)
  /-- OBJREG (R278). -/
  | objreg (g : Guard) (p : Adr) (b : Src)
  /-- OBJCLR (R282). -/
  | objclr (g : Guard) (p : Adr)
  /-- AMSG (R283). -/
  | amsg (g : Guard) (p : Adr) (b : Src) (core : Bool) (h : BitVec 12) (n : BitVec 3)
  /-- COLL (R306). -/
  | coll (o : V2) (op : RedOp)
  /-- FLUSH (R316). -/
  | flush (g : Guard)
  /-- MFMT (R200). -/
  | mfmt (g : Guard) (a : BitVec 7) (imm : Half)
  /-- MMA (R208). -/
  | mma (g : Guard) (d : BitVec 9) (a b : Src) (ns : BitVec 2) (z : Bool) (ks : BitVec 12)
  /-- MMAQ (R211). -/
  | mmaq (g : Guard) (d : BitVec 9) (a b c : Src) (ns : BitVec 2) (z : Bool) (ks : BitVec 12)
  /-- PLANE (R213). -/
  | plane (g : Guard) (d : BitVec 9) (a : Src) (nib : Bool)
  /-- MSTAT (R214). -/
  | mstat (g : Guard) (d : BitVec 9) (sel : BitVec 3)
  /-- SPLIT (R166). -/
  | split (g : Guard) (ty : LTy) (a b c : Src) (axis : BitVec 4) (nw : BitVec 2)
  /-- FORK (R167). -/
  | fork (g : Guard) (a b c : Src) (kind : BitVec 4) (nw : BitVec 2) (hdr : Bool)
  /-- DRAW (R168). -/
  | draw (q : BitVec 4) (d : BitVec 9) (steal : Bool) (nw : BitVec 2) (hdr : Bool)
  /-- DROP (R169). -/
  | drop (g : Guard)
  /-- LDH (R172). -/
  | ldh (g : Guard) (ty : LTy) (d : BitVec 9) (p : Adr) (b : Src)
  /-- STB (R173). -/
  | stb (g : Guard) (ty : LTy) (p : Adr) (b : Src)
  /-- QUART (R174). -/
  | quart (g : Guard)
  /-- ELEM (R175). -/
  | elem (tt : BitVec 20)
  /-- SHFL (R234). -/
  | shfl (o : V2) (md : ShMode) (all : Bool)
  /-- SHFL_IMM (R234). -/
  | shflImm (o : V1) (n : BitVec 10) (md : ShMode) (all : Bool)
  /-- SCAN (R235). -/
  | scan (o : V1) (op : RedOp) (excl all : Bool)
  /-- RED (R235). -/
  | red (o : V1) (op : RedOp) (all : Bool)
  /-- RED_SCALAR (R235). -/
  | redScalar (g : Guard) (ty : LTy) (d : BitVec 7) (a : Src) (op : RedOp) (all : Bool)
  /-- BALLOT (R236). -/
  | ballot (g : Guard) (d : BitVec 9) (a : BitVec 4) (sel : Tri) (all : Bool)
  /-- XBLD (R238). -/
  | xbld (g : Guard) (a b : Src)
  /-- XBAR (R239). -/
  | xbar (g : Guard) (d : BitVec 9) (a b : Src)
  /-- MFX_LANE (R334). -/
  | mfxLane (g : Guard) (d : BitVec 9) (x : BitVec 12)
  /-- MTX_LANE (R334). -/
  | mtxLane (g : Guard) (a : Src) (x : BitVec 12)
  /-- TRAP_LANE (R334). -/
  | trapLane (g : Guard) (code : BitVec 18)
  /-- BKPT_LANE (R334). -/
  | bkptLane (g : Guard)
  /-- HEADER_CHECK (R22). -/
  | headerCheck (die : Nat)
  /-- COHORT_PLACEMENT (R342). -/
  | cohortPlacement (launch cohort : Nat)
  /-- PRELOAD_LAND (R351). -/
  | preloadLand (launch core : Nat)
  /-- LANE_BLOCK_START (R29). -/
  | laneBlockStart (team : Nat)
  /-- SCALAR_REGISTER_FILL (R31). -/
  | scalarRegisterFill (fill : Nat)
  /-- TRAP_ENTRY (R327). -/
  | trapEntry (team : Nat)
  /-- WAVE_HALT (R282). -/
  | waveHalt (team : Nat)
  /-- PREEMPTION (R339). -/
  | preemption (team : Nat)
  /-- DISPATCHER_PREEMPT (R344). -/
  | dispatcherPreempt (launch cohort : Nat)
  /-- PRIORITY_AGING (R348). -/
  | priorityAging (team : Nat)
  /-- TILE_START (R205). -/
  | tileStart (cluster : Nat)
  /-- TILE_WRITEBACK (R207). -/
  | tileWriteback (cluster : Nat)
  /-- COPY_SECTOR (R222). -/
  | copySector (copy : Nat)
  /-- TASK_ISSUE (R228). -/
  | taskIssue (die task : Nat)
  /-- REFILL_LAND (R14). -/
  | refillLand (launch cohort : Nat)
  /-- STEAL_REQUEST (R15). -/
  | stealRequest (team : Nat)
  /-- ELEMENT_TEAM_START (R176). -/
  | elementTeamStart (team lane : Nat)
  /-- REQUEST_ARRIVAL (R240). -/
  | requestArrival (req : Nat)
  /-- REGISTRATION_ARRIVAL (R278). -/
  | registrationArrival (req : Nat)
  /-- OBJCLR_ARRIVAL (R282). -/
  | objclrArrival (req : Nat)
  /-- WINDOW_CLOSE (R240). -/
  | windowClose (obj : Nat)
  /-- WINDOW_CLOSE_DET (R241). -/
  | windowCloseDet (obj : Nat)
  /-- WAVE_START (R242). -/
  | waveStart (obj : Nat)
  /-- REPLY_ARRIVAL (R244). -/
  | replyArrival (reply : Nat)
  /-- HANDLER_START (R284). -/
  | handlerStart (core : Nat)
  /-- TICKET_AUTO_PASS (R287). -/
  | ticketAutoPass (ticket : Nat)
  /-- NODE_COMBINE (R307). -/
  | nodeCombine (inst node : Nat)
  /-- COLL_TIMEOUT (R308). -/
  | collTimeout (inst : Nat)
  /-- TURN_RETRY (R312). -/
  | turnRetry (team : Nat)
  /-- PENDING_EVENT_ACT (R314). -/
  | pendingEventAct (ev : Nat)
  /-- SEGMENT_LAND (R352). -/
  | segmentLand (core slot : Nat)
  /-- CINV_EFFECT (R72). -/
  | cinvEffect (cinv : Nat)
  /-- WAIT_REREAD (R60). -/
  | waitReread (ev : Nat)
  /-- WAIT_LIMIT_EXPIRY (R60). -/
  | waitLimitExpiry (team : Nat) (of : WaitOf)
  /-- FILL (R250). -/
  | fill (core line : Nat) (tag : Scope)
  /-- DROP_LINE (R250). -/
  | dropLine (core line : Nat)
  /-- WRITE_BACK (R250). -/
  | writeBack (core line : Nat)
  /-- LEAVE (R250). -/
  | leave (ev : Nat)
  /-- PERFORM_LOAD (R250). -/
  | performLoad (ev : Nat)
  /-- APPLY (R250). -/
  | apply (msg : Nat)
  /-- RING_MOVE (R250). -/
  | ringMove (die : Nat) (asc : Bool)
  /-- ACKNOWLEDGE (R250). -/
  | acknowledge (ack : Nat)
  /-- PAGE_WALK (R298). -/
  | pageWalk (walk : Nat)
  /-- RESOLVE_RESOLVED (R300). -/
  | resolveResolved (die seq : Nat)
  /-- RESOLVE_REFUSED (R300). -/
  | resolveRefused (die seq : Nat)
  /-- INVAL_PAGE (R301). -/
  | invalPage (die ctx vpage : Nat)
  /-- INVAL_CONTEXT (R301). -/
  | invalContext (die ctx : Nat)
  /-- INVAL_ALL (R301). -/
  | invalAll (die : Nat)
  /-- INVAL_COMPLETE (R301). -/
  | invalComplete (die : Nat)
  /-- PREEMPT_REQUEST (R340). -/
  | preemptRequest (die ctx : Nat)
  /-- PREEMPT_REMOVE (R340). -/
  | preemptRemove (die ctx : Nat)
  /-- HLAUNCH (R381). -/
  | hlaunch (die : Nat) (value : Word)
  /-- RTGEN (R320). -/
  | rtgen (die : Nat) (value : Word)
  /-- ROUTE_SWITCH (R320). -/
  | routeSwitch (die : Nat)
  /-- PINWIN (R294). -/
  | pinwin (core : Nat) (value : Word)
  /-- PINWIN_APPLY (R294). -/
  | pinwinApply (core : Nat)
  /-- CONTROL_REGISTER_WRITE (R301). -/
  | controlRegisterWrite (die off : Nat) (value : Word)
  /-- HOST_MEMORY_ACCESS (R260). -/
  | hostMemoryAccess (addr : Nat) (acc : ExtAccess)
  /-- PEER_ACCESS (R382). -/
  | peerAccess (addr : Nat) (acc : ExtAccess)
  /-- RESET (R383). -/
  | reset (die : Nat) (romOk dramOk linkOk : Bool)
  /-- LINK_FAILURE (R320). -/
  | linkFailure (die : Nat) (link : Link)
  /-- THERMAL_TRIP (R385). -/
  | thermalTrip (die : Nat)
  /-- ECC_CORRECTED (R387). -/
  | eccCorrected (die : Nat)
  /-- ECC_UNCORRECTABLE (R387). -/
  | eccUncorrectable (die : Nat) (hit : EccTarget)
  /-- CONTRIBUTION_ARRIVAL (R307). -/
  | contributionArrival (contrib : Nat)
  /-- CONTRIBUTION_LEAVES_CORE (R306). -/
  | contributionLeavesCore (contrib : Nat)
  /-- REGISTRATION_ANSWER (R278). -/
  | registrationAnswer (req : Nat)
  /-- SPDM_MEASUREMENT_REQUEST (R384). -/
  | spdmMeasurementRequest (die : Nat) (nonce : Word)
  /-- POWER_LIMIT_CROSSING (R386). -/
  | powerLimitCrossing (skip : Bool)
deriving DecidableEq, Repr, Inhabited

end Sys2Proof
end

