-- ==== Sys2Proof/WellFormed.lean ====
section
/-!
DEFINITION. Well-formedness: the checks that R42 to R47 and R50 make on an instruction's fields.
-/
namespace Sys2Proof

/-- An unguarded word has G = 0 (R41). -/
def Guard.ok (g : Guard) : Bool := g.m != .always || g.q == 0

/-- No guard (R41). -/
def Guard.none : Guard := ⟨0, .always⟩

/-- A v register field: v0 to v319, even in a pair field (R42, R44). -/
def vOk (pair : Bool) (n : BitVec 9) : Bool := n.toNat < 320 && (!pair || n.toNat % 2 == 0)

/-- A vector source: a register, or a uniform slot a0 to a7 without FE bit, even in a pair field (R44, R45, R104). -/
def Src.ok (pair : Bool) (s : Src) : Bool :=
  if s.u then s.n.toNat < 8 && !s.fe && (!pair || s.n.toNat % 2 == 0) else vOk pair s.n

/-- A run of n registers, or of uniform slots, from this source on stays in range (R220, R269, R283). -/
def Src.runOk (n : Nat) (s : Src) : Bool := s.n.toNat + n ≤ (if s.u then 8 else 320)

/-- An immediate that R46 accepts for its type. -/
def immOk (ty : LTy) (imm : Half) : Bool :=
  match ty with
  | .iv32 | .iv64 => imm.extractLsb' 23 8 != 255
  | .bf16 => imm.extractLsb' 16 16 == 0
  | _ => true

/-- A rounding modifier belongs to point types (R92, R106). -/
def rmOk (rm : RM) (ty : LTy) : Bool := rm == .rne || ty == .pt32 || ty == .pt64 || ty == .bf16

def isPair (ty : LTy) : Bool := ty == .iv64

def V1.ok (tys : List LTy) (o : V1) : Bool :=
  o.g.ok && tys.contains o.ty && vOk (isPair o.ty) o.d && o.a.ok (isPair o.ty)
def V2.ok (tys : List LTy) (o : V2) : Bool :=
  o.g.ok && tys.contains o.ty && vOk (isPair o.ty) o.d && o.a.ok (isPair o.ty) && o.b.ok (isPair o.ty)
def V3.ok (tys : List LTy) (o : V3) : Bool :=
  o.g.ok && tys.contains o.ty && vOk (isPair o.ty) o.d && o.a.ok (isPair o.ty) && o.b.ok (isPair o.ty) &&
    o.c.ok (isPair o.ty)
def V0i.ok (tys : List LTy) (o : V0i) : Bool :=
  o.g.ok && tys.contains o.ty && vOk (isPair o.ty) o.d && immOk o.ty o.imm
def V1i.ok (tys : List LTy) (o : V1i) : Bool :=
  o.g.ok && tys.contains o.ty && vOk (isPair o.ty) o.d && o.a.ok (isPair o.ty) && immOk o.ty o.imm
def V2i.ok (tys : List LTy) (o : V2i) : Bool :=
  o.g.ok && tys.contains o.ty && vOk (isPair o.ty) o.d && o.a.ok (isPair o.ty) && o.b.ok (isPair o.ty) &&
    immOk o.ty o.imm
def C2.ok (tys : List LTy) (o : C2) : Bool :=
  o.g.ok && tys.contains o.ty && o.a.ok (isPair o.ty) && o.b.ok (isPair o.ty)
def C1i.ok (tys : List LTy) (o : C1i) : Bool :=
  o.g.ok && tys.contains o.ty && o.a.ok (isPair o.ty) && immOk o.ty o.imm
def QS.ok (tys : List LTy) (o : QS) : Bool :=
  o.g.ok && tys.contains o.ty && vOk (isPair o.ty) o.d && o.b.ok (isPair o.ty) && o.c.ok (isPair o.ty)
def QSi.ok (tys : List LTy) (o : QSi) : Bool :=
  o.g.ok && tys.contains o.ty && vOk (isPair o.ty) o.d && o.b.ok (isPair o.ty) && immOk o.ty o.imm

/-- SKOP names only the flags its operation reads; the others are zero (R57). -/
def kopOk (a b : BitVec 3) (op : KOp) : Bool :=
  match op with
  | .and | .or => true
  | .setu => a == 0 && b == 0
  | _ => b == 0

/-- LQ takes 0 to 8 arguments, from s0 with none, up to s127 (R64). -/
def lqOk (a : BitVec 7) (n : BitVec 4) : Bool :=
  n.toNat ≤ 8 && (n.toNat != 0 || a == 0) && a.toNat + n.toNat ≤ 128

/-- The system registers the scalar stream may name (R75). -/
def scalarSysReg (n : Nat) : Bool :=
  n == 0x000 || (0x002 ≤ n && n ≤ 0x00A) || n == 0x00C || (0x010 ≤ n && n ≤ 0x013) ||
    (0x020 ≤ n && n ≤ 0x047) || (0x100 ≤ n && n ≤ 0x13F)

/-- The system registers a lane may name (R75). -/
def laneSysReg (n : Nat) : Bool :=
  n ≤ 0x009 || n == 0x00B || n == 0x00C || (0x010 ≤ n && n ≤ 0x012)

/-- Conditions and half selection of ICMP (R127). -/
def icmpOk (ty : LTy) (c : Cond) (es : HSel) : Bool :=
  match ty with
  | .i32 => true
  | .i64 => es == .lo
  | .n32 => [Cond.eq, .ne, .ltu, .leu, .gtu, .geu].contains c
  | .n64 => es == .lo && [Cond.eq, .ne, .ltu, .leu, .gtu, .geu].contains c
  | .ivi32 => es == .lo && [Cond.eq, .ne, .lt, .le, .gt, .ge].contains c
  | _ => false

/-- Conditions and element selection of FCMP (R116). -/
def fcmpOk (ty : LTy) (c : FCond) (es : BitVec 3) : Bool :=
  let point := c != .subset && c != .disjoint && c != .contains
  match ty with
  | .iv32 | .iv64 => es == 0
  | .pt32 => point && (es == 0 || es == 1 || es == 4)
  | .bf16 => point && es.toNat ≤ 4
  | .pt64 => point && es == 0
  | _ => false

/-- The type pairs of CVT, with what each lets ES and RM hold (R129). -/
def cvtOk (o : V1) (sty : LTy) (es : HSel) (rm : RM) : Bool :=
  let noEs := es == .lo
  let noRm := rm == .rne
  let half := es == .lo || es == .hi
  o.g.ok && vOk (isPair o.ty) o.d && o.a.ok (isPair sty) &&
  match o.ty, sty with
  | .pt32, .i32 | .pt32, .n32 | .i32, .pt32 | .n32, .pt32 | .pt64, .i64 | .pt64, .n64 | .i64, .pt64 | .n64, .pt64
  | .pt32, .pt64 => noEs
  | .pt64, .pt32 | .iv32, .pt32 => half && noRm
  | .iv64, .pt64 | .iv32, .iv64 | .iv64, .iv32 | .iv32, .ivi32 | .ivi32, .iv32 => noEs && noRm
  | _, _ => false

/-- Elements of a QNT or DQN (R194). -/
def quantElems (ty : LTy) : Nat :=
  match ty with
  | .pt32 => 2
  | .bf16 => 4
  | _ => 1

/-- The slots of QNT and DQN end at slot 7 or 15 (R194). -/
def slotOk (ty : LTy) (nib : Bool) (pos : BitVec 4) : Bool :=
  pos.toNat + quantElems ty ≤ (if nib then 16 else 8)

/-- Types of a tagged access (R270). -/
def tagOk (ty : LTy) (w1 : Bool) : Bool :=
  if w1 then ty == .n32 else [LTy.b64, .i64, .n64, .pt64].contains ty

/-- Pairings of operation and type of ATOM (R274). -/
def atomTyOk (op : AtomOp) (ty : LTy) : Bool :=
  match op with
  | .add => [LTy.i32, .n32, .i64, .n64, .pt32, .pt64, .bf16, .iv32].contains ty
  | .min | .max => [LTy.i32, .n32, .i64, .n64, .pt32, .pt64, .bf16].contains ty
  | .and | .or | .xor => [LTy.i32, .n32, .i64, .n64, .b64].contains ty
  | .exch => [LTy.i32, .n32, .i64, .n64, .b64, .pt32, .pt64, .bf16, .iv32].contains ty
  | .hull | .cap => ty == .iv32

/-- Ticket levels 1 to 5 (R286). -/
def levelOk (lv : BitVec 3) : Bool := 1 ≤ lv.toNat && lv.toNat ≤ 5

/-- The register run of a copy's completion clause (R220). -/
def CpyOps.runLen (o : CpyOps) : Nat := (if o.pb then 1 else 0) + (if o.st then 2 else 0)

def CpyOps.ok (o : CpyOps) : Bool :=
  o.g.ok && o.d.toNat + (if o.rs then 1 else 0) < 320 && o.a.ok false && o.b.ok false &&
  (if o.runLen == 0 then o.c == .none else o.c.ok false && o.c.runOk o.runLen) &&
  (!o.pb || o.dir == .toPad) && (!o.arv || o.pb) && (o.tk || o.tok == 0)

/-- Types of SCAN and RED (R235). -/
def redTypes (op : RedOp) : List LTy :=
  match op with
  | .add | .min | .max => [.i32, .n32, .i64, .n64, .pt32, .pt64, .bf16, .iv32, .iv64]
  | .and | .or | .xor => [.i32, .n32, .i64, .n64, .b64]

/-- Types of COLL (R318). -/
def collTypes (op : RedOp) : List LTy :=
  match op with
  | .add | .min | .max => [.iv32, .pt32, .bf16, .i32, .n32, .i64, .n64]
  | .and | .or | .xor => [.i32, .n32, .i64, .n64, .b64]

def collOk (o : V2) (op : RedOp) : Bool := o.ok (collTypes op)

/-- A value of mfmt within the limits of R199, and the codebook register of R200. -/
def mfmtOk (a : BitVec 7) (imm : Half) : Bool :=
  let pa := (imm.extractLsb' 0 5).toNat
  let pb := (imm.extractLsb' 5 5).toNat
  let ak := (imm.extractLsb' 10 2).toNat
  let bk := (imm.extractLsb' 12 2).toNat
  imm.extractLsb' 15 17 == 0 && (if ak == 2 then 4 else 1) ≤ pa && pa ≤ 24 && ak != 3 &&
  (if bk == 2 then 4 else 1) ≤ pb && pb ≤ (if bk == 3 then 16 else 24) &&
  (if bk == 3 then 1 ≤ a.toNat && a.toNat ≤ 124 else a == 0)

/-- Columns N of a tile (R208). -/
def tileCols (ns : BitVec 2) : Nat := 16 <<< ns.toNat

/-- The point-mode accumulator run stays below v320 and K is not zero (R208). -/
def mmaOk (d : BitVec 9) (ns : BitVec 2) (ks : BitVec 12) : Bool :=
  d.toNat + tileCols ns / 2 ≤ 320 && ks != 0

/-- Extra words of SPLIT (R165). -/
def splitOk (ty : LTy) (a b c : Src) (nw : BitVec 2) : Bool :=
  [LTy.iv32, .iv64].contains ty && a.ok (isPair ty) && !a.u && nw.toNat ≤ (if ty == .iv64 then 1 else 2) &&
  (if nw.toNat ≥ 1 then b.ok false else b == .none) && (if nw.toNat ≥ 2 then c.ok false else c == .none)

/-- The words of FORK, with or without a header register (R165). The word of FORK.h holds 0 in KIND, which is of no use there: another
value is an undefined encoding (R47). DESIGN CHOICE, log 86. -/
def forkOk (a b c : Src) (kind : BitVec 4) (nw : BitVec 2) (hdr : Bool) : Bool :=
  a.ok false &&
  if hdr then
    kind == 0 && nw.toNat ≤ 1 && b.ok false && (if nw.toNat = 1 then c.ok false else c == .none)
  else
    nw.toNat ≤ 2 && (if nw.toNat ≥ 1 then b.ok false else b == .none) && (if nw.toNat ≥ 2 then c.ok false else c == .none)

/-- The checks of one instruction: accepted types, register fields, immediates and modifier values (R42 to R47, R50
and the instruction's own rule). The steps of other agents have no encoding and no check. -/
def Instr.wf : Instr → Bool
  | .nop => true
  | .send => true
  | .lsync => true
  | .fbar => true
  | .eret => true
  | .bkptScalar => true
  | .crit => true
  | .critx => true
  | .sadd _ _ _ => true
  | .ssub _ _ _ => true
  | .smul _ _ _ => true
  | .smulh _ _ _ => true
  | .sdiv _ _ _ => true
  | .srem _ _ _ => true
  | .sand _ _ _ => true
  | .sor _ _ _ => true
  | .sxor _ _ _ => true
  | .sandn _ _ _ => true
  | .sshl _ _ _ => true
  | .sshr _ _ _ => true
  | .ssar _ _ _ => true
  | .smin _ _ _ => true
  | .smax _ _ _ => true
  | .smov _ _ => true
  | .sclz _ _ => true
  | .spop _ _ => true
  | .ssel _ _ _ _ => true
  | .scmp _ _ _ _ => true
  | .skop _ a b op => kopOk a b op
  | .sfence _ => true
  | .sempty d n => d.toNat + n.toNat < 128
  | .swaita _ _ _ => true
  | .launch _ => true
  | .task _ => true
  | .signal _ => true
  | .cfetch _ _ => true
  | .cinv _ _ => true
  | .sret _ => true
  | .sjf _ => true
  | .trapScalar _ => true
  | .rgn _ => true
  | .mfxScalar _ x => scalarSysReg x.toNat
  | .mtxScalar _ x => scalarSysReg x.toNat
  | .sli _ _ => true
  | .slih _ _ => true
  | .scall _ _ => true
  | .sbr _ m _ => m != .always
  | .sj _ => true
  | .saddImm _ _ _ => true
  | .smulImm _ _ _ => true
  | .sandImm _ _ _ => true
  | .sorImm _ _ _ => true
  | .sxorImm _ _ _ => true
  | .sshlImm _ _ _ => true
  | .sshrImm _ _ _ => true
  | .ssarImm _ _ _ => true
  | .sminImm _ _ _ => true
  | .smaxImm _ _ _ => true
  | .sld _ _ _ => true
  | .sst _ _ _ => true
  | .lq a n _ => lqOk a n
  | .iadd o sat => o.ok [.i32, .n32, .i64, .n64, .ivi32] && (!sat || o.ty != .ivi32)
  | .iaddImm o sat => o.ok [.i32, .n32, .i64, .n64, .ivi32] && (!sat || o.ty != .ivi32)
  | .isub o sat => o.ok [.i32, .n32, .i64, .n64, .ivi32] && (!sat || o.ty != .ivi32)
  | .isubImm o sat => o.ok [.i32, .n32, .i64, .n64, .ivi32] && (!sat || o.ty != .ivi32)
  | .imul o sat => o.ok [.i32, .n32, .i64, .n64, .ivi32] && (!sat || o.ty != .ivi32)
  | .imulImm o sat => o.ok [.i32, .n32, .i64, .n64, .ivi32] && (!sat || o.ty != .ivi32)
  | .imulh o => o.ok [.i32, .n32, .i64, .n64]
  | .imulhImm o => o.ok [.i32, .n32, .i64, .n64]
  | .imad o => o.ok [.i32, .n32, .i64, .n64]
  | .imadImm o => o.ok [.i32, .n32, .i64, .n64]
  | .idiv o => o.ok [.i32, .n32, .i64, .n64]
  | .idivImm o => o.ok [.i32, .n32, .i64, .n64]
  | .irem o => o.ok [.i32, .n32, .i64, .n64]
  | .iremImm o => o.ok [.i32, .n32, .i64, .n64]
  | .imin o => o.ok [.i32, .n32, .i64, .n64, .ivi32]
  | .iminImm o => o.ok [.i32, .n32, .i64, .n64, .ivi32]
  | .imax o => o.ok [.i32, .n32, .i64, .n64, .ivi32]
  | .imaxImm o => o.ok [.i32, .n32, .i64, .n64, .ivi32]
  | .iabs o _ => o.ok [.i32, .i64]
  | .land o => o.ok [.i32, .n32, .i64, .n64, .b64]
  | .landImm o => o.ok [.i32, .n32, .i64, .n64, .b64]
  | .lor o => o.ok [.i32, .n32, .i64, .n64, .b64]
  | .lorImm o => o.ok [.i32, .n32, .i64, .n64, .b64]
  | .lxor o => o.ok [.i32, .n32, .i64, .n64, .b64]
  | .lxorImm o => o.ok [.i32, .n32, .i64, .n64, .b64]
  | .andn o => o.ok [.i32, .n32, .i64, .n64, .b64]
  | .andnImm o => o.ok [.i32, .n32, .i64, .n64, .b64]
  | .shl o => o.ok [.i32, .n32, .i64, .n64, .b64]
  | .shlImm o => o.ok [.i32, .n32, .i64, .n64, .b64]
  | .shr o => o.ok [.i32, .n32, .i64, .n64, .b64]
  | .shrImm o => o.ok [.i32, .n32, .i64, .n64, .b64]
  | .sar o => o.ok [.i32, .n32, .i64, .n64, .b64]
  | .sarImm o => o.ok [.i32, .n32, .i64, .n64, .b64]
  | .rot o => o.ok [.i32, .n32, .i64, .n64, .b64]
  | .rotImm o => o.ok [.i32, .n32, .i64, .n64, .b64]
  | .popc o => o.ok [.i32, .n32, .i64, .n64, .b64]
  | .clz o => o.ok [.i32, .n32, .i64, .n64, .b64]
  | .bfx o => o.ok [.i64, .n64, .b64]
  | .bfxImm o => o.ok [.i64, .n64, .b64]
  | .bfi o => o.ok [.i64, .n64, .b64]
  | .bfiImm o => o.ok [.i64, .n64, .b64]
  | .icmp o c es => o.ok [.i32, .n32, .i64, .n64, .ivi32] && icmpOk o.ty c es
  | .icmpImm o c es => o.ok [.i32, .n32, .i64, .n64, .ivi32] && icmpOk o.ty c es
  | .isel o => o.ok [.i32, .n32, .i64, .n64, .b64]
  | .iselImm o => o.ok [.i32, .n32, .i64, .n64, .b64]
  | .mov o => o.ok [.b64, .iv64]
  | .movi o => o.ok [.iv32, .pt32, .iv64, .pt64, .bf16, .i32, .n32, .i64, .n64, .b64]
  | .fadd o rm => o.ok [.iv32, .iv64, .pt32, .pt64, .bf16] && rmOk rm o.ty
  | .faddImm o rm => o.ok [.iv32, .iv64, .pt32, .pt64, .bf16] && rmOk rm o.ty
  | .fsub o rm => o.ok [.iv32, .iv64, .pt32, .pt64, .bf16] && rmOk rm o.ty
  | .fsubImm o rm => o.ok [.iv32, .iv64, .pt32, .pt64, .bf16] && rmOk rm o.ty
  | .fmul o rm => o.ok [.iv32, .iv64, .pt32, .pt64, .bf16] && rmOk rm o.ty
  | .fmulImm o rm => o.ok [.iv32, .iv64, .pt32, .pt64, .bf16] && rmOk rm o.ty
  | .fdiv o rm => o.ok [.iv32, .iv64, .pt32, .pt64, .bf16] && rmOk rm o.ty
  | .fdivImm o rm => o.ok [.iv32, .iv64, .pt32, .pt64, .bf16] && rmOk rm o.ty
  | .ffma o rm => o.ok [.iv32, .iv64, .pt32, .pt64, .bf16] && rmOk rm o.ty
  | .ffmaImm o rm => o.ok [.iv32, .iv64, .pt32, .pt64, .bf16] && rmOk rm o.ty
  | .fsqrt o rm => o.ok [.iv32, .iv64, .pt32, .pt64, .bf16] && rmOk rm o.ty
  | .frcp o rm => o.ok [.iv32, .iv64, .pt32, .pt64, .bf16] && rmOk rm o.ty
  | .frsq o rm => o.ok [.iv32, .iv64, .pt32, .pt64, .bf16] && rmOk rm o.ty
  | .fexp2 o rm => o.ok [.iv32, .iv64, .pt32, .pt64, .bf16] && rmOk rm o.ty
  | .flog2 o rm => o.ok [.iv32, .iv64, .pt32, .pt64, .bf16] && rmOk rm o.ty
  | .fmin o => o.ok [.iv32, .iv64, .pt32, .pt64, .bf16]
  | .fminImm o => o.ok [.iv32, .iv64, .pt32, .pt64, .bf16]
  | .fmax o => o.ok [.iv32, .iv64, .pt32, .pt64, .bf16]
  | .fmaxImm o => o.ok [.iv32, .iv64, .pt32, .pt64, .bf16]
  | .fabs o => o.ok [.iv32, .iv64, .pt32, .pt64, .bf16]
  | .fneg o => o.ok [.iv32, .iv64, .pt32, .pt64, .bf16]
  | .fhull o => o.ok [.iv32, .iv64]
  | .fhullImm o => o.ok [.iv32, .iv64]
  | .fcap o => o.ok [.iv32, .iv64]
  | .fcapImm o => o.ok [.iv32, .iv64]
  | .fmid o => o.ok [.iv32, .iv64]
  | .frad o => o.ok [.iv32, .iv64]
  | .fwid o => o.ok [.iv32, .iv64]
  | .flo o => o.ok [.iv32, .iv64]
  | .fhi o => o.ok [.iv32, .iv64]
  | .fmk o => o.ok [.iv32, .iv64]
  | .fcmp o c es => o.ok [.iv32, .iv64, .pt32, .pt64, .bf16] && fcmpOk o.ty c es
  | .fcmpImm o c es => o.ok [.iv32, .iv64, .pt32, .pt64, .bf16] && fcmpOk o.ty c es
  | .fclass o => o.ok [.iv32, .iv64, .pt32, .pt64, .bf16]
  | .fsel o => o.ok [.iv32, .iv64, .pt32, .pt64, .bf16, .b64]
  | .fselImm o => o.ok [.iv32, .iv64, .pt32, .pt64, .bf16, .b64]
  | .cvt o sty es rm => cvtOk o sty es rm
  | .pack o rm => o.ok [.bf16, .pt32, .i32, .n32] && rmOk rm o.ty
  | .unpk o es => o.ok [.pt32, .pt64, .i64, .n64] && es != .all
  | .qnt o nib pos _ => o.ok [.pt32, .bf16, .pt64] && slotOk o.ty nib pos
  | .qntScale o => o.ok [.pt32, .bf16, .pt64]
  | .dqn o nib pos rm => o.ok [.pt32, .bf16, .pt64, .iv32] && slotOk o.ty nib pos && (rm == .rne || o.ty == .pt32 || o.ty == .bf16)
  | .qand g _ _ _ => g.ok
  | .qor g _ _ _ => g.ok
  | .qnot g _ _ => g.ok
  | .qforce g _ _ _ => g.ok
  | .qset g _ _ => g.ok
  | .vote g _ _ _ _ => g.ok
  | .voteScalar g _ _ _ _ => g.ok
  | .lead g _ => g.ok
  | .bq _ _ _ _ => true
  | .bc _ _ _ => true
  | .jmp _ => true
  | .call _ => true
  | .calli a => a.ok false
  | .ret => true
  | .brk n _ => 1 ≤ n.toNat && n.toNat ≤ 32
  | .exit g => g.ok
  | .lend => true
  | .sput g _ a => g.ok && a.ok false
  | .ld g ty d p _ => g.ok && [.iv32, .pt32, .iv64, .pt64, .bf16, .i32, .n32, .i64, .n64, .mrad32, .i8, .n8, .i16, .n16, .b64].contains ty && vOk (ty == .iv64) d && p.a.ok false
  | .st g ty p b _ => g.ok && [.iv32, .pt32, .iv64, .pt64, .bf16, .i32, .n32, .i64, .n64, .mrad32, .i8, .n8, .i16, .n16, .b64].contains ty && p.a.ok false && b.ok (ty == .iv64)
  | .lds g d p _ n => g.ok && d.toNat + n.toNat < 320 && p.a.ok false
  | .sts g p b _ n => g.ok && p.a.ok false && b.ok false && b.runOk (n.toNat + 1)
  | .ldfe g ty d p w1 => g.ok && tagOk ty w1 && vOk false d && p.a.ok false
  | .stfe g ty p b w1 => g.ok && tagOk ty w1 && p.a.ok false && b.ok false
  | .pfetch g p _ => g.ok && p.a.ok false
  | .atom g ty d p b op pad nr s o => g.ok && atomTyOk op ty && (!pad || s == .team) && (if nr then d == 0 && (o == .relaxed || o == .rel) else vOk false d) && p.a.ok false && b.ok false
  | .atomc g ty d a b c pad s _ => g.ok && [LTy.i64, .n64, .b64].contains ty && vOk false d && a.ok false && b.ok false && c.ok false && (!pad || s == .team)
  | .waita g ty p b _ pad s => g.ok && [LTy.i64, .n64, .b64].contains ty && p.a.ok false && b.ok false && (!pad || s == .team)
  | .fence g _ => g.ok
  | .tkwait g _ p lv => g.ok && levelOk lv && p.a.ok false
  | .tkpass g p lv => g.ok && levelOk lv && p.a.ok false
  | .cpy o => o.ok
  | .cpys g d a => g.ok && d.toNat + 1 < 320 && a.ok false
  | .pbinit g a b c => g.ok && a.ok false && b.ok false && c.ok false
  | .pbexp g a b => g.ok && a.ok false && b.ok false
  | .pbarv g a b => g.ok && a.ok false && b.ok false
  | .pbwait g _ a gen n => g.ok && a.ok false && (gen || n.toNat ≤ 1)
  | .bar g _ => g.ok
  | .comb g d p b _ _ => g.ok && vOk false d && p.a.ok false && b.ok false
  | .cret g _ => g.ok
  | .objreg g p b => g.ok && p.a.ok false && b.ok false
  | .objclr g p => g.ok && p.a.ok false
  | .amsg g p b core _ n => g.ok && p.a.ok false && b.ok false && b.runOk (n.toNat + 1) && (!core || p.off == 0)
  | .coll o op => collOk o op
  | .flush g => g.ok
  | .mfmt g a imm => g.ok && mfmtOk a imm
  | .mma g d a b ns _ ks => g.ok && mmaOk d ns ks && a.ok false && b.ok false
  | .mmaq g d a b c ns _ ks => g.ok && mmaOk d ns ks && a.ok false && b.ok false && c.ok false
  | .plane g d a _ => g.ok && vOk false d && a.ok false
  | .mstat g d sel => g.ok && vOk false d && sel != 2 && sel != 3
  | .split g ty a b c _ nw => g.ok && splitOk ty a b c nw
  | .fork g a b c kind nw hdr => g.ok && forkOk a b c kind nw hdr
  | .draw _ d _ nw hdr => nw != 3 && d.toNat + nw.toNat + (if hdr then 1 else 0) < 320
  | .drop g => g.ok
  | .ldh g ty d p b => g.ok && [LTy.iv32, .iv64].contains ty && vOk (ty == .iv64) d && p.a.ok false && b.ok false
  | .stb g ty p b => g.ok && [LTy.pt32, .pt64, .i64, .n64].contains ty && p.a.ok false && b.ok false
  | .quart g => g.ok
  | .elem _ => true
  | .shfl o _ _ => o.g.ok && [.iv32, .pt32, .iv64, .pt64, .bf16, .ivi32, .i32, .n32, .i64, .n64, .b64].contains o.ty && vOk (o.ty == .iv64) o.d && o.a.ok (o.ty == .iv64) && o.b.ok false
  | .shflImm o _ _ _ => o.ok [.iv32, .pt32, .iv64, .pt64, .bf16, .ivi32, .i32, .n32, .i64, .n64, .b64]
  | .scan o op _ _ => o.ok (redTypes op)
  | .red o op _ => o.ok (redTypes op)
  | .redScalar g ty d a op _ => g.ok && (redTypes op).contains ty && a.ok (ty == .iv64) && !(ty == .iv64 && d.getLsbD 0)
  | .ballot g d _ _ _ => g.ok && vOk false d
  | .xbld g a b => g.ok && a.ok false && b.ok false
  | .xbar g d a b => g.ok && vOk false d && a.ok false && !a.u && b.ok false
  | .mfxLane g d x => g.ok && vOk false d && laneSysReg x.toNat
  | .mtxLane g a x => g.ok && a.ok false && laneSysReg x.toNat
  | .trapLane g _ => g.ok
  | .bkptLane g => g.ok
  | .headerCheck _ => true
  | .cohortPlacement _ _ => true
  | .preloadLand _ _ => true
  | .laneBlockStart _ => true
  | .scalarRegisterFill _ => true
  | .trapEntry _ => true
  | .waveHalt _ => true
  | .preemption _ => true
  | .dispatcherPreempt _ _ => true
  | .priorityAging _ => true
  | .tileStart _ => true
  | .tileWriteback _ => true
  | .copySector _ => true
  | .taskIssue _ _ => true
  | .refillLand _ _ => true
  | .stealRequest _ => true
  | .elementTeamStart _ _ => true
  | .requestArrival _ => true
  | .registrationArrival _ => true
  | .objclrArrival _ => true
  | .windowClose _ => true
  | .windowCloseDet _ => true
  | .waveStart _ => true
  | .replyArrival _ => true
  | .handlerStart _ => true
  | .ticketAutoPass _ => true
  | .nodeCombine _ _ => true
  | .collTimeout _ => true
  | .turnRetry _ => true
  | .pendingEventAct _ => true
  | .segmentLand _ _ => true
  | .cinvEffect _ => true
  | .waitReread _ => true
  | .waitLimitExpiry _ _ => true
  | .fill _ _ _ => true
  | .dropLine _ _ => true
  | .writeBack _ _ => true
  | .leave _ => true
  | .performLoad _ => true
  | .apply _ => true
  | .ringMove _ _ => true
  | .acknowledge _ => true
  | .pageWalk _ => true
  | .resolveResolved _ _ => true
  | .resolveRefused _ _ => true
  | .invalPage _ _ _ => true
  | .invalContext _ _ => true
  | .invalAll _ => true
  | .invalComplete _ => true
  | .preemptRequest _ _ => true
  | .preemptRemove _ _ => true
  | .hlaunch _ _ => true
  | .rtgen _ _ => true
  | .routeSwitch _ => true
  | .pinwin _ _ => true
  | .pinwinApply _ => true
  | .controlRegisterWrite _ _ _ => true
  | .hostMemoryAccess _ _ => true
  | .peerAccess _ _ => true
  | .reset _ _ _ _ => true
  | .linkFailure _ _ => true
  | .thermalTrip _ => true
  | .eccCorrected _ => true
  | .eccUncorrectable _ _ => true
  | .contributionArrival _ => true
  | .contributionLeavesCore _ => true
  | .registrationAnswer _ => true
  | .spdmMeasurementRequest _ _ => true
  | .powerLimitCrossing _ => true

end Sys2Proof
end

