-- ==== Sys2Proof/Decode.lean ====
section
/-!
DEFINITION. Decoding and encoding of scalar and lane words (R35 to R51). A word decodes to the instruction whose
fields it holds when those are well formed and no other bit is set; every other word is refused by name.
-/
namespace Sys2Proof

/-! Field codings (R39, R41, R42 and the modifier tables). -/

def Tri.bits : Tri → BitVec 2
  | .f => 0 | .t => 1 | .u => 3
/-- The pattern 10 reads as undecided (R41). -/
def Tri.ofBits (b : BitVec 2) : Tri := if b == 0 then .f else if b == 1 then .t else .u
def Tri.ballotBits : Tri → BitVec 2
  | .t => 0 | .f => 1 | .u => 2
def Tri.ofBallot (b : BitVec 2) : Option Tri :=
  match b.toNat with
  | 0 => some .t | 1 => some .f | 2 => some .u | _ => none

def Scope.bits : Scope → BitVec 3
  | .team => 0 | .core => 1 | .cluster => 2 | .device => 3 | .system => 4
def Scope.ofBits (b : BitVec 3) : Option Scope :=
  match b.toNat with
  | 0 => some .team | 1 => some .core | 2 => some .cluster | 3 => some .device | 4 => some .system | _ => none

def Cond.bits : Cond → BitVec 4
  | .eq => 0 | .ne => 1 | .lt => 2 | .le => 3 | .gt => 4 | .ge => 5 | .ltu => 6 | .leu => 7 | .gtu => 8 | .geu => 9
def Cond.ofBits (b : BitVec 4) : Option Cond :=
  match b.toNat with
  | 0 => some .eq | 1 => some .ne | 2 => some .lt | 3 => some .le | 4 => some .gt | 5 => some .ge
  | 6 => some .ltu | 7 => some .leu | 8 => some .gtu | 9 => some .geu | _ => none

def FCond.bits : FCond → BitVec 4
  | .eq => 0 | .ne => 1 | .lt => 2 | .le => 3 | .gt => 4 | .ge => 5 | .subset => 6 | .disjoint => 7 | .contains => 8
def FCond.ofBits (b : BitVec 4) : Option FCond :=
  match b.toNat with
  | 0 => some .eq | 1 => some .ne | 2 => some .lt | 3 => some .le | 4 => some .gt | 5 => some .ge
  | 6 => some .subset | 7 => some .disjoint | 8 => some .contains | _ => none

def GMode.bits : GMode → BitVec 3
  | .always => 0 | .t => 1 | .f => 2 | .u => 3 | .nt => 4 | .nf => 5
def GMode.ofBits (b : BitVec 3) : Option GMode :=
  match b.toNat with
  | 0 => some .always | 1 => some .t | 2 => some .f | 3 => some .u | 4 => some .nt | 5 => some .nf | _ => none

def LTy.bits : LTy → BitVec 5
  | .iv32 => 0 | .pt32 => 1 | .iv64 => 2 | .pt64 => 3 | .bf16 => 4 | .ivi32 => 5 | .i32 => 6 | .n32 => 7
  | .i64 => 8 | .n64 => 9 | .mrad32 => 10 | .i8 => 11 | .n8 => 12 | .i16 => 13 | .n16 => 14 | .b64 => 15
def LTy.ofBits (b : BitVec 5) : Option LTy :=
  match b.toNat with
  | 0 => some .iv32 | 1 => some .pt32 | 2 => some .iv64 | 3 => some .pt64 | 4 => some .bf16 | 5 => some .ivi32
  | 6 => some .i32 | 7 => some .n32 | 8 => some .i64 | 9 => some .n64 | 10 => some .mrad32 | 11 => some .i8
  | 12 => some .n8 | 13 => some .i16 | 14 => some .n16 | 15 => some .b64 | _ => none

def RM.bits : RM → BitVec 2
  | .rne => 0 | .rz => 1 | .rd => 2 | .ru => 3
def RM.ofBits (b : BitVec 2) : RM :=
  if b == 0 then .rne else if b == 1 then .rz else if b == 2 then .rd else .ru

def HSel.bits : HSel → BitVec 2
  | .lo => 0 | .hi => 1 | .all => 2
def HSel.ofBits (b : BitVec 2) : Option HSel :=
  match b.toNat with
  | 0 => some .lo | 1 => some .hi | 2 => some .all | _ => none

def KOp.bits : KOp → BitVec 4
  | .and => 0 | .or => 1 | .not => 2 | .ff => 3 | .ft => 4 | .isu => 5 | .mov => 6 | .setu => 7
def KOp.ofBits (b : BitVec 4) : Option KOp :=
  match b.toNat with
  | 0 => some .and | 1 => some .or | 2 => some .not | 3 => some .ff | 4 => some .ft | 5 => some .isu
  | 6 => some .mov | 7 => some .setu | _ => none

def QForce.bits : QForce → BitVec 2
  | .f => 0 | .t => 1 | .isu => 2
def QForce.ofBits (b : BitVec 2) : Option QForce :=
  match b.toNat with
  | 0 => some .f | 1 => some .t | 2 => some .isu | _ => none

/-- MOD[18:0] of LD and ST (R267); `ord` is the code of the order suffix the instruction has. -/
def Access.bits (ord : Nat) : Access → BitVec 19
  | .pad => 1 <<< 18
  | .plain => 0
  | .strong s => 1 <<< 17 ||| s.bits.setWidth 19 <<< 14
  | .ordered s => 1 <<< 17 ||| s.bits.setWidth 19 <<< 14 ||| BitVec.ofNat 19 ord <<< 12
def Access.ofBits (m : BitVec 19) : Option Access :=
  if m.getLsbD 18 then some .pad
  else if !m.getLsbD 17 then some .plain
  else (Scope.ofBits (m.extractLsb' 14 3)).map fun s => if m.extractLsb' 12 2 == 0 then .strong s else .ordered s

def Ord.bits : Ord → BitVec 2
  | .relaxed => 0 | .acq => 1 | .rel => 2 | .ar => 3
def Ord.ofBits (b : BitVec 2) : Ord :=
  if b == 0 then .relaxed else if b == 1 then .acq else if b == 2 then .rel else .ar

def AtomOp.bits : AtomOp → BitVec 4
  | .add => 0 | .min => 1 | .max => 2 | .and => 3 | .or => 4 | .xor => 5 | .exch => 6 | .hull => 7 | .cap => 8
def AtomOp.ofBits (b : BitVec 4) : Option AtomOp :=
  match b.toNat with
  | 0 => some .add | 1 => some .min | 2 => some .max | 3 => some .and | 4 => some .or | 5 => some .xor
  | 6 => some .exch | 7 => some .hull | 8 => some .cap | _ => none

def RedOp.bits : RedOp → BitVec 3
  | .add => 0 | .min => 1 | .max => 2 | .and => 3 | .or => 4 | .xor => 5
def RedOp.ofBits (b : BitVec 3) : Option RedOp :=
  match b.toNat with
  | 0 => some .add | 1 => some .min | 2 => some .max | 3 => some .and | 4 => some .or | 5 => some .xor | _ => none

def ShMode.bits : ShMode → BitVec 2
  | .idx => 0 | .up => 1 | .down => 2 | .xor => 3
def ShMode.ofBits (b : BitVec 2) : ShMode :=
  if b == 0 then .idx else if b == 1 then .up else if b == 2 then .down else .xor

def Dir.bits : Dir → BitVec 2
  | .toPad => 0 | .memToMem => 1 | .padToMem => 2
def Dir.ofBits (b : BitVec 2) : Option Dir :=
  match b.toNat with
  | 0 => some .toPad | 1 => some .memToMem | 2 => some .padToMem | _ => none

/-! Word builders and field readers. -/

/-- A source field that names a predicate. -/
def Src.q (n : BitVec 4) : Src := ⟨n.setWidth 9, false, false⟩
/-- A source field that names a scalar register. -/
def Src.s (n : BitVec 7) : Src := ⟨n.setWidth 9, false, false⟩
def Src.lowq (s : Src) : BitVec 4 := s.n.setWidth 4

/-- Bit k of MOD[31:19] in LR (bit k + 19 of the word), of MOD[10:0] in LI and of MOD[18:0] in LM. -/
def mb (b : Bool) (k : Nat) : BitVec 13 := if b then 1 <<< k else 0
def mb11 (b : Bool) (k : Nat) : BitVec 11 := if b then 1 <<< k else 0
def mb19 (b : Bool) (k : Nat) : BitVec 19 := if b then 1 <<< k else 0

/-- The scalar formats (R37). -/
def sr (op d a b : BitVec 7) (f : BitVec 4) : Half := op ++ d ++ a ++ b ++ f
def si (op d a : BitVec 7) (i : BitVec 11) : Half := op ++ d ++ a ++ i
def sl (op d : BitVec 7) (i : BitVec 18) : Half := op ++ d ++ i
def sb (op : BitVec 7) (k c : BitVec 3) (i : BitVec 19) : Half := op ++ k ++ c ++ i
def sq (op a : BitVec 7) (n : BitVec 4) (e : BitVec 14) : Half := op ++ a ++ n ++ e

def sD (w : Half) : BitVec 7 := w.extractLsb' 18 7
def sA (w : Half) : BitVec 7 := w.extractLsb' 11 7
def sB (w : Half) : BitVec 7 := w.extractLsb' 4 7
def sF (w : Half) : BitVec 4 := w.extractLsb' 0 4
def sI11 (w : Half) : BitVec 11 := w.extractLsb' 0 11
def sI18 (w : Half) : BitVec 18 := w.extractLsb' 0 18

abbrev LaneWord := BitVec 96

/-- Bits [95:65] of every lane word (R40). -/
def laneHead (op : BitVec 10) (g : Guard) (ty : LTy) (d : BitVec 9) : BitVec 31 :=
  op ++ g.q ++ g.m.bits ++ ty.bits ++ d

/-- The lane formats (R43). -/
def lr (op : BitVec 10) (g : Guard) (ty : LTy) (d : BitVec 9) (a b c : Src) (md : BitVec 13) (x : BitVec 19) :
    LaneWord :=
  laneHead op g ty d ++ a.n ++ b.n ++ c.n ++ BitVec.ofBool a.fe ++ BitVec.ofBool b.fe ++ BitVec.ofBool c.fe ++
    BitVec.ofBool a.u ++ BitVec.ofBool b.u ++ BitVec.ofBool c.u ++ md ++ x
def li (op : BitVec 10) (g : Guard) (ty : LTy) (d : BitVec 9) (a b : Src) (imm : Half) (md : BitVec 11) : LaneWord :=
  laneHead op g ty d ++ a.n ++ b.n ++ imm ++ BitVec.ofBool a.fe ++ BitVec.ofBool b.fe ++ BitVec.ofBool a.u ++
    BitVec.ofBool b.u ++ md
def lm (op : BitVec 10) (g : Guard) (ty : LTy) (d : BitVec 9) (a b : Src) (off : BitVec 24) (md : BitVec 19) :
    LaneWord :=
  laneHead op g ty d ++ a.n ++ b.n ++ off ++ BitVec.ofBool a.fe ++ BitVec.ofBool b.fe ++ BitVec.ofBool a.u ++
    BitVec.ofBool b.u ++ md
def lc (op : BitVec 10) (q : BitVec 4) (tt ut jt : BitVec 20) : LaneWord :=
  laneHead op Guard.none .iv32 0 ++ q ++ tt ++ ut ++ jt ++ (0 : BitVec 1)

/-- The fields every lane word shares, when guard mode and type code are defined (R40 to R42). -/
structure Head where
  g : Guard
  ty : LTy
  d : BitVec 9
deriving DecidableEq, Repr

def Head.dq (h : Head) : BitVec 4 := h.d.setWidth 4
def Head.ds (h : Head) : BitVec 7 := h.d.setWidth 7

def headOf (w : LaneWord) : Option Head := do
  let m ← GMode.ofBits (w.extractLsb' 79 3)
  let ty ← LTy.ofBits (w.extractLsb' 74 5)
  some ⟨⟨w.extractLsb' 82 4, m⟩, ty, w.extractLsb' 65 9⟩

structure LR where
  a : Src
  b : Src
  c : Src
  md : BitVec 13
  x : BitVec 19
deriving DecidableEq, Repr

structure LI where
  a : Src
  b : Src
  imm : Half
  md : BitVec 11
deriving DecidableEq, Repr

structure LM where
  a : Src
  b : Src
  off : BitVec 24
  md : BitVec 19
deriving DecidableEq, Repr

structure LC where
  q : BitVec 4
  tt : BitVec 20
  ut : BitVec 20
  jt : BitVec 20
deriving DecidableEq, Repr

def lrOf (w : LaneWord) : LR :=
  ⟨⟨w.extractLsb' 56 9, w.getLsbD 34, w.getLsbD 37⟩, ⟨w.extractLsb' 47 9, w.getLsbD 33, w.getLsbD 36⟩,
   ⟨w.extractLsb' 38 9, w.getLsbD 32, w.getLsbD 35⟩, w.extractLsb' 19 13, w.extractLsb' 0 19⟩
def liOf (w : LaneWord) : LI :=
  ⟨⟨w.extractLsb' 56 9, w.getLsbD 12, w.getLsbD 14⟩, ⟨w.extractLsb' 47 9, w.getLsbD 11, w.getLsbD 13⟩,
   w.extractLsb' 15 32, w.extractLsb' 0 11⟩
def lmOf (w : LaneWord) : LM :=
  ⟨⟨w.extractLsb' 56 9, w.getLsbD 20, w.getLsbD 22⟩, ⟨w.extractLsb' 47 9, w.getLsbD 19, w.getLsbD 21⟩,
   w.extractLsb' 23 24, w.extractLsb' 0 19⟩
def lcOf (w : LaneWord) : LC :=
  ⟨w.extractLsb' 61 4, w.extractLsb' 41 20, w.extractLsb' 21 20, w.extractLsb' 1 20⟩

def LR.v1 (r : LR) (h : Head) : V1 := ⟨h.g, h.ty, h.d, r.a⟩
def LR.v2 (r : LR) (h : Head) : V2 := ⟨h.g, h.ty, h.d, r.a, r.b⟩
def LR.v3 (r : LR) (h : Head) : V3 := ⟨h.g, h.ty, h.d, r.a, r.b, r.c⟩
def LR.c2 (r : LR) (h : Head) : C2 := ⟨h.g, h.ty, h.dq, r.a, r.b⟩
def LR.qs (r : LR) (h : Head) : QS := ⟨h.g, h.ty, h.d, r.a.lowq, r.b, r.c⟩
def LI.v0i (i : LI) (h : Head) : V0i := ⟨h.g, h.ty, h.d, i.imm⟩
def LI.v1 (i : LI) (h : Head) : V1 := ⟨h.g, h.ty, h.d, i.a⟩
def LI.v1i (i : LI) (h : Head) : V1i := ⟨h.g, h.ty, h.d, i.a, i.imm⟩
def LI.v2i (i : LI) (h : Head) : V2i := ⟨h.g, h.ty, h.d, i.a, i.b, i.imm⟩
def LI.c1i (i : LI) (h : Head) : C1i := ⟨h.g, h.ty, h.dq, i.a, i.imm⟩
def LI.qsi (i : LI) (h : Head) : QSi := ⟨h.g, h.ty, h.d, i.a.lowq, i.b, i.imm⟩
def LM.adr (m : LM) : Adr := ⟨m.a, m.off⟩

/-- What an instruction is encoded as: a scalar word, a lane word, or (for the steps of other agents) nothing. -/
inductive Code where
  | scalar (w : Half)
  | lane (w : LaneWord)
  | none
deriving DecidableEq, Repr

/-- The encoder: the word of an instruction, from the formats of R37 and R43 and the maps of R48 and R49. The steps of
other agents have no word. -/
def encode : Instr → Code
  | .nop => .scalar (sr 0x01 0 0 0 0)
  | .send => .scalar (sr 0x01 0 0 0 1)
  | .lsync => .scalar (sr 0x01 0 0 0 2)
  | .fbar => .scalar (sr 0x01 0 0 0 3)
  | .eret => .scalar (sr 0x01 0 0 0 4)
  | .bkptScalar => .scalar (sr 0x01 0 0 0 5)
  | .crit => .scalar (sr 0x01 0 0 0 6)
  | .critx => .scalar (sr 0x01 0 0 0 7)
  | .sadd d a b => .scalar (sr 0x02 d a b 0)
  | .ssub d a b => .scalar (sr 0x02 d a b 1)
  | .smul d a b => .scalar (sr 0x02 d a b 2)
  | .smulh d a b => .scalar (sr 0x02 d a b 3)
  | .sdiv d a b => .scalar (sr 0x02 d a b 4)
  | .srem d a b => .scalar (sr 0x02 d a b 5)
  | .sand d a b => .scalar (sr 0x02 d a b 6)
  | .sor d a b => .scalar (sr 0x02 d a b 7)
  | .sxor d a b => .scalar (sr 0x02 d a b 8)
  | .sandn d a b => .scalar (sr 0x02 d a b 9)
  | .sshl d a b => .scalar (sr 0x02 d a b 10)
  | .sshr d a b => .scalar (sr 0x02 d a b 11)
  | .ssar d a b => .scalar (sr 0x02 d a b 12)
  | .smin d a b => .scalar (sr 0x02 d a b 13)
  | .smax d a b => .scalar (sr 0x02 d a b 14)
  | .smov d a => .scalar (sr 0x02 d a 0 15)
  | .sclz d a => .scalar (sr 0x03 d a 0 0)
  | .spop d a => .scalar (sr 0x03 d a 0 1)
  | .ssel d a b k => .scalar (sr 0x04 d a b (k.setWidth 4))
  | .scmp k a b c => .scalar (sr 0x05 (k.setWidth 7) a b c.bits)
  | .skop d a b op => .scalar (sr 0x06 (d.setWidth 7) (a.setWidth 7) (b.setWidth 7) op.bits)
  | .sfence s => .scalar (sr 0x07 0 0 0 (s.bits.setWidth 4))
  | .sempty d n => .scalar (sr 0x08 d 0 0 n)
  | .swaita d a c => .scalar (sr 0x09 d a 0 c.bits)
  | .launch a => .scalar (sr 0xa 0 a 0 0)
  | .task a => .scalar (sr 0xb 0 a 0 0)
  | .signal a => .scalar (sr 0xc 0 a 0 0)
  | .cfetch a b => .scalar (sr 0xd 0 a b 0)
  | .cinv a b => .scalar (sr 0xe 0 a b 0)
  | .sret a => .scalar (sr 0xf 0 a 0 0)
  | .sjf a => .scalar (sr 0x10 0 a 0 0)
  | .trapScalar code => .scalar (sl 0x11 0 code)
  | .rgn i => .scalar (sl 0x12 0 i)
  | .mfxScalar d x => .scalar (sl 0x13 d (x.setWidth 18))
  | .mtxScalar d x => .scalar (sl 0x14 d (x.setWidth 18))
  | .sli d i => .scalar (sl 0x15 d i)
  | .slih d i => .scalar (sl 0x16 d i)
  | .scall d i => .scalar (sl 0x17 d i)
  | .sbr k m i => .scalar (sb 0x18 k m.bits i)
  | .sj i => .scalar (sb 0x19 0 0 i)
  | .saddImm d a i => .scalar (si 0x20 d a i)
  | .smulImm d a i => .scalar (si 0x21 d a i)
  | .sandImm d a i => .scalar (si 0x22 d a i)
  | .sorImm d a i => .scalar (si 0x23 d a i)
  | .sxorImm d a i => .scalar (si 0x24 d a i)
  | .sshlImm d a i => .scalar (si 0x25 d a (i.setWidth 11))
  | .sshrImm d a i => .scalar (si 0x26 d a (i.setWidth 11))
  | .ssarImm d a i => .scalar (si 0x27 d a (i.setWidth 11))
  | .sminImm d a i => .scalar (si 0x28 d a i)
  | .smaxImm d a i => .scalar (si 0x29 d a i)
  | .sld d a i => .scalar (si 0x2c d a i)
  | .sst d a i => .scalar (si 0x2d d a i)
  | .lq a n e => .scalar (sq 0x30 a n e)
  | .iadd o sat => .lane (lr 0x000 o.g o.ty o.d o.a o.b .none (mb sat 12) 0)
  | .iaddImm o sat => .lane (li 0x040 o.g o.ty o.d o.a .none o.imm (mb11 sat 10))
  | .isub o sat => .lane (lr 0x001 o.g o.ty o.d o.a o.b .none (mb sat 12) 0)
  | .isubImm o sat => .lane (li 0x041 o.g o.ty o.d o.a .none o.imm (mb11 sat 10))
  | .imul o sat => .lane (lr 0x002 o.g o.ty o.d o.a o.b .none (mb sat 12) 0)
  | .imulImm o sat => .lane (li 0x042 o.g o.ty o.d o.a .none o.imm (mb11 sat 10))
  | .imulh o => .lane (lr 0x003 o.g o.ty o.d o.a o.b .none 0 0)
  | .imulhImm o => .lane (li 0x043 o.g o.ty o.d o.a .none o.imm 0)
  | .imad o => .lane (lr 0x004 o.g o.ty o.d o.a o.b o.c 0 0)
  | .imadImm o => .lane (li 0x044 o.g o.ty o.d o.a o.b o.imm 0)
  | .idiv o => .lane (lr 0x005 o.g o.ty o.d o.a o.b .none 0 0)
  | .idivImm o => .lane (li 0x045 o.g o.ty o.d o.a .none o.imm 0)
  | .irem o => .lane (lr 0x006 o.g o.ty o.d o.a o.b .none 0 0)
  | .iremImm o => .lane (li 0x046 o.g o.ty o.d o.a .none o.imm 0)
  | .imin o => .lane (lr 0x007 o.g o.ty o.d o.a o.b .none 0 0)
  | .iminImm o => .lane (li 0x047 o.g o.ty o.d o.a .none o.imm 0)
  | .imax o => .lane (lr 0x008 o.g o.ty o.d o.a o.b .none 0 0)
  | .imaxImm o => .lane (li 0x048 o.g o.ty o.d o.a .none o.imm 0)
  | .iabs o sat => .lane (lr 0x009 o.g o.ty o.d o.a .none .none (mb sat 12) 0)
  | .land o => .lane (lr 0x00a o.g o.ty o.d o.a o.b .none 0 0)
  | .landImm o => .lane (li 0x04a o.g o.ty o.d o.a .none o.imm 0)
  | .lor o => .lane (lr 0x00b o.g o.ty o.d o.a o.b .none 0 0)
  | .lorImm o => .lane (li 0x04b o.g o.ty o.d o.a .none o.imm 0)
  | .lxor o => .lane (lr 0x00c o.g o.ty o.d o.a o.b .none 0 0)
  | .lxorImm o => .lane (li 0x04c o.g o.ty o.d o.a .none o.imm 0)
  | .andn o => .lane (lr 0x00d o.g o.ty o.d o.a o.b .none 0 0)
  | .andnImm o => .lane (li 0x04d o.g o.ty o.d o.a .none o.imm 0)
  | .shl o => .lane (lr 0x00e o.g o.ty o.d o.a o.b .none 0 0)
  | .shlImm o => .lane (li 0x04e o.g o.ty o.d o.a .none o.imm 0)
  | .shr o => .lane (lr 0x00f o.g o.ty o.d o.a o.b .none 0 0)
  | .shrImm o => .lane (li 0x04f o.g o.ty o.d o.a .none o.imm 0)
  | .sar o => .lane (lr 0x010 o.g o.ty o.d o.a o.b .none 0 0)
  | .sarImm o => .lane (li 0x050 o.g o.ty o.d o.a .none o.imm 0)
  | .rot o => .lane (lr 0x011 o.g o.ty o.d o.a o.b .none 0 0)
  | .rotImm o => .lane (li 0x051 o.g o.ty o.d o.a .none o.imm 0)
  | .popc o => .lane (lr 0x012 o.g o.ty o.d o.a .none .none 0 0)
  | .clz o => .lane (lr 0x013 o.g o.ty o.d o.a .none .none 0 0)
  | .bfx o => .lane (lr 0x014 o.g o.ty o.d o.a o.b .none 0 0)
  | .bfxImm o => .lane (li 0x054 o.g o.ty o.d o.a .none o.imm 0)
  | .bfi o => .lane (lr 0x015 o.g o.ty o.d o.a o.b o.c 0 0)
  | .bfiImm o => .lane (li 0x055 o.g o.ty o.d o.a o.b o.imm 0)
  | .icmp o c es => .lane (lr 0x016 o.g o.ty (o.d.setWidth 9) o.a o.b .none (c.bits.setWidth 13 <<< 8 ||| es.bits.setWidth 13 <<< 6) 0)
  | .icmpImm o c es => .lane (li 0x056 o.g o.ty (o.d.setWidth 9) o.a .none o.imm (c.bits.setWidth 11 <<< 6 ||| es.bits.setWidth 11 <<< 4))
  | .isel o => .lane (lr 0x017 o.g o.ty o.d (.q o.q) o.b o.c 0 0)
  | .iselImm o => .lane (li 0x057 o.g o.ty o.d (.q o.q) o.b o.imm 0)
  | .mov o => .lane (lr 0x018 o.g o.ty o.d o.a .none .none 0 0)
  | .movi o => .lane (li 0x058 o.g o.ty o.d .none .none o.imm 0)
  | .fadd o rm => .lane (lr 0x080 o.g o.ty o.d o.a o.b .none (rm.bits.setWidth 13 <<< 11) 0)
  | .faddImm o rm => .lane (li 0x0c0 o.g o.ty o.d o.a .none o.imm (rm.bits.setWidth 11 <<< 9))
  | .fsub o rm => .lane (lr 0x081 o.g o.ty o.d o.a o.b .none (rm.bits.setWidth 13 <<< 11) 0)
  | .fsubImm o rm => .lane (li 0x0c1 o.g o.ty o.d o.a .none o.imm (rm.bits.setWidth 11 <<< 9))
  | .fmul o rm => .lane (lr 0x082 o.g o.ty o.d o.a o.b .none (rm.bits.setWidth 13 <<< 11) 0)
  | .fmulImm o rm => .lane (li 0x0c2 o.g o.ty o.d o.a .none o.imm (rm.bits.setWidth 11 <<< 9))
  | .fdiv o rm => .lane (lr 0x083 o.g o.ty o.d o.a o.b .none (rm.bits.setWidth 13 <<< 11) 0)
  | .fdivImm o rm => .lane (li 0x0c3 o.g o.ty o.d o.a .none o.imm (rm.bits.setWidth 11 <<< 9))
  | .ffma o rm => .lane (lr 0x084 o.g o.ty o.d o.a o.b o.c (rm.bits.setWidth 13 <<< 11) 0)
  | .ffmaImm o rm => .lane (li 0x0c4 o.g o.ty o.d o.a o.b o.imm (rm.bits.setWidth 11 <<< 9))
  | .fsqrt o rm => .lane (lr 0x085 o.g o.ty o.d o.a .none .none (rm.bits.setWidth 13 <<< 11) 0)
  | .frcp o rm => .lane (lr 0x086 o.g o.ty o.d o.a .none .none (rm.bits.setWidth 13 <<< 11) 0)
  | .frsq o rm => .lane (lr 0x087 o.g o.ty o.d o.a .none .none (rm.bits.setWidth 13 <<< 11) 0)
  | .fexp2 o rm => .lane (lr 0x088 o.g o.ty o.d o.a .none .none (rm.bits.setWidth 13 <<< 11) 0)
  | .flog2 o rm => .lane (lr 0x089 o.g o.ty o.d o.a .none .none (rm.bits.setWidth 13 <<< 11) 0)
  | .fmin o => .lane (lr 0x08a o.g o.ty o.d o.a o.b .none 0 0)
  | .fminImm o => .lane (li 0x0ca o.g o.ty o.d o.a .none o.imm 0)
  | .fmax o => .lane (lr 0x08b o.g o.ty o.d o.a o.b .none 0 0)
  | .fmaxImm o => .lane (li 0x0cb o.g o.ty o.d o.a .none o.imm 0)
  | .fabs o => .lane (lr 0x08c o.g o.ty o.d o.a .none .none 0 0)
  | .fneg o => .lane (lr 0x08d o.g o.ty o.d o.a .none .none 0 0)
  | .fhull o => .lane (lr 0x08e o.g o.ty o.d o.a o.b .none 0 0)
  | .fhullImm o => .lane (li 0x0ce o.g o.ty o.d o.a .none o.imm 0)
  | .fcap o => .lane (lr 0x08f o.g o.ty o.d o.a o.b .none 0 0)
  | .fcapImm o => .lane (li 0x0cf o.g o.ty o.d o.a .none o.imm 0)
  | .fmid o => .lane (lr 0x090 o.g o.ty o.d o.a .none .none 0 0)
  | .frad o => .lane (lr 0x091 o.g o.ty o.d o.a .none .none 0 0)
  | .fwid o => .lane (lr 0x092 o.g o.ty o.d o.a .none .none 0 0)
  | .flo o => .lane (lr 0x093 o.g o.ty o.d o.a .none .none 0 0)
  | .fhi o => .lane (lr 0x094 o.g o.ty o.d o.a .none .none 0 0)
  | .fmk o => .lane (lr 0x095 o.g o.ty o.d o.a o.b .none 0 0)
  | .fcmp o c es => .lane (lr 0x096 o.g o.ty (o.d.setWidth 9) o.a o.b .none (c.bits.setWidth 13 <<< 7 ||| es.setWidth 13 <<< 4) 0)
  | .fcmpImm o c es => .lane (li 0x0d6 o.g o.ty (o.d.setWidth 9) o.a .none o.imm (c.bits.setWidth 11 <<< 5 ||| es.setWidth 11 <<< 2))
  | .fclass o => .lane (lr 0x097 o.g o.ty o.d o.a .none .none 0 0)
  | .fsel o => .lane (lr 0x098 o.g o.ty o.d (.q o.q) o.b o.c 0 0)
  | .fselImm o => .lane (li 0x0d8 o.g o.ty o.d (.q o.q) o.b o.imm 0)
  | .cvt o sty es rm => .lane (lr 0x100 o.g o.ty o.d o.a .none .none (rm.bits.setWidth 13 <<< 11 ||| sty.bits.setWidth 13 <<< 6 ||| es.bits.setWidth 13 <<< 4) 0)
  | .pack o rm => .lane (lr 0x101 o.g o.ty o.d o.a o.b .none (rm.bits.setWidth 13 <<< 11) 0)
  | .unpk o es => .lane (lr 0x102 o.g o.ty o.d o.a .none .none (es.bits.setWidth 13 <<< 4) 0)
  | .qnt o nib pos rm => .lane (lr 0x103 o.g o.ty o.d o.a o.b .none (rm.bits.setWidth 13 <<< 11 ||| mb nib 10 ||| pos.setWidth 13 <<< 6) 0)
  | .qntScale o => .lane (lr 0x103 o.g o.ty o.d o.a o.b .none (1 <<< 5) 0)
  | .dqn o nib pos rm => .lane (lr 0x104 o.g o.ty o.d o.a o.b .none (rm.bits.setWidth 13 <<< 11 ||| mb nib 10 ||| pos.setWidth 13 <<< 6) 0)
  | .qand g d a b => .lane (lr 0x180 g .iv32 (d.setWidth 9) (.q a) (.q b) .none 0 0)
  | .qor g d a b => .lane (lr 0x181 g .iv32 (d.setWidth 9) (.q a) (.q b) .none 0 0)
  | .qnot g d a => .lane (lr 0x182 g .iv32 (d.setWidth 9) (.q a) .none .none 0 0)
  | .qforce g d a op => .lane (lr 0x183 g .iv32 (d.setWidth 9) (.q a) .none .none (op.bits.setWidth 13 <<< 11) 0)
  | .qset g d v => .lane (li 0x184 g .iv32 (d.setWidth 9) .none .none (v.bits.setWidth 32) 0)
  | .vote g d a or all => .lane (lr 0x185 g .iv32 (d.setWidth 9) (.q a) .none .none (mb or 11 ||| mb all 10) 0)
  | .voteScalar g d a or all => .lane (lr 0x186 g .iv32 (d.setWidth 9) (.q a) .none .none (mb or 11 ||| mb all 10) 0)
  | .lead g d => .lane (lr 0x187 g .iv32 (d.setWidth 9) .none .none .none 0 0)
  | .bq q tt ut jt => .lane (lc 0x188 q tt ut jt)
  | .bc q tt jt => .lane (lc 0x189 q tt 0 jt)
  | .jmp tt => .lane (lc 0x18a 0 tt 0 0)
  | .call tt => .lane (lc 0x18b 0 tt 0 0)
  | .calli a => .lane (lr 0x18c Guard.none .iv32 0 a .none .none 0 0)
  | .ret => .lane (lr 0x18d Guard.none .iv32 0 .none .none .none 0 0)
  | .brk n tt => .lane (lc 0x18e 0 tt n 0)
  | .exit g => .lane (lr 0x18f g .iv32 0 .none .none .none 0 0)
  | .lend => .lane (lr 0x190 Guard.none .iv32 0 .none .none .none 0 0)
  | .sput g d a => .lane (lr 0x191 g .iv32 (d.setWidth 9) a .none .none 0 0)
  | .ld g ty d p acc => .lane (lm 0x200 g ty d p.a .none p.off (acc.bits 1))
  | .st g ty p b acc => .lane (lm 0x201 g ty 0 p.a b p.off (acc.bits 2))
  | .lds g d p pad n => .lane (lm 0x202 g .b64 d p.a .none p.off (mb19 pad 18 ||| n.setWidth 19 <<< 15))
  | .sts g p b pad n => .lane (lm 0x203 g .b64 0 p.a b p.off (mb19 pad 18 ||| n.setWidth 19 <<< 15))
  | .ldfe g ty d p w1 => .lane (lm 0x204 g ty d p.a .none p.off (mb19 w1 18))
  | .stfe g ty p b w1 => .lane (lm 0x205 g ty 0 p.a b p.off (mb19 w1 18))
  | .pfetch g p l2 => .lane (lm 0x206 g .iv32 0 p.a .none p.off (mb19 l2 18))
  | .atom g ty d p b op pad nr s o => .lane (lm 0x207 g ty d p.a b p.off (mb19 pad 18 ||| mb19 nr 17 ||| s.bits.setWidth 19 <<< 14 ||| o.bits.setWidth 19 <<< 12 ||| op.bits.setWidth 19 <<< 8))
  | .atomc g ty d a b c pad s o => .lane (lr 0x208 g ty d a b c (mb pad 12 ||| s.bits.setWidth 13 <<< 9 ||| o.bits.setWidth 13 <<< 7) 0)
  | .waita g ty p b c pad s => .lane (lm 0x209 g ty 0 p.a b p.off (mb19 pad 18 ||| c.bits.setWidth 19 <<< 14 ||| s.bits.setWidth 19 <<< 11))
  | .fence g s => .lane (lr 0x20a g .iv32 0 .none .none .none (s.bits.setWidth 13 <<< 10) 0)
  | .tkwait g d p lv => .lane (lm 0x20b g .iv32 (d.setWidth 9) p.a .none p.off (lv.setWidth 19 <<< 16))
  | .tkpass g p lv => .lane (lm 0x20c g .iv32 0 p.a .none p.off (lv.setWidth 19 <<< 16))
  | .cpy o => .lane (lr 0x280 o.g .iv32 o.d o.a o.b o.c (mb o.pb 12 ||| mb o.st 11 ||| mb o.tk 10 ||| o.dir.bits.setWidth 13 <<< 8 ||| mb o.rs 7 ||| mb o.arv 6) (o.tok.setWidth 19))
  | .cpys g d a => .lane (lr 0x281 g .iv32 d a .none .none 0 0)
  | .pbinit g a b c => .lane (lr 0x282 g .iv32 0 a b c 0 0)
  | .pbexp g a b => .lane (lr 0x283 g .iv32 0 a b .none 0 0)
  | .pbarv g a b => .lane (lr 0x284 g .iv32 0 a b .none 0 0)
  | .pbwait g d a gen n => .lane (li 0x285 g .iv32 (d.setWidth 9) a .none (n.setWidth 32) (mb11 gen 10))
  | .bar g cohort => .lane (lr 0x286 g .iv32 0 .none .none .none (mb cohort 11) 0)
  | .comb g d p b qs meth => .lane (lm 0x287 g .iv32 d p.a b p.off (qs.setWidth 19 <<< 15 ||| meth.setWidth 19 <<< 7))
  | .cret g a => .lane (lr 0x288 g .iv32 0 (.q a) .none .none 0 0)
  | .objreg g p b => .lane (lm 0x289 g .iv32 0 p.a b p.off 0)
  | .objclr g p => .lane (lm 0x28a g .iv32 0 p.a .none p.off 0)
  | .amsg g p b core h n => .lane (lm 0x28b g .iv32 0 p.a b p.off (mb19 core 18 ||| h.setWidth 19 <<< 6 ||| n.setWidth 19 <<< 3))
  | .coll o op => .lane (lr 0x28c o.g o.ty o.d o.a o.b .none (op.bits.setWidth 13 <<< 10) 0)
  | .flush g => .lane (lr 0x28d g .iv32 0 .none .none .none 0 0)
  | .mfmt g a imm => .lane (li 0x300 g .iv32 0 (.s a) .none imm 0)
  | .mma g d a b ns z ks => .lane (lr 0x301 g .iv32 d a b .none (ns.setWidth 13 <<< 11 ||| mb z 10) (ks.setWidth 19))
  | .mmaq g d a b c ns z ks => .lane (lr 0x302 g .iv32 d a b c (ns.setWidth 13 <<< 11 ||| mb z 10) (ks.setWidth 19))
  | .plane g d a nib => .lane (lr 0x303 g .iv32 d a .none .none (mb nib 12) 0)
  | .mstat g d sel => .lane (lr 0x304 g .iv32 d .none .none .none (sel.setWidth 13 <<< 10) 0)
  | .split g ty a b c axis nw => .lane (lr 0x310 g ty 0 a b c (axis.setWidth 13 <<< 9 ||| nw.setWidth 13 <<< 7) 0)
  | .fork g a b c kind nw hdr => .lane (lr 0x311 g .iv32 0 a b c (kind.setWidth 13 <<< 9 ||| nw.setWidth 13 <<< 7 ||| mb hdr 6) 0)
  | .draw q d steal nw hdr => .lane (lr 0x312 Guard.none .iv32 d (.q q) .none .none (mb steal 12 ||| nw.setWidth 13 <<< 10 ||| mb hdr 9) 0)
  | .drop g => .lane (lr 0x313 g .iv32 0 .none .none .none 0 0)
  | .ldh g ty d p b => .lane (lm 0x318 g ty d p.a b p.off 0)
  | .stb g ty p b => .lane (lm 0x319 g ty 0 p.a b p.off 0)
  | .quart g => .lane (lr 0x31a g .iv32 0 .none .none .none 0 0)
  | .elem tt => .lane (lc 0x31b 0 tt 0 0)
  | .shfl o md all => .lane (lr 0x380 o.g o.ty o.d o.a o.b .none (md.bits.setWidth 13 <<< 11 ||| mb all 10) 0)
  | .shflImm o n md all => .lane (li 0x3c0 o.g o.ty o.d o.a .none (n.setWidth 32) (md.bits.setWidth 11 <<< 9 ||| mb11 all 8))
  | .scan o op excl all => .lane (lr 0x381 o.g o.ty o.d o.a .none .none (op.bits.setWidth 13 <<< 10 ||| mb excl 9 ||| mb all 8) 0)
  | .red o op all => .lane (lr 0x382 o.g o.ty o.d o.a .none .none (op.bits.setWidth 13 <<< 10 ||| mb all 8) 0)
  | .redScalar g ty d a op all => .lane (lr 0x383 g ty (d.setWidth 9) a .none .none (op.bits.setWidth 13 <<< 10 ||| mb all 8) 0)
  | .ballot g d a sel all => .lane (lr 0x384 g .iv32 d (.q a) .none .none (sel.ballotBits.setWidth 13 <<< 11 ||| mb all 10) 0)
  | .xbld g a b => .lane (lr 0x385 g .iv32 0 a b .none 0 0)
  | .xbar g d a b => .lane (lr 0x386 g .b64 d a b .none 0 0)
  | .mfxLane g d x => .lane (li 0x3f0 g .iv32 d .none .none (x.setWidth 32) 0)
  | .mtxLane g a x => .lane (li 0x3f1 g .iv32 0 a .none (x.setWidth 32) 0)
  | .trapLane g code => .lane (li 0x3f2 g .iv32 0 .none .none (code.setWidth 32) 0)
  | .bkptLane g => .lane (lr 0x3f3 g .iv32 0 .none .none .none 0 0)
  | .headerCheck _ => .none
  | .cohortPlacement _ _ => .none
  | .preloadLand _ _ => .none
  | .laneBlockStart _ => .none
  | .scalarRegisterFill _ => .none
  | .trapEntry _ => .none
  | .waveHalt _ => .none
  | .preemption _ => .none
  | .dispatcherPreempt _ _ => .none
  | .priorityAging _ => .none
  | .tileStart _ => .none
  | .tileWriteback _ => .none
  | .copySector _ => .none
  | .taskIssue _ _ => .none
  | .refillLand _ _ => .none
  | .stealRequest _ => .none
  | .elementTeamStart _ _ => .none
  | .requestArrival _ => .none
  | .registrationArrival _ => .none
  | .objclrArrival _ => .none
  | .windowClose _ => .none
  | .windowCloseDet _ => .none
  | .waveStart _ => .none
  | .replyArrival _ => .none
  | .handlerStart _ => .none
  | .ticketAutoPass _ => .none
  | .nodeCombine _ _ => .none
  | .collTimeout _ => .none
  | .turnRetry _ => .none
  | .pendingEventAct _ => .none
  | .segmentLand _ _ => .none
  | .cinvEffect _ => .none
  | .waitReread _ => .none
  | .waitLimitExpiry _ _ => .none
  | .fill _ _ _ => .none
  | .dropLine _ _ => .none
  | .writeBack _ _ => .none
  | .leave _ => .none
  | .performLoad _ => .none
  | .apply _ => .none
  | .ringMove _ _ => .none
  | .acknowledge _ => .none
  | .pageWalk _ => .none
  | .resolveResolved _ _ => .none
  | .resolveRefused _ _ => .none
  | .invalPage _ _ _ => .none
  | .invalContext _ _ => .none
  | .invalAll _ => .none
  | .invalComplete _ => .none
  | .preemptRequest _ _ => .none
  | .preemptRemove _ _ => .none
  | .hlaunch _ _ => .none
  | .rtgen _ _ => .none
  | .routeSwitch _ => .none
  | .pinwin _ _ => .none
  | .pinwinApply _ => .none
  | .controlRegisterWrite _ _ _ => .none
  | .hostMemoryAccess _ _ => .none
  | .peerAccess _ _ => .none
  | .reset _ _ _ _ => .none
  | .linkFailure _ _ => .none
  | .thermalTrip _ => .none
  | .eccCorrected _ => .none
  | .eccUncorrectable _ _ => .none
  | .contributionArrival _ => .none
  | .contributionLeavesCore _ => .none
  | .registrationAnswer _ => .none
  | .spdmMeasurementRequest _ _ => .none
  | .powerLimitCrossing _ => .none

/-- The operands of a scalar word read by its major opcode and function field (R48). -/
def candScalar (w : Half) : Option Instr :=
  match (w.extractLsb' 25 7).toNat with
  | 0x01 =>
    match (w.extractLsb' 0 4).toNat with
    | 0 => some .nop
    | 1 => some .send
    | 2 => some .lsync
    | 3 => some .fbar
    | 4 => some .eret
    | 5 => some .bkptScalar
    | 6 => some .crit
    | 7 => some .critx
    | _ => none
  | 0x02 =>
    match (w.extractLsb' 0 4).toNat with
    | 0 => some (.sadd (sD w) (sA w) (sB w))
    | 1 => some (.ssub (sD w) (sA w) (sB w))
    | 2 => some (.smul (sD w) (sA w) (sB w))
    | 3 => some (.smulh (sD w) (sA w) (sB w))
    | 4 => some (.sdiv (sD w) (sA w) (sB w))
    | 5 => some (.srem (sD w) (sA w) (sB w))
    | 6 => some (.sand (sD w) (sA w) (sB w))
    | 7 => some (.sor (sD w) (sA w) (sB w))
    | 8 => some (.sxor (sD w) (sA w) (sB w))
    | 9 => some (.sandn (sD w) (sA w) (sB w))
    | 10 => some (.sshl (sD w) (sA w) (sB w))
    | 11 => some (.sshr (sD w) (sA w) (sB w))
    | 12 => some (.ssar (sD w) (sA w) (sB w))
    | 13 => some (.smin (sD w) (sA w) (sB w))
    | 14 => some (.smax (sD w) (sA w) (sB w))
    | 15 => some (.smov (sD w) (sA w))
    | _ => none
  | 0x03 =>
    match (w.extractLsb' 0 4).toNat with
    | 0 => some (.sclz (sD w) (sA w))
    | 1 => some (.spop (sD w) (sA w))
    | _ => none
  | 0x04 => some (.ssel (sD w) (sA w) (sB w) (w.extractLsb' 0 3))
  | 0x05 => (Cond.ofBits (sF w)).map (.scmp (w.extractLsb' 18 3) (sA w) (sB w))
  | 0x06 => (KOp.ofBits (sF w)).map (.skop (w.extractLsb' 18 3) (w.extractLsb' 11 3) (w.extractLsb' 4 3))
  | 0x07 => (Scope.ofBits (w.extractLsb' 0 3)).map .sfence
  | 0x08 => some (.sempty (sD w) (sF w))
  | 0x09 => (Cond.ofBits (sF w)).map (.swaita (sD w) (sA w))
  | 0x0a => some (.launch (sA w))
  | 0x0b => some (.task (sA w))
  | 0x0c => some (.signal (sA w))
  | 0x0d => some (.cfetch (sA w) (sB w))
  | 0x0e => some (.cinv (sA w) (sB w))
  | 0x0f => some (.sret (sA w))
  | 0x10 => some (.sjf (sA w))
  | 0x11 => some (.trapScalar (sI18 w))
  | 0x12 => some (.rgn (sI18 w))
  | 0x13 => some (.mfxScalar (sD w) (w.extractLsb' 0 12))
  | 0x14 => some (.mtxScalar (sD w) (w.extractLsb' 0 12))
  | 0x15 => some (.sli (sD w) (sI18 w))
  | 0x16 => some (.slih (sD w) (sI18 w))
  | 0x17 => some (.scall (sD w) (sI18 w))
  | 0x18 => (GMode.ofBits (w.extractLsb' 19 3)).map fun m => .sbr (w.extractLsb' 22 3) m (w.extractLsb' 0 19)
  | 0x19 => some (.sj (w.extractLsb' 0 19))
  | 0x20 => some (.saddImm (sD w) (sA w) (sI11 w))
  | 0x21 => some (.smulImm (sD w) (sA w) (sI11 w))
  | 0x22 => some (.sandImm (sD w) (sA w) (sI11 w))
  | 0x23 => some (.sorImm (sD w) (sA w) (sI11 w))
  | 0x24 => some (.sxorImm (sD w) (sA w) (sI11 w))
  | 0x25 => some (.sshlImm (sD w) (sA w) (w.extractLsb' 0 6))
  | 0x26 => some (.sshrImm (sD w) (sA w) (w.extractLsb' 0 6))
  | 0x27 => some (.ssarImm (sD w) (sA w) (w.extractLsb' 0 6))
  | 0x28 => some (.sminImm (sD w) (sA w) (sI11 w))
  | 0x29 => some (.smaxImm (sD w) (sA w) (sI11 w))
  | 0x2c => some (.sld (sD w) (sA w) (sI11 w))
  | 0x2d => some (.sst (sD w) (sA w) (sI11 w))
  | 0x30 => some (.lq (sD w) (w.extractLsb' 14 4) (w.extractLsb' 0 14))
  | _ => none

/-- The operands of a lane word of group 000 (R49). -/
def candGroup0 (op : Nat) (h : Head) (r : LR) (i : LI) (_m : LM) (_c : LC) : Option Instr :=
  match op with
  | 0x000 => some (.iadd (r.v2 h) (r.md.getLsbD 12))
  | 0x040 => some (.iaddImm (i.v1i h) (i.md.getLsbD 10))
  | 0x001 => some (.isub (r.v2 h) (r.md.getLsbD 12))
  | 0x041 => some (.isubImm (i.v1i h) (i.md.getLsbD 10))
  | 0x002 => some (.imul (r.v2 h) (r.md.getLsbD 12))
  | 0x042 => some (.imulImm (i.v1i h) (i.md.getLsbD 10))
  | 0x003 => some (.imulh (r.v2 h))
  | 0x043 => some (.imulhImm (i.v1i h))
  | 0x004 => some (.imad (r.v3 h))
  | 0x044 => some (.imadImm (i.v2i h))
  | 0x005 => some (.idiv (r.v2 h))
  | 0x045 => some (.idivImm (i.v1i h))
  | 0x006 => some (.irem (r.v2 h))
  | 0x046 => some (.iremImm (i.v1i h))
  | 0x007 => some (.imin (r.v2 h))
  | 0x047 => some (.iminImm (i.v1i h))
  | 0x008 => some (.imax (r.v2 h))
  | 0x048 => some (.imaxImm (i.v1i h))
  | 0x009 => some (.iabs (r.v1 h) (r.md.getLsbD 12))
  | 0x00a => some (.land (r.v2 h))
  | 0x04a => some (.landImm (i.v1i h))
  | 0x00b => some (.lor (r.v2 h))
  | 0x04b => some (.lorImm (i.v1i h))
  | 0x00c => some (.lxor (r.v2 h))
  | 0x04c => some (.lxorImm (i.v1i h))
  | 0x00d => some (.andn (r.v2 h))
  | 0x04d => some (.andnImm (i.v1i h))
  | 0x00e => some (.shl (r.v2 h))
  | 0x04e => some (.shlImm (i.v1i h))
  | 0x00f => some (.shr (r.v2 h))
  | 0x04f => some (.shrImm (i.v1i h))
  | 0x010 => some (.sar (r.v2 h))
  | 0x050 => some (.sarImm (i.v1i h))
  | 0x011 => some (.rot (r.v2 h))
  | 0x051 => some (.rotImm (i.v1i h))
  | 0x012 => some (.popc (r.v1 h))
  | 0x013 => some (.clz (r.v1 h))
  | 0x014 => some (.bfx (r.v2 h))
  | 0x054 => some (.bfxImm (i.v1i h))
  | 0x015 => some (.bfi (r.v3 h))
  | 0x055 => some (.bfiImm (i.v2i h))
  | 0x016 => do let c ← Cond.ofBits (r.md.extractLsb' 8 4); let es ← HSel.ofBits (r.md.extractLsb' 6 2); some (.icmp (r.c2 h) c es)
  | 0x056 => do let c ← Cond.ofBits (i.md.extractLsb' 6 4); let es ← HSel.ofBits (i.md.extractLsb' 4 2); some (.icmpImm (i.c1i h) c es)
  | 0x017 => some (.isel (r.qs h))
  | 0x057 => some (.iselImm (i.qsi h))
  | 0x018 => some (.mov (r.v1 h))
  | 0x058 => some (.movi (i.v0i h))
  | _ => none

/-- The operands of a lane word of group 001 (R49). -/
def candGroup1 (op : Nat) (h : Head) (r : LR) (i : LI) (_m : LM) (_c : LC) : Option Instr :=
  match op with
  | 0x080 => some (.fadd (r.v2 h) (RM.ofBits (r.md.extractLsb' 11 2)))
  | 0x0c0 => some (.faddImm (i.v1i h) (RM.ofBits (i.md.extractLsb' 9 2)))
  | 0x081 => some (.fsub (r.v2 h) (RM.ofBits (r.md.extractLsb' 11 2)))
  | 0x0c1 => some (.fsubImm (i.v1i h) (RM.ofBits (i.md.extractLsb' 9 2)))
  | 0x082 => some (.fmul (r.v2 h) (RM.ofBits (r.md.extractLsb' 11 2)))
  | 0x0c2 => some (.fmulImm (i.v1i h) (RM.ofBits (i.md.extractLsb' 9 2)))
  | 0x083 => some (.fdiv (r.v2 h) (RM.ofBits (r.md.extractLsb' 11 2)))
  | 0x0c3 => some (.fdivImm (i.v1i h) (RM.ofBits (i.md.extractLsb' 9 2)))
  | 0x084 => some (.ffma (r.v3 h) (RM.ofBits (r.md.extractLsb' 11 2)))
  | 0x0c4 => some (.ffmaImm (i.v2i h) (RM.ofBits (i.md.extractLsb' 9 2)))
  | 0x085 => some (.fsqrt (r.v1 h) (RM.ofBits (r.md.extractLsb' 11 2)))
  | 0x086 => some (.frcp (r.v1 h) (RM.ofBits (r.md.extractLsb' 11 2)))
  | 0x087 => some (.frsq (r.v1 h) (RM.ofBits (r.md.extractLsb' 11 2)))
  | 0x088 => some (.fexp2 (r.v1 h) (RM.ofBits (r.md.extractLsb' 11 2)))
  | 0x089 => some (.flog2 (r.v1 h) (RM.ofBits (r.md.extractLsb' 11 2)))
  | 0x08a => some (.fmin (r.v2 h))
  | 0x0ca => some (.fminImm (i.v1i h))
  | 0x08b => some (.fmax (r.v2 h))
  | 0x0cb => some (.fmaxImm (i.v1i h))
  | 0x08c => some (.fabs (r.v1 h))
  | 0x08d => some (.fneg (r.v1 h))
  | 0x08e => some (.fhull (r.v2 h))
  | 0x0ce => some (.fhullImm (i.v1i h))
  | 0x08f => some (.fcap (r.v2 h))
  | 0x0cf => some (.fcapImm (i.v1i h))
  | 0x090 => some (.fmid (r.v1 h))
  | 0x091 => some (.frad (r.v1 h))
  | 0x092 => some (.fwid (r.v1 h))
  | 0x093 => some (.flo (r.v1 h))
  | 0x094 => some (.fhi (r.v1 h))
  | 0x095 => some (.fmk (r.v2 h))
  | 0x096 => do let c ← FCond.ofBits (r.md.extractLsb' 7 4); some (.fcmp (r.c2 h) c (r.md.extractLsb' 4 3))
  | 0x0d6 => do let c ← FCond.ofBits (i.md.extractLsb' 5 4); some (.fcmpImm (i.c1i h) c (i.md.extractLsb' 2 3))
  | 0x097 => some (.fclass (r.v1 h))
  | 0x098 => some (.fsel (r.qs h))
  | 0x0d8 => some (.fselImm (i.qsi h))
  | _ => none

/-- The operands of a lane word of group 010 (R49). -/
def candGroup2 (op : Nat) (h : Head) (r : LR) (_i : LI) (_m : LM) (_c : LC) : Option Instr :=
  match op with
  | 0x100 => do let sty ← LTy.ofBits (r.md.extractLsb' 6 5); let es ← HSel.ofBits (r.md.extractLsb' 4 2); some (.cvt (r.v1 h) sty es (RM.ofBits (r.md.extractLsb' 11 2)))
  | 0x101 => some (.pack (r.v2 h) (RM.ofBits (r.md.extractLsb' 11 2)))
  | 0x102 => do let es ← HSel.ofBits (r.md.extractLsb' 4 2); some (.unpk (r.v1 h) es)
  | 0x103 => some (if r.md.getLsbD 5 then .qntScale (r.v2 h) else .qnt (r.v2 h) (r.md.getLsbD 10) (r.md.extractLsb' 6 4) (RM.ofBits (r.md.extractLsb' 11 2)))
  | 0x104 => some (.dqn (r.v2 h) (r.md.getLsbD 10) (r.md.extractLsb' 6 4) (RM.ofBits (r.md.extractLsb' 11 2)))
  | _ => none

/-- The operands of a lane word of group 011 (R49). -/
def candGroup3 (op : Nat) (h : Head) (r : LR) (i : LI) (_m : LM) (c : LC) : Option Instr :=
  match op with
  | 0x180 => some (.qand h.g h.dq r.a.lowq r.b.lowq)
  | 0x181 => some (.qor h.g h.dq r.a.lowq r.b.lowq)
  | 0x182 => some (.qnot h.g h.dq r.a.lowq)
  | 0x183 => (QForce.ofBits (r.md.extractLsb' 11 2)).map (.qforce h.g h.dq r.a.lowq)
  | 0x184 => some (.qset h.g h.dq (Tri.ofBits (i.imm.extractLsb' 0 2)))
  | 0x185 => some (.vote h.g h.dq r.a.lowq (r.md.getLsbD 11) (r.md.getLsbD 10))
  | 0x186 => some (.voteScalar h.g h.ds r.a.lowq (r.md.getLsbD 11) (r.md.getLsbD 10))
  | 0x187 => some (.lead h.g h.dq)
  | 0x188 => some (.bq c.q c.tt c.ut c.jt)
  | 0x189 => some (.bc c.q c.tt c.jt)
  | 0x18a => some (.jmp c.tt)
  | 0x18b => some (.call c.tt)
  | 0x18c => some (.calli r.a)
  | 0x18d => some .ret
  | 0x18e => some (.brk c.ut c.tt)
  | 0x18f => some (.exit h.g)
  | 0x190 => some .lend
  | 0x191 => some (.sput h.g h.ds r.a)
  | _ => none

/-- The operands of a lane word of group 100 (R49). -/
def candGroup4 (op : Nat) (h : Head) (r : LR) (_i : LI) (m : LM) (_c : LC) : Option Instr :=
  match op with
  | 0x200 => (Access.ofBits m.md).map (.ld h.g h.ty h.d m.adr)
  | 0x201 => (Access.ofBits m.md).map (.st h.g h.ty m.adr m.b)
  | 0x202 => some (.lds h.g h.d m.adr (m.md.getLsbD 18) (m.md.extractLsb' 15 3))
  | 0x203 => some (.sts h.g m.adr m.b (m.md.getLsbD 18) (m.md.extractLsb' 15 3))
  | 0x204 => some (.ldfe h.g h.ty h.d m.adr (m.md.getLsbD 18))
  | 0x205 => some (.stfe h.g h.ty m.adr m.b (m.md.getLsbD 18))
  | 0x206 => some (.pfetch h.g m.adr (m.md.getLsbD 18))
  | 0x207 => do let s ← Scope.ofBits (m.md.extractLsb' 14 3); let op ← AtomOp.ofBits (m.md.extractLsb' 8 4); some (.atom h.g h.ty h.d m.adr m.b op (m.md.getLsbD 18) (m.md.getLsbD 17) s (Ord.ofBits (m.md.extractLsb' 12 2)))
  | 0x208 => do let s ← Scope.ofBits (r.md.extractLsb' 9 3); some (.atomc h.g h.ty h.d r.a r.b r.c (r.md.getLsbD 12) s (Ord.ofBits (r.md.extractLsb' 7 2)))
  | 0x209 => do let c ← Cond.ofBits (m.md.extractLsb' 14 4); let s ← Scope.ofBits (m.md.extractLsb' 11 3); some (.waita h.g h.ty m.adr m.b c (m.md.getLsbD 18) s)
  | 0x20a => (Scope.ofBits (r.md.extractLsb' 10 3)).map (.fence h.g)
  | 0x20b => some (.tkwait h.g h.dq m.adr (m.md.extractLsb' 16 3))
  | 0x20c => some (.tkpass h.g m.adr (m.md.extractLsb' 16 3))
  | _ => none

/-- The operands of a lane word of group 101 (R49). -/
def candGroup5 (op : Nat) (h : Head) (r : LR) (i : LI) (m : LM) (_c : LC) : Option Instr :=
  match op with
  | 0x280 => do let dir ← Dir.ofBits (r.md.extractLsb' 8 2); some (.cpy ⟨h.g, h.d, r.a, r.b, r.c, r.md.getLsbD 12, r.md.getLsbD 11, r.md.getLsbD 10, dir, r.md.getLsbD 7, r.md.getLsbD 6, r.x.extractLsb' 0 14⟩)
  | 0x281 => some (.cpys h.g h.d r.a)
  | 0x282 => some (.pbinit h.g r.a r.b r.c)
  | 0x283 => some (.pbexp h.g r.a r.b)
  | 0x284 => some (.pbarv h.g r.a r.b)
  | 0x285 => some (.pbwait h.g h.dq i.a (i.md.getLsbD 10) (i.imm.extractLsb' 0 8))
  | 0x286 => some (.bar h.g (r.md.getLsbD 11))
  | 0x287 => some (.comb h.g h.d m.adr m.b (m.md.extractLsb' 15 4) (m.md.extractLsb' 7 8))
  | 0x288 => some (.cret h.g r.a.lowq)
  | 0x289 => some (.objreg h.g m.adr m.b)
  | 0x28a => some (.objclr h.g m.adr)
  | 0x28b => some (.amsg h.g m.adr m.b (m.md.getLsbD 18) (m.md.extractLsb' 6 12) (m.md.extractLsb' 3 3))
  | 0x28c => (RedOp.ofBits (r.md.extractLsb' 10 3)).map (.coll (r.v2 h))
  | 0x28d => some (.flush h.g)
  | _ => none

/-- The operands of a lane word of group 110 (R49). -/
def candGroup6 (op : Nat) (h : Head) (r : LR) (i : LI) (m : LM) (c : LC) : Option Instr :=
  match op with
  | 0x300 => some (.mfmt h.g (i.a.n.setWidth 7) i.imm)
  | 0x301 => some (.mma h.g h.d r.a r.b (r.md.extractLsb' 11 2) (r.md.getLsbD 10) (r.x.extractLsb' 0 12))
  | 0x302 => some (.mmaq h.g h.d r.a r.b r.c (r.md.extractLsb' 11 2) (r.md.getLsbD 10) (r.x.extractLsb' 0 12))
  | 0x303 => some (.plane h.g h.d r.a (r.md.getLsbD 12))
  | 0x304 => some (.mstat h.g h.d (r.md.extractLsb' 10 3))
  | 0x310 => some (.split h.g h.ty r.a r.b r.c (r.md.extractLsb' 9 4) (r.md.extractLsb' 7 2))
  | 0x311 => some (.fork h.g r.a r.b r.c (r.md.extractLsb' 9 4) (r.md.extractLsb' 7 2) (r.md.getLsbD 6))
  | 0x312 => some (.draw r.a.lowq h.d (r.md.getLsbD 12) (r.md.extractLsb' 10 2) (r.md.getLsbD 9))
  | 0x313 => some (.drop h.g)
  | 0x318 => some (.ldh h.g h.ty h.d m.adr m.b)
  | 0x319 => some (.stb h.g h.ty m.adr m.b)
  | 0x31a => some (.quart h.g)
  | 0x31b => some (.elem c.tt)
  | _ => none

/-- The operands of a lane word of group 111 (R49). -/
def candGroup7 (op : Nat) (h : Head) (r : LR) (i : LI) (_m : LM) (_c : LC) : Option Instr :=
  match op with
  | 0x380 => some (.shfl (r.v2 h) (ShMode.ofBits (r.md.extractLsb' 11 2)) (r.md.getLsbD 10))
  | 0x3c0 => some (.shflImm (i.v1 h) (i.imm.extractLsb' 0 10) (ShMode.ofBits (i.md.extractLsb' 9 2)) (i.md.getLsbD 8))
  | 0x381 => (RedOp.ofBits (r.md.extractLsb' 10 3)).map fun op => .scan (r.v1 h) op (r.md.getLsbD 9) (r.md.getLsbD 8)
  | 0x382 => (RedOp.ofBits (r.md.extractLsb' 10 3)).map fun op => .red (r.v1 h) op (r.md.getLsbD 8)
  | 0x383 => (RedOp.ofBits (r.md.extractLsb' 10 3)).map fun op => .redScalar h.g h.ty h.ds r.a op (r.md.getLsbD 8)
  | 0x384 => (Tri.ofBallot (r.md.extractLsb' 11 2)).map fun sel => .ballot h.g h.d r.a.lowq sel (r.md.getLsbD 10)
  | 0x385 => some (.xbld h.g r.a r.b)
  | 0x386 => some (.xbar h.g h.d r.a r.b)
  | 0x3f0 => some (.mfxLane h.g h.d (i.imm.extractLsb' 0 12))
  | 0x3f1 => some (.mtxLane h.g i.a (i.imm.extractLsb' 0 12))
  | 0x3f2 => some (.trapLane h.g (i.imm.extractLsb' 0 18))
  | 0x3f3 => some (.bkptLane h.g)
  | _ => none

/-- Why a word is no instruction; all of them raise cause 0x01 when issued (R50, R51). -/
inductive Reject where
  /-- GM 110 or 111, or TY 16 to 31 (R41, R42). -/
  | head
  /-- An opcode of R50, or a field whose value names nothing. -/
  | opcode
  /-- A type, register, immediate or modifier that the instruction does not accept (R42 to R47). -/
  | field
  /-- A non-zero bit in a field that the opcode does not use (R38, R44, R47). -/
  | unused
  /-- Not four bytes and not twelve. -/
  | length
deriving DecidableEq, Repr

/-- A candidate is the instruction of a word when it is well formed and encodes to exactly that word. -/
def accept (c : Option Instr) (w : Code) : Except Reject Instr :=
  match c with
  | none => .error .opcode
  | some i => if !i.wf then .error .field else if encode i = w then .ok i else .error .unused

def decodeScalar (w : Half) : Except Reject Instr := accept (candScalar w) (.scalar w)

def candLane (h : Head) (w : LaneWord) : Option Instr :=
  let op := (w.extractLsb' 86 10).toNat
  let r := lrOf w
  let i := liOf w
  let m := lmOf w
  let c := lcOf w
  match op / 128 with
  | 0 => candGroup0 op h r i m c
  | 1 => candGroup1 op h r i m c
  | 2 => candGroup2 op h r i m c
  | 3 => candGroup3 op h r i m c
  | 4 => candGroup4 op h r i m c
  | 5 => candGroup5 op h r i m c
  | 6 => candGroup6 op h r i m c
  | _ => candGroup7 op h r i m c

def decodeLane (w : LaneWord) : Except Reject Instr :=
  match headOf w with
  | none => .error .head
  | some h => accept (candLane h w) (.lane w)

/-- The number that bytes hold, least significant byte first (R35, R36). -/
def leNat : List Byte → Nat
  | [] => 0
  | b :: bs => b.toNat + 256 * leNat bs

/-- The n bytes of a number, least significant byte first. -/
def leBytes : Nat → Nat → List Byte
  | 0, _ => []
  | n + 1, v => BitVec.ofNat 8 v :: leBytes n (v / 256)

/-- Decoding of any bytes: four are a scalar word, twelve a lane word (R35, R36). -/
def decodeBytes (bs : List Byte) : Except Reject Instr :=
  match bs.length with
  | 4 => decodeScalar (BitVec.ofNat 32 (leNat bs))
  | 12 => decodeLane (BitVec.ofNat 96 (leNat bs))
  | _ => .error .length

/-- The bytes an instruction is stored as. -/
def encodeBytes (i : Instr) : List Byte :=
  match encode i with
  | .scalar w => leBytes 4 w.toNat
  | .lane w => leBytes 12 w.toNat
  | .none => []

/-- A function header word (R145): OP 0x1FF, the declared vector budget in D, every other bit zero. -/
def headerBudget (w : LaneWord) : Option Nat :=
  let n := (w.extractLsb' 65 9).toNat
  if w = ((0x1FF : BitVec 10) ++ (0 : BitVec 12) ++ w.extractLsb' 65 9 ++ (0 : BitVec 65) : BitVec 96) ∧ n % 8 = 0 ∧ 8 ≤ n ∧ n ≤ 320
  then some n else none

/-- The instruction the decoder reads from a table word of nbits bits: the bits laid out as the hardware stores them, a
scalar word of up to 32 bits in four bytes and a lane word in twelve, and given to the decoder. -/
def decodeTableWord (nbits w : Nat) : Option Instr :=
  match decodeBytes (if nbits ≤ 32 then leBytes 4 w else leBytes 12 w) with
  | .ok i => some i
  | .error _ => none

end Sys2Proof
end

