-- ==== Sys2Proof/Config.lean ====
section
/-!
DEFINITION. What the spec leaves open: constants without a body, so that no proof can rest on a value of them.
-/
namespace Sys2Proof.Config

/-- The n-th free 64-bit value: contents that a rule leaves undefined (R339), a result no rule states.
DESIGN CHOICE, log 8. -/
opaque free64 : Nat → Word

/-- The agent and cycles of the n-th move when the agenda is empty: the order of steps is not fixed (R7, R31, R250). -/
opaque nextMove : Nat → Nat × Bool × Nat × Nat × Instr

/-- Where in the ways of placing a pad allocation the n-th one goes (R295). DESIGN CHOICE, log 10. -/
opaque padPlace : Nat → Nat

/-- Which of the two values within one unit in the last place an approximated operation gives, by operation and operand
(R85, R92): true for the outer or upper one. DESIGN CHOICE, log 9. -/
opaque ulp : Nat → Nat → Bool

/-- Whether the n-th copy that pre-emption meets between two of this model's steps is in the step of writing a sector (R322).
DESIGN CHOICE, log 11. -/
opaque midSector : Nat → Bool

/-- Which of the values a pad byte had during a tile's run the tile reads, by tick and byte (R207). DESIGN CHOICE, log 70. -/
opaque tilePick : Nat → Nat → Nat

/-- What a die's measurements cover: its ROM, its firmware image and its fuse settings (R384). -/
structure Measured where
  rom : List Byte
  firmware : List Byte
  fuses : List Byte
deriving DecidableEq, Repr, Inhabited

/-- The ROM, firmware image and fuse settings of a die, which the spec does not give (R383, R384). DESIGN CHOICE, log 12. -/
opaque measured : Nat → Measured

/-- The ECDSA P-521 signature, under a die's identity key, of measurements and a nonce: two numbers of 521 bits, which the spec does not
give for any key (R384). DESIGN CHOICE, log 12. -/
opaque spdmSign : Nat → Measured → Word → BitVec 1042

end Sys2Proof.Config
end

