-- ==== Sys2Proof/Machine/State.lean ====
section
/-!
DEFINITION. The state of the part as plain data: every piece of architectural state the spec names, the queues and
units its agents work on, and the model's own agenda that says which agent moves next.
-/
namespace Sys2Proof.Machine

/-- Why the machine stops. -/
inductive Fault where
  /-- Raised by `exec` for an instruction of a team that is given no current stream. Safe: `step` gives one. -/
  | noStream
  /-- Raised by a host or peer access outside the exposed range (R379, R382). Safe: the spec gives no such byte. -/
  | absentAddress
deriving DecidableEq, Repr, Inhabited

/-- Why an instruction has no meaning. -/
inductive Refusal where
  /-- Raised by `exec` for an instruction whose meaning is not written. Safe: the machine stops. -/
  | notModelled (mnemonic : String)
deriving DecidableEq, Repr, Inhabited

/-- A map from numbers: rising keys, no entry equal to what an unlisted key reads as. -/
abbrev SMap (α : Type) := List (Nat × α)

/-- All byte storage in one map from keys (see `Key`): device, host and peer memory and the pads. -/
abbrev Memory := List Host.Cell

/-! ### Launches, cohorts, cisterns -/

/-- A launch header (R20), its fields in header order; `mbz` says that every must-be-zero field is zero. -/
structure Header where
  version : Nat := 1
  mbz : Bool := true
  entry : Nat := 0
  laneBase : Nat := 0
  image : Nat := 0
  args : Word := 0
  widths : List Nat := [5, 0, 0, 0, 0, 0]
  flags : BitVec 16 := 0
  cohorts : Nat := 1
  teams : Nat := 1
  words : Nat := 1
  vbud : Nat := 1
  sbud : Nat := 1
  pri : Nat := 0
  pad : Nat := 0
  cap : Nat := 0
  spill : Nat := 0
  tvec : Half := 0xFFFFFFFF
  dieMask : Half := 1
  tileMask : Nat := 0
  edge : Nat := 0
  edgeMin : Nat := 0
  depthMax : Nat := 0
  stride : Nat := 0
  regions : Nat := 0
  handlers : Nat := 0
  methods : Nat := 0
  stampAddr : Nat := 0
  stampVal : Word := 0
deriving DecidableEq, Repr, Inhabited

/-- The key of a team or event of a DET launch (R310); `lane` decides only among the copies of one CPY (R314). -/
structure DetKey where
  clock : Nat
  cohort : Nat
  t : Nat
  lane : Nat := 0
deriving DecidableEq, Repr, Inhabited

/-- A cistern entry (R159): header and three words. -/
structure Item where
  w0 : Word := 0
  w1 : Word := 0
  w2 : Word := 0
  w3 : Word := 0
deriving DecidableEq, Repr, Inhabited

/-- Who waits for a walk or a fault record. -/
inductive Requester where
  | lanes (team : Nat) (h : Bool) (slot : Nat)
  | scalar (team : Nat)
  | copy (id : Nat)
  | cistern (launch cohort : Nat)
  | code (core slot : Nat)
  | dispatcher (die : Nat)
  /-- The preload of a launch's span on a core (R351). -/
  | preload (launch core : Nat)
  /-- A PFETCH of an address: it takes no fault (R271). -/
  | prefetch (core : Nat) (va : Word)
deriving DecidableEq, Repr, Inhabited

/-- A refill in flight (R14, R163): the ring slots of its batch, topmost first, and the instruction that retried it, which waits
for it. -/
structure Refill where
  slots : List Nat
  hold : Option Requester := none
deriving DecidableEq, Repr, Inhabited

/-- A cohort's cistern (R14, R162 to R164): the pad part and the ring slots of the spilled entries, both from top to bottom;
`nextSlot` follows the last slot a batch wrote. Entry i of the pad part lies in slot (first + i) mod capacity of the pad's top
32 × capacity bytes (R26). -/
structure Cistern where
  pad : List Item := []
  first : Nat := 0
  spilled : List Nat := []
  nextSlot : Nat := 0
  refill : Option Refill := none
  faulted : Bool := false
deriving DecidableEq, Repr, Inhabited

/-- Team slots, lane words, lane-word registers and scalar registers of a core (R23). -/
structure Pool where
  slots : Nat := 0
  words : Nat := 0
  vregs : Nat := 0
  sregs : Nat := 0
deriving DecidableEq, Repr, Inhabited

/-- A placed cohort: its cores, the base of its allocation in each core's pad, and its cistern (R24, R25, R295). -/
structure Cohort where
  launch : Nat
  idx : Nat
  cores : List Nat := []
  bases : List Nat := []
  order : Nat := 0
  /-- The element-team reservation of a BOUNDS launch, by core (R171). -/
  resv : List (Nat × Pool) := []
  cistern : Cistern := {}
deriving DecidableEq, Repr, Inhabited

/-- An accepted launch (R34, R170, R342). -/
structure Launch where
  id : Nat
  num : Nat
  die : Nat
  ctx : Nat
  hdr : Header
  live : Nat := 0
  /-- Cohorts placed, retired, and work identifiers of lane 0 of teams that halted. -/
  placed : List Nat := []
  retired : List Nat := []
  halted : List Nat := []
  /-- The cycle from which waiting is counted (R344). -/
  since : Nat := 0
  /-- The die and cluster at which a cohort without a tile coordinate waits (R343). -/
  places : SMap (Option (Nat × Nat)) := []
  /-- Preload span: scalar pages and lane blocks (R349). -/
  spages : Nat := 0
  lblocks : Nat := 0
  /-- The token signalled at completion, when a task posted the launch (R69). -/
  token : Option Nat := none
  det : Option DetKey := none
  /-- Cores on which its teams ran. -/
  cores : List Nat := []
deriving DecidableEq, Repr, Inhabited

/-- A header posted to a dispatcher and not yet checked (R67, R381); `unread` is the address of one posted by HLAUNCH, which the
dispatcher has still to read. -/
structure Post where
  die : Nat
  ctx : Nat
  hdr : Header := {}
  token : Option Nat := none
  unread : Option Nat := none
deriving DecidableEq, Repr, Inhabited

/-- A pending task of a die's dependency table (R68, R69, R228). -/
structure Task where
  id : Nat
  die : Nat
  ctx : Nat
  core : Nat
  kind : Nat
  inputs : List Nat
  token : Option Nat
  payload : Nat
  /-- In a DET launch, the launch and key of the TASK (R314). -/
  det : Option (Nat × DetKey) := none
deriving DecidableEq, Repr, Inhabited

/-- The 64 bytes of a layout record, decoded (R215). -/
structure Layout where
  base : Nat := 0
  fmt : Word := 0
  scale : Nat := 0
  strides : List Nat := []
  ext : List Nat := []
  box0 : Nat := 1
  box1 : Nat := 1
  mode : Nat := 0
  padp : Nat := 0
  stile : Bool := false
  ivi : Bool := false
  ety : Nat := 0
  pl : Nat := 0
  /-- The reserved bits are zero. -/
  mbz : Bool := true
deriving DecidableEq, Repr, Inhabited

/-! ### Memory events -/

/-- What a page's attribute makes of an access (R292). -/
inductive Attr where
  | cached | uncached | pinSlice | pinCore
deriving DecidableEq, Repr, Inhabited

/-- The register or wait an event answers. -/
inductive Dst where
  | none
  /-- Bytes of a lane register, as `ty` loads them (R264); `half` is 1 for the odd register of a pair. -/
  | lane (reg lane : Nat) (ty : LTy)
  | scalar (reg : Nat)
  /-- A lane wait of the fragment in the slot; `h` when it is a handler's fragment. -/
  | wait (h : Bool) (slot lane : Nat)
deriving DecidableEq, Repr, Inhabited

/-- What an event does at its point. -/
inductive EvOp where
  | load (len : Nat)
  | store (data : List Byte)
  | rmw (op : AtomOp) (ty : LTy) (b : Word)
  | cas (expected new : Word)
  /-- A read of WAITA or SWAITA (R60, R273); `failed` says it must be re-armed before it reads again. -/
  | waitRead (cond : Cond) (expected : Word) (failed : Bool)
  | ldfe (words : Nat)
  | stfe (data : List Byte)
  | pbinit (arrivals bytes : Nat)
  | pbexp (n : Nat)
  | pbarv (n : Nat)
  /-- PBWAIT's read: by generation or by phase bit (R179, R230). -/
  | pbwait (gen : Bool) (n : Nat)
  /-- All element reads of one lane of LDH (R172): record, result type, and each element's byte keys, bit offset and
  scale byte key; every key with its page's attribute. -/
  | hull (lay : Layout) (ty : LTy) (elems : List (List (Nat × Attr) × Nat × Option (Nat × Attr)))
  /-- A store of some bits of one byte (R173). -/
  | patch (mask data : Byte)
deriving DecidableEq, Repr, Inhabited

/-- Where an event stands. -/
inductive EvSt where
  /-- Issued, not performed and not left. -/
  | issued
  /-- A store that left into the core copy; `wb` names the write-back under way. -/
  | left (wb : Option Nat)
  /-- A message to the home is under way. -/
  | sent
  /-- Performed at the home; the reply or acknowledgement is under way. -/
  | performed
deriving DecidableEq, Repr, Inhabited

/-- A memory event of a team's issue order (R245, R246, R248). -/
structure Ev where
  id : Nat
  team : Nat
  core : Nat
  /-- The instruction it belongs to. -/
  grp : Nat
  lane : Nat := 0
  /-- Events older in issue order that were not done at issue. -/
  preds : List Nat
  key : Nat
  attr : Attr := .cached
  scope : Scope := .team
  strong : Bool := false
  acq : Bool := false
  rel : Bool := false
  op : EvOp
  dst : Dst := .none
  st : EvSt := .issued
  /-- The value or acknowledgement on its way back; of a wait, the value its last read gave. -/
  value : Pair := 0
  ctx : Nat := 0
  region : Nat := 0
  /-- Of an LDH: the number of the item its lane held at issue. -/
  item : Nat := 0
  /-- Of a wait of the scalar stream: the cycle it began; under DET, the failed turns when it was last armed. -/
  start : Nat := 0
deriving DecidableEq, Repr, Inhabited

/-- One line of a core copy (R248, R296): byte i of the line is bits [8i+7:8i] of `data`, and bit j of `bad` says that its eight bytes
from 8j on are poisoned (R387). -/
structure Line where
  core : Nat
  line : Nat
  valid : BitVec 128 := 0
  dirty : BitVec 128 := 0
  data : BitVec 1024 := 0
  bad : BitVec 16 := 0
  tag : Scope := .team
deriving DecidableEq, Repr, Inhabited

/-- What a message to a home carries. -/
inductive MsgBody where
  /-- Bytes (offset from the line's first byte is given by the mask) written back or stored, and which eights of them are poisoned. -/
  | writeBack (line : Nat) (mask : BitVec 128) (data : BitVec 1024) (bad : BitVec 16)
  /-- The access of an event. -/
  | access (ev : Nat)
  /-- A host or peer access (R260, R382). -/
  | external (key : Nat) (acc : ExtAccess) (peer : Bool)
  /-- A dispatcher's stamp for a context (R22, R34). -/
  | stamp (ctx : Nat) (data : Word)
  /-- The acknowledgement of a write-back, or the reply to an access, on its way to the core. -/
  | reply (ev : Option Nat) (wb : Nat)
deriving DecidableEq, Repr, Inhabited

/-- Where a message is: on the ring at a die, in its home queue, or back at its core's die. -/
inductive MsgAt where
  | ring (die : Nat) (asc : Bool)
  | home
  | back
deriving DecidableEq, Repr, Inhabited

/-- A message; the list of messages is in arrival order, so each queue is the sublist of its place (R248, R249). -/
structure Msg where
  id : Nat
  core : Nat
  dest : Nat
  place : MsgAt
  body : MsgBody
  key : Nat
  len : Nat
deriving DecidableEq, Repr, Inhabited

/-! ### Translation -/

/-- A cached translation (R291, R298): pages of 2^bits bytes. -/
structure TlbEntry where
  core : Nat
  ctx : Nat
  vpage : Nat
  bits : Nat
  key : Nat
  writable : Bool
  attr : Attr
deriving DecidableEq, Repr, Inhabited

/-- A walk asked for (R298). -/
structure Walk where
  id : Nat
  core : Nat
  ctx : Nat
  vpage : Nat
  va : Word
  write : Bool
  src : Nat
  who : List Requester
deriving DecidableEq, Repr, Inhabited

/-- A record pending an answer (R299, R300): `core` is the one it names, `who` waits for the answer. -/
structure FaultRec where
  die : Nat
  seq : Nat
  core : Nat
  ctx : Nat
  vpage : Nat
  who : List Requester
deriving DecidableEq, Repr, Inhabited

/-- A mapping refused to a requester, judged when it asks again (R299, R300): by the pager, while the requester was parked for it, or
at once by a malformed entry. -/
structure Verdict where
  who : Requester
  ctx : Nat
  vpage : Nat
  parked : Bool
deriving DecidableEq, Repr, Inhabited

/-- A line in a pinned way of its slice, with the page of 2^bits bytes through which it was first reached (R293). -/
structure Pin where
  line : Nat
  ctx : Nat
  vpage : Nat
  bits : Nat := 16
deriving DecidableEq, Repr, Inhabited

/-! ### Teams -/

/-- An entry of the split table (R139). `pos` is the order position of the fragment that pushed it (R140); `uid` names
the entry for its breakers (R148). -/
structure SplitEntry where
  valid : Bool := false
  join : Int := 0
  call : Bool := false
  pend : LaneMask := 0
  pos : Nat := 0
  uid : Nat := 0
deriving DecidableEq, Repr, Inhabited

/-- What a waiting fragment waits for. -/
inductive WaitFor where
  /-- WAITA or PBWAIT: lanes not yet satisfied; PBWAIT has met a broken phase; the turns failed (DET). -/
  | reads (pending : LaneMask) (broken : Bool) (failed : Nat)
  /-- DET: LDFE or STFE whose lanes try at this turn. -/
  | tries (grp failed : Nat)
  /-- DET: WAITA, PBWAIT, LDFE or STFE between turns: the lanes that have yet to succeed. -/
  | turn (grp failed : Nat) (pending : LaneMask) (broken : Bool)
  /-- BAR; `tried` says that its turn has failed and is not yet counted (DET). -/
  | bar (tried : Bool)
  /-- `.all`: not yet gathered, or gathered and waiting for operands. -/
  | all (gathered : Bool)
  /-- TKWAIT; `tried` as for BAR. -/
  | tickets (pending : LaneMask) (tried : Bool)
  | objreg (pending : LaneMask)
  | amsg (pending : LaneMask)
  /-- QUART or ELEM: lanes whose element teams have yet to start, and the entry. -/
  | elems (pending : LaneMask) (entry : Int)
  /-- A DET turn that is still finishing its accesses. -/
  | finish (grp : Nat)
  /-- A DRAW whose steal request is on its way, or has won a victim's last entry: the victim, the cycle, and the entry; `past` is the
  rank, by die and index, of the victim whose owner took that entry back (R15). -/
  | steal (grp : Nat) (past : Option (Nat × Nat)) (won : Option (Nat × Nat × Item))
  /-- DET: a DRAW whose refill is in flight (R313). -/
  | refill
deriving DecidableEq, Repr, Inhabited

/-- A wait: the instruction, what it waits for, and the cycle it began. -/
structure LaneWait where
  instr : Instr
  exec : LaneMask
  what : WaitFor
  start : Nat := 0
deriving DecidableEq, Repr, Inhabited

/-- A fragment (R139). States: 0 ready, 1 at join, 2 waiting, 3 parked, 4 at LEND; 5 to 7 invalid (R151). -/
structure Frag where
  valid : Bool := false
  pc : Int := 0
  level : Nat := 0
  order : Nat := 0
  state : Nat := 0
  mask : LaneMask := 0
  wait : Option LaneWait := none
  /-- Memory events it precedes or equals in issue order. -/
  hist : List Nat := []
  /-- Came to its word by sequential fetch (R156). -/
  seq : Bool := false
  /-- The entry it last broke out of (R148). -/
  brk : Option Nat := none
  /-- The issue of its word does not count in the clock (R75, R309). -/
  again : Bool := false
deriving DecidableEq, Repr, Inhabited

/-- A split table (R139, R151). -/
structure Split where
  depth : Nat := 0
  last : Nat := 0
  entries : SMap SplitEntry := []
  frags : SMap Frag := []
deriving DecidableEq, Repr, Inhabited

/-- A lane block: entry and argument slots (R5, R30). -/
structure Block where
  entry : Int
  args : List Word := []
  /-- Enqueued at trap level (R323). -/
  handler : Bool := false
  /-- Scalar accesses that precede its accesses (R61). -/
  after : List Nat := []
  /-- The event number at which it started: its own accesses have this number or a later one. -/
  born : Nat := 0
deriving DecidableEq, Repr, Inhabited

inductive TeamSort where
  | ordinary
  /-- Element team of a lane of the spawning team (R176). -/
  | element (owner lane : Nat) (row col edge : Nat)
  /-- Combiner wave of an object (R242). -/
  | wave (obj : Nat)
  /-- Message handler (R284). -/
  | handler
deriving DecidableEq, Repr, Inhabited

/-- A trap raised and not yet entered (R327). -/
structure Raised where
  cause : Nat
  code : BitVec 18 := 0
  ti : Bool := false
  ln : Bool := false
  slot : Nat := 0
  mask : LaneMask := 0
  resume : Int := 0
deriving DecidableEq, Repr, Inhabited

/-- A request to pre-empt or remove (R338, R340). -/
inductive PReq where
  | preempt | remove
deriving DecidableEq, Repr, Inhabited

/-- A vector register empty in a lane word (R41); `tile` when a tile will fill it (R207). -/
structure Mark where
  reg : Nat
  word : Nat
  grp : Nat
  tile : Bool := false
deriving DecidableEq, Repr, Inhabited

/-- A scalar-register write in flight from lane code (R31). -/
structure SFill where
  id : Nat
  reg : Nat
  value : Word
  hist : List Nat
  region : Nat := 0
deriving DecidableEq, Repr, Inhabited

/-- The item state of a lane (R161). -/
structure Held where
  depth : Nat := 0
  kind : Nat := 0
  axis : Nat := 0
  tag : Nat := 0
  wide : Bool := false
  tile : Word := 0
  /-- The model's own number of the item, and of the LDH that last set `wide`: an LDH marks the item it found at issue, and the last
  LDH in program order counts. -/
  no : Nat := 0
  ldh : Nat := 0
deriving DecidableEq, Repr, Inhabited

/-- A tile of the matrix queue (R205, R207, R208). -/
structure Tile where
  id : Nat
  d : Nat
  n : Nat
  k : Nat
  z : Bool
  q : Bool
  oa : Nat
  ob : Nat
  oc : Nat
  rows : LaneMask
  mfmt : BitVec 32
  codebook : List Word
  running : Bool := false
  /-- The tick at which it started. -/
  began : Nat := 0
  preds : List Nat := []
deriving DecidableEq, Repr, Inhabited

structure Team where
  id : Nat
  launch : Nat
  cohort : Nat
  tidx : Nat
  sort : TeamSort := .ordinary
  ctx : Nat := 0
  core : Nat := 0
  part : Nat := 0
  slot : Nat := 0
  pri : Nat := 0
  hdr : Header := {}
  /-- Lane words and budgets in registers. -/
  words : Nat := 1
  vbud : Nat := 8
  sbud : Nat := 16
  /-- Work identifiers that do not follow from the indices: spawned teams' and, per lane, a wave's (R176, R242, R284). -/
  widOf : SMap Word := []
  cohortOf : SMap Word := []
  spc : Int := 0
  sregs : SMap Word := []
  sempty : List Nat := []
  kflags : BitVec 16 := 0
  vregs : SMap Word := []
  marks : List Mark := []
  q : SMap (BitVec 2) := []
  fflags : SMap (BitVec 16) := []
  items : SMap (Option Held) := []
  /-- Lanes that have not executed EXIT (R17). -/
  mask : LaneMask := 0
  queue : List Block := []
  run : Option Block := none
  split : Split := {}
  /-- Blocks, running block and split table of the handler (R323). -/
  hqueue : List Block := []
  hrun : Option Block := none
  hsplit : Split := {}
  splitsel : BitVec 8 := 0
  clock : Nat := 0
  waitlimit : Half := 0
  tvec : Half := 0xFFFFFFFF
  trapcause : Half := 0
  trappc : Half := 0
  faultmask : LaneMask := 0
  regionpc : Half := 0
  livein : List Word := []
  regionNo : Nat := 0
  committed : Bool := false
  trapLevel : Bool := false
  raised : Option Raised := none
  crit : Bool := false
  /-- An uncorrectable error has hit one of its words: it halts as soon as it may (R387). -/
  dying : Bool := false
  preq : Option PReq := none
  mfmt : BitVec 32 := 0
  codebook : List Word := []
  tiles : List Tile := []
  tilesDone : Half := 0
  fills : List SFill := []
  /-- Scalar issue order, the scalar events before the last SFENCE, and what lane fills of a register followed. -/
  shist : List Nat := []
  sfenced : List Nat := []
  sfill : SMap (List Nat) := []
  swaited : List Nat := []
  /-- DET: the scalar instruction at spc has begun (of SWAITA, its event); the turns it failed. -/
  swait : Option Nat := none
  sfailed : Nat := 0
  /-- DET: the slot of the waiting fragment that took the last turn. -/
  tried : Nat := 0
  /-- DET: the address of the LQ whose block has not ended (R309). -/
  lqAt : Option Int := none
  /-- A combiner wave's CRET has replied (R242). -/
  replied : Bool := false
  /-- An element team that runs on its cohort's reservation (R176). -/
  fromResv : Bool := false
  /-- Its launch's preload span (R351). -/
  spages : Nat := 0
  lblocks : Nat := 0
  /-- Levels gained by waiting, the cycle it last issued, and the cycles in a row since then in which it had a candidate (R347, R348). -/
  gain : Nat := 0
  issued : Nat := 0
  waited : Nat := 0
  /-- The cycle at which the dispatcher last requested its pre-emption (R344). -/
  asked : Option Nat := none
deriving DecidableEq, Repr, Inhabited

/-! ### Copies, engine, code -/

/-- A copy (R220 to R226). `team` is `none` for the copy of a task (R227). -/
structure Copy where
  id : Nat
  team : Option Nat
  core : Nat
  ctx : Nat
  slot : Nat := 0
  lane : Nat := 0
  stopped : Bool := false
  /-- Its team was pre-empted while it was writing a sector: it stops after that sector (R322). -/
  stopping : Bool := false
  /-- It has delivered every byte or failed: its slot is free, and what is left is its completion clause (R223, R224). -/
  ended : Bool := false
  /-- The status a failed copy writes to its stamp (R224, R227); 0 while it has not failed. -/
  fail : Word := 0
  done : Nat := 0
  total : Nat := 0
  dir : Dir := .toPad
  lay : Layout := {}
  coord : Word := 0
  dst : Nat := 0
  /-- The key of its phase barrier. -/
  pb : Option Nat := none
  arv : Bool := false
  stamp : Option (Nat × Word) := none
  token : Option Nat := none
  preds : List Nat := []
  flags : BitVec 16 := 0
  launch : Nat := 0
  /-- DET: the key of the issuing CPY or TASK, and the credits owed (R314). -/
  det : Option DetKey := none
  owed : List Nat := []
  /-- The region of its CPY, as an access has it; 0 for a handler's (R339). -/
  region : Nat := 0
deriving DecidableEq, Repr, Inhabited

/-- A slot of a core's instruction store (R350): its page when pending or landed, and its bytes; `vpage` is the page of the
address it is filled from. -/
structure CodeSlot where
  core : Nat
  slot : Nat
  landed : Bool
  ctx : Nat
  image : Nat
  page : Nat
  vpage : Nat := 0
  bytes : List Byte := []
  /-- The first offsets of its poisoned eight bytes (R387). -/
  bad : List Nat := []
  preds : List Nat := []
deriving DecidableEq, Repr, Inhabited

/-- A CINV issued and not yet in effect (R72, R354). -/
structure Cinv where
  id : Nat
  team : Nat
  core : Nat
  slots : List Nat
deriving DecidableEq, Repr, Inhabited

/-! ### Confluence, messages, tickets, collectives -/

/-- An object registration with its window, wave and poison (R240, R278, R282). -/
structure ObjReg where
  id : Nat
  launch : Nat
  key : Nat
  va : Nat
  ctx : Nat
  len : Nat
  mbase : Nat
  win : Nat
  poisoned : Bool := false
  window : Option (Nat × Nat) := none
  wave : Option Nat := none
  packed : List Nat := []
deriving DecidableEq, Repr, Inhabited

/-- What a message to a confluence unit asks. -/
inductive ReqKind where
  | comb (meth : Nat) (arg : Word)
  | register (len mbase win : Nat)
  | clear
deriving DecidableEq, Repr, Inhabited

/-- Where a request is: on its way, held at the unit, in a wave, answered and on its way back, or (a registration) back at
its core, where the answers of the instruction's other lanes are still awaited. -/
inductive ReqAt where
  | sent | held | inWave (lane : Nat) | answered | back
deriving DecidableEq, Repr, Inhabited

/-- A COMB request, a registration or a clear (R241, R278 to R282). -/
structure Req where
  id : Nat
  team : Nat
  launch : Nat
  core : Nat
  ctx : Nat
  lane : Nat
  grp : Nat
  kind : ReqKind
  va : Nat
  key : Nat
  wid : Word
  cohort : Nat
  clock : Nat
  reg : Nat := 0
  qs : Nat := 0
  place : ReqAt := .sent
  preds : List Nat := []
  obj : Option Nat := none
  /-- The answer: status and value; `keep` says that the register keeps its value. -/
  status : Tri := .u
  value : Word := 0
  keep : Bool := false
  /-- Of a registration: refused by the unit, or put into force by it. -/
  bad : Bool := false
  fresh : Bool := false
  /-- The team was pre-empted: the reply writes nothing. -/
  dropped : Bool := false
  region : Nat := 0
  h : Bool := false
  slot : Nat := 0
deriving DecidableEq, Repr, Inhabited

/-- A message in a core's incoming queue (R283). -/
structure AMsg where
  core : Nat
  handler : Nat
  payload : List Word
  addr : Word
  wid : Word
  cohort : Nat
  ctx : Nat
  pri : Nat
  hdr : Header
  launch : Nat
  spages : Nat := 0
  lblocks : Nat := 0
deriving DecidableEq, Repr, Inhabited

/-- A ticket object bound to a launch (R285, R286). -/
structure Ticket where
  key : Nat
  launch : Nat
  level : Nat
  held : List Nat := []
deriving DecidableEq, Repr, Inhabited

/-- A tree descriptor, decoded (R305). -/
structure Tree where
  nc : Nat := 0
  timeout : Nat := 0
  result : Nat := 0
  stamp : Nat := 0
  tag : Word := 0
  wids : List Word := []
  nodes : List (Nat × Nat × Nat) := []
  ok : Bool := false
deriving DecidableEq, Repr, Inhabited

/-- One contribution of a lane word to a collective (R306): absent elements are `none`. -/
structure Contrib where
  id : Nat
  team : Nat
  launch : Nat
  core : Nat
  ctx : Nat
  key : Nat
  contributor : Nat
  word : Nat
  grp : Nat
  reg : Nat
  op : RedOp
  ty : LTy
  elems : List (Option Word)
  tree : Tree
  det : Option DetKey := none
  leftCore : Bool := false
deriving DecidableEq, Repr, Inhabited

/-- A collective instance (R307, R308): the values present at inputs, by input number. -/
structure Inst where
  id : Nat
  key : Nat
  ctx : Nat
  core : Nat
  launch : Nat
  tree : Tree
  op : RedOp
  ty : LTy
  began : Nat
  present : List (Nat × List (Option Word)) := []
  /-- Contributors whose contributions have reached their nodes, and the greatest key among these. -/
  arrived : List Nat := []
  det : Option DetKey := none
  result : Option (List (Option Word)) := none
  gen : Nat := 0
  broken : Bool := false
deriving DecidableEq, Repr, Inhabited

/-- The communicator of a descriptor (R321): the generation it is bound to, whether it is invalid, and the dies from which the
contributions of the launch have come. -/
structure Comm where
  key : Nat
  gen : Nat
  launch : Nat := 0
  invalid : Bool := false
  bound : Bool := false
  dies : List Nat := []
deriving DecidableEq, Repr, Inhabited

/-- An atomic held in its core's buffer until a drain (R315); `id` is its place in issue order (R245). -/
structure HeldAtom where
  id : Nat := 0
  launch : Nat
  key : DetKey
  team : Nat
  core : Nat
  ctx : Nat
  addr : Nat
  attr : Attr
  pad : Bool
  op : AtomOp
  ty : LTy
  b : Word
  scope : Scope := .team
  rel : Bool := false
  /-- What its team issued before it that was not done then. -/
  preds : List Nat := []
deriving DecidableEq, Repr, Inhabited

/-! ### Dies -/

/-- The registers and units of a die (R301, R302, R320, R340, R381, R383). -/
structure Die where
  ctxt : Word := 0
  fqbase : Word := 0
  fqsize : Nat := 4
  fqtail : Word := 0
  fqhead : Word := 0
  fqseq : Nat := 0
  /-- Invalidations in progress: context, first page number and pages, or everything. -/
  invals : List (Option Nat × Option Nat) := []
  pinwin : SMap Nat := []
  pinwinNext : SMap (Option Nat) := []
  shm : SMap Word := []
  /-- The route bits as written, as the last write of RTGEN found them, and in force: bit d is DIR of ROUTE d. -/
  routeNext : BitVec 4 := 0
  routeTaken : BitVec 4 := 0
  route : BitVec 4 := 0
  prouteNext : BitVec 4 := 0
  prouteTaken : BitVec 4 := 0
  proute : BitVec 4 := 0
  linkstat : BitVec 4 := 0
  /-- Links that cannot carry flits, whatever LINKSTAT shows. -/
  failed : BitVec 4 := 0
  rtgen : Half := 0
  rtgenNext : Option Half := none
  pwrlim : Nat := 1800
  eccCorrected : Half := 0
  eccUncorrected : Half := 0
  intq : Word := 0
  paper : SMap Word := []
  /-- Stage reached by boot: 0 in ROM, 1 firmware verified, 2 memory trained, 3 the intake program is started. -/
  stage : Nat := 2
  present : Bool := true
  /-- Its CXL port trained to a host during boot (R379). -/
  linkUp : Bool := true
  /-- The host ranges, as base and length, to which the windows that the ROM locked limit the device's requests (R383, R385). -/
  windows : List (Nat × Nat) := [(0, 2 ^ 52)]
  /-- Its thermal trip has acted (R385). -/
  hot : Bool := false
  tokens : SMap (BitVec 16) := []
  launches : Nat := 0
  /-- Records of kinds 2 and 3 that wait for room in the fault queue (R299: no record is lost). -/
  fqwait : List (List Word) := []
deriving DecidableEq, Repr, Inhabited

/-! ### The agenda -/

/-- A signed SPDM measurement response of a die: the nonce it answers, what was measured, and the ECDSA P-521 signature over them, two
numbers of 521 bits (R384). -/
structure SpdmResponse where
  die : Nat
  nonce : Word
  measured : Config.Measured
  signature : BitVec 1042
deriving DecidableEq, Repr

/-- The agent that moves next: a stream of a team, or one of the part's other agents by the step it takes. -/
inductive Act where
  | scalar (team : Nat)
  /-- The fragment in a slot of the team's running block. -/
  | lane (team slot : Nat)
  | event (i : Instr)
deriving DecidableEq, Repr, Inhabited

/-- One move: the cycles that pass before it, and the agent. -/
structure Choice where
  dt : Nat
  act : Act
deriving DecidableEq, Repr, Inhabited

/-- The stream on whose behalf `exec` runs. -/
structure Cur where
  team : Nat
  slot : Option Nat
deriving DecidableEq, Repr, Inhabited

structure State where
  agenda : List Choice := []
  cur : Option Cur := none
  tick : Nat := 0
  cycle : Nat := 0
  evId : Nat := 1
  placedNo : Nat := 0
  /-- Byte storage, and the bytes this step has stored, newest first; `step` commits them. -/
  mem : Memory := []
  staged : List Host.Cell := []
  poison : List Nat := []
  tags : List Nat := []
  padCtx : SMap Nat := []
  /-- While a tile runs: the pad bytes stored over, newest first, each with the tick of the store and the byte before it (R207). -/
  padOld : List (Nat × Nat × Byte) := []
  lines : List Line := []
  evs : List Ev := []
  msgs : List Msg := []
  /-- Lines that lie in pinned ways of their slice (R293). -/
  pins : List Pin := []
  tlb : List TlbEntry := []
  walks : List Walk := []
  records : List FaultRec := []
  verdicts : List Verdict := []
  slots : List CodeSlot := []
  cinvs : List Cinv := []
  posts : List Post := []
  launches : List Launch := []
  cohorts : List Cohort := []
  teams : List Team := []
  tasks : List Task := []
  copies : List Copy := []
  lastTile : SMap Nat := []
  patterns : SMap (BitVec 16) := []
  objs : List ObjReg := []
  reqs : List Req := []
  amsgs : List AMsg := []
  tickets : List Ticket := []
  contribs : List Contrib := []
  insts : List Inst := []
  comms : List Comm := []
  atoms : List HeldAtom := []
  dies : SMap Die := []
  skipping : Bool := false
  hostReplies : List (Nat × Option Word) := []
  /-- What the reads of peer parts were answered (R382). -/
  peerReplies : List (Nat × Option Word) := []
  /-- The address of the capability list in a context of a die (4096 × die + context), where firmware has mapped one (R358). -/
  caps : SMap Word := []
  spdm : List SpdmResponse := []
deriving DecidableEq, Repr, Inhabited

/-- The slice hash masks of R302 (bit 4p + i of the key is mask i of partition p). -/
def shmReset : SMap Word :=
  (List.range 32).map fun n =>
    (n, [0x0000000888888880, 0x0000001111111100, 0x0000000222222200, 0x0000000444444400].getD (n % 4) 0)

/-- The routes of R249: the shorter direction, ascending at distance 2; bit t is 1 when the route to die t descends. -/
def routeReset (d : Nat) : BitVec 4 :=
  ((List.range 4).filter fun t => (t + 4 - d) % 4 == 3).foldl (fun m t => m ||| (1 <<< t)) 0

/-- A die after reset (R301, R302, R320, R340, R381, R383). DESIGN CHOICE, log 3. -/
def Die.reset (d : Nat) : Die := { shm := shmReset, routeNext := routeReset d, route := routeReset d }

/-- The machine right after reset (R383): every register of every die at its reset value, no launch, no team.
DESIGN CHOICE, log 2, 3. -/
def State.reset : State := { dies := (List.range 4).map fun d => (d, Die.reset d) }

end Sys2Proof.Machine
end

