-- ==== Sys2Proof/Machine/Mem.lean ====
section
/-!
DEFINITION. Maps in canonical form and the byte storage of the part: every byte access of the model goes through
`State.byte` and `State.setByte`.
-/
namespace Sys2Proof.Machine

abbrev Out := Host.Outcome State Fault Refusal

/-- The value of a key; an unlisted key reads as `d`. -/
def SMap.rd {α : Type} (d : α) : SMap α → Nat → α
  | [], _ => d
  | (k', v) :: t, k => if k' = k then v else SMap.rd d t k

/-- List a key with a value, keeping rising keys rising. -/
def SMap.ins {α : Type} : SMap α → Nat → α → SMap α
  | [], k, v => [(k, v)]
  | (k', v') :: t, k, v =>
    if k < k' then (k, v) :: (k', v') :: t
    else if k = k' then (k, v) :: t
    else (k', v') :: SMap.ins t k v

/-- Set a key, keeping the keys rising and no entry equal to `d`. -/
def SMap.wr {α : Type} [DecidableEq α] (d : α) (m : SMap α) (k : Nat) (v : α) : SMap α :=
  if v = d then m.filter fun e => e.1 != k else SMap.ins m k v

/-- Rising keys, none at or below `lo` when `lo` is given, and no entry equal to `d`. -/
def SMap.wfFrom {α : Type} [DecidableEq α] (d : α) : Option Nat → SMap α → Bool
  | _, [] => true
  | lo, (k, v) :: t => (match lo with | some l => decide (l < k) | none => true) && decide (v ≠ d) && SMap.wfFrom d (some k) t

/-- The canonical form. -/
def SMap.wf {α : Type} [DecidableEq α] (d : α) (m : SMap α) : Bool := SMap.wfFrom d none m

/-! ### Sets of numbers -/

def insertNat (k : Nat) : List Nat → List Nat
  | [] => [k]
  | a :: t => if k < a then k :: a :: t else if k = a then a :: t else a :: insertNat k t

def unionNat (a b : List Nat) : List Nat := a ++ b.filter fun x => !a.contains x

/-! ### Keys of byte storage (R289, R294, R382) -/

/-- What an unlisted byte reads as: R295 for the pads; for device, host and peer memory the model's choice.
DESIGN CHOICE, log 1. -/
def Memory.unlisted : Byte := 0

/-- Memory in canonical form. -/
def Memory.wf (m : Memory) : Bool := SMap.wf Memory.unlisted m

/-- DEDUCED, log 20. -/
def devLimit : Nat := 2 ^ 39
/-- DESIGN CHOICE, log 77. -/
def hostKey (pa : Nat) : Nat := 2 ^ 52 + pa
/-- DESIGN CHOICE, log 77. -/
def peerKey (n off : Nat) : Nat := 2 ^ 53 + n * 2 ^ 40 + off
def ctlKey (die off : Nat) : Nat := 2 ^ 56 + die * 2 ^ 16 + off
def padBytes : Nat := 3 * 2 ^ 20
def padKey (core off : Nat) : Nat := 2 ^ 60 + core * 2 ^ 22 + off

def isCtl (k : Nat) : Bool := 2 ^ 56 ≤ k && k < 2 ^ 60
def isHost (k : Nat) : Bool := 2 ^ 52 ≤ k && k < 2 ^ 53
def isPeer (k : Nat) : Bool := 2 ^ 53 ≤ k && k < 2 ^ 56
def isPad (k : Nat) : Bool := 2 ^ 60 ≤ k
def isDev (k : Nat) : Bool := k < devLimit

/-! ### Bytes -/

/-- The byte at a key: what this step stored last, else what memory holds. DESIGN CHOICE, log 1. -/
def State.byte (s : State) (k : Nat) : Byte :=
  match s.staged.find? fun c => c.1 == k with
  | some c => c.2
  | none => SMap.rd Memory.unlisted s.mem k

/-- Store one byte. -/
def State.setByte (s : State) (k : Nat) (b : Byte) : State := { s with staged := (k, b) :: s.staged }

/-- The bytes a step stored, put into memory oldest first. -/
def commitCells (m : Memory) : List Host.Cell → Memory
  | [] => m
  | (k, b) :: older => SMap.wr Memory.unlisted (commitCells m older) k b

def State.bytes (s : State) (k : Nat) : Nat → List Byte
  | 0 => []
  | n + 1 => s.byte k :: s.bytes (k + 1) n

def State.setBytes (s : State) (k : Nat) : List Byte → State
  | [] => s
  | b :: bs => (s.setByte k b).setBytes (k + 1) bs

/-- The little-endian number in n bytes (R20, R36). -/
def State.nat (s : State) (k n : Nat) : Nat := leNat (s.bytes k n)
def State.word (s : State) (k : Nat) : Word := BitVec.ofNat 64 (s.nat k 8)
def State.setWord (s : State) (k : Nat) (w : Word) : State := s.setBytes k (leBytes 8 w.toNat)

/-! ### Pads: bytes with the context that wrote them last, and tags (R259, R295) -/

/-- A tile runs in some engine. -/
def State.tilesRun (s : State) : Bool := s.teams.any fun T => T.tiles.any fun t => t.running

/-- Store pad bytes on behalf of a context; while tiles run, the bytes they may still read in their old value are kept (R207). -/
def State.setPad (s : State) (ctx k : Nat) (bs : List Byte) : State :=
  { s.setBytes k bs with
    padOld := if s.tilesRun then ((List.range bs.length).map fun i => (s.tick, k + i, s.byte (k + i))) ++ s.padOld else s.padOld
    padCtx := (List.range bs.length).foldl (fun m i => SMap.wr 0 m (k + i) (ctx + 1)) s.padCtx }

def State.tagFull (s : State) (k : Nat) : Bool := s.tags.contains k
def State.setTag (s : State) (k : Nat) (full : Bool) : State :=
  { s with tags := if full then insertNat k s.tags else s.tags.filter (· != k) }

/-! ### Poison (R387) -/

/-- A byte of the range is poisoned at its home. -/
def State.poisoned (s : State) (k n : Nat) : Bool := s.poison.any fun p => k ≤ p && p < k + n

/-- The bytes are poisoned at their home from now on. -/
def State.taint (s : State) (ks : List Nat) : State := { s with poison := ks.foldl (fun r k => insertNat k r) s.poison }

/-- A full aligned 8-byte store clears the poison of its bytes. -/
def State.clearPoison (s : State) (k n : Nat) : State :=
  if n = 8 && k % 8 = 0 && !s.poison.isEmpty then { s with poison := s.poison.filter fun p => !(k ≤ p && p < k + 8) } else s

/-- Store bytes of an access at their home. DEDUCED, log 34. -/
def State.storeAt (s : State) (ctx k : Nat) (bs : List Byte) : State :=
  if isPad k then s.setPad ctx k bs else (s.setBytes k bs).clearPoison k bs.length

/-! ### Masks -/

/-- The lanes of a mask among the first n, ascending. -/
def lanesOf (m : LaneMask) (n : Nat) : List Nat := (List.range n).filter m.getLsbD

def laneBit (l : Nat) : LaneMask := 1 <<< l

def maskOf (ls : List Nat) : LaneMask := ls.foldl (fun m l => m ||| laneBit l) 0

/-- Every lane of n. -/
def fullMask (n : Nat) : LaneMask := BitVec.ofNat 1024 (2 ^ n - 1)

/-- The 32-bit word j of a mask. -/
def maskWord (m : LaneMask) (j : Nat) : Half := m.extractLsb' (32 * j) 32

/-- The summary word (R17). -/
def summary (m : LaneMask) : Half :=
  (List.range 32).foldl (fun w j => if maskWord m j == 0 then w else w ||| (1 <<< j)) 0

/-- The lane words in which a lane of the mask lies. -/
def wordsOf (m : LaneMask) : List Nat := (List.range 32).filter fun j => maskWord m j != 0

/-- The lowest-numbered lane. -/
def lowest (m : LaneMask) (n : Nat) : Option Nat := (lanesOf m n).head?

end Sys2Proof.Machine
end

