-- ==== Sys2Proof/Machine/Split.lean ====
section
/-!
DEFINITION. The split table (R139 to R152): fragments, entries, joining, fusing and order positions.
-/
namespace Sys2Proof.Machine

def Split.frag (sp : Split) (slot : Nat) : Frag := SMap.rd {} sp.frags slot
def Split.setFrag (sp : Split) (slot : Nat) (f : Frag) : Split := { sp with frags := SMap.wr {} sp.frags slot f }
/-- The entry at level e, from 1 to 32. -/
def Split.entry (sp : Split) (e : Nat) : SplitEntry := SMap.rd {} sp.entries (e - 1)
def Split.setEntry (sp : Split) (e : Nat) (x : SplitEntry) : Split := { sp with entries := SMap.wr {} sp.entries (e - 1) x }

/-- Live fragments with their slots. -/
def Split.live (sp : Split) : List (Nat × Frag) := sp.frags.filter fun p => p.2.valid
def Split.atLevel (sp : Split) (e : Nat) : List (Nat × Frag) := sp.live.filter fun p => p.2.level == e

/-- The lowest slots that hold no live fragment. -/
def Split.freeSlots (sp : Split) : List Nat := (List.range 64).filter fun i => !(sp.frag i).valid

/-- The join of a level's entry; level 0 has none. -/
def Split.joinAt (sp : Split) (e : Nat) : Option Int := if e = 0 then none else some (sp.entry e).join

/-- A fragment whose counter has just changed: at join exactly when the counter equals the join of its level (R140). -/
def Split.reach (sp : Split) (f : Frag) : Frag :=
  { f with state := if sp.joinAt f.level = some f.pc then 1 else 0 }

/-- The pending mask of every entry is the union of the masks at its level and above (R139). -/
def Split.pendOf (sp : Split) (e : Nat) : LaneMask :=
  sp.live.foldl (fun m p => if e ≤ p.2.level then m ||| p.2.mask else m) 0

def Split.fixPend (sp : Split) : Split :=
  { sp with entries := sp.entries.map fun p => if p.2.valid then (p.1, { p.2 with pend := sp.pendOf (p.1 + 1) }) else p }

/-- Discard the entry at the deepest level. -/
def Split.pop (sp : Split) : Split := { sp.setEntry sp.depth {} with depth := sp.depth - 1 }

/-- Order positions in use at a level: its fragments' and the one a pushed entry keeps for the fragment that will
return (R140). -/
def Split.positions (sp : Split) (e : Nat) : List Nat :=
  (sp.atLevel e).map (·.2.order) ++ (if sp.depth > e then [(sp.entry (e + 1)).pos] else [])

/-- Renumber a level so that its positions are consecutive from 0 and keep their order (R148). -/
def Split.compact (sp : Split) (e : Nat) : Split :=
  let used := (sp.positions e).foldl (fun l x => insertNat x l) []
  let rank := fun o => (used.filter (· < o)).length
  let sp' := { sp with frags := sp.frags.map fun p =>
    if p.2.valid && p.2.level == e then (p.1, { p.2 with order := rank p.2.order }) else p }
  if sp.depth > e then sp'.setEntry (e + 1) { sp.entry (e + 1) with pos := rank (sp.entry (e + 1)).pos } else sp'

/-- Make room for a position directly after o at a level. -/
def Split.shiftAfter (sp : Split) (e o : Nat) : Split :=
  let up := fun x => if x > o then x + 1 else x
  let sp' := { sp with frags := sp.frags.map fun p =>
    if p.2.valid && p.2.level == e then (p.1, { p.2 with order := up p.2.order }) else p }
  if sp.depth > e then sp'.setEntry (e + 1) { sp.entry (e + 1) with pos := up (sp.entry (e + 1)).pos } else sp'

/-- The position of the last fragment at level e that broke out of the entry named, when there is one (R148). -/
def Split.lastBreaker (sp : Split) (e uid : Nat) : Option Nat :=
  (sp.atLevel e).foldl (fun r p => if p.2.brk = some uid then
    (match r with | none => some p.2.order | some o => some (max o p.2.order)) else r) none

/-- Fuse the fragments of the deepest level, all at join, into one fragment of the level below (R140). Its position is
that of the fragment that pushed the entry; after breakers out of the entry that hold it, directly behind them. DESIGN CHOICE, log 85. -/
def Split.fuse (sp : Split) : Split :=
  let e := sp.depth
  let fs := sp.atLevel e
  let ent := sp.entry e
  match fs with
  | [] => sp.pop
  | (slot, f) :: rest =>
    let g : Frag := { f with
      mask := rest.foldl (fun m p => m ||| p.2.mask) f.mask
      hist := rest.foldl (fun h p => unionNat h p.2.hist) f.hist
      pc := ent.join, level := e - 1, order := ent.pos, state := 0, wait := none, seq := false, brk := none, again := false }
    let sp1 := (rest.foldl (fun (q : Split) p => q.setFrag p.1 {}) (sp.setFrag slot {})).pop
    match sp1.lastBreaker (e - 1) ent.uid with
    | none => sp1.setFrag slot (sp1.reach g)
    | some o =>
      let sp2 := sp1.shiftAfter (e - 1) o
      (sp2.setFrag slot (sp2.reach { g with order := o + 1 })).compact (e - 1)

/-- Discard empty entries and fuse complete ones from the deepest level upward (R140, R142). -/
def Split.settleN : Nat → Split → Split
  | 0, sp => sp
  | n + 1, sp =>
    if sp.depth = 0 then sp
    else
      let fs := sp.atLevel sp.depth
      if fs.isEmpty then sp.pop.settleN n
      else if fs.all fun p => p.2.state == 1 then sp.fuse.settleN n
      else sp

def Split.settle (sp : Split) : Split := (sp.settleN 33).fixPend

/-- Put a fragment back after it moved, and settle. -/
def Split.moved (sp : Split) (slot : Nat) (f : Frag) : Split := (sp.setFrag slot (sp.reach f)).settle

/-- Push an entry above fragment `slot` and replace the fragment by pieces (mask, counter, and whether it goes on in
sequence) in order (R144 to R146). The pieces take the fragment's slot and the lowest free ones. DESIGN CHOICE, log 85. -/
def Split.push (sp : Split) (slot uid : Nat) (call : Bool) (join : Int) (pieces : List (LaneMask × Int × Bool)) :
    Split :=
  let f := sp.frag slot
  let d := f.level
  let sp0 := sp.setFrag slot {}
  let sp1 := { sp0.setEntry (d + 1) ⟨true, join, call, f.mask, f.order, uid⟩ with depth := d + 1 }
  let slots := slot :: (sp0.freeSlots.filter (· != slot))
  let sp2 := ((pieces.zip slots).zipIdx).foldl (fun (q : Split) x =>
    let ((p, sl), i) := x
    q.setFrag sl (q.reach { f with
      pc := p.2.1, mask := p.1, level := d + 1, order := i, seq := p.2.2, brk := none, again := false, wait := none })) sp1
  sp2.settle

/-- Whether a push of k pieces by a fragment of level d stays within 32 levels and 64 fragments (R144, R146). -/
def Split.canPush (sp : Split) (d k : Nat) : Bool := d != 32 && sp.live.length + k ≤ 65

/-- Fragments of a level fuse into the one of lowest position, which stays at its word (R154, R155). -/
def Split.merge (sp : Split) (e : Nat) (p : Frag → Bool) : Split :=
  let fs := (sp.atLevel e).filter fun x => p x.2
  match fs with
  | [] => sp
  | a :: rest =>
    let keep := rest.foldl (fun k x => if x.2.order < k.2.order then x else k) a
    let sp1 := fs.foldl (fun (q : Split) x => q.setFrag x.1 {}) sp
    (sp1.setFrag keep.1 { keep.2 with
      mask := fs.foldl (fun m x => m ||| x.2.mask) 0
      hist := fs.foldl (fun h x => unionNat h x.2.hist) [] }).compact e

/-- A fragment and the fragment that keeps the rest of its lanes: `part` leaves `slot` for a new fragment directly
after it (R153). -/
def Split.part (sp : Split) (slot : Nat) (part : LaneMask) (state : Nat) : Split :=
  let f := sp.frag slot
  match sp.freeSlots with
  | [] => sp
  | n :: _ =>
    let sp1 := sp.shiftAfter f.level f.order
    ((sp1.setFrag slot { f with mask := f.mask &&& ~~~part }).setFrag n
      { f with mask := part, order := f.order + 1, state := state, wait := none, again := true }).compact f.level

/-- The eligible fragments: those of the deepest occupied level (R141). -/
def Split.deepest (sp : Split) : Nat := sp.live.foldl (fun m p => max m p.2.level) 0

def Split.eligible (sp : Split) (slot : Nat) : Bool :=
  (sp.frag slot).valid && (sp.frag slot).level == sp.deepest

/-- The first eligible fragment in a given state set: LAST when it is one of them, else the lowest position (R141,
R151). -/
def Split.first (sp : Split) (ok : Frag → Bool) : Option Nat :=
  let c := (sp.atLevel sp.deepest).filter fun p => ok p.2
  if c.any fun p => p.1 == sp.last then some sp.last
  else (c.foldl (fun (r : Option (Nat × Frag)) p => match r with
    | none => some p
    | some q => if p.2.order < q.2.order then some p else some q) none).map (·.1)

/-- The split table of a block that starts (R29). -/
def Split.start (entry : Int) (mask : LaneMask) (hist : List Nat) : Split :=
  { frags := SMap.wr {} [] 0 { valid := true, pc := entry, mask := mask, hist := hist } }

/-- Take lanes out of a fragment for good; an empty fragment ends (R142, R149). -/
def Split.dropLanes (sp : Split) (slot : Nat) (ls : LaneMask) : Split :=
  let f := sp.frag slot
  let m := f.mask &&& ~~~ls
  (if m == 0 then sp.setFrag slot {} else sp.setFrag slot { f with mask := m })

/-- A fragment leaves the entries above level e and takes, at level e, the position of the fragment that pushed the
lowest entry it leaves, or the position after earlier ones that left the same entry: R148 gives this for BRK, and RET and LEND are
treated alike (R147, R150). DESIGN CHOICE, log 85. -/
def Split.leaveTo (sp : Split) (slot e : Nat) (g : Frag → Frag) : Split :=
  let f := sp.frag slot
  if f.level ≤ e then sp.setFrag slot (g f)
  else
    let ent := sp.entry (e + 1)
    let f' : Frag := { g f with level := e, order := ent.pos, brk := some ent.uid, seq := false }
    let sp1 := sp.setFrag slot {}
    match sp1.lastBreaker e ent.uid with
    | none => sp1.setFrag slot f'
    | some o => ((sp1.shiftAfter e o).setFrag slot { f' with order := o + 1 }).compact e

/-- The conditions of R152. DEDUCED, log 68. -/
def Split.check (sp : Split) (team : LaneMask) : Bool :=
  let live := sp.live
  let disjoint := (live.foldl (fun (r : Bool × LaneMask) p => (r.1 && (r.2 &&& p.2.mask) == 0, r.2 ||| p.2.mask)) (true, 0))
  sp.depth ≤ 32 &&
  ((List.range 32).all fun i => (sp.entry (i + 1)).valid == decide (i + 1 ≤ sp.depth)) &&
  (live.all fun p => p.2.mask != 0 && decide (p.2.level ≤ sp.depth) && decide (p.2.state ≤ 4)) &&
  (live.all fun p => (live.filter fun q => q.2.level == p.2.level && q.2.order == p.2.order).length == 1) &&
  (live.isEmpty || (disjoint.1 && disjoint.2 == team)) &&
  ((List.range sp.depth).all fun i => (sp.entry (i + 1)).pend == sp.pendOf (i + 1))

/-! ### The split window (R151) -/

/-- A field of n bits at bit k of a word. -/
def fieldAt (w : Word) (k n : Nat) : Nat := (w.extractLsb' k n).toNat

def packMask (m : LaneMask) (j : Nat) : Word := (m.extractLsb' (64 * (j - 1)) 64)
def putMask (m : LaneMask) (j : Nat) (w : Word) : LaneMask :=
  (m &&& ~~~((0xFFFFFFFFFFFFFFFF : LaneMask) <<< (64 * (j - 1)))) ||| (w.setWidth 1024 <<< (64 * (j - 1)))

def Split.readWindow (sp : Split) (sel j : Nat) : Word :=
  if sel < 32 then
    let en := sp.entry (sel + 1)
    if j = 0 then BitVec.ofNat 64 ((en.join % 2 ^ 24).toNat + (if en.valid then 2 ^ 24 else 0) + (if en.call then 2 ^ 25 else 0))
    else if j ≤ 16 then packMask en.pend j else 0
  else if 64 ≤ sel && sel < 128 then
    let f := sp.frag (sel - 64)
    if j = 0 then BitVec.ofNat 64 ((f.pc % 2 ^ 24).toNat + (if f.valid then 2 ^ 24 else 0) + f.level * 2 ^ 25 +
      f.order * 2 ^ 31 + f.state * 2 ^ 37)
    else if j ≤ 16 then packMask f.mask j else 0
  else if sel = 128 then
    if j = 0 then BitVec.ofNat 64 (sp.depth + sp.live.length * 2 ^ 6 + sp.last * 2 ^ 13) else 0
  else 0

/-- A write of the split window. A fragment written back at the word it waits at keeps its wait (R151); an entry that was never pushed
keeps position 0 for what fuses at it or leaves it. DEDUCED, log 68; DESIGN CHOICE, log 85. -/
def Split.writeWindow (sp : Split) (sel j : Nat) (w : Word) : Split :=
  if sel < 32 then
    let en := sp.entry (sel + 1)
    if j = 0 then sp.setEntry (sel + 1) { en with join := fieldAt w 0 24, valid := w.getLsbD 24, call := w.getLsbD 25 }
    else if j ≤ 16 then sp.setEntry (sel + 1) { en with pend := putMask en.pend j w } else sp
  else if 64 ≤ sel && sel < 128 then
    let f := sp.frag (sel - 64)
    if j = 0 then
      sp.setFrag (sel - 64) { f with
        pc := fieldAt w 0 24, valid := w.getLsbD 24, level := fieldAt w 25 6
        order := fieldAt w 31 6, state := fieldAt w 37 3, seq := false, wait := if f.pc == (fieldAt w 0 24 : Int) then f.wait else none
        again := f.again || fieldAt w 37 3 == 2 || fieldAt w 37 3 == 3 }
    else if j ≤ 16 then sp.setFrag (sel - 64) { f with mask := putMask f.mask j w } else sp
  else if sel = 128 then
    if j = 0 then { sp with depth := fieldAt w 0 6, last := fieldAt w 13 6 } else sp
  else sp

end Sys2Proof.Machine
end

