-- ==== Sys2Proof/Machine/Regs.lean ====
section
/-!
DEFINITION. Teams and their registers: the one place where scalar, vector, predicate and flag registers are read and
written, with the registers that read as constants (R52, R41, R134) and the full/empty states (R31, R41, R103).
-/
namespace Sys2Proof.Machine

def State.team? (s : State) (t : Nat) : Option Team := s.teams.find? fun x => x.id == t
def State.setTeam (s : State) (T : Team) : State := { s with teams := s.teams.map fun x => if x.id == T.id then T else x }
/-- Change a team where it exists. -/
def State.modTeam (s : State) (t : Nat) (f : Team → Team) : State :=
  { s with teams := s.teams.map fun x => if x.id == t then f x else x }

def State.modLaunch (s : State) (l : Nat) (f : Launch → Launch) : State :=
  { s with launches := s.launches.map fun x => if x.id == l then f x else x }
def State.launch? (s : State) (l : Nat) : Option Launch := s.launches.find? fun x => x.id == l

def State.cohort? (s : State) (l c : Nat) : Option Cohort := s.cohorts.find? fun x => x.launch == l && x.idx == c
def State.modCohort (s : State) (l c : Nat) (f : Cohort → Cohort) : State :=
  { s with cohorts := s.cohorts.map fun x => if x.launch == l && x.idx == c then f x else x }

def State.die (s : State) (d : Nat) : Die := SMap.rd { present := false } s.dies d
def State.modDie (s : State) (d : Nat) (f : Die → Die) : State := { s with dies := s.dies.map fun p => if p.1 == d then (p.1, f p.2) else p }

/-- The thermal trip halts every issue on the part (R385). DEDUCED, log 26. -/
def State.tripped (s : State) : Bool := s.dies.any fun p => p.2.hot

/-- Cores are numbered die by die (R283): die c / 32, core c % 32, cluster (c % 32) / 2. -/
def dieOf (core : Nat) : Nat := core / 32
def clusterOf (core : Nat) : Nat := core / 2

/-- A fresh name for an event. -/
def State.fresh (s : State) : State := { s with evId := s.evId + 1 }

/-- The next free value (an undefined content). -/
def State.freeWord (s : State) : Word := Config.free64 s.tick
def State.nextFree (s : State) : State := { s with tick := s.tick + 1 }

def Header.det (h : Header) : Bool := h.flags.getLsbD 0
def Header.bounds (h : Header) : Bool := h.flags.getLsbD 1
def Header.maint (h : Header) : Bool := h.flags.getLsbD 2
def Header.steals (h : Header) : Bool := h.flags.getLsbD 4

/-! ### Identity -/

/-- The region an instruction belongs to; a handler's belong to none (R339). DEDUCED, log 36. -/
def Team.regionTag (T : Team) : Nat := if T.trapLevel then 0 else T.regionNo + 1

def Team.lanes (T : Team) : Nat := 32 * T.words
def Team.isOrdinary (T : Team) : Bool := T.sort == .ordinary
def Team.isElement (T : Team) : Bool := match T.sort with | .element .. => true | _ => false
def Team.isWave (T : Team) : Bool := match T.sort with | .wave _ => true | _ => false
def Team.isHandler (T : Team) : Bool := T.sort == .handler
/-- Belongs to its cohort's resources (R33, R176). -/
def Team.inCohort (T : Team) : Bool := T.isOrdinary || T.isElement
/-- The team takes turns (R309, R310). -/
def Team.counted (T : Team) : Bool := T.hdr.det && T.inCohort

def Header.width (h : Header) (i : Nat) : Nat := h.widths.getD i 0
/-- The work identifier of a lane (R18): field 2 to 5 together hold the cohort index. -/
def Header.wid (h : Header) (lane tidx cohort : Nat) : Nat :=
  lane + tidx * 2 ^ h.width 0 + cohort * 2 ^ (h.width 0 + h.width 1)
def Team.wid (T : Team) (lane : Nat) : Word :=
  if T.isOrdinary then BitVec.ofNat 64 (T.hdr.wid lane T.tidx T.cohort)
  else if T.isWave then SMap.rd 0 T.widOf lane else SMap.rd 0 T.widOf 0
def Team.cohortIdx (T : Team) (lane : Nat) : Word :=
  if T.isWave then SMap.rd 0 T.cohortOf lane else BitVec.ofNat 64 T.cohort
/-- x.teamid: 0xFFFF in spawned teams (R176, R242, R284). -/
def Team.teamid (T : Team) : Nat := if T.isOrdinary then T.tidx else 0xFFFF

/-! ### The running block of the level the team is at (R323) -/

def Team.sp (T : Team) : Split := if T.trapLevel then T.hsplit else T.split
def Team.setSp (T : Team) (sp : Split) : Team := if T.trapLevel then { T with hsplit := sp } else { T with split := sp }
def Team.block (T : Team) : Option Block := if T.trapLevel then T.hrun else T.run
def Team.setBlock (T : Team) (b : Option Block) : Team := if T.trapLevel then { T with hrun := b } else { T with run := b }
def Team.lq (T : Team) : List Block := if T.trapLevel then T.hqueue else T.queue
def Team.setLq (T : Team) (q : List Block) : Team := if T.trapLevel then { T with hqueue := q } else { T with queue := q }
def Team.frag (T : Team) (slot : Nat) : Frag := T.sp.frag slot
def Team.setFrag (T : Team) (slot : Nat) (f : Frag) : Team := T.setSp (T.sp.setFrag slot f)
/-- Argument slot n of the running block (R30). -/
def Team.arg (T : Team) (n : Nat) : Word := match T.block with | some b => b.args.getD n 0 | none => 0

/-! ### Scalar registers (R31, R52) -/

def Team.sreg (T : Team) (n : Nat) : Word := if n = 0 then 0 else SMap.rd 0 T.sregs n
def Team.sIsEmpty (T : Team) (n : Nat) : Bool := n != 0 && T.sempty.contains n
/-- Every write marks the register full; s0 discards it. -/
def Team.setS (T : Team) (n : Nat) (w : Word) : Team :=
  if n = 0 then T else { T with sregs := SMap.wr 0 T.sregs n w, sempty := T.sempty.filter (· != n) }
/-- The register is empty: what a former lane fill of it followed no longer counts (R32). -/
def Team.emptyS (T : Team) (n : Nat) : Team :=
  if n = 0 then T else { T with sempty := insertNat n T.sempty, sfill := SMap.wr [] T.sfill n [] }

/-- A scalar flag: 00 false, 01 true, 11 undecided; 10 reads as undecided. -/
def triOf (b : BitVec 2) : Tri := if b == 0 then .f else if b == 1 then .t else .u
def Team.kf (T : Team) (k : Nat) : Tri := triOf (T.kflags.extractLsb' (2 * k) 2)
def Team.setK (T : Team) (k : Nat) (v : Tri) : Team :=
  { T with kflags := (T.kflags &&& ~~~((3 : BitVec 16) <<< (2 * k))) ||| (v.bits.setWidth 16 <<< (2 * k)) }

/-! ### Vector registers (R41, R42) -/

def vkey (n lane : Nat) : Nat := n * 1024 + lane
def Team.v (T : Team) (n lane : Nat) : Word := SMap.rd 0 T.vregs (vkey n lane)
def Team.setV (T : Team) (n lane : Nat) (w : Word) : Team := { T with vregs := SMap.wr 0 T.vregs (vkey n lane) w }
/-- A register, or the even:odd pair when `pair`. -/
def Team.vp (T : Team) (pair : Bool) (n lane : Nat) : Pair :=
  if pair then Pair.mk (T.v n lane) (T.v (n + 1) lane) else (T.v n lane).toPair
def Team.setVp (T : Team) (pair : Bool) (n lane : Nat) (p : Pair) : Team :=
  if pair then (T.setV n lane p.even).setV (n + 1) lane p.odd else T.setV n lane p.even
def Team.vEmpty (T : Team) (n word : Nat) : Bool := T.marks.any fun m => m.reg == n && m.word == word
/-- Empty in some lane word where a lane of the mask lies. -/
def Team.emptyIn (T : Team) (n : Nat) (m : LaneMask) : Bool :=
  T.marks.any fun k => k.reg == n && maskWord m k.word != 0
def Team.mark (T : Team) (regs : List Nat) (m : LaneMask) (grp : Nat) (tile : Bool := false) : Team :=
  { T with marks := (regs.flatMap fun r => (wordsOf m).map fun w => (⟨r, w, grp, tile⟩ : Mark)) ++ T.marks }

/-! ### Predicates (R134) and flags (R95) -/

def Team.qv (T : Team) (n lane : Nat) : Tri := if n = 0 then .t else triOf (SMap.rd 0 T.q (vkey n lane))
def Team.setQ (T : Team) (n lane : Nat) (v : Tri) : Team :=
  if n = 0 then T else { T with q := SMap.wr 0 T.q (vkey n lane) v.bits }
def Team.flags (T : Team) (lane : Nat) : BitVec 16 := SMap.rd 0 T.fflags lane
/-- Flags accumulate in the lane (R95, R96). -/
def Team.orFlags (T : Team) (lane : Nat) (f : BitVec 16) : Team :=
  if f = 0 then T else { T with fflags := SMap.wr 0 T.fflags lane (T.flags lane ||| f) }
def Team.setFlags (T : Team) (lane : Nat) (f : BitVec 16) : Team := { T with fflags := SMap.wr 0 T.fflags lane f }

/-! ### Guards (R41) -/

def guardPasses : GMode → Tri → Bool
  | .always, _ => true
  | .t, v => v == .t
  | .f, v => v == .f
  | .u, v => v == .u
  | .nt, v => v != .t
  | .nf, v => v != .f

/-- The lanes of a fragment that execute an instruction. -/
def Team.execMask (T : Team) (f : Frag) (g : Guard) : LaneMask :=
  if g.m == .always then f.mask
  else maskOf ((lanesOf f.mask T.lanes).filter fun l => guardPasses g.m (T.qv g.q.toNat l))

/-! ### Items (R161) -/

def Team.item (T : Team) (lane : Nat) : Option Held := SMap.rd none T.items lane
def Team.setItem (T : Team) (lane : Nat) (h : Option Held) : Team := { T with items := SMap.wr none T.items lane h }

/-! ### Sources (R43 to R45, R104) -/

/-- The value of a source field in a lane. -/
def Team.src (T : Team) (pair : Bool) (a : Src) (lane : Nat) : Pair :=
  if a.u then (if pair then Pair.mk (T.arg a.n.toNat) (T.arg (a.n.toNat + 1)) else (T.arg a.n.toNat).toPair)
  else T.vp pair a.n.toNat lane
def Team.srcW (T : Team) (a : Src) (lane : Nat) : Word := (T.src false a lane).even

/-- The registers a source field names: a pair, or a run of n. -/
def srcRegs (a : Src) (n : Nat) : List Nat := if a.u then [] else (List.range n).map (a.n.toNat + ·)
def pairLen (pair : Bool) : Nat := if pair then 2 else 1

/-! ### Pads of a cohort (R25, R26, R295) -/

/-- Bytes a pad access may address: below the cistern's part (R26); a spawned team has no allocation (R277). -/
def State.padLimit (s : State) (T : Team) : Nat :=
  if T.inCohort then (match s.cohort? T.launch T.cohort with
    | some _ => T.hdr.pad - 32 * T.hdr.cap
    | none => 0) else 0

/-- The key of a pad offset: the lower half of a spread cohort's allocation lies in the lower core (R25). -/
def Cohort.padKey (c : Cohort) (h : Header) (off : Nat) : Nat :=
  match c.cores, c.bases with
  | [k], [b] => Machine.padKey k (b + off)
  | k0 :: k1 :: _, b0 :: b1 :: _ =>
    if off < h.pad / 2 then Machine.padKey k0 (b0 + off) else Machine.padKey k1 (b1 + (off - h.pad / 2))
  | _, _ => 0
def State.padKeyOf (s : State) (T : Team) (off : Nat) : Nat :=
  match s.cohort? T.launch T.cohort with
  | some c => c.padKey T.hdr off
  | none => 0
/-- The pad offset of a key in the allocation of a team's cohort. -/
def State.padOffOf (s : State) (T : Team) (key : Nat) : Option Nat :=
  match s.cohort? T.launch T.cohort with
  | none => none
  | some c =>
    let half := if 1 < c.cores.length then T.hdr.pad / 2 else T.hdr.pad
    ((c.cores.zip c.bases).zipIdx).findSome? fun x =>
      let k0 := Machine.padKey x.1.1 x.1.2
      if k0 ≤ key && key < k0 + half then some (key - k0 + x.2 * half) else none
/-- The n bytes at a pad offset lie in the usable part. -/
def State.padOk (s : State) (T : Team) (off : Word) (n : Nat) : Bool := off.toNat + n ≤ s.padLimit T

/-! ### Tiles and their images (R199, R202, R207) -/

def fmtPA (m : BitVec 32) : Nat := (m.extractLsb' 0 5).toNat
def fmtPB (m : BitVec 32) : Nat := (m.extractLsb' 5 5).toNat
def fmtAK (m : BitVec 32) : Nat := (m.extractLsb' 10 2).toNat
def fmtBK (m : BitVec 32) : Nat := (m.extractLsb' 12 2).toNat
def fmtIM (m : BitVec 32) : Bool := m.getLsbD 14

/-- Bytes of one K slice: R lines, P planes, kind, interval image (R202, R218). -/
def sliceBytes (lines planes kind : Nat) (iv : Bool) : Nat :=
  lines * (32 * planes * (if kind = 2 && iv then 2 else 1) + (if kind = 2 then (if iv then 4 else 2) else 0))
/-- Lines of the A image: one per row. -/
def Team.aLines (T : Team) : Nat := 32 * min T.words 4
/-- The planes that lie in a B image. -/
def bPlanes (m : BitVec 32) : Nat := if fmtBK m = 3 then 4 else fmtPB m
def aSlice (T : Team) (m : BitVec 32) : Nat := sliceBytes T.aLines (fmtPA m) (fmtAK m) (fmtIM m)
def bSlice (n : Nat) (m : BitVec 32) : Nat := sliceBytes n (bPlanes m) (fmtBK m) (fmtIM m)

/-- The pad offsets a tile reads, each with its length. -/
def Tile.ranges (t : Tile) (T : Team) : List (Nat × Nat) :=
  [(t.oa, t.k * aSlice T t.mfmt), (t.ob, t.k * bSlice t.n t.mfmt)] ++ (if t.q then [(t.oc, 8 * t.n)] else [])

/-- A tile of the team, issued before `id`, has yet to read one of the bytes (R180, R207). -/
def State.tileHolds (s : State) (team id key len : Nat) : Bool :=
  match s.team? team with
  | none => false
  | some T => match s.padOffOf T key with
    | none => false
    | some o => T.tiles.any fun t => decide (t.id < id) && (t.ranges T).any fun r => decide (r.1 < o + len) && decide (o < r.1 + r.2)

end Sys2Proof.Machine
end

