-- ==== Sys2Proof/Machine/Ctl.lean ====
section
/-!
DEFINITION. Control pages, fault queues, slice hash and translation (R289 to R302, R320, R340, R381).
-/
namespace Sys2Proof.Machine

/-! ### The slice hash (R302) -/

def parity (n : Nat) : Nat := ((List.range 52).filter fun i => n.testBit i).length % 2

/-- The home slice of a device address on its die. -/
def Die.slice (d : Die) (pa : Nat) : Nat :=
  let p := pa / 2 ^ 34 % 8
  let bit := fun i => parity (pa &&& (SMap.rd 0 d.shm (4 * p + i)).toNat &&& 0x1FFFFFFF80)
  bit 0 + 2 * bit 1 + 4 * bit 2 + 8 * bit 3

/-- The die a device address is homed on (R249). -/
def homeDie (pa : Nat) : Nat := pa / 2 ^ 37 % 4
def State.sliceOf (s : State) (pa : Nat) : Nat := (s.die (homeDie pa)).slice pa

/-! ### The fault queue (R299, R333) -/

def Die.fqFull (d : Die) : Bool := (d.fqtail - d.fqhead).toNat ≥ 2 ^ d.fqsize

/-- Write a record at the tail of a die's queue. DEDUCED, log 17. -/
def State.fqWrite (s : State) (d : Nat) (ws : List Word) : State :=
  let D := s.die d
  let a := D.fqbase.toNat + 32 * (D.fqtail.toNat % 2 ^ D.fqsize)
  let s1 := (ws.zipIdx).foldl (fun (q : State) x => q.setWord (a + 8 * x.2) x.1) s
  s1.modDie d fun D => { D with fqtail := D.fqtail + 1 }

/-- Word 1 of a record (R299). -/
def recWord1 (seq ctx core src : Nat) (wr : Bool) : Word :=
  BitVec.ofNat 64 (seq % 2 ^ 32 + ctx % 2 ^ 12 * 2 ^ 32 + (if wr then 2 ^ 44 else 0) + src * 2 ^ 45 + core * 2 ^ 47)

/-- Record a page fault (KIND 0) or malformed entry (KIND 1); the caller has checked that the queue has room. -/
def State.recordFault (s : State) (core ctx : Nat) (va : Word) (wr : Bool) (src kind : Nat) : State :=
  let d := dieOf core
  let seq := (s.die d).fqseq
  (s.fqWrite d [va, recWord1 seq ctx core src wr, BitVec.ofNat 64 kind, 0]).modDie d fun D => { D with fqseq := seq + 1 }

/-- Record a KIND 2 or KIND 3 event in the queue of a die; a record that finds the queue full waits, and none is lost. -/
def State.recordEvent (s : State) (d core ctx src : Nat) (wid w2 w3 : Word) : State :=
  let seq := (s.die d).fqseq
  let ws := [wid, recWord1 seq ctx core src false, w2, w3]
  let s1 := s.modDie d fun D => { D with fqseq := seq + 1 }
  if (s.die d).fqFull || !(s.die d).fqwait.isEmpty then s1.modDie d fun D => { D with fqwait := D.fqwait ++ [ws] }
  else s1.fqWrite d ws

/-- A device event (KIND 3) in the queue of a die: EVENT and what it names, with the core and the context it concerns; an
event that concerns no context has 0 (R333). DEDUCED, log 17. -/
def State.deviceEvent (s : State) (d core ctx event : Nat) (wid : Word) : State :=
  s.recordEvent d core ctx 0 wid (BitVec.ofNat 64 (3 + event * 4)) 0

/-- Write the waiting records that fit. DEDUCED, log 17. -/
def State.fqFlush (s : State) (d : Nat) : Nat → State
  | 0 => s
  | n + 1 =>
    match (s.die d).fqwait with
    | [] => s
    | ws :: rest =>
      if (s.die d).fqFull then s
      else ((s.fqWrite d ws).modDie d fun D => { D with fqwait := rest }).fqFlush d n

/-! ### Tokens (R228) -/

/-- A signal from a core adds 1 to a token of a die; one that finds the count at its limit is lost and reported there. -/
def State.signal (s : State) (core ctx token : Nat) : State :=
  let d := token / 4096 % 4
  let i := token % 4096
  let c := SMap.rd 0 (s.die d).tokens i
  if c == 0xFFFF then s.deviceEvent d core ctx 1 (BitVec.ofNat 64 token)
  else s.modDie d fun D => { D with tokens := SMap.wr 0 D.tokens i (c + 1) }

/-! ### Requests to teams (R338, R340) -/

def State.requestPreempt (s : State) (p : Team → Bool) (r : PReq) : State :=
  { s with teams := s.teams.map fun T =>
      if T.isOrdinary && p T then { T with preq := if T.preq = some .remove then some .remove else some r } else T }

/-! ### Answers to fault records (R300) -/

/-- The 64 KiB page number of an address within 48 bits. -/
def pageNo (va : Word) : Nat := fieldAt va 16 32

/-- A parked fragment becomes ready (R153). The table of an interrupted team stays as the trap left it (R327): `Team.thaw`
makes its fragments ready when the handler returns. -/
def Team.unpark (T : Team) (h : Bool) (slot : Nat) : Team :=
  let sp := if h then T.hsplit else T.split
  let f := sp.frag slot
  if h == T.trapLevel && f.valid && f.state == 3 then
    let sp' := sp.setFrag slot { f with state := 0 }
    if h then { T with hsplit := sp' } else { T with split := sp' }
  else T

def State.wake (s : State) : Requester → State
  | .lanes t h slot => s.modTeam t (·.unpark h slot)
  | _ => s

/-- A refused mapping, as each requester takes it: lanes, the scalar stream and copies judge it when they ask again
(R153, R59, R224); a refill stops and its cistern is faulted (R163); a code fill stops being pending (R71); a host
launch is dropped and recorded (R381); a prefetch is cancelled (R271). -/
def State.refuse (s : State) (core ctx vpage : Nat) (who : Requester) (parked : Bool := false) : State :=
  match who with
  | .cistern l c =>
    s.modCohort l c fun C => match C.cistern.refill with
      | some r => { C with cistern := { C.cistern with
          spilled := C.cistern.spilled ++ r.slots, refill := none, faulted := true } }
      | none => C
  | .code k i => { s with slots := s.slots.filter fun x => !(x.core == k && x.slot == i && !x.landed && x.ctx == ctx && x.vpage == vpage) }
  | .dispatcher d =>
    let gone := fun (p : Post) => p.die == d && p.ctx == ctx && p.unread.any fun va => pageNo (BitVec.ofNat 64 va) == vpage
    (s.posts.filter gone).foldl (fun (q : State) p => q.deviceEvent d core ctx 4 (BitVec.ofNat 64 (p.unread.getD 0)))
      { s with posts := s.posts.filter fun p => !gone p }
  | .prefetch .. => s
  | _ => (s.wake who |> fun q => { q with verdicts := ⟨who, ctx, vpage, parked⟩ :: q.verdicts })

/-- A RESOLVE write: 0 resolved, 1 refused; one that names no pending record by its SEQ of 32 bits is ignored. -/
def State.resolve (s : State) (d seq : Nat) (refused : Bool) : State :=
  match s.records.find? fun r => r.die == d && r.seq % 2 ^ 32 == seq with
  | none => s
  | some r =>
    let s1 := { s with records := s.records.erase r }
    if refused then r.who.foldl (fun q w => q.refuse r.core r.ctx r.vpage w true) s1
    else r.who.foldl (fun q w => q.wake w) s1

/-! ### Invalidations (R301) -/

/-- Start an invalidation of a page (64 KiB page number), a context, or everything, on a die. -/
def State.inval (s : State) (d : Nat) (ctx vpage : Option Nat) : State :=
  s.modDie d fun D => { D with invals := D.invals ++ [(ctx, vpage)] }

/-! ### The registers of a control page -/

/-- DEDUCED, log 16. -/
def clampTo (lo hi n : Nat) : Nat := max lo (min hi n)

/-- Read a control register (R301, R320, R340, R381); what the spec does not give reads as a free value.
DESIGN CHOICE, log 15. -/
def State.ctlRead (s : State) (d off : Nat) : Word :=
  let D := s.die d
  if off = 0x000 then D.ctxt
  else if off = 0x008 then D.fqbase
  else if off = 0x010 then BitVec.ofNat 64 D.fqsize
  else if off = 0x018 then D.fqtail
  else if off = 0x020 then D.fqhead
  else if off = 0x030 then (if D.invals.isEmpty then 0 else 1)
  else if 0x040 ≤ off && off < 0x060 && off % 8 = 0 then (if D.routeNext.getLsbD ((off - 0x040) / 8) then 1 else 0)
  else if 0x060 ≤ off && off < 0x080 && off % 8 = 0 then (if D.prouteNext.getLsbD ((off - 0x060) / 8) then 1 else 0)
  else if off = 0x080 then D.linkstat.setWidth 64
  else if off = 0x088 then D.rtgen.setWidth 64
  else if off = 0x090 then
    BitVec.ofNat 64 ((s.teams.filter fun T => dieOf T.core == d && T.preq.isSome).length % 2 ^ 16)
  else if off = 0x0A8 then (if d = 0 then BitVec.ofNat 64 D.pwrlim else s.freeWord)
  else if off = 0x0B0 then D.eccUncorrected ++ D.eccCorrected
  else if off = 0x0B8 then D.intq
  else if 0x0C0 ≤ off && off < 0x0E0 && off % 8 = 0 then SMap.rd 0 D.paper ((off - 0x0C0) / 8)
  else if 0x100 ≤ off && off < 0x200 && off % 8 = 0 then BitVec.ofNat 64 (SMap.rd 0 D.pinwin ((off - 0x100) / 8))
  else if 0x200 ≤ off && off < 0x300 && off % 8 = 0 then SMap.rd 0 D.shm ((off - 0x200) / 8)
  else s.freeWord

/-- Write a control register. Values outside a field's range are stored as the nearest limit (R381); reserved bits are
stored as zero; writes to read-only or unnamed offsets have no effect. DESIGN CHOICE, log 15; DEDUCED, log 16. -/
def State.ctlWrite (s : State) (d off : Nat) (w : Word) : State :=
  let n := w.toNat
  if off = 0x000 then s.modDie d fun D => { D with ctxt := w &&& 0xFFFFFFFFFFFFF000 }
  else if off = 0x008 then s.modDie d fun D => { D with fqbase := w &&& 0xFFFFFFFFFFFFF000 }
  else if off = 0x010 then s.modDie d fun D => { D with fqsize := clampTo 4 12 n }
  else if off = 0x020 then
    (s.modDie d fun D => { D with fqhead := w }).fqFlush d (s.die d).fqwait.length
  else if off = 0x028 then s.resolve d (n % 2 ^ 32) (w.getLsbD 32)
  else if off = 0x030 then
    if w.getLsbD 61 then s.inval d none none
    else if w.getLsbD 60 then s.inval d (some (fieldAt w 48 12)) none
    else s.inval d (some (fieldAt w 48 12)) (some (fieldAt w 16 32))
  else if 0x040 ≤ off && off < 0x060 && off % 8 = 0 then
    let i := (off - 0x040) / 8
    s.modDie d fun D => { D with routeNext := (D.routeNext &&& ~~~((1 : BitVec 4) <<< i)) ||| (if w.getLsbD 0 then 1 <<< i else 0) }
  else if 0x060 ≤ off && off < 0x080 && off % 8 = 0 then
    let i := (off - 0x060) / 8
    s.modDie d fun D => { D with prouteNext := (D.prouteNext &&& ~~~((1 : BitVec 4) <<< i)) ||| (if w.getLsbD 0 then 1 <<< i else 0) }
  else if off = 0x080 then s.modDie d fun D => { D with linkstat := D.linkstat &&& ~~~(w.setWidth 4) }
  else if off = 0x088 then s.modDie d fun D => { D with
    rtgenNext := some (w.setWidth 32), routeTaken := D.routeNext, prouteTaken := D.prouteNext }
  else if off = 0x090 then
    s.requestPreempt (fun T => dieOf T.core == d && T.ctx == n % 4096) (if w.getLsbD 13 then .remove else .preempt)
  else if off = 0x0A0 then
    let va : Word := (w.extractLsb' 12 41).signExtend 57 ++ (0 : BitVec 7)
    { s with posts := s.posts ++ [{ die := d, ctx := n % 4096, unread := some va.toNat }]
             dies := s.dies.map fun p => (p.1, if p.2.stage = 2 then { p.2 with stage := 3 } else p.2) }
  else if off = 0x0A8 then (if d = 0 then s.modDie d fun D => { D with pwrlim := clampTo 300 1800 n } else s)
  else if off = 0x0B0 then (if n = 0 then s.modDie d fun D => { D with eccCorrected := 0, eccUncorrected := 0 } else s)
  else if off = 0x0B8 then
    s.modDie d fun D => { D with
      intq := (w &&& 0x000FFFFFFFFFF000) ||| BitVec.ofNat 64 (clampTo 4 12 (fieldAt w 0 4)) }
  else if 0x0C0 ≤ off && off < 0x0E0 && off % 8 = 0 then
    s.modDie d fun D => { D with paper := SMap.wr 0 D.paper ((off - 0x0C0) / 8) (w &&& 0x000FFF8000000001) }
  else if 0x100 ≤ off && off < 0x200 && off % 8 = 0 then
    s.modDie d fun D => { D with pinwinNext := SMap.wr none D.pinwinNext ((off - 0x100) / 8) (some (min 32 n)) }
  else if 0x200 ≤ off && off < 0x300 && off % 8 = 0 then
    (if (s.die d).stage < 3 then s.modDie d fun D => { D with
      shm := SMap.wr 0 D.shm ((off - 0x200) / 8) (w &&& 0x1FFFFFFF80) } else s)
  else s

/-! ### Translation (R289 to R301) -/

/-- What a core learns of an address. -/
inductive Trans where
  | ok (key : Nat) (attr : Attr) (writable : Bool)
  /-- Cause 0x05. -/
  | refused
  /-- The requester is attached to a pending fault record of the page. -/
  | fault
  /-- No translation is cached. -/
  | miss
deriving DecidableEq, Repr

/-- Bits [63:48] equal bit 47 (R290). -/
def canonical (va : Word) : Bool := va.extractLsb' 48 16 == (if va.getLsbD 47 then 0xFFFF else 0)

/-- The window of a core's pad (R294). -/
def State.pinwin (s : State) (core : Nat) : Nat := SMap.rd 0 (s.die (dieOf core)).pinwin (core % 32)

/-- The die of the host-facing port: the lowest one whose link trained (R379). -/
def State.hostDie (s : State) : Option Nat := (s.dies.find? fun p => p.2.present && p.2.linkUp).map (·.1)

/-- An H = 1 address goes to the peer part whose enabled aperture of the issuing die holds it (R382), else to the host, within the
windows of the host-facing port (R385); none outside them. DESIGN CHOICE, log 77. -/
def State.hostTarget (s : State) (d pa : Nat) : Option Nat :=
  match (List.range 4).find? fun n =>
    let p := SMap.rd 0 (s.die d).paper n
    p.getLsbD 0 && fieldAt p 39 13 == pa / 2 ^ 39 with
  | some n => some (peerKey n (pa % 2 ^ 39))
  | none => if (s.die (s.hostDie.getD d)).windows.any fun w => decide (w.1 ≤ pa) && decide (pa < w.1 + w.2) then some (hostKey pa) else none

/-- The byte key a cached translation gives an address; none for a PIN-CORE slot outside the window or an absent core
(R294). A PIN-CORE entry's key is 32 × core + slot. -/
def State.tlbKey (s : State) (core : Nat) (e : TlbEntry) (va : Word) : Option Nat :=
  let off := va.toNat % 2 ^ e.bits
  match e.attr with
  | .pinCore =>
    let k := e.key / 32
    let j := e.key % 32
    if (s.die (dieOf k)).present && j < s.pinwin k then
      some (padKey k (padBytes - 2 ^ 16 * (s.pinwin k - j) + off)) else none
  | _ => if isHost e.key then s.hostTarget (dieOf core) (e.key - hostKey 0 + off) else some (e.key + off)

/-- What a requester learns of an address from the core's TLB and from what it waits for: an access that finds nothing cached
walks, and attaches to a pending record of the page only when its own walk faults (R298, R299). -/
def State.translate (s : State) (who : Requester) (core ctx : Nat) (va : Word) : Trans :=
  if !canonical va then .refused
  else if s.verdicts.any fun v => v.who == who && v.ctx == ctx && v.vpage == pageNo va then .refused
  else match s.tlb.find? fun e => e.core == core && e.ctx == ctx && e.vpage == va.toNat % 2 ^ 48 / 2 ^ e.bits with
    | some e => (match s.tlbKey core e va with
      | some k => .ok k e.attr e.writable
      | none => .refused)
    | none =>
      if s.records.any fun r => r.ctx == ctx && r.vpage == pageNo va && r.who.contains who then .fault else .miss

/-- A prefetch, which takes no fault (R271). -/
def Requester.isPrefetch : Requester → Bool
  | .prefetch .. => true
  | _ => false

/-- Another asks for the page of a walk: it is the one whose access a fault records where only prefetches asked before (R271, R299). -/
def Walk.join (w : Walk) (who : Requester) (va : Word) (wr : Bool) (src : Nat) : Walk :=
  let w1 := if w.who.contains who then w else { w with who := w.who ++ [who] }
  if w.who.all Requester.isPrefetch && !who.isPrefetch then { w1 with va := va, write := wr, src := src } else w1

/-- Ask for a walk, or join the one under way for the page from this core (R298). -/
def State.askWalk (s : State) (who : Requester) (core ctx : Nat) (va : Word) (wr : Bool) (src : Nat) : State :=
  if s.walks.any fun w => w.core == core && w.ctx == ctx && w.vpage == pageNo va then
    { s with walks := s.walks.map fun w =>
        if w.core == core && w.ctx == ctx && w.vpage == pageNo va then w.join who va wr src else w }
  else { s.fresh with walks := s.walks ++ [⟨s.evId, core, ctx, pageNo va, va, wr, src, [who]⟩] }

/-- Forget what a requester has learnt: the verdicts it has taken and the records it was attached to. -/
def State.forget (s : State) (who : Requester) : State :=
  { s with
    verdicts := s.verdicts.filter fun v => v.who != who
    records := s.records.map fun r => { r with who := r.who.filter (· != who) } }

/-- Ask for one address: go on with its key, or wait (for a walk or an answer), or be refused. -/
inductive Asked where
  | ok (key : Nat) (attr : Attr) (writable : Bool)
  | wait (s : State)
  | refused
deriving Repr

def State.ask (s : State) (who : Requester) (core ctx : Nat) (va : Word) (wr : Bool) (src : Nat) : Asked :=
  match s.translate who core ctx va with
  | .ok k a w => .ok k a w
  | .refused => .refused
  | .fault => .wait s
  | .miss => .wait (s.askWalk who core ctx va wr src)

/-! ### Page walks -/

/-- A page-table entry read by a walk (R291): nothing there, a pointer, a leaf, or malformed. -/
inductive Pte where
  | absent
  | next (table : Nat)
  | leaf (key : Nat) (writable : Bool) (attr : Attr)
  | malformed
deriving DecidableEq, Repr

/-- An entry at a level: 0 to 3, the root counting as a pointer entry of its own level (`root`). `bits` is the page
size a leaf has there. An address of an absent die is no malformed one: the page maps as if the die were there. DEDUCED, log 20;
DESIGN CHOICE, log 13. -/
def pteOf (w : Word) (level : Nat) (root : Bool) : Pte :=
  let pageBits := if level = 1 then 30 else if level = 2 then 21 else 16
  if !w.getLsbD 0 then .absent
  else if !w.getLsbD 1 then
    let t := fieldAt w 8 44 * 256
    let size := if !root && level = 2 then 256 else 4096
    if level = 3 && !root || fieldAt w 2 6 != 0 || fieldAt w 52 12 != 0 || t % size != 0 || t ≥ devLimit then .malformed
    else .next t
  else
    let pa := fieldAt w 16 36 * 2 ^ 16
    let h := w.getLsbD 5
    let attr := fieldAt w 3 2
    let core := fieldAt w 56 7
    let dev := fieldAt w 40 12 == 0 && !w.getLsbD 39
    let ctl := fieldAt w 40 12 == 0 && w.getLsbD 39 && fieldAt w 16 21 == 0
    if root || level = 0 || fieldAt w 6 2 != 0 || fieldAt w 13 3 != 0 || fieldAt w 52 4 != 0 || w.getLsbD 63 ||
        pa % 2 ^ pageBits != 0 || (!h && !dev && !ctl) || (!h && ctl && (attr != 1 || level != 3)) ||
        (attr = 3 && (level != 3 || h)) || (attr = 2 && h) ||
        (attr != 3 && (fieldAt w 8 5 != 0 || core != 0)) then .malformed
    else .leaf
      (if attr = 3 then 32 * core + fieldAt w 8 5
       else if h then hostKey pa else if ctl then ctlKey (fieldAt w 37 2) 0 else pa)
      (w.getLsbD 2)
      (if attr = 0 then .cached else if attr = 1 then .uncached else if attr = 2 then .pinSlice else .pinCore)

/-- The entry index of an address at a level (R290). -/
def levelIndex (va : Nat) (level : Nat) : Nat :=
  if level = 3 then va / 2 ^ 16 % 32 else va / 2 ^ (39 - 9 * level) % 512

/-- Walk from a table at a level; `left` counts the levels still to read. -/
def State.walkFrom (s : State) (va : Nat) : Nat → Nat → Nat → Pte × Nat
  | 0, _, _ => (.malformed, 16)
  | left + 1, level, table =>
    match pteOf (s.word (table + 8 * levelIndex va level)) level false with
    | .next t => s.walkFrom va left (level + 1) t
    | p => (p, if level = 1 then 30 else if level = 2 then 21 else 16)

/-- The walk of an address under a context, from CTXT of the die (R290). -/
def State.walkTables (s : State) (d ctx : Nat) (va : Word) : Pte × Nat :=
  match pteOf (s.word ((s.die d).ctxt.toNat + 8 * ctx)) 0 true with
  | .next t => s.walkFrom (va.toNat % 2 ^ 48) 4 0 t
  | .leaf .. => (.malformed, 16)
  | p => (p, 16)

/-- The capacity of a core's TLB (R298). DESIGN CHOICE, log 18. -/
def tlbSize : Nat := 2048

/-- Cache a translation; a full TLB of the core gives up its oldest one. DESIGN CHOICE, log 18. -/
def State.tlbFill (s : State) (e : TlbEntry) : State :=
  let mine := s.tlb.filter fun x => x.core == e.core
  let tlb := if mine.length < tlbSize then s.tlb else
    (match mine.getLast? with | some o => s.tlb.erase o | none => s.tlb)
  { s with tlb := e :: tlb }

end Sys2Proof.Machine
end

