-- ==== Sys2Proof/Machine/Flags.lean ====
section
/-!
DEFINITION. The sticky floating flags of a lane (R95).
-/
namespace Sys2Proof.Machine

abbrev FFlags := BitVec 16
def fNV : FFlags := 1
def fDZ : FFlags := 2
def fOF : FFlags := 4
def fUF : FFlags := 8
def fNX : FFlags := 16
def fIL : FFlags := 32
def fDM : FFlags := 64
def fWD : FFlags := 128
def fUN : FFlags := 256
def flagIf (b : Bool) (f : FFlags) : FFlags := if b then f else 0

end Sys2Proof.Machine
end

