-- ==== Sys2Proof/Machine/Fp.lean ====
section
/-!
DEFINITION. Floating values (R80, R92 to R95): decoding, exact arithmetic on dyadic rationals, and one rounding to a
format at the end. A quotient, root, power or logarithm that is no dyadic rational is stood for by one strictly between
the same neighbours of every format (`Dy.above`).
-/
namespace Sys2Proof.Machine

/-! ### Dyadic rationals -/

/-- The number m · 2^e. -/
structure Dy where
  m : Int
  e : Int
deriving DecidableEq, Repr, Inhabited

def pow2 (k : Int) : Nat := 2 ^ k.toNat
/-- The mantissas of two numbers at their lower exponent. -/
def Dy.align (a b : Dy) : Int × Int × Int :=
  let e := min a.e b.e
  (a.m * pow2 (a.e - e), b.m * pow2 (b.e - e), e)
def Dy.add (a b : Dy) : Dy := let (x, y, e) := a.align b; ⟨x + y, e⟩
def Dy.neg (a : Dy) : Dy := ⟨-a.m, a.e⟩
def Dy.sub (a b : Dy) : Dy := a.add b.neg
def Dy.mul (a b : Dy) : Dy := ⟨a.m * b.m, a.e + b.e⟩
def Dy.lt (a b : Dy) : Bool :=
  if a.m ≤ 0 && 0 < b.m then true
  else if 0 ≤ a.m && b.m ≤ 0 then false
  else let (x, y, _) := a.align b; decide (x < y)
def Dy.le (a b : Dy) : Bool := !b.lt a
def Dy.eq (a b : Dy) : Bool := a.le b && b.le a
def Dy.isZero (a : Dy) : Bool := a.m == 0
def Dy.ofInt (n : Int) : Dy := ⟨n, 0⟩
def Dy.scale (a : Dy) (k : Int) : Dy := ⟨a.m, a.e + k⟩

/-- A number strictly between m · 2^e and (m + 1) · 2^e, standing for any such number to a format whose neighbours and
midpoints are all multiples of 2^e. -/
def Dy.above (m e : Int) (exact : Bool) : Dy := if exact then ⟨m, e⟩ else ⟨2 * m + 1, e - 1⟩

/-- floor(log2 n) for n > 0, by halving. -/
def log2Fuel : Nat → Nat → Nat
  | 0, _ => 0
  | f + 1, n => if n < 2 then 0 else log2Fuel f (n / 2) + 1
def ilog2 (n : Nat) : Nat := if n < 2 ^ 64 then log2Fuel 64 n else n.log2
/-- The exponent of the leading bit. -/
def Dy.lead (a : Dy) : Int := a.e + ilog2 a.m.natAbs

/-- floor(√n) by bits from 2^k down. -/
def isqrtBits : Nat → Nat → Nat → Nat
  | 0, _, r => r
  | k + 1, n, r => let r' := r + 2 ^ k; isqrtBits k n (if r' * r' ≤ n then r' else r)
def isqrt (n : Nat) : Nat := isqrtBits (ilog2 n / 2 + 1) n 0

/-- Bits kept of a result that is no dyadic rational: more than every format's precision and its midpoints need. -/
def workBits : Nat := 72

/-- a / b for b ≠ 0. -/
def Dy.div (a b : Dy) : Dy :=
  if a.m = 0 then ⟨0, 0⟩
  else
    let k : Int := workBits + ilog2 b.m.natAbs - ilog2 a.m.natAbs
    let n := a.m.natAbs * pow2 k
    let d := b.m.natAbs * pow2 (-k)
    let q := Dy.above (n / d : Nat) (a.e - b.e - k) (n % d == 0)
    if (a.m < 0) != (b.m < 0) then q.neg else q

/-- √a for a ≥ 0. -/
def Dy.sqrt (a : Dy) : Dy :=
  if a.m = 0 then ⟨0, 0⟩
  else
    let l := ilog2 a.m.natAbs
    let k0 : Int := max 0 (2 * workBits - l : Int)
    let k := if (a.e - k0) % 2 = 0 then k0 else k0 + 1
    let n := a.m.natAbs * pow2 k
    let r := isqrt n
    Dy.above r ((a.e - k) / 2) (r * r == n)

/-- 1/√a for a > 0. -/
def Dy.rsqrt (a : Dy) : Dy :=
  let k := 2 * workBits + ilog2 a.m.natAbs
  let k := if (a.e + k) % 2 = 0 then k else k + 1
  let n := 2 ^ k
  let r := isqrt (n / a.m.natAbs)
  Dy.above r (-((a.e + k) / 2)) (r * r * a.m.natAbs == n)

/-- Bits of the working precision of 2^x and log2 x. -/
def elemBits : Nat := 320

/-- ln 2 · 2^n from Σ 1/(k 2^k), to within a few units. -/
def ln2Sum (n : Nat) : Nat → Nat
  | 0 => 0
  | k + 1 => ln2Sum n k + 2 ^ n / ((k + 1) * 2 ^ (k + 1))
def ln2 : Nat := ln2Sum elemBits elemBits

/-- e^y for y = t / 2^elemBits in [0, 1): Horner over the terms of the series, times 2^elemBits. -/
def expHorner (t : Nat) : Nat → Nat → Nat
  | 0, acc => acc
  | k + 1, acc => expHorner t k (2 ^ elemBits + acc * t / ((k + 1) * 2 ^ elemBits))

/-- 2^a: the integer part apart, the fraction cut to 256 bits; beyond ±4096 the magnitude is cut, which no format can
tell (R93). -/
def Dy.exp2 (a : Dy) : Dy :=
  if Dy.le ⟨4096, 0⟩ a then ⟨3, 4096⟩
  else if Dy.le a ⟨-4096, 0⟩ then ⟨3, -4098⟩
  else
    let n : Int := if 0 ≤ a.e then a.m * pow2 a.e else a.m / pow2 (-a.e)
    let fr : Nat := if 0 ≤ a.e then 0 else (a.m % pow2 (-a.e)).toNat
    let f256 : Nat := if 0 ≤ a.e then 0 else fr * 2 ^ 256 / pow2 (-a.e)
    if fr = 0 then ⟨1, n⟩
    else
      let y := f256 * ln2 / 2 ^ 256
      let v := expHorner y 80 (2 ^ elemBits)
      Dy.above (v / 2 ^ (elemBits - workBits) : Nat) (n - workBits) false

/-- The bits of log2 y for y in [1, 2) scaled by 2^p: square, and halve when the square reaches 2. -/
def log2Bits (p : Nat) : Nat → Nat → Nat → Nat
  | 0, _, acc => acc
  | k + 1, y, acc =>
    let z := y * y / 2 ^ p
    if 2 ^ (p + 1) ≤ z then log2Bits p k (z / 2) (2 * acc + 1) else log2Bits p k z (2 * acc)

/-- log2 a for a > 0. -/
def Dy.log2 (a : Dy) : Dy :=
  let l := ilog2 a.m.natAbs
  if a.m.natAbs = 2 ^ l then ⟨a.e + l, 0⟩
  else
    let p := 2 * elemBits
    let fr := log2Bits p 200 (a.m.natAbs * 2 ^ p / 2 ^ l) 0
    Dy.above ((a.e + l) * 2 ^ 200 + fr) (-200) false

/-! ### Rounding -/

/-- m · 2^e with m ≥ 0 as a multiple of 2^q, rounded in a mode; and whether it changed. -/
def roundAt (rm : RM) (neg : Bool) (m : Nat) (e q : Int) : Nat × Bool :=
  if q ≤ e then (m * pow2 (e - q), false)
  else
    let d := pow2 (q - e)
    let n := m / d
    let r := m % d
    let up := match rm with
      | .rne => decide (2 * r > d) || (2 * r == d && n % 2 == 1)
      | .rz => false
      | .rd => neg && r != 0
      | .ru => !neg && r != 0
    (if up then n + 1 else n, r != 0)

/-- A binary format of R80 and R92. -/
structure Fmt where
  eb : Nat
  mb : Nat
deriving DecidableEq, Repr, Inhabited

def f32 : Fmt := ⟨8, 23⟩
def f64 : Fmt := ⟨11, 52⟩
def fb16 : Fmt := ⟨8, 7⟩

def Fmt.width (f : Fmt) : Nat := 1 + f.eb + f.mb
def Fmt.bias (f : Fmt) : Int := 2 ^ (f.eb - 1) - 1
def Fmt.emin (f : Fmt) : Int := 1 - f.bias
def Fmt.infBits (f : Fmt) : Nat := (2 ^ f.eb - 1) * 2 ^ f.mb
def Fmt.maxBits (f : Fmt) : Nat := f.infBits - 1
def Fmt.signBit (f : Fmt) : Nat := 2 ^ (f.eb + f.mb)
/-- The canonical quiet NaN (R94). -/
def Fmt.nanBits (f : Fmt) : Nat := f.infBits + 2 ^ (f.mb - 1)
def Fmt.withSign (f : Fmt) (neg : Bool) (b : Nat) : Nat := if neg then f.signBit + b else b

/-- A floating value. -/
inductive FV where
  | nan (signalling : Bool)
  | inf (neg : Bool)
  | fin (neg : Bool) (m : Nat) (e : Int)
deriving DecidableEq, Repr, Inhabited

def Fmt.read (f : Fmt) (b : Nat) : FV :=
  let neg := b / f.signBit % 2 == 1
  let x := b / 2 ^ f.mb % 2 ^ f.eb
  let m := b % 2 ^ f.mb
  if x = 2 ^ f.eb - 1 then (if m = 0 then .inf neg else .nan (m < 2 ^ (f.mb - 1)))
  else if x = 0 then .fin neg m (f.emin - f.mb)
  else .fin neg (m + 2 ^ f.mb) (f.emin - f.mb + x - 1)

def FV.isNan : FV → Bool | .nan _ => true | _ => false
def FV.sNan : FV → Bool | .nan s => s | _ => false
def FV.neg : FV → Bool | .nan _ => false | .inf n => n | .fin n _ _ => n
def FV.isZero : FV → Bool | .fin _ 0 _ => true | _ => false
/-- The number of a finite value. -/
def FV.dy : FV → Dy
  | .fin neg m e => ⟨if neg then -(m : Int) else m, e⟩
  | _ => ⟨0, 0⟩

/-- Round a number to a format: bits and OF, UF, NX (R93; underflow is detected after rounding). A zero takes the sign
given. -/
def Fmt.round (f : Fmt) (rm : RM) (d : Dy) (zeroNeg : Bool := false) : Nat × FFlags :=
  if d.m = 0 then (f.withSign zeroNeg 0, 0)
  else
    let neg := decide (d.m < 0)
    let a := d.m.natAbs
    let lead := d.lead
    let qmin := f.emin - f.mb
    if lead > f.bias + 1 then
      let toMax := match rm with | .rne => false | .rz => true | .rd => !neg | .ru => neg
      (f.withSign neg (if toMax then f.maxBits else f.infBits), fOF ||| fNX)
    else
      let q := max (lead - f.mb) qmin
      let (n, nx) := roundAt rm neg a d.e q
      let bits := (q - qmin).toNat * 2 ^ f.mb + n
      if bits ≥ f.infBits then
        let toMax := match rm with | .rne => false | .rz => true | .rd => !neg | .ru => neg
        (f.withSign neg (if toMax then f.maxBits else f.infBits), fOF ||| fNX)
      else
        let tiny := lead < f.emin && !(lead == f.emin - 1 && (roundAt rm neg a d.e (lead - f.mb)).1 == 2 ^ (f.mb + 1))
        (f.withSign neg bits, flagIf nx fNX ||| flagIf (nx && tiny) fUF)

def Fmt.nan (f : Fmt) (nv : Bool) : Nat × FFlags := (f.nanBits, flagIf nv fNV)
def Fmt.inf (f : Fmt) (neg : Bool) : Nat := f.withSign neg f.infBits

/-! ### Point operations (R92, R94) -/

/-- The sign of an exact zero sum (IEEE 754). -/
def zeroSign (rm : RM) (na nb : Bool) : Bool := if na == nb then na else rm == .rd

def fpAddV (f : Fmt) (rm : RM) (a b : FV) (nv : Bool) : Nat × FFlags :=
  match a, b with
  | .inf na, .inf nb => if na == nb then (f.inf na, flagIf nv fNV) else f.nan true
  | .inf na, .fin .. => (f.inf na, flagIf nv fNV)
  | .fin .., .inf nb => (f.inf nb, flagIf nv fNV)
  | .fin na _ _, .fin nb _ _ => let r := f.round rm (a.dy.add b.dy) (zeroSign rm na nb); (r.1, r.2 ||| flagIf nv fNV)
  | _, _ => f.nan (nv || a.sNan || b.sNan)

def FV.negate : FV → FV
  | .nan s => .nan s
  | .inf n => .inf !n
  | .fin n m e => .fin (!n) m e

def fpAdd (f : Fmt) (rm : RM) (a b : FV) : Nat × FFlags := fpAddV f rm a b false
def fpSub (f : Fmt) (rm : RM) (a b : FV) : Nat × FFlags := fpAddV f rm a b.negate false

/-- The exact product, and whether it is 0 × ∞. -/
def FV.times (a b : FV) : FV × Bool :=
  match a, b with
  | .fin na ma ea, .fin nb mb eb => (.fin (na != nb) (ma * mb) (ea + eb), false)
  | .inf na, .inf nb => (.inf (na != nb), false)
  | .inf na, .fin nb m _ => if m = 0 then (.nan false, true) else (.inf (na != nb), false)
  | .fin na m _, .inf nb => if m = 0 then (.nan false, true) else (.inf (na != nb), false)
  | _, _ => (.nan (a.sNan || b.sNan), false)

/-- The value as a result of the format. -/
def Fmt.put (f : Fmt) (rm : RM) : FV → Nat × FFlags
  | .nan s => f.nan s
  | .inf n => (f.inf n, 0)
  | .fin n m e => f.round rm (FV.dy (.fin n m e)) n

def fpMul (f : Fmt) (rm : RM) (a b : FV) : Nat × FFlags :=
  let p := a.times b
  if p.2 then f.nan true else f.put rm p.1
/-- One rounding; an invalid product sets NV whatever the addend holds (R94). -/
def fpFma (f : Fmt) (rm : RM) (a b c : FV) : Nat × FFlags :=
  let p := a.times b
  if p.2 then f.nan true else fpAddV f rm p.1 c false
def fpDiv (f : Fmt) (rm : RM) (a b : FV) : Nat × FFlags :=
  match a, b with
  | .fin na ma _, .fin nb mb _ =>
    if mb = 0 then (if ma = 0 then f.nan true else (f.inf (na != nb), fDZ))
    else f.round rm (a.dy.div b.dy) (na != nb)
  | .inf _, .inf _ => f.nan true
  | .inf na, .fin nb _ _ => (f.inf (na != nb), 0)
  | .fin na _ _, .inf nb => (f.withSign (na != nb) 0, 0)
  | _, _ => f.nan (a.sNan || b.sNan)
def fpSqrt (f : Fmt) (rm : RM) (a : FV) : Nat × FFlags :=
  match a with
  | .nan s => f.nan s
  | .inf n => if n then f.nan true else (f.inf false, 0)
  | .fin n m _ => if m = 0 then (f.withSign n 0, 0) else if n then f.nan true else f.round rm a.dy.sqrt

/-- A value within one ulp of an exact result (R92): under rd and ru the neighbour on that side, otherwise either
neighbour, an open choice of the device (`Config.ulp`); the exact value itself when it is representable.
DESIGN CHOICE, log 9. -/
def Fmt.approx (f : Fmt) (rm : RM) (op key : Nat) (d : Dy) (zeroNeg : Bool := false) : Nat × FFlags :=
  match rm with
  | .rd => f.round .rd d zeroNeg
  | .ru => f.round .ru d zeroNeg
  | _ =>
    if d.lead > f.bias then f.round rm d zeroNeg
    else f.round (if Config.ulp op key then .ru else .rd) d zeroNeg

/-- FRCP, FRSQ, FEXP2 and FLOG2 on a point (R92, R94). `key` names the operand to `Config.ulp`. -/
def fpRcp (f : Fmt) (rm : RM) (key : Nat) (a : FV) : Nat × FFlags :=
  match a with
  | .nan s => f.nan s
  | .inf n => (f.withSign n 0, 0)
  | .fin n m _ => if m = 0 then (f.inf n, fDZ) else f.approx rm (0 + 16 * f.mb) key ((Dy.ofInt 1).div a.dy) n
def fpRsq (f : Fmt) (rm : RM) (key : Nat) (a : FV) : Nat × FFlags :=
  match a with
  | .nan s => f.nan s
  | .inf n => if n then f.nan true else (0, 0)
  | .fin n m _ => if m = 0 then (f.inf n, fDZ) else if n then f.nan true else f.approx rm (1 + 16 * f.mb) key a.dy.rsqrt
def fpExp2 (f : Fmt) (rm : RM) (key : Nat) (a : FV) : Nat × FFlags :=
  match a with
  | .nan s => f.nan s
  | .inf n => (if n then 0 else f.inf false, 0)
  | .fin .. => f.approx rm (2 + 16 * f.mb) key a.dy.exp2
def fpLog2 (f : Fmt) (rm : RM) (key : Nat) (a : FV) : Nat × FFlags :=
  match a with
  | .nan s => f.nan s
  | .inf n => if n then f.nan true else (f.inf false, 0)
  | .fin n m _ => if m = 0 then (f.inf true, fDZ) else if n then f.nan true else f.approx rm (3 + 16 * f.mb) key a.dy.log2

/-- Order of two values that are no NaN; −0 equals +0. -/
def FV.lt (a b : FV) : Bool :=
  match a, b with
  | .inf na, .inf nb => na && !nb
  | .inf na, _ => na
  | _, .inf nb => !nb
  | _, _ => a.dy.lt b.dy
def FV.eqv (a b : FV) : Bool := !a.lt b && !b.lt a

/-- minimumNumber and maximumNumber (R111): −0 below +0. Bits are those of the operand chosen. -/
def fpMinMax (f : Fmt) (isMax : Bool) (ab bb : Nat) : Nat × FFlags :=
  let a := f.read ab
  let b := f.read bb
  let fl := flagIf (a.sNan || b.sNan) fNV
  if a.isNan && b.isNan then (f.nanBits, fl)
  else if a.isNan then (bb, fl)
  else if b.isNan then (ab, fl)
  else
    let aLess := a.lt b || (a.eqv b && a.neg && !b.neg)
    (if aLess == isMax then bb else ab, fl)

/-- The mask of a point (R117). -/
def fpClass (f : Fmt) (b : Nat) : Nat :=
  match f.read b with
  | .inf n => if n then 2 ^ 0 else 2 ^ 7
  | .nan s => if s then 2 ^ 8 else 2 ^ 9
  | .fin n m _ =>
    if m = 0 then (if n then 2 ^ 3 else 2 ^ 4)
    else if m < 2 ^ f.mb then (if n then 2 ^ 2 else 2 ^ 5) else (if n then 2 ^ 1 else 2 ^ 6)

/-- A relation of R116 on points; a NaN leaves it undecided and sets NV (R90). -/
def fpCmp (c : FCond) (a b : FV) : Tri × FFlags :=
  if a.isNan || b.isNan then (.u, fNV)
  else
    let r := match c with
      | .eq => a.eqv b | .ne => !a.eqv b | .lt => a.lt b | .le => !b.lt a | .gt => b.lt a | .ge => !a.lt b
      | _ => false
    (if r then .t else .f, 0)

/-! ### Conversions to integers (R130) -/

/-- Round to an integer in a mode, and whether it changed. -/
def Dy.toInt (rm : RM) (d : Dy) : Int × Bool :=
  let (n, nx) := roundAt rm (d.m < 0) d.m.natAbs d.e 0
  (if d.m < 0 then -(n : Int) else n, nx)

/-- A value to an integer of n bits. -/
def fpToInt (rm : RM) (signed : Bool) (n : Nat) (a : FV) : Int × FFlags :=
  let lo : Int := if signed then -(2 ^ (n - 1)) else 0
  let hi : Int := if signed then 2 ^ (n - 1) - 1 else 2 ^ n - 1
  match a with
  | .nan _ => (0, fNV)
  | .inf neg => (if neg then lo else hi, fNV)
  | .fin .. =>
    let d := a.dy
    if Dy.le ⟨2 ^ 65, 0⟩ d then (hi, fNV)
    else if Dy.le d ⟨-(2 ^ 65), 0⟩ then (lo, fNV)
    else
      let (v, nx) := d.toInt rm
      if v < lo then (lo, fNV) else if v > hi then (hi, fNV) else (v, flagIf nx fNX)

end Sys2Proof.Machine
end

