-- ==== Sys2Proof/Machine/Interval.lean ====
section
/-!
DEFINITION. Intervals (R80 to R91, R99 to R101, R109 to R117, R123): reading, exact bounds, outward rounding, comparison
and the compressed midpoint-radius form.
-/
namespace Sys2Proof.Machine

/-- A bound: −∞, a number, +∞. -/
inductive Bd where
  | ninf | fin (d : Dy) | pinf
deriving DecidableEq, Repr, Inhabited

def Bd.lt : Bd → Bd → Bool
  | .ninf, .ninf => false
  | .ninf, _ => true
  | .fin _, .ninf => false
  | .fin a, .fin b => a.lt b
  | .fin _, .pinf => true
  | .pinf, _ => false
def Bd.le (a b : Bd) : Bool := !b.lt a
def Bd.eq (a b : Bd) : Bool := a.le b && b.le a
def Bd.min (a b : Bd) : Bd := if b.lt a then b else a
def Bd.max (a b : Bd) : Bd := if a.lt b then b else a
def Bd.neg : Bd → Bd
  | .ninf => .pinf | .pinf => .ninf | .fin d => .fin d.neg
def Bd.isFin : Bd → Bool | .fin _ => true | _ => false
def Bd.zero : Bd := .fin ⟨0, 0⟩
/-- A sum; the two infinities never meet in one bound. -/
def Bd.add : Bd → Bd → Bd
  | .fin a, .fin b => .fin (a.add b)
  | .ninf, _ => .ninf
  | .pinf, _ => .pinf
  | _, b => b
/-- A product; 0 times an infinity counts as 0 (R84). -/
def Bd.mul (a b : Bd) : Bd :=
  match a, b with
  | .fin x, .fin y => .fin (x.mul y)
  | _, _ =>
    if a.eq Bd.zero || b.eq Bd.zero then Bd.zero
    else if a.lt Bd.zero == b.lt Bd.zero then .pinf else .ninf
/-- A quotient by a bound other than 0; a number over an infinity is 0. -/
def Bd.div (a b : Bd) : Bd :=
  match a, b with
  | .fin x, .fin y => .fin (x.div y)
  | .fin _, _ => Bd.zero
  | _, _ => if a.lt Bd.zero == b.lt Bd.zero then .pinf else .ninf
def Bd.ofFV : FV → Bd
  | .inf n => if n then .ninf else .pinf
  | v => .fin v.dy

/-- An interval; `none` is empty. -/
abbrev Iv := Option (Bd × Bd)

/-- An operand as read (R82): the interval and the flags of an ill-formed pattern. -/
structure IvIn where
  iv : Iv
  fl : FFlags := 0
deriving DecidableEq, Repr

def Fmt.illFormed (f : Fmt) (lo hi : Nat) : Bool :=
  let a := f.read lo
  let b := f.read hi
  !(lo = f.inf false && hi = f.inf true) &&
  (a.isNan || b.isNan || b.lt a || a == .inf false || b == .inf true)

def Fmt.readIv (f : Fmt) (lo hi : Nat) : IvIn :=
  if lo = f.inf false && hi = f.inf true then ⟨none, 0⟩
  else if f.illFormed lo hi then ⟨none, fNV ||| fIL⟩
  else ⟨some (Bd.ofFV (f.read lo), Bd.ofFV (f.read hi)), 0⟩

/-- A written interval: lower bits, upper bits, flags. -/
structure IvOut where
  lo : Nat
  hi : Nat
  fl : FFlags := 0
deriving DecidableEq, Repr

def Fmt.emptyIv (f : Fmt) : IvOut := ⟨f.inf false, f.inf true, 0⟩
def Fmt.entire (f : Fmt) : IvOut := ⟨f.inf true, f.inf false, 0⟩
def IvOut.flag (r : IvOut) (fl : FFlags) : IvOut := { r with fl := r.fl ||| fl }

/-- Every bound of the operands is finite. -/
def allFinite (xs : List Iv) : Bool := xs.all fun x => match x with | some (a, b) => a.isFin && b.isFin | none => true

/-- Interval results set no UF, but in the matrix engine (R210); NX, OF as the bound rounds (R87, R95, R109). -/
def ivFlags (fl : FFlags) : FFlags := fl &&& (fNX ||| fOF)

/-- A number beyond the largest finite value of the format, which no bound can hold (R87). -/
def Fmt.beyond (f : Fmt) (d : Dy) : Bool := (f.read f.maxBits).dy.lt ⟨d.m.natAbs, d.e⟩

/-- A bound rounded outward; an infinite one is written as it is. A zero bound is +0 (R83); OF as R87 gives. -/
def Fmt.bound (f : Fmt) (lower : Bool) : Bd → Nat × FFlags
  | .ninf => (f.inf true, 0)
  | .pinf => (f.inf false, 0)
  | .fin d =>
    let r := f.round (if lower then .rd else .ru) d
    (if r.1 = f.signBit then 0 else r.1, ivFlags r.2 ||| flagIf (f.beyond d) fOF)

/-- UN when a written bound is infinite although every operand bound was finite (R95). -/
def Fmt.un (f : Fmt) (fin : Bool) (lo hi : Nat) : FFlags := flagIf (fin && (lo == f.inf true || hi == f.inf false)) fUN

/-- An interval written tightest (R85). DEDUCED, log 76. -/
def Fmt.tight (f : Fmt) (fin : Bool) : Iv → IvOut
  | none => f.emptyIv
  | some (a, b) =>
    let l := f.bound true a
    let h := f.bound false b
    ⟨l.1, h.1, l.2 ||| h.2 ||| f.un fin l.1 h.1⟩

/-- The format value next below or above a value, an infinity ending the line. -/
def Fmt.next (f : Fmt) (down : Bool) (b : Nat) : Nat :=
  let neg := decide (b ≥ f.signBit)
  let mag := b % f.signBit
  if mag = 0 then f.withSign down 1
  else if neg == down then (if mag = f.infBits then b else f.withSign neg (mag + 1))
  else (let m := mag - 1; if m = 0 then 0 else f.withSign neg m)

/-- A bound outward to 1 ulp: the directed neighbour or, as the device may choose, the one beyond it (R85); an exactly
representable bound is written exactly. -/
def Fmt.outBound (f : Fmt) (op key : Nat) (lower : Bool) (b : Bd) : Nat × FFlags :=
  let r := f.bound lower b
  if r.2 &&& fNX != 0 && r.1 % f.signBit != f.infBits && Config.ulp (op + 8 + (if lower then 0 else 4) + 16 * f.mb) key then
    (f.next lower r.1, r.2 ||| flagIf (f.next lower r.1 % f.signBit == f.infBits) fOF)
  else r

def Fmt.outward (f : Fmt) (op key : Nat) (fin : Bool) : Iv → IvOut
  | none => f.emptyIv
  | some (a, b) =>
    let l := f.outBound op key true a
    let h := f.outBound op key false b
    ⟨l.1, h.1, l.2 ||| h.2 ||| f.un fin l.1 h.1⟩

/-! ### Exact results (R84, R86, R109) -/

def Iv.both (x y : Iv) (g : Bd × Bd → Bd × Bd → Bd × Bd) : Iv :=
  match x, y with | some a, some b => some (g a b) | _, _ => none

def ivAdd (x y : Iv) : Iv := Iv.both x y fun a b => (a.1.add b.1, a.2.add b.2)
def ivNeg (x : Iv) : Iv := x.map fun a => (a.2.neg, a.1.neg)
def ivSub (x y : Iv) : Iv := ivAdd x (ivNeg y)
def ivMul (x y : Iv) : Iv := Iv.both x y fun a b =>
  let p := a.1.mul b.1
  let q := a.1.mul b.2
  let r := a.2.mul b.1
  let t := a.2.mul b.2
  ((p.min q).min (r.min t), (p.max q).max (r.max t))
def hasZero (x : Iv) : Bool := match x with | some (a, b) => a.le Bd.zero && Bd.zero.le b | none => false
/-- Division by an interval without 0. -/
def ivDiv (x y : Iv) : Iv := Iv.both x y fun a b =>
  if Bd.zero.lt b.1 then
    (a.1.div (if a.1.lt Bd.zero then b.1 else b.2), a.2.div (if a.2.lt Bd.zero then b.2 else b.1))
  else
    (a.2.div (if a.2.lt Bd.zero then b.1 else b.2), a.1.div (if a.1.lt Bd.zero then b.2 else b.1))

/-- The part of an interval in [0, +∞] or (0, +∞], and whether points fell outside (R86). -/
def domainPos (isOpen : Bool) (x : Iv) : Iv × Bool :=
  match x with
  | none => (none, false)
  | some (a, b) =>
    let out := a.lt Bd.zero || (isOpen && a.le Bd.zero)
    if b.lt Bd.zero || (isOpen && b.le Bd.zero) then (none, true)
    else (some (a.max Bd.zero, b), out)

def Bd.map (b : Bd) (g : Dy → Dy) (ni pi : Bd) : Bd :=
  match b with
  | .ninf => ni | .pinf => pi | .fin d => .fin (g d)

/-! ### Operations on read operands -/

/-- FADD, FSUB, FMUL, FDIV, FFMA (R109); division by an interval with 0 is entire (R87). -/
def ivArith (f : Fmt) (op : Iv → Iv → Iv) (x y : IvIn) : IvOut :=
  (f.tight (allFinite [x.iv, y.iv]) (op x.iv y.iv)).flag (x.fl ||| y.fl)

def ivZeroDiv (f : Fmt) (fin : Bool) : IvOut := f.entire.flag (fDZ ||| fWD ||| flagIf fin fUN)

def ivDivOp (f : Fmt) (x y : IvIn) : IvOut :=
  if x.iv.isSome && hasZero y.iv then (ivZeroDiv f (allFinite [x.iv, y.iv])).flag (x.fl ||| y.fl)
  else ivArith f ivDiv x y

def ivFmaOp (f : Fmt) (x y z : IvIn) : IvOut :=
  (f.tight (allFinite [x.iv, y.iv, z.iv]) (ivAdd (ivMul x.iv y.iv) z.iv)).flag (x.fl ||| y.fl ||| z.fl)

def ivSqrtOp (f : Fmt) (x : IvIn) : IvOut :=
  let d := domainPos false x.iv
  (f.tight (allFinite [x.iv]) (d.1.map fun a => (a.1.map Dy.sqrt .ninf .pinf, a.2.map Dy.sqrt .ninf .pinf))).flag
    (x.fl ||| flagIf d.2 fDM)

def ivRcpOp (f : Fmt) (key : Nat) (x : IvIn) : IvOut :=
  if hasZero x.iv then (ivZeroDiv f (allFinite [x.iv])).flag x.fl
  else
    (f.outward 0 key (allFinite [x.iv]) (x.iv.map fun a =>
      ((Bd.fin ⟨1, 0⟩).div a.2, (Bd.fin ⟨1, 0⟩).div a.1))).flag x.fl

/-- 1/√ of a bound in [0, +∞]: an open end gives +∞. -/
def bdRsqrt : Bd → Bd
  | .fin d => if d.isZero then .pinf else .fin d.rsqrt
  | _ => Bd.zero
def ivRsqOp (f : Fmt) (key : Nat) (x : IvIn) : IvOut :=
  let d := domainPos true x.iv
  (f.outward 1 key (allFinite [x.iv]) (d.1.map fun a => (bdRsqrt a.2, bdRsqrt a.1))).flag (x.fl ||| flagIf d.2 fDM)

def ivExp2Op (f : Fmt) (key : Nat) (x : IvIn) : IvOut :=
  (f.outward 2 key (allFinite [x.iv]) (x.iv.map fun a =>
    (a.1.map Dy.exp2 Bd.zero .pinf, a.2.map Dy.exp2 Bd.zero .pinf))).flag x.fl

def bdLog2 : Bd → Bd
  | .fin d => if d.isZero then .ninf else .fin d.log2
  | b => b
def ivLog2Op (f : Fmt) (key : Nat) (x : IvIn) : IvOut :=
  let d := domainPos true x.iv
  (f.outward 3 key (allFinite [x.iv]) (d.1.map fun a => (bdLog2 a.1, bdLog2 a.2))).flag (x.fl ||| flagIf d.2 fDM)

/-- FMIN, FMAX, FABS, FNEG (R111, R112): exact. -/
def ivMin (x y : Iv) : Iv := Iv.both x y fun a b => (a.1.min b.1, a.2.min b.2)
def ivMax (x y : Iv) : Iv := Iv.both x y fun a b => (a.1.max b.1, a.2.max b.2)
def ivAbs (x : Iv) : Iv := x.map fun a =>
  if Bd.zero.le a.1 then a
  else if a.2.le Bd.zero then (a.2.neg, a.1.neg)
  else (Bd.zero, a.1.neg.max a.2)
/-- FHULL, FCAP (R113). -/
def ivHull (x y : Iv) : Iv :=
  match x, y with
  | some a, some b => some (a.1.min b.1, a.2.max b.2)
  | none, y => y
  | x, none => x
def ivCap (x y : Iv) : Iv :=
  match x, y with
  | some a, some b =>
    let l := a.1.max b.1
    let h := a.2.min b.2
    if h.lt l then none else some (l, h)
  | _, _ => none

/-! ### One-point results (R114) -/

/-- [v, v]; an infinite v is the half-open form. -/
def Fmt.onePoint (f : Fmt) (fin : Bool) (b : Nat) : IvOut :=
  let z := if b = f.signBit then 0 else b
  if z = f.inf false then ⟨f.maxBits, f.inf false, f.un fin f.maxBits (f.inf false)⟩
  else if z = f.inf true then ⟨f.inf true, f.signBit + f.maxBits, f.un fin (f.inf true) 0⟩
  else ⟨z, z, 0⟩

/-- The sel of FLO, FHI, FMID, FRAD, FWID. -/
inductive OneSel where
  | lo | hi | mid | rad | wid
deriving DecidableEq, Repr

/-- m of FMID. -/
def Fmt.mid (f : Fmt) (a b : Dy) : Nat × FFlags := f.round .rne ((a.add b).scale (-1))

def Fmt.oneOf (f : Fmt) (sel : OneSel) (x : IvIn) : IvOut :=
  let fin := allFinite [x.iv]
  (match x.iv with
  | none => f.emptyIv
  | some (a, b) =>
    match sel with
    | .lo => f.onePoint fin (f.bound true a).1
    | .hi => f.onePoint fin (f.bound false b).1
    | .mid =>
      (match a, b with
      | .fin x, .fin y => let r := f.mid x y; (f.onePoint fin r.1).flag (ivFlags r.2)
      | .ninf, .pinf => f.onePoint fin 0
      | .ninf, _ => f.onePoint fin (f.signBit + f.maxBits)
      | _, _ => f.onePoint fin f.maxBits)
    | .rad =>
      (match a, b with
      | .fin x, .fin y =>
        let m := (f.read (f.mid x y).1).dy
        let l := m.sub x
        let h := y.sub m
        let r := f.round .ru (if l.lt h then h else l)
        (f.onePoint fin r.1).flag (ivFlags r.2)
      | _, _ => f.onePoint fin (f.inf false))
    | .wid =>
      (match a, b with
      | .fin x, .fin y => let r := f.round .ru (y.sub x); (f.onePoint fin r.1).flag (ivFlags r.2)
      | _, _ => f.onePoint fin (f.inf false))).flag x.fl

/-- FMK (R115). -/
def Fmt.mk' (f : Fmt) (a b : Nat) : IvOut :=
  let x := f.read a
  let y := f.read b
  if x.isNan || y.isNan || y.lt x || x == .inf false || y == .inf true then f.emptyIv.flag fNV
  else ⟨if a = f.signBit then 0 else a, if b = f.signBit then 0 else b, 0⟩

/-- The mask of an interval (R117). -/
def Fmt.classIv (f : Fmt) (lo hi : Nat) : Nat :=
  if lo = f.inf false && hi = f.inf true then 1
  else if f.illFormed lo hi then 4
  else
    let a := Bd.ofFV (f.read lo)
    let b := Bd.ofFV (f.read hi)
    let bit := fun (c : Bool) (k : Nat) => if c then 2 ^ k else 0
    bit (a == .ninf && b == .pinf) 1 + bit (a.eq b && a.isFin) 3 + bit (a.le Bd.zero && Bd.zero.le b) 4 +
    bit (a == .ninf) 5 + bit (b == .pinf) 6 + bit (Bd.zero.le a) 7 + bit (b.le Bd.zero) 8

/-! ### Comparison (R89) -/

def tri (t f : Bool) : Tri := if t then .t else if f then .f else .u

def ivCmp (c : FCond) (x y : Iv) : Tri :=
  match x, y with
  | some (a, b), some (c', d) =>
    match c with
    | .lt => tri (b.lt c') (d.le a)
    | .le => tri (b.le c') (d.lt a)
    | .gt => tri (d.lt a) (b.le c')
    | .ge => tri (d.le a) (b.lt c')
    | .eq => tri (a.eq b && b.eq c' && c'.eq d) (b.lt c' || d.lt a)
    | .ne => tri (b.lt c' || d.lt a) (a.eq b && b.eq c' && c'.eq d)
    | .subset => if c'.le a && b.le d then .t else .f
    | .disjoint => if b.lt c' || d.lt a then .t else .f
    | .contains => tri (a.le c' && d.le b) (b.lt c' || d.lt a)
  | _, _ => .f

/-! ### Integer intervals (R91, R123) -/

def iviMin : Int := -(2 ^ 31)
def iviMax : Int := 2 ^ 31 - 1

/-- A .ivi32 register as read (R82, R91). -/
def readIvi (w : Word) : IvIn :=
  let a : Int := (w.extractLsb' 0 32).toInt
  let b : Int := (w.extractLsb' 32 32).toInt
  if w = 0x800000007FFFFFFF then ⟨none, 0⟩
  else if b < a then ⟨none, fNV ||| fIL⟩
  else ⟨some (if a = iviMin then .ninf else .fin ⟨a, 0⟩, if b = iviMax then .pinf else .fin ⟨b, 0⟩), 0⟩

def iviEmpty : Word := 0x800000007FFFFFFF
def iviFull : Word := 0x7FFFFFFF80000000
def packIvi (a b : Int) : Word := (BitVec.ofInt 32 b) ++ (BitVec.ofInt 32 a)

/-- The integer of a bound, at exponent 0 or more. -/
def Dy.intVal (d : Dy) : Int := d.m * pow2 d.e

/-- An exact integer interval written (R91, R123). -/
def writeIvi : Iv → Word × FFlags
  | none => (iviEmpty, 0)
  | some (a, b) =>
    let out := fun (x : Bd) => match x with | .fin d => decide (d.intVal < iviMin) || decide (iviMax < d.intVal) | _ => false
    if out a || out b then (iviFull, fOF ||| fWD)
    else
      let lo := match a with | .fin d => d.intVal | _ => iviMin
      let hi := match b with | .fin d => d.intVal | _ => iviMax
      (packIvi lo hi, 0)

def iviOp (op : Iv → Iv → Iv) (a b : Word) : Word × FFlags :=
  let x := readIvi a
  let y := readIvi b
  let r := writeIvi (op x.iv y.iv)
  (r.1, r.2 ||| x.fl ||| y.fl)

/-! ### Conversions (R129) -/

/-- .ivi32 ← .iv32: bounds to the floor and the ceiling. -/
def iviOfIv (x : IvIn) : Word × FFlags :=
  match x.iv with
  | none => (iviEmpty, x.fl)
  | some (a, b) =>
    let cut := fun (lower : Bool) (y : Bd) => match y with
      | .ninf | .pinf => ((if lower then iviMin else iviMax), (0 : FFlags))
      | .fin d =>
        let big := Dy.le ⟨2 ^ 40, 0⟩ d
        let small := Dy.le d ⟨-(2 ^ 40), 0⟩
        let r := if big || small then (0, true) else d.toInt (if lower then .rd else .ru)
        let past := big || small || decide (r.1 < iviMin) || decide (iviMax < r.1)
        if past then ((if lower then iviMin else iviMax), fOF ||| fWD ||| fNX)
        else
          let isOpen := (lower && r.1 == iviMin) || (!lower && r.1 == iviMax)
          (r.1, flagIf (r.2 || isOpen) fNX)
    let l := cut true a
    let h := cut false b
    (packIvi l.1 h.1, x.fl ||| l.2 ||| h.2)

/-- [v, v] of a point (R94, R129): NaN gives empty and NV, an infinity the one-point form with no flag. -/
def Fmt.ofPoint (f : Fmt) (b : Nat) : IvOut :=
  if (f.read b).isNan then f.emptyIv.flag fNV else f.onePoint false b

/-! ### The compressed midpoint-radius form (R99 to R101) -/

/-- The grid of midpoints: FP32 with 15 mantissa bits. -/
def fgrid : Fmt := ⟨8, 15⟩

/-- The smallest k with 2^k not less than d > 0. -/
def Dy.ceilLog2 (d : Dy) : Int := if d.m.natAbs = 2 ^ ilog2 d.m.natAbs then d.lead else d.lead + 1

/-- ST.mrad32 of an .iv32 operand. -/
def mradStore (x : IvIn) : Half × FFlags :=
  match x.iv with
  | none => (0x7FC00000, x.fl)
  | some (.fin lo, .fin hi) =>
    let r := fgrid.round .rne ((lo.add hi).scale (-1))
    let mb := if r.1 = fgrid.signBit then 0 else r.1
    if mb % fgrid.signBit = fgrid.infBits then (0x000000FF, fWD)
    else
      let m := (fgrid.read mb).dy
      let d := if (m.sub lo).lt (hi.sub m) then hi.sub m else m.sub lo
      if d.isZero then (BitVec.ofNat 32 (mb * 256), 0)
      else
        let k := max d.ceilLog2 (-149)
        if k > 104 then (0x000000FF, fWD)
        else
          let rho : Dy := ⟨1, k⟩
          (BitVec.ofNat 32 (mb * 256 + (k + 150).toNat),
            flagIf (!((m.sub rho).eq lo) || !((m.add rho).eq hi)) fNX)
  | some (a, b) => (0x000000FF, flagIf (!(a == .ninf && b == .pinf)) fWD)

/-- LD.mrad32: the loaded .iv32 register. -/
def mradLoad (w : Half) : IvOut :=
  let mid := w.toNat / 256
  let re := w.toNat % 256
  match fgrid.read mid with
  | .nan _ => f32.emptyIv
  | .inf _ => if re = 255 then f32.entire else f32.entire.flag fNV
  | v =>
    if re = 255 then f32.entire
    else
      let rho : Dy := if re = 0 then ⟨0, 0⟩ else ⟨1, (re : Int) - 150⟩
      (f32.tight true (some (.fin (v.dy.sub rho), .fin (v.dy.add rho))))

end Sys2Proof.Machine
end

