-- ==== Sys2Proof/Machine/Narrow.lean ====
section
/-!
DEFINITION. Narrow element formats, block scales and layout records (R181 to R193, R203, R204, R215 to R219): decoding a
descriptor or record, turning values into codes and back, and aligning blocks for plane images.
-/
namespace Sys2Proof.Machine

/-- A field of n bits at bit k of a number. -/
def bitsAt (n k w : Nat) : Nat := n / 2 ^ k % 2 ^ w

/-! ### Format descriptors (R181 to R186) -/

structure Desc where
  s : Bool
  sp : Bool
  lut : Bool
  e : Nat
  m : Nat
  bias : Int
  valid : Bool
deriving DecidableEq, Repr, Inhabited

/-- A descriptor's fields; SC stands outside it. One whose fields lie outside the ranges of R181 (E = 8 with M = 0 and S = 0, or FX above
15) is invalid, also where R182's own row would admit it. DESIGN CHOICE, log 88. -/
def descOf (w : Word) : Desc :=
  let n := w.toNat
  let s := n.testBit 0
  let sp := n.testBit 1
  let lut := n.testBit 2
  let e := bitsAt n 8 4
  let m := bitsAt n 12 4
  let bias : Int := ((w.extractLsb' 16 8).toInt)
  let fx := bitsAt n 24 8
  let sw := (if s then 1 else 0) + e + m
  let mbz := bitsAt n 3 5 == 0 && bitsAt n 32 24 == 0
  let valid := mbz &&
    (if lut then !s && e == 0 && m == 4 && !sp && bias == 0 && decide (fx ≤ 15)
     else if e = 0 then !sp && bias == 0 && fx == 0 && decide (1 ≤ sw) && decide (sw ≤ 8) && decide (m ≤ 8)
     else decide (e ≤ 7) && decide (m ≤ 8) && decide (sw ≤ 8) && (!sp || decide (1 ≤ m)) && fx == 0)
  ⟨s, sp, lut, e, m, bias, valid⟩

/-- The element width. -/
def Desc.w (d : Desc) : Nat := if d.lut then 4 else (if d.s then 1 else 0) + d.e + d.m
def Desc.isInt (d : Desc) : Bool := d.e == 0
/-- Codes above this magnitude field are infinities or NaNs, or do not exist. -/
def Desc.maxCode (d : Desc) : Nat := if d.sp then (2 ^ d.e - 1) * 2 ^ d.m - 1 else 2 ^ (d.e + d.m) - 1
/-- The least integer code's value, and the largest. -/
def Desc.intLo (d : Desc) : Int := if d.s then -(2 ^ (d.w - 1)) else 0
def Desc.intHi (d : Desc) : Int := if d.s then 2 ^ (d.w - 1) - 1 else 2 ^ d.w - 1
def Desc.emax (d : Desc) : Int :=
  if d.isInt then (if d.s then (d.w : Int) - 2 else (d.w : Int) - 1)
  else 2 ^ d.e - 1 - (if d.sp then 1 else 0) - d.bias
def Desc.nanCode (d : Desc) : Nat := (2 ^ d.e - 1) * 2 ^ d.m + 2 ^ (d.m - 1)
/-- The quantum of subnormal codes. -/
def Desc.qmin (d : Desc) : Int := 1 - d.bias - d.m

/-- The value of a code (R183, R185). -/
def Desc.value (d : Desc) (k : Nat) : FV :=
  if d.isInt then
    let n := k % 2 ^ d.w
    if d.s && n ≥ 2 ^ (d.w - 1) then .fin true (2 ^ d.w - n) 0 else .fin false n 0
  else
    let neg := d.s && k.testBit (d.w - 1)
    let x := bitsAt k d.m d.e
    let f := k % 2 ^ d.m
    if d.sp && x == 2 ^ d.e - 1 then (if f = 0 then .inf neg else .nan false)
    else if x = 0 then .fin neg f d.qmin
    else .fin neg (f + 2 ^ d.m) (d.qmin + x - 1)

/-- R188. -/
def Desc.decode (d : Desc) (k c : Nat) : FV :=
  if c = 255 then .nan false
  else match d.value k with
    | .fin n m e => .fin n m (e + c - 127)
    | v => v

/-- The code of a sign and a magnitude field. -/
def Desc.codeOf (d : Desc) (neg : Bool) (mag : Nat) : Nat := if neg && d.s then 2 ^ (d.w - 1) + mag else mag

/-- R187. -/
def Desc.encode (d : Desc) (v : FV) (c : Nat) (rm : RM) : Nat × FFlags :=
  if c = 255 then (0, 0)
  else if d.isInt then
    let code := fun (n : Int) => (n % 2 ^ d.w).toNat
    match v with
    | .nan _ => (0, fNV)
    | .inf neg => (code (if neg then d.intLo else d.intHi), fOF)
    | .fin .. =>
      let t := v.dy.scale (127 - c)
      if t.isZero then (0, 0)
      else
        let big := t.lead > 16
        let r := if big then (if t.m < 0 then d.intLo - 1 else d.intHi + 1, true) else t.toInt rm
        let u := min d.intHi (max d.intLo r.1)
        (code u, flagIf (u != r.1) (fOF ||| fNX) ||| flagIf (r.2 || big) fNX ||| flagIf (u == 0) fUF)
  else
    match v with
    | .nan sg => if d.sp then (d.nanCode, flagIf sg fNV) else (0, fNV)
    | .inf neg =>
      if d.sp && (!neg || d.s) then (d.codeOf neg (d.maxCode + 1), 0)
      else (if neg && !d.s then 0 else d.codeOf neg d.maxCode, fOF)
    | .fin neg _ _ =>
      let t := v.dy.scale (127 - c)
      if t.isZero then (d.codeOf neg 0, 0)
      else
        let q := max (t.lead - d.m) d.qmin
        let r := roundAt rm neg t.m.natAbs t.e q
        let mag := (q - d.qmin).toNat * 2 ^ d.m + r.1
        let low := neg && !d.s && mag != 0
        let u := if low then 0 else min mag d.maxCode
        (d.codeOf neg u, flagIf (low || decide (mag > d.maxCode)) (fOF ||| fNX) ||| flagIf r.2 fNX |||
          flagIf (decide (u < 2 ^ d.m)) fUF)

/-- The scale code derived from the largest magnitude (R190), with its flag. -/
def Desc.scaleFor (d : Desc) (maxabs : FV) : Nat × FFlags :=
  match maxabs with
  | .fin _ 0 _ => (0, 0)
  | .fin .. => ((min 254 (max 0 (maxabs.dy.lead - d.emax + 127))).toNat, 0)
  | _ => (255, fNV)

/-! ### Layout records (R215 to R219) -/

/-- The record in 64 little-endian bytes. -/
def layoutOf (bs : List Byte) : Layout :=
  let n := leNat bs
  let f := fun (off len : Nat) => bitsAt n (8 * off) (8 * len)
  let ctl := f 0x3A 1
  let ety := f 0x3B 1
  { base := f 0 8, fmt := BitVec.ofNat 64 (f 8 8), scale := f 0x10 8
    strides := [f 0x18 5, f 0x1D 5, f 0x22 5, f 0x27 5]
    ext := [f 0x2C 3, f 0x2F 3, f 0x32 2, f 0x34 1, f 0x35 1]
    box0 := f 0x36 2, box1 := f 0x38 2
    mode := ctl % 8, padp := ctl / 8 % 4, stile := ctl.testBit 5, ivi := ctl.testBit 6
    ety := ety % 32, pl := f 0x3C 1
    mbz := !ctl.testBit 7 && ety / 32 == 0 && f 0x3D 3 == 0 }

def Layout.desc (l : Layout) : Desc := descOf l.fmt
def Layout.narrow (l : Layout) : Bool := l.ety == 16
/-- Bits of a memory element (R216). -/
def Layout.w (l : Layout) : Nat :=
  if l.ety = 16 then l.desc.w
  else if l.ety = 2 then 128
  else if l.ety = 0 || l.ety = 3 || l.ety = 5 || l.ety = 8 || l.ety = 9 || l.ety = 15 then 64
  else if l.ety = 1 || l.ety = 6 || l.ety = 7 || l.ety = 10 then 32
  else if l.ety = 4 || l.ety = 13 || l.ety = 14 then 16
  else 8

/-- The kind of a plane image (R218). -/
def Layout.kind (l : Layout) : Option Nat :=
  if l.ety = 16 then some (if l.desc.lut then 3 else if l.desc.isInt then (if l.desc.s then 1 else 0) else 2)
  else if l.ety = 11 || l.ety = 13 then some 1
  else if l.ety = 12 || l.ety = 14 then some 0
  else if l.ety ≤ 4 || l.ety = 10 then some 2
  else none
/-- The image is an interval image. -/
def Layout.ivImage (l : Layout) : Bool := l.ety == 0 || l.ety == 2 || l.ety == 10 || l.ivi

/-- R215 to R219, apart from the direction. -/
def Layout.valid (l : Layout) : Bool :=
  let e := l.ext.getD
  let unit := if l.narrow then 1 else l.w / 8
  let lut := l.narrow && l.desc.lut
  l.mbz && decide (l.ety ≤ 16) && (if l.narrow then l.desc.valid else l.fmt == 0) &&
  decide (1 ≤ e 0 0) && decide (1 ≤ e 1 0) && decide (1 ≤ e 2 0) && decide (e 2 0 ≤ 16384) &&
  decide (1 ≤ e 3 0) && decide (e 3 0 ≤ 32) && decide (1 ≤ e 4 0) && decide (e 4 0 ≤ 32) &&
  decide (1 ≤ l.box0) && decide (1 ≤ l.box1) &&
  l.base % unit == 0 && l.strides.all (fun s => s % unit == 0) &&
  (l.mode == 3 || (l.pl == 0 && !l.ivi)) &&
  (match l.mode with
   | 0 => !l.narrow || l.box0 * l.w % 8 == 0
   | 1 => l.narrow && !lut && (decide (4 < l.w) || l.box0 % 2 == 0)
   | 2 => l.narrow && !lut
   | 3 => l.padp != 2 && l.box0 % 256 == 0 && decide (l.box1 ≤ 128) &&
      (match l.kind with
       | none => false
       | some 3 => l.pl == 4 && !l.ivi
       | some 2 => decide (4 ≤ l.pl) && decide (l.pl ≤ 24)
       | some _ => decide (l.w ≤ l.pl) && !l.ivi)
   | 4 => l.padp != 2 && l.ety != 15 && !lut
   | 5 => l.ety == 10
   | _ => false)

/-- The mode is allowed for a direction (R218). -/
def Layout.allows (l : Layout) (d : Dir) : Bool :=
  match l.mode, d with
  | 0, _ => true
  | 1, .toPad => true
  | 2, .padToMem => true
  | 3, .toPad => true
  | 4, .toPad => true
  | 4, .memToMem => true
  | 5, _ => true
  | _, _ => false

/-- An element's indices. -/
structure Idx where
  i0 : Nat
  i1 : Nat
  i2 : Nat := 0
  i3 : Nat := 0
  i4 : Nat := 0
deriving DecidableEq, Repr

def Layout.inside (l : Layout) (i : Idx) : Bool :=
  let e := l.ext.getD
  decide (i.i0 < e 0 0) && decide (i.i1 < e 1 0) && decide (i.i2 < e 2 0) && decide (i.i3 < e 3 0) && decide (i.i4 < e 4 0)
def Layout.clamp (l : Layout) (i : Idx) : Idx :=
  let c := fun (n k : Nat) => min n (l.ext.getD k 1 - 1)
  ⟨c i.i0 0, c i.i1 1, c i.i2 2, c i.i3 3, c i.i4 4⟩
/-- The element an index stands for: itself, its clamp (PADP 11), or none outside the tensor (R219). -/
def Layout.at (l : Layout) (i : Idx) : Option Idx :=
  if l.inside i then some i else if l.padp = 3 then some (l.clamp i) else none

/-- Byte address and bit of an element (R192, R215). -/
def Layout.place (l : Layout) (i : Idx) : Nat × Nat :=
  let s := l.strides.getD
  let a := l.base + i.i1 * s 0 0 + i.i2 * s 1 0 + i.i3 * s 2 0 + i.i4 * s 3 0
  let bit := i.i0 * l.w
  ((a + bit / 8) % 2 ^ 64, bit % 8)
def Layout.bytesOf (l : Layout) (i : Idx) : List Nat :=
  let p := l.place i
  (List.range ((p.2 + l.w + 7) / 8)).map fun k => (p.1 + k) % 2 ^ 64
/-- Address of an element's scale byte (R189); none when the record has no scale array. -/
def Layout.scaleAt (l : Layout) (i : Idx) : Option Nat :=
  if !l.narrow || l.scale = 0 then none
  else
    let s := if l.stile then 32 else 16
    let cols := (l.ext.getD 0 1 + s - 1) / s
    some ((l.scale + i.i1 / s * cols + i.i0 / s) % 2 ^ 64)

/-- An element's code read through a byte reader. -/
def Layout.code (l : Layout) (rd : Nat → Byte) (i : Idx) : Nat :=
  bitsAt (leNat ((l.bytesOf i).map rd)) (l.place i).2 l.w
def Layout.scaleCode (l : Layout) (rd : Nat → Byte) (i : Idx) : Nat :=
  match l.scaleAt i with | some a => (rd a).toNat | none => 127

def ivOfFV : FV → Iv
  | .nan _ => none
  | v => some (Bd.ofFV v, Bd.ofFV v)

/-- A number of w bits as an integer. -/
def asInt (signed : Bool) (w n : Nat) : Int := if signed && n ≥ 2 ^ (w - 1) then (n : Int) - 2 ^ w else n

/-- The exact enclosure of a code of the record's element format; none for a NaN or empty (R172). -/
def Layout.elem (l : Layout) (code scale : Nat) : Iv :=
  if l.narrow then ivOfFV (l.desc.decode code scale)
  else if l.ety = 0 then (f32.readIv (code % 2 ^ 32) (code / 2 ^ 32)).iv
  else if l.ety = 1 then ivOfFV (f32.read code)
  else if l.ety = 2 then (f64.readIv (code % 2 ^ 64) (code / 2 ^ 64)).iv
  else if l.ety = 3 then ivOfFV (f64.read code)
  else if l.ety = 4 then ivOfFV (fb16.read code)
  else if l.ety = 5 then (readIvi (BitVec.ofNat 64 code)).iv
  else if l.ety = 10 then
    let re := code % 256
    (match fgrid.read (code / 256) with
    | .nan _ => none
    | .inf _ => some (.ninf, .pinf)
    | v => if re = 255 then some (.ninf, .pinf)
      else
        let rho : Dy := if re = 0 then ⟨0, 0⟩ else ⟨1, (re : Int) - 150⟩
        some (.fin (v.dy.sub rho), .fin (v.dy.add rho)))
  else
    let signed := l.ety == 6 || l.ety == 8 || l.ety == 11 || l.ety == 13
    let d : Dy := ⟨asInt signed l.w code, 0⟩
    some (.fin d, .fin d)

/-- The flags of reading an element as an interval: an ill-formed one counts as empty (R82, R204). -/
def Layout.elemFlags (l : Layout) (code : Nat) : FFlags :=
  if l.narrow then 0
  else if l.ety = 0 then (f32.readIv (code % 2 ^ 32) (code / 2 ^ 32)).fl
  else if l.ety = 2 then (f64.readIv (code % 2 ^ 64) (code / 2 ^ 64)).fl
  else if l.ety = 5 then (readIvi (BitVec.ofNat 64 code)).fl
  else 0

/-- The code that stands for an element outside the tensor (R219). -/
def Layout.outCode (l : Layout) : Nat :=
  if l.padp != 1 then 0
  else if l.narrow then (if l.desc.sp && !l.desc.isInt then l.desc.nanCode else 0)
  else if l.ety = 0 then f32.inf false + f32.inf true * 2 ^ 32
  else if l.ety = 1 then f32.nanBits
  else if l.ety = 2 then f64.inf false + f64.inf true * 2 ^ 64
  else if l.ety = 3 then f64.nanBits
  else if l.ety = 4 then fb16.nanBits
  else if l.ety = 5 then 0x800000007FFFFFFF
  else if l.ety = 10 then 0x7FC00000
  else 0

/-! ### Hulls (R172, R218) -/

/-- The hull of elements, each exact; none stands for a NaN or empty element. DEDUCED, log 60. -/
def hullOf (f : Fmt) (es : List Iv) : IvOut :=
  if es.isEmpty then f.emptyIv
  else if es.any (·.isNone) then f.entire.flag fNV
  else
    match es.foldl ivHull none with
    | none => f.emptyIv
    | some (.pinf, _) => ⟨f.maxBits, f.inf false, 0⟩
    | some (_, .ninf) => ⟨f.inf true, f.signBit + f.maxBits, 0⟩
    | some h => f.tight (allFinite es) (some h)

/-! ### One value into an element (R173) -/

/-- A value of STB: a point, or an integer. -/
inductive StbIn where
  | flt (f : Fmt) (bits : Nat)
  | int (n : Int)
deriving DecidableEq, Repr

def StbIn.fv : StbIn → FV
  | .flt f b => f.read b
  | .int n => .fin (n < 0) n.natAbs 0

def stbFlags : FFlags := fNV ||| fOF ||| fUF ||| fNX

/-- [v, v] rounded outward to a format. -/
def Fmt.encloseFV (f : Fmt) (v : FV) : IvOut :=
  match v with
  | .nan _ => f.emptyIv.flag fNV
  | .inf n => f.onePoint false (f.inf n)
  | v => f.tight true (some (.fin v.dy, .fin v.dy))

/-- The element code of a value under a scale code, and the flags of the conversion: NV, OF, UF and NX alone (R173). An interval format
takes [v, v] rounded outward, and then sets neither UN nor WD. DEDUCED, log 49. -/
def Layout.convert (l : Layout) (v : StbIn) (raw : Word) (scale : Nat) : Nat × FFlags :=
  let x := v.fv
  let pack := fun (n : Nat) (r : IvOut) => (r.lo + r.hi * 2 ^ n, r.fl &&& stbFlags)
  if l.narrow then l.desc.encode x scale .rne
  else if l.ety = 0 then pack 32 (f32.encloseFV x)
  else if l.ety = 1 then f32.put .rne x
  else if l.ety = 2 then pack 64 (f64.encloseFV x)
  else if l.ety = 3 then f64.put .rne x
  else if l.ety = 4 then fb16.put .rne x
  else if l.ety = 5 then
    let r := match x with
      | .nan _ => (iviEmpty, fNV)
      | x => iviOfIv ⟨ivOfFV x, 0⟩
    (r.1.toNat, r.2 &&& stbFlags)
  else if l.ety = 10 then
    let r := f32.encloseFV x
    let m := mradStore (f32.readIv r.lo r.hi)
    (m.1.toNat, (r.fl ||| m.2) &&& stbFlags)
  else if l.ety = 15 then (raw.toNat, 0)
  else
    let signed := l.ety == 6 || l.ety == 8 || l.ety == 11 || l.ety == 13
    match v with
    | .flt .. => let r := fpToInt .rne signed l.w x; ((r.1 % 2 ^ l.w).toNat, r.2)
    | .int n =>
      let lo : Int := if signed then -(2 ^ (l.w - 1)) else 0
      let hi : Int := if signed then 2 ^ (l.w - 1) - 1 else 2 ^ l.w - 1
      (((min hi (max lo n)) % 2 ^ l.w).toNat, 0)

/-! ### Block alignment for plane images (R203, R204) -/

/-- An aligned block: exponent, special, codes; radius exponent and codes in an interval image. -/
structure Block' where
  g : Int := 0
  spec : Bool := false
  codes : List Int
  gr : Int := 0
  radii : List Nat := []
deriving DecidableEq, Repr

def Dy.abs (d : Dy) : Dy := ⟨d.m.natAbs, d.e⟩
def maxDy (ds : List Dy) : Dy := ds.foldl (fun a d => if a.lt d then d else a) ⟨0, 0⟩
/-- The least integer not below d / 2^q. -/
def Dy.ceilAt (d : Dy) (q : Int) : Nat := (Dy.toInt .ru (d.scale (-q))).1.toNat

/-- The mid codes of finite values (R203). -/
def alignMid (p : Nat) (vs : List Dy) : Int × List Int :=
  let mx := maxDy (vs.map Dy.abs)
  if mx.isZero then (0, vs.map fun _ => 0)
  else
    let g := mx.lead - (p - 2)
    let codes := vs.map fun v => (Dy.toInt .rne (v.scale (-g))).1
    if codes.any fun n => n == 2 ^ (p - 1) then (g + 1, vs.map fun v => (Dy.toInt .rne (v.scale (-(g + 1)))).1)
    else (g, codes)

def inHeader (g : Int) : Bool := decide (-256 ≤ g) && decide (g ≤ 255)
def specBlock (n : Nat) : Block' := { spec := true, codes := List.replicate n 0, radii := List.replicate n 0 }

/-- A point block; the elements are points or none for NaN. -/
def alignPoint (p : Nat) (xs : List Iv) : Block' :=
  if xs.any fun x => match x with | some (.fin _, .fin _) => false | _ => true then specBlock xs.length
  else
    let r := alignMid p (xs.map fun x => match x with | some (.fin d, _) => d | _ => ⟨0, 0⟩)
    if inHeader r.1 then { g := r.1, codes := r.2 } else specBlock xs.length

/-- An interval block. -/
def alignInterval (p : Nat) (xs : List Iv) : Block' :=
  if xs.any fun x => match x with | some (.fin _, .fin _) => false | _ => true then specBlock xs.length
  else
    let bs := xs.map fun x => match x with | some (.fin a, .fin b) => (a, b) | _ => (⟨0, 0⟩, ⟨0, 0⟩)
    let r := alignMid p (bs.map fun b => (b.1.add b.2).scale (-1))
    let ds := (bs.zip r.2).map fun x =>
      ((x.1.2.sub x.1.1).scale (-1)).add ((((x.1.1.add x.1.2).scale (-1)).sub ⟨x.2, r.1⟩).abs)
    let mx := maxDy ds
    if mx.isZero then
      (if inHeader r.1 then { g := r.1, codes := r.2, radii := ds.map fun _ => 0 } else specBlock xs.length)
    else
      let gr0 := mx.lead - (p - 1)
      let rs0 := ds.map fun d => d.ceilAt gr0
      let gr := if rs0.any fun n => n == 2 ^ p then gr0 + 1 else gr0
      if inHeader r.1 && inHeader gr then { g := r.1, codes := r.2, gr := gr, radii := ds.map fun d => d.ceilAt gr }
      else specBlock xs.length

end Sys2Proof.Machine
end

