-- ==== Sys2Proof/Machine/Operands.lean ====
section
/-!
DEFINITION. Operand forms: the elements of a register by type (R80, R119), immediates (R46), and what each arithmetic
operation makes of register values (R89 to R132, R235, R274).
-/
namespace Sys2Proof.Machine

/-- A register result with its flags. -/
abbrev Res := Pair × FFlags

/-- A single register as the low half of a pair. -/
def lowPair (w : Word) : Pair := w.toPair

/-! ### Elements -/

/-- Element width of a type in a 64-bit register. -/
def elemW : LTy → Nat
  | .pt32 | .i32 | .n32 | .iv32 | .ivi32 => 32
  | .bf16 => 16
  | _ => 64
def elemCount (ty : LTy) : Nat := 64 / elemW ty

/-- Element i of a register. -/
def elemOf (ty : LTy) (w : Word) (i : Nat) : Nat := bitsAt w.toNat (elemW ty * i) (elemW ty)
def elemsOf (ty : LTy) (w : Word) : List Nat := (List.range (elemCount ty)).map (elemOf ty w)
/-- A register from its elements, element 0 lowest. -/
def joinElems (n : Nat) : List Nat → Nat
  | [] => 0
  | x :: t => x % 2 ^ n + 2 ^ n * joinElems n t
def ofElems (ty : LTy) (xs : List Nat) : Word := BitVec.ofNat 64 (joinElems (elemW ty) xs)
/-- Results of the elements: the register and the OR of their flags (R110). -/
def ofRes (ty : LTy) (xs : List (Nat × FFlags)) : Res :=
  ((ofElems ty (xs.map (·.1))).toPair, xs.foldl (fun f x => f ||| x.2) 0)

def map1 (ty : LTy) (f : Nat → Nat × FFlags) (a : Word) : Res := ofRes ty ((elemsOf ty a).map f)
def map2 (ty : LTy) (f : Nat → Nat → Nat × FFlags) (a b : Word) : Res :=
  ofRes ty (((elemsOf ty a).zip (elemsOf ty b)).map fun x => f x.1 x.2)
def map3 (ty : LTy) (f : Nat → Nat → Nat → Nat × FFlags) (a b c : Word) : Res :=
  ofRes ty (((elemsOf ty a).zip ((elemsOf ty b).zip (elemsOf ty c))).map fun x => f x.1 x.2.1 x.2.2)

def isIv (ty : LTy) : Bool := ty == .iv32 || ty == .iv64
def fmtOf : LTy → Fmt
  | .pt64 | .iv64 => f64
  | .bf16 => fb16
  | _ => f32
def isSigned (ty : LTy) : Bool := ty == .i32 || ty == .i64 || ty == .i8 || ty == .i16

/-! ### Intervals in registers (R80 to R83) -/

def loHi (ty : LTy) (p : Pair) : Nat × Nat :=
  if ty = .iv64 then (p.even.toNat, p.odd.toNat) else (bitsAt p.even.toNat 0 32, bitsAt p.even.toNat 32 32)
def ofLoHi (ty : LTy) (lo hi : Nat) : Pair :=
  if ty = .iv64 then Pair.mk (BitVec.ofNat 64 lo) (BitVec.ofNat 64 hi)
  else lowPair (BitVec.ofNat 64 (lo % 2 ^ 32 + hi % 2 ^ 32 * 2 ^ 32))
def readIvP (ty : LTy) (p : Pair) : IvIn := (fmtOf ty).readIv (loHi ty p).1 (loHi ty p).2
def putIv (ty : LTy) (r : IvOut) : Res := (ofLoHi ty r.lo r.hi, r.fl)

/-! ### Immediates (R46) -/

/-- FP32 bits as FP64 bits, exactly (R46); a NaN becomes the canonical quiet NaN, without its sign and payload, and sets no NV.
DESIGN CHOICE, log 87. -/
def widen (b : Nat) : Nat := (f64.put .rne (f32.read b)).1
def immOf (ty : LTy) (imm : Half) : Pair :=
  let n := imm.toNat
  let z := if n = f32.signBit then 0 else n
  match ty with
  | .iv32 => ofLoHi .iv32 z z
  | .iv64 => ofLoHi .iv64 (widen z) (widen z)
  | .pt64 => lowPair (BitVec.ofNat 64 (widen n))
  | .bf16 => let h := imm.extractLsb' 0 16; (lowPair (h ++ h ++ h ++ h))
  | .pt32 | .i32 | .n32 | .ivi32 => (lowPair (imm ++ imm))
  | .i64 => (lowPair (imm.signExtend 64))
  | _ => (lowPair (imm.setWidth 64))

/-! ### Floating operations (R109 to R114) -/

inductive FBin where
  | add | sub | mul | div | min | max | hull | cap
deriving DecidableEq, Repr

def fBin (op : FBin) (ty : LTy) (rm : RM) (a b : Pair) : Res :=
  let f := fmtOf ty
  if isIv ty then
    let x := readIvP ty a
    let y := readIvP ty b
    putIv ty (match op with
      | .add => ivArith f ivAdd x y
      | .sub => ivArith f ivSub x y
      | .mul => ivArith f ivMul x y
      | .div => ivDivOp f x y
      | .min => ivArith f ivMin x y
      | .max => ivArith f ivMax x y
      | .hull => ivArith f ivHull x y
      | .cap => ivArith f ivCap x y)
  else
    let pt := fun (g : Fmt → RM → FV → FV → Nat × FFlags) => map2 ty (fun x y => g f rm (f.read x) (f.read y)) a.even b.even
    match op with
    | .add => pt fpAdd
    | .sub => pt fpSub
    | .mul => pt fpMul
    | .div => pt fpDiv
    | .min => map2 ty (fpMinMax f false) a.even b.even
    | .max => map2 ty (fpMinMax f true) a.even b.even
    | .hull | .cap => (0, 0)

def fFma (ty : LTy) (rm : RM) (a b c : Pair) : Res :=
  let f := fmtOf ty
  if isIv ty then putIv ty (ivFmaOp f (readIvP ty a) (readIvP ty b) (readIvP ty c))
  else map3 ty (fun x y z => fpFma f rm (f.read x) (f.read y) (f.read z)) a.even b.even c.even

inductive FUn where
  | sqrt | rcp | rsq | exp2 | log2 | abs | neg
deriving DecidableEq, Repr

/-- FABS and FNEG of a point (R112). -/
def fpSignOp (f : Fmt) (isAbs : Bool) (b : Nat) : Nat × FFlags :=
  match f.read b with
  | .nan s => f.nan s
  | v => (f.withSign (!isAbs && !v.neg) (b % f.signBit), 0)

def fUn (op : FUn) (ty : LTy) (rm : RM) (a : Pair) : Res :=
  let f := fmtOf ty
  let key := a.toNat
  if isIv ty then
    let x := readIvP ty a
    let fin := allFinite [x.iv]
    putIv ty (match op with
      | .sqrt => ivSqrtOp f x
      | .rcp => ivRcpOp f key x
      | .rsq => ivRsqOp f key x
      | .exp2 => ivExp2Op f key x
      | .log2 => ivLog2Op f key x
      | .abs => (f.tight fin (ivAbs x.iv)).flag x.fl
      | .neg => (f.tight fin (ivNeg x.iv)).flag x.fl)
  else
    match op with
    | .sqrt => map1 ty (fun b => fpSqrt f rm (f.read b)) a.even
    | .rcp => map1 ty (fun b => fpRcp f rm b (f.read b)) a.even
    | .rsq => map1 ty (fun b => fpRsq f rm b (f.read b)) a.even
    | .exp2 => map1 ty (fun b => fpExp2 f rm b (f.read b)) a.even
    | .log2 => map1 ty (fun b => fpLog2 f rm b (f.read b)) a.even
    | .abs => map1 ty (fpSignOp f true) a.even
    | .neg => map1 ty (fpSignOp f false) a.even

/-- FLO, FHI, FMID, FRAD, FWID (R114). -/
def fOne (sel : OneSel) (ty : LTy) (a : Pair) : Res := putIv ty ((fmtOf ty).oneOf sel (readIvP ty a))

/-- FMK (R115). -/
def fMk (ty : LTy) (a b : Pair) : Res := putIv ty ((fmtOf ty).mk' (loHi ty a).1 (loHi ty b).1)

/-- FCLASS (R117). The odd register of a pair destination keeps its value. -/
def fClass (ty : LTy) (a : Pair) : Word :=
  if isIv ty then BitVec.ofNat 64 ((fmtOf ty).classIv (loHi ty a).1 (loHi ty a).2)
  else ofElems ty ((elemsOf ty a.even).map (fpClass (fmtOf ty)))

/-- The combination of `.all` (R116, R127). -/
def allTri (ts : List Tri) : Tri := if ts.all (· == .t) then .t else if ts.all (· == .f) then .f else .u

/-- FCMP (R116): ES is an element number, 4 for every element. -/
def fCmp (c : FCond) (ty : LTy) (es : Nat) (a b : Pair) : Tri × FFlags :=
  if isIv ty then
    let x := readIvP ty a
    let y := readIvP ty b
    (ivCmp c x.iv y.iv, x.fl ||| y.fl)
  else
    let f := fmtOf ty
    let rs := ((elemsOf ty a.even).zip (elemsOf ty b.even)).map fun x => fpCmp c (f.read x.1) (f.read x.2)
    if es = 4 then (allTri (rs.map (·.1)), rs.foldl (fun fl r => fl ||| r.2) 0)
    else rs.getD es (.u, 0)

/-- FSEL (R118). -/
def fSel (ty : LTy) (q : Tri) (b c : Pair) : Res :=
  match q with
  | .t => (b, 0)
  | .f => (c, 0)
  | .u => if isIv ty then fBin .hull ty .rne b c else (c, 0)

/-! ### Integer operations (R120 to R128) -/

inductive IBin where
  | add | sub | mul | mulh | div | rem | min | max
deriving DecidableEq, Repr

def wrapTo (n : Nat) (x : Int) : Nat := (x % 2 ^ n).toNat
def clampInt (signed : Bool) (n : Nat) (x : Int) : Int :=
  if signed then max (-(2 ^ (n - 1))) (min (2 ^ (n - 1) - 1) x) else max 0 (min (2 ^ n - 1) x)

/-- One element; the exact result is wrapped or, with SAT, clamped. -/
def iElem (op : IBin) (signed sat : Bool) (n : Nat) (a b : Nat) : Nat :=
  let x := asInt signed n a
  let y := asInt signed n b
  let out := fun (p : Int) => if sat then wrapTo n (clampInt signed n p) else wrapTo n p
  match op with
  | .add => out (x + y)
  | .sub => out (x - y)
  | .mul => out (x * y)
  | .mulh => wrapTo n (x * y / 2 ^ n)
  | .div => if y = 0 then 2 ^ n - 1 else wrapTo n (x.tdiv y)
  | .rem => if y = 0 then a else wrapTo n (x.tmod y)
  | .min => wrapTo n (min x y)
  | .max => wrapTo n (max x y)

def iBin (op : IBin) (ty : LTy) (sat : Bool) (a b : Word) : Res :=
  if ty = .ivi32 then
    let r := match op with
      | .add => iviOp ivAdd a b
      | .sub => iviOp ivSub a b
      | .mul => iviOp ivMul a b
      | .min => iviOp ivMin a b
      | _ => iviOp ivMax a b
    (r.1.toPair, r.2)
  else map2 ty (fun x y => (iElem op (isSigned ty) sat (elemW ty) x y, 0)) a b

def iMad (ty : LTy) (a b c : Word) : Res :=
  let n := elemW ty
  let s := isSigned ty
  map3 ty (fun x y z => (wrapTo n (asInt s n x * asInt s n y + asInt s n z), 0)) a b c

def iAbs (ty : LTy) (sat : Bool) (a : Word) : Res :=
  let n := elemW ty
  map1 ty (fun x =>
    let v := (asInt true n x).natAbs
    (if sat then wrapTo n (clampInt true n v) else wrapTo n v, 0)) a

inductive BOp where
  | and | or | xor | andn | shl | shr | sar | rot
deriving DecidableEq, Repr

def bElem (op : BOp) (n a b : Nat) : Nat :=
  let k := b % n
  match op with
  | .shl => a * 2 ^ k % 2 ^ n
  | .shr => a / 2 ^ k
  | .sar => wrapTo n (asInt true n a / 2 ^ k)
  | _ => (a * 2 ^ k + a / 2 ^ (n - k)) % 2 ^ n

def bBin (op : BOp) (ty : LTy) (a b : Word) : Res :=
  match op with
  | .and => ((a &&& b).toPair, 0)
  | .or => ((a ||| b).toPair, 0)
  | .xor => ((a ^^^ b).toPair, 0)
  | .andn => ((a &&& ~~~b).toPair, 0)
  | op => map2 ty (fun x y => (bElem op (elemW ty) x y, 0)) a b

def popNat (n x : Nat) : Nat := ((List.range n).filter x.testBit).length
def clzNat (n x : Nat) : Nat := if x = 0 then n else n - 1 - ilog2 x
def iPopc (ty : LTy) (a : Word) : Res := map1 ty (fun x => (popNat (elemW ty) x, 0)) a
def iClz (ty : LTy) (a : Word) : Res := map1 ty (fun x => (clzNat (elemW ty) x, 0)) a

/-- Position and effective width of a field specification (R126). -/
def fieldSpec (f : Word) : Nat × Nat :=
  let p := bitsAt f.toNat 0 6
  let w := min (bitsAt f.toNat 8 7) 64
  (p, min w (64 - p))
def iBfx (ty : LTy) (a f : Word) : Res :=
  let (p, w) := fieldSpec f
  let x := bitsAt a.toNat p w
  ((lowPair (if w = 0 then 0 else if ty = .i64 then BitVec.ofInt 64 (asInt true w x) else BitVec.ofNat 64 x)), 0)
def iBfi (a b f : Word) : Res :=
  let (p, w) := fieldSpec f
  let m : Word := BitVec.ofNat 64 ((2 ^ w - 1) * 2 ^ p)
  (((a &&& ~~~m) ||| (BitVec.ofNat 64 (b.toNat % 2 ^ w * 2 ^ p) &&& m)).toPair, 0)

/-- A condition of R39 between two numbers of n bits. -/
def condElem (c : Cond) (n a b : Nat) : Bool :=
  let x := asInt true n a
  let y := asInt true n b
  match c with
  | .eq => a == b | .ne => a != b
  | .lt => decide (x < y) | .le => decide (x ≤ y) | .gt => decide (x > y) | .ge => decide (x ≥ y)
  | .ltu => decide (a < b) | .leu => decide (a ≤ b) | .gtu => decide (a > b) | .geu => decide (a ≥ b)
def condHolds (c : Cond) (a b : Word) : Bool := condElem c 64 a.toNat b.toNat

def triB (b : Bool) : Tri := if b then .t else .f

/-- ICMP (R127). -/
def iCmp (c : Cond) (ty : LTy) (es : HSel) (a b : Word) : Tri × FFlags :=
  if ty = .ivi32 then
    let x := readIvi a
    let y := readIvi b
    let k : FCond := match c with | .eq => .eq | .ne => .ne | .lt => .lt | .le => .le | .gt => .gt | _ => .ge
    (ivCmp k x.iv y.iv, x.fl ||| y.fl)
  else
    let rs := ((elemsOf ty a).zip (elemsOf ty b)).map fun x => triB (condElem c (elemW ty) x.1 x.2)
    (match es with | .lo => rs.getD 0 .f | .hi => rs.getD 1 .f | .all => allTri rs, 0)

/-! ### Conversions (R129 to R132) -/

def halfOf (es : HSel) (w : Word) : Nat := bitsAt w.toNat (if es == .hi then 32 else 0) 32

def cvtOp (ty sty : LTy) (es : HSel) (rm : RM) (a : Pair) : Res :=
  let w := a.even
  let ptOfInt := fun (f : Fmt) (n x : Nat) => f.round rm ⟨asInt (isSigned sty) n x, 0⟩
  match ty, sty with
  | .pt32, .i32 | .pt32, .n32 => map1 .pt32 (ptOfInt f32 32) w
  | .pt64, .i64 | .pt64, .n64 => map1 .pt64 (ptOfInt f64 64) w
  | .pt32, .pt64 => let r := f32.put rm (f64.read w.toNat); (ofElems .pt32 [r.1, r.1] |>.toPair, r.2)
  | .pt64, .pt32 => let r := f64.put rm (f32.read (halfOf es w)); ((lowPair (BitVec.ofNat 64 r.1)), r.2)
  | .iv32, .pt32 => putIv .iv32 (f32.ofPoint (halfOf es w))
  | .iv64, .pt64 => putIv .iv64 (f64.ofPoint w.toNat)
  | .iv32, .iv64 => let x := readIvP .iv64 a; putIv .iv32 ((f32.tight (allFinite [x.iv]) x.iv).flag x.fl)
  | .iv64, .iv32 => let x := readIvP .iv32 a; putIv .iv64 ((f64.tight (allFinite [x.iv]) x.iv).flag x.fl)
  | .iv32, .ivi32 => let x := readIvi w; putIv .iv32 ((f32.tight (allFinite [x.iv]) x.iv).flag x.fl)
  | .ivi32, .iv32 => let r := iviOfIv (readIvP .iv32 a); (r.1.toPair, r.2)
  | _, .pt64 => map1 .i64 (fun x => let r := fpToInt rm (isSigned ty) 64 (f64.read x); (wrapTo 64 r.1, r.2)) w
  | _, _ => map1 .i32 (fun x => let r := fpToInt rm (isSigned ty) 32 (f32.read x); (wrapTo 32 r.1, r.2)) w

def packOp (ty : LTy) (rm : RM) (a b : Word) : Res :=
  match ty with
  | .bf16 => ofRes .bf16 ((elemsOf .pt32 a ++ elemsOf .pt32 b).map fun x => fb16.put rm (f32.read x))
  | .pt32 => ofRes .pt32 ([a.toNat, b.toNat].map fun x => f32.put rm (f64.read x))
  | ty => ofRes .i32 ([a.toNat, b.toNat].map fun x =>
      (wrapTo 32 (clampInt (isSigned ty) 32 (asInt (isSigned ty) 64 x)), 0))

def unpkOp (ty : LTy) (es : HSel) (a : Word) : Res :=
  let h := halfOf es a
  match ty with
  | .pt32 => ofRes .pt32 ([bitsAt h 0 16, bitsAt h 16 16].map fun x => f32.put .rne (fb16.read x))
  | .pt64 => let r := f64.put .rne (f32.read h); ((lowPair (BitVec.ofNat 64 r.1)), r.2)
  | .i64 => ((lowPair (BitVec.ofInt 64 (asInt true 32 h))), 0)
  | _ => ((lowPair (BitVec.ofNat 64 h)), 0)

/-! ### QNT and DQN (R194 to R197) -/

def slotBits (nib : Bool) : Nat := if nib then 4 else 8
/-- Codes put into consecutive slots of a register. -/
def putSlots (nib : Bool) (d : Word) (pos : Nat) : List Nat → Word
  | [] => d
  | k :: t =>
    let n := slotBits nib
    let m : Word := BitVec.ofNat 64 ((2 ^ n - 1) * 2 ^ (n * pos))
    putSlots nib ((d &&& ~~~m) ||| (BitVec.ofNat 64 (k % 2 ^ n * 2 ^ (n * pos)))) (pos + 1) t

/-- The descriptor cannot be used: invalid, LUT4 (R186), or too wide for nibble slots. -/
def Desc.unusable (d : Desc) (nib : Bool) : Bool := !d.valid || d.lut || (nib && decide (4 < d.w))

def qntOp (ty : LTy) (nib : Bool) (pos : Nat) (rm : RM) (d a b : Word) : Word × FFlags :=
  let F := descOf b
  let c := bitsAt b.toNat 56 8
  let xs := elemsOf ty a
  if F.unusable nib then (putSlots nib d pos (xs.map fun _ => 0), fNV)
  else
    let rs := xs.map fun x => F.encode ((fmtOf ty).read x) c rm
    (putSlots nib d pos (rs.map (·.1)), rs.foldl (fun f r => f ||| r.2) 0)

/-- The largest magnitude among elements; NaN if any is. -/
def maxAbs (f : Fmt) (xs : List Nat) : FV :=
  xs.foldl (fun m x =>
    let v := f.read (x % f.signBit)
    match m, v with
    | .nan s, _ => .nan s
    | _, .nan s => .nan s
    | m, v => if m.lt v then v else m) (.fin false 0 0)

def qntScaleOp (ty : LTy) (a b : Word) : Word × FFlags :=
  let F := descOf b
  if F.unusable false then (b, fNV)
  else
    let r := F.scaleFor (maxAbs (fmtOf ty) (elemsOf ty a))
    ((b &&& 0x00FFFFFFFFFFFFFF) ||| BitVec.ofNat 64 (r.1 * 2 ^ 56), r.2)

def dqnOp (ty : LTy) (nib : Bool) (pos : Nat) (rm : RM) (a b : Word) : Res :=
  let F := descOf b
  let c := bitsAt b.toNat 56 8
  let n := slotBits nib
  let bad := F.unusable nib
  let val := fun (i : Nat) => if bad then FV.nan false else F.decode (bitsAt a.toNat (n * (pos + i)) (if nib then 4 else F.w)) c
  let fl := flagIf bad fNV
  if ty = .iv32 then let r := putIv .iv32 (f32.encloseFV (val 0)); (r.1, r.2 ||| fl)
  else
    let rs := (List.range (elemCount ty)).map fun i => (fmtOf ty).put rm (val i)
    let r := ofRes ty rs
    (r.1, r.2 ||| fl)

/-! ### PLANE (R213) -/

def planeOp (nib : Bool) (a : Word) : Word :=
  let (planes, slots, sb) := if nib then (4, 16, 4) else (8, 8, 8)
  BitVec.ofNat 64 ((List.range planes).foldl (fun s p =>
    (List.range slots).foldl (fun s i => if a.getLsbD (sb * i + p) then s + 2 ^ (slots * p + i) else s) s) 0)

/-! ### Reductions and scans (R98, R235) -/

/-- What a reduction gives over no lane. -/
def redUnit (op : RedOp) (ty : LTy) : Pair :=
  let rep := fun (x : Nat) => (ofElems ty (List.replicate (elemCount ty) x)).toPair
  let f := fmtOf ty
  match op with
  | .add | .or | .xor => 0
  | .and => (lowPair (BitVec.allOnes 64))
  | .min =>
    if isIv ty then (putIv ty f.emptyIv).1
    else if ty = .pt32 || ty = .pt64 || ty = .bf16 then rep (f.inf false)
    else rep (if isSigned ty then 2 ^ (elemW ty - 1) - 1 else 2 ^ elemW ty - 1)
  | .max =>
    if isIv ty then (putIv ty f.emptyIv).1
    else if ty = .pt32 || ty = .pt64 || ty = .bf16 then rep (f.inf true)
    else rep (if isSigned ty then 2 ^ (elemW ty - 1) else 0)

def isFloat (ty : LTy) : Bool := isIv ty || ty == .pt32 || ty == .pt64 || ty == .bf16

/-- A value as a reduction or scan reads it: an ill-formed interval is empty (R82, R83), a NaN quiet and canonical (R94). -/
def redRead (ty : LTy) (x : Pair) : Res :=
  let f := fmtOf ty
  if isIv ty then
    let r := readIvP ty x
    putIv ty ((f.tight false r.iv).flag r.fl)
  else if isFloat ty then map1 ty (fun b => match f.read b with | .nan s => f.nan s | _ => (b, 0)) x.even
  else (x, 0)

/-- Combine two values. -/
def redOp (op : RedOp) (ty : LTy) (a b : Pair) : Res :=
  match op with
  | .add => if isFloat ty then fBin .add ty .rne a b else iBin .add ty false a.even b.even
  | .min => if isFloat ty then fBin .min ty .rne a b else iBin .min ty false a.even b.even
  | .max => if isFloat ty then fBin .max ty .rne a b else iBin .max ty false a.even b.even
  | .and => ((a.even &&& b.even).toPair, 0)
  | .or => ((a.even ||| b.even).toPair, 0)
  | .xor => ((a.even ^^^ b.even).toPair, 0)

/-- One level of the binary tree of R98: pairs of leaves, an absent one passing its partner up. -/
def redLevel (op : RedOp) (ty : LTy) : List (Option Pair) → List (Option Pair) × FFlags
  | a :: b :: t =>
    let (r, fl) := redLevel op ty t
    (match a, b with
    | some x, some y => let p := redOp op ty x y; (some p.1 :: r, fl ||| p.2)
    | some x, none => (some x :: r, fl)
    | none, y => (y :: r, fl))
  | l => (l, 0)

def redTree (op : RedOp) (ty : LTy) : Nat → List (Option Pair) → Option Pair × FFlags
  | 0, l => (l.headD none, 0)
  | n + 1, l => let (l', fl) := redLevel op ty l; let (r, fl') := redTree op ty n l'; (r, fl ||| fl')

/-- RED over the lanes' values, in lane order (R98). The orders of min, max and bitwise operations never show. -/
def redAll (op : RedOp) (ty : LTy) (xs : List (Option Pair)) : Res :=
  let ys := xs.map fun x => x.map (redRead ty)
  let r := redTree op ty 11 (ys.map fun y => y.map (·.1))
  (r.1.getD (redUnit op ty), ys.foldl (fun fl y => match y with | some v => fl ||| v.2 | none => fl) r.2)

/-! ### Atomics (R274, R275) -/

def atomNew (op : AtomOp) (ty : LTy) (old b : Word) : Word × FFlags :=
  let fl := isFloat ty
  let f := fun (k : FBin) => let r := fBin k ty .rne old.toPair b.toPair; (r.1.even, r.2)
  let i := fun (k : IBin) => let r := iBin k ty false old b; (r.1.even, r.2)
  match op with
  | .add => if fl then f .add else i .add
  | .min => if fl then f .min else i .min
  | .max => if fl then f .max else i .max
  | .and => (old &&& b, 0)
  | .or => (old ||| b, 0)
  | .xor => (old ^^^ b, 0)
  | .exch => (b, 0)
  | .hull => f .hull
  | .cap => f .cap

/-! ### Loads and stores (R264) -/

/-- Bytes of one access. -/
def accessLen : LTy → Nat
  | .i8 | .n8 => 1
  | .i16 | .n16 => 2
  | .mrad32 => 4
  | _ => 8

/-- What a load puts into its register. -/
def loadValue (ty : LTy) (bs : List Byte) : Word × FFlags :=
  let n := leNat bs
  match ty with
  | .i8 => (BitVec.ofInt 64 (asInt true 8 n), 0)
  | .i16 => (BitVec.ofInt 64 (asInt true 16 n), 0)
  | .mrad32 => let r := putIv .iv32 (mradLoad (BitVec.ofNat 32 n)); (r.1.even, r.2)
  | _ => (BitVec.ofNat 64 n, 0)

/-- What a store takes from its register, and the flags of the conversion. -/
def storeValue (ty : LTy) (w : Word) : List Byte × FFlags :=
  match ty with
  | .mrad32 => let r := mradStore (readIvP .iv32 w.toPair); (leBytes 4 r.1.toNat, r.2)
  | ty => (leBytes (accessLen ty) w.toNat, 0)

/-- The hull of LDH (R172) over codes and scale codes, and whether it is entire; an ill-formed interval element sets NV and IL (R82). -/
def hullValue (lay : Layout) (ty : LTy) (vs : List (Nat × Nat)) : Pair × FFlags × Bool :=
  let f := fmtOf ty
  let r := (hullOf f (vs.map fun v => lay.elem (v.1 % 2 ^ lay.w) v.2)).flag
    (vs.foldl (fun fl v => fl ||| lay.elemFlags (v.1 % 2 ^ lay.w)) 0)
  let p := putIv ty r
  (p.1, p.2, decide (r.lo = f.inf true ∧ r.hi = f.inf false))

end Sys2Proof.Machine
end

