-- ==== Sys2Proof/Machine/Boxes.lean ====
section
/-!
DEFINITION. What a copy moves (R217 to R223): its box, its destination rows and sectors, the bytes each sector holds, and the
bytes it reads.
-/
namespace Sys2Proof.Machine

/-! ### The box (R217) -/

def coordI0 (c : Word) : Nat := fieldAt c 0 20
def coordI1 (c : Word) : Nat := fieldAt c 20 20
/-- Element (j, i) of the box, in dimensions 1 and 0. -/
def Layout.boxIdx (l : Layout) (c : Word) (j i : Nat) : Idx :=
  ⟨coordI0 c * l.box0 + i, coordI1 c * l.box1 + j, fieldAt c 40 14, fieldAt c 54 5, fieldAt c 59 5⟩

/-- How many elements of a row, and how many rows, lie inside the tensor. -/
def Layout.insideCols (l : Layout) (c : Word) : Nat := min l.box0 (l.ext.getD 0 1 - coordI0 c * l.box0)
def Layout.insideRows (l : Layout) (c : Word) : Nat :=
  let i := l.boxIdx c 0 0
  if i.i2 < l.ext.getD 2 1 && i.i3 < l.ext.getD 3 1 && i.i4 < l.ext.getD 4 1 && l.insideCols c != 0 then
    min l.box1 (l.ext.getD 1 1 - coordI1 c * l.box1) else 0

/-- Bits of a slot (R193). -/
def Layout.slotW (l : Layout) : Nat := if l.w ≤ 4 then 4 else 8

/-- Bytes of one slice of the plane image the record names. -/
def Layout.imageSlice (l : Layout) : Nat := sliceBytes l.box1 l.pl (l.kind.getD 0) l.ivImage

/-! ### The destination (R218, R219, R222) -/

/-- Bits of an element at the destination. -/
def Layout.outW (l : Layout) (d : Dir) : Nat :=
  if l.mode = 1 then l.slotW else if l.mode = 5 then (if d = .padToMem then 32 else 64) else l.w

/-- The destination as rows of consecutive bytes: how many, and the bytes of each. -/
def Copy.rows (c : Copy) : Nat × Nat :=
  let l := c.lay
  let w := l.outW c.dir
  if c.dir = .padToMem then
    (l.insideRows c.coord, ((l.place (l.boxIdx c.coord 0 0)).2 + l.insideCols c.coord * w + 7) / 8)
  else if l.mode = 3 then (1, l.box0 / 256 * l.imageSlice)
  else if l.mode = 4 then (1, if l.ety = 2 || l.ety = 3 then 16 else 8)
  else if l.padp = 2 then (l.insideRows c.coord, (l.insideCols c.coord * w + 7) / 8)
  else (1, l.box1 * l.box0 * w / 8)
/-- The delivery count T of a whole copy. DEDUCED, log 61. -/
def Copy.bytes (c : Copy) : Nat := c.rows.1 * c.rows.2

/-- Where a row starts: a pad offset or an address. -/
def Copy.rowAt (c : Copy) (j : Nat) : Nat :=
  if c.dir = .padToMem then (c.lay.place (c.lay.boxIdx c.coord j 0)).1
  else if c.rows.1 = 1 then c.dst
  else c.dst + j * c.lay.box0 * c.lay.outW c.dir / 8

/-- The destination of byte k in delivery order. -/
def Copy.destAt (c : Copy) (k : Nat) : Nat := (c.rowAt (k / c.rows.2) + k % c.rows.2) % 2 ^ 64

/-- The bytes k, k + 1, … that lie in the same aligned 32-byte sector. DEDUCED, log 59. -/
def Copy.sectorLen (c : Copy) (k : Nat) : Nat → Nat
  | 0 => 0
  | n + 1 => if k < c.total && c.destAt k / 32 == c.destAt (k - 1) / 32 then 1 + c.sectorLen (k + 1) n else 0
/-- Bytes of the sector that starts at delivery count k. -/
def Copy.sectorAt (c : Copy) (k : Nat) : Nat := if k < c.total then 1 + c.sectorLen (k + 1) 31 else 0

/-- A start count a reissue may name (R221): it ends a sector. DEDUCED, log 59. -/
def Copy.startOk (c : Copy) (k : Nat) : Bool :=
  k == 0 || k == c.total || (decide (k < c.total) && c.destAt k / 32 != c.destAt (k - 1) / 32)

/-! ### What the sectors hold -/

/-- The codes of elements are read with their block scale (R218). -/
def Layout.usesScale (l : Layout) : Bool := l.mode == 4 || (l.mode == 3 && l.kind == some 2)

/-- The values of a box element: the code it has or stands for, and its enclosure. -/
def Layout.codeAt (l : Layout) (rd : Nat → Byte) (i : Idx) : Nat :=
  match l.at i with | some x => l.code rd x | none => l.outCode
def Layout.valueAt (l : Layout) (rd : Nat → Byte) (i : Idx) : Iv :=
  match l.at i with | some x => l.elem (l.code rd x) (l.scaleCode rd x) | none => l.elem l.outCode 127

/-- Box elements (j, i) of a byte of a plane image (R202). -/
def Copy.planeNeeds (c : Copy) (p : Nat) : List (Nat × Nat) :=
  let l := c.lay
  let s := p / l.imageSlice
  let o := p % l.imageSlice
  let planes := 32 * l.box1 * l.pl * (if l.ivImage then 2 else 1)
  if l.kind = some 2 then
    let r := if o < planes then o % (32 * l.box1) / 32 else (o - planes) / (if l.ivImage then 4 else 2)
    (List.range 256).map fun k => (r, 256 * s + k)
  else (List.range 8).map fun b => (o % (32 * l.box1) / 32, 256 * s + 8 * (o % 32) + b)

/-- The bit of a code in a plane. -/
def planeBit (n : Int) (p : Nat) : Nat := (n / 2 ^ p % 2).toNat
def byteOfBits (bs : List Nat) : Byte := BitVec.ofNat 8 (joinElems 1 bs)

/-- The aligned block of a line in a slice (R203, R204). -/
def Copy.blockAt (c : Copy) (rd : Nat → Byte) (s r : Nat) : Block' :=
  let xs := (List.range 256).map fun k => c.lay.valueAt rd (c.lay.boxIdx c.coord r (256 * s + k))
  if c.lay.ivImage then alignInterval c.lay.pl xs else alignPoint c.lay.pl xs

/-- A block's header (R202). -/
def Block'.header (b : Block') : Nat :=
  (b.g % 512).toNat + (if b.spec then 512 else 0) + (b.gr % 512).toNat * 2 ^ 16

/-- Byte p of a plane image of kind 2, given its block. -/
def Copy.blockByte (c : Copy) (b : Block') (o : Nat) : Byte :=
  let l := c.lay
  let n := 32 * l.box1
  if o < n * l.pl then byteOfBits ((List.range 8).map fun i => planeBit (b.codes.getD (8 * (o % 32) + i) 0) (o / n))
  else if l.ivImage && o < 2 * n * l.pl then
    byteOfBits ((List.range 8).map fun i => planeBit (b.radii.getD (8 * (o % 32) + i) 0) (o / n - l.pl))
  else
    let h := if l.ivImage then 4 else 2
    let q := o - n * l.pl * (if l.ivImage then 2 else 1)
    BitVec.ofNat 8 (b.header / 2 ^ (8 * (q % h)))

/-- Bytes p, p + 1, … of a plane image; the last block is kept. -/
def Copy.planeBytes (c : Copy) (rd : Nat → Byte) (p : Nat) : Nat → Option (Nat × Block') → List Byte
  | 0, _ => []
  | n + 1, last =>
    let l := c.lay
    let s := p / l.imageSlice
    let o := p % l.imageSlice
    if l.kind = some 2 then
      let r := ((c.planeNeeds p).headD (0, 0)).1
      let key := s * 2 ^ 16 + r
      let b := match last with
        | some (k, b) => if k = key then b else c.blockAt rd s r
        | none => c.blockAt rd s r
      c.blockByte b o :: c.planeBytes rd (p + 1) n (some (key, b))
    else
      let x := (c.planeNeeds p).map fun e =>
        let code := l.codeAt rd (l.boxIdx c.coord e.1 e.2)
        planeBit (asInt (l.kind == some 1) l.w code) (o / (32 * l.box1))
      byteOfBits x :: c.planeBytes rd (p + 1) n none

/-- The elements (j, i) whose bits lie in byte k of the delivery, with the first one's number in its run, and the bit of
the run at which the byte starts (negative before the run of a tensor row). -/
def Copy.elemsAt (c : Copy) (k : Nat) : List (Nat × Nat) × Int × Nat :=
  let w := c.lay.outW c.dir
  let b0 := c.lay.box0
  if c.dir = .padToMem then
    let off : Int := 8 * (k % c.rows.2 : Nat) - ((c.lay.place (c.lay.boxIdx c.coord 0 0)).2 : Nat)
    let e0 := (off / w).toNat
    ((List.range ((off + 7) / w - e0 + 1).toNat).map (fun n => (k / c.rows.2, e0 + n)), off, e0)
  else
    let p := c.destAt k - c.dst
    let e0 := 8 * p / w
    ((List.range ((8 * p + 7) / w - e0 + 1)).map (fun n => ((e0 + n) / b0, (e0 + n) % b0)), 8 * p, e0)

/-- What an element becomes at the destination, with its flags; none when nothing is written for it. `rd` reads the
tensor and `pad` the pad source. -/
def Copy.outElem (c : Copy) (rd pad : Nat → Byte) (j i : Nat) : Option (Nat × FFlags) :=
  let l := c.lay
  let x := l.boxIdx c.coord j i
  if c.dir = .padToMem then
    if !l.inside x || l.box0 ≤ i then none
    else
      let w := if l.mode = 2 then l.slotW else if l.mode = 5 then 64 else l.w
      let bit := (j * l.box0 + i) * w
      let n := bitsAt (leNat ((List.range ((bit % 8 + w + 7) / 8)).map fun b => pad (c.dst + bit / 8 + b))) (bit % 8) w
      if l.mode = 5 then
        let r := mradStore (f32.readIv (n % 2 ^ 32) (n / 2 ^ 32))
        some (r.1.toNat, r.2)
      else some (n % 2 ^ l.w, 0)
  else if l.padp = 2 && !l.inside x then none
  else if l.mode = 5 then
    let r := mradLoad (BitVec.ofNat 32 (l.codeAt rd x))
    some (r.lo + r.hi * 2 ^ 32, r.fl)
  else some (l.codeAt rd x, 0)

/-- Byte k of the delivery over the byte that stands there, and the flags of its conversions. DEDUCED, log 61. -/
def Copy.byteAt (c : Copy) (rd pad : Nat → Byte) (k : Nat) (old : Byte) : Byte × FFlags :=
  let w := c.lay.outW c.dir
  let (es, off, e0) := c.elemsAt k
  let vs := es.map fun e => c.outElem rd pad e.1 e.2
  let bit := fun (b : Nat) =>
    let q := off + b
    match (if q < 0 then none else (vs.getD (q.toNat / w - e0) none)) with
    | some v => if v.1.testBit (q.toNat % w) then 1 else 0
    | none => if old.getLsbD b then 1 else 0
  (byteOfBits ((List.range 8).map bit), vs.foldl (fun f v => match v with | some v => f ||| v.2 | none => f) 0)

/-- The hull of a box (R218): over its elements inside the tensor; an ill-formed one sets NV and IL (R82). DEDUCED, log 60. -/
def Copy.hull (c : Copy) (rd : Nat → Byte) : IvOut :=
  let l := c.lay
  let is := (List.range (l.insideRows c.coord)).flatMap fun j => (List.range (l.insideCols c.coord)).map (l.boxIdx c.coord j ·)
  (hullOf (if l.ety = 2 || l.ety = 3 then f64 else f32) (is.map (l.valueAt rd))).flag
    (is.foldl (fun fl i => fl ||| l.elemFlags (l.codeAt rd i)) 0)

/-- The flags of the elements that the plane bytes k to k + n − 1 hold; rounding in the alignment raises none (R203, R204).
DEDUCED, log 61. -/
def Copy.planeFlags (c : Copy) (rd : Nat → Byte) (k n : Nat) : FFlags :=
  if c.lay.ety = 0 || c.lay.ety = 2 then
    ((List.range n).flatMap fun i => c.planeNeeds (k + i)).foldl
      (fun f e => f ||| c.lay.elemFlags (c.lay.codeAt rd (c.lay.boxIdx c.coord e.1 e.2))) 0
  else 0

/-- The n bytes of the delivery from k on. -/
def Copy.sector (c : Copy) (rd pad : Nat → Byte) (old : Nat → Byte) (k n : Nat) : List Byte × FFlags :=
  if c.lay.mode = 3 then (c.planeBytes rd k n none, c.planeFlags rd k n)
  else if c.lay.mode = 4 then
    let h := c.hull rd
    let wide := c.lay.ety = 2 || c.lay.ety = 3
    let v := h.lo + h.hi * 2 ^ (if wide then 64 else 32)
    ((((leBytes (if wide then 16 else 8) v).drop k).take n), h.fl)
  else
    let bs := (List.range n).map fun i => c.byteAt rd pad (k + i) (old (c.destAt (k + i)))
    (bs.map (·.1), bs.foldl (fun f b => f ||| b.2) 0)

/-- The tensor addresses the bytes k to k + n − 1 are read from. -/
def Copy.reads (c : Copy) (k n : Nat) : List Nat :=
  let l := c.lay
  let es := if c.dir = .padToMem then []
    else if n = 0 then []
    else if l.mode = 4 then (List.range (l.insideRows c.coord)).flatMap fun j => (List.range (l.insideCols c.coord)).map fun i => (j, i)
    else (List.range n).flatMap fun b => if l.mode = 3 then c.planeNeeds (k + b) else (c.elemsAt (k + b)).1
  let xs := (es.filterMap fun e =>
    let x := l.boxIdx c.coord e.1 e.2
    if l.padp = 2 && !l.inside x then none else l.at x)
  xs.flatMap fun x => l.bytesOf x ++ (if l.usesScale then (l.scaleAt x).toList else [])

/-- Bytes of the pad range of a copy: of the whole box, whatever the tensor's extents cut. -/
def padSpan (c : Copy) : Nat :=
  let l := c.lay
  if c.dir = .padToMem then (l.box1 * l.box0 * (if l.mode = 2 then l.slotW else if l.mode = 5 then 64 else l.w) + 7) / 8
  else if l.mode = 3 || l.mode = 4 then c.bytes
  else (l.box1 * l.box0 * l.outW c.dir + 7) / 8

end Sys2Proof.Machine
end

