-- ==== Sys2Proof/Machine/Order.lean ====
section
/-!
DEFINITION. The order machine (R245 to R260): events, core copies, messages and homes, and phase barriers (R178, R229)
as the pad banks hold them.
-/
namespace Sys2Proof.Machine

def Scope.isWide (sc : Scope) : Bool := sc == .cluster || sc == .device || sc == .system
def scopeNum : Scope → Nat
  | .team => 0 | .core => 1 | .cluster => 2 | .device => 3 | .system => 4

/-! ### Phase barriers -/

/-- A barrier's fields (R229). -/
structure Bar where
  gen : Nat
  pa : Nat
  ea : Nat
  broken : Bool
  pb : Nat
  eb : Nat
deriving DecidableEq, Repr

def barOf (w0 w1 : Word) : Bar :=
  ⟨fieldAt w0 0 8, fieldAt w0 8 24, fieldAt w0 32 24, w0.getLsbD 56, fieldAt w1 0 32, fieldAt w1 32 32⟩
def Bar.w0 (b : Bar) : Word :=
  BitVec.ofNat 64 (b.gen % 256 + b.pa % 2 ^ 24 * 2 ^ 8 + b.ea % 2 ^ 24 * 2 ^ 32 + (if b.broken then 2 ^ 56 else 0))
def Bar.w1 (b : Bar) : Word := BitVec.ofNat 64 (b.pb % 2 ^ 32 + b.eb % 2 ^ 32 * 2 ^ 32)

def maxArrivals : Nat := 2 ^ 23 - 1
def maxPending : Nat := 2 ^ 31 - 1

/-- The phase completes, whole or broken: the generation advances and both counts reload (R178). -/
def Bar.complete (b : Bar) (broken : Bool) : Bar :=
  { b with gen := (b.gen + 1) % 256, broken := broken, pa := b.ea, pb := b.eb }

/-- Lower pending arrivals and pending bytes in one step, `none` for a count the step is not on (R178, R223). A count below zero
or found out of range breaks the phase (R229); lowering a count that was not zero to leave both at zero completes it. -/
def Bar.lower (b : Bar) (arrivals bytes : Option Nat) : Bar :=
  let a := arrivals.getD 0
  let n := bytes.getD 0
  if a > b.pa || n > b.pb || (arrivals.isSome && decide (b.pa > maxArrivals)) || (bytes.isSome && decide (b.pb > maxPending)) then
    b.complete true
  else
    let b' := { b with pa := b.pa - a, pb := b.pb - n }
    if ((a > 0 && b.pa > 0) || (n > 0 && b.pb > 0)) && b'.pa = 0 && b'.pb = 0 then b.complete false else b'

/-- Raise the pending bytes; past the limit the phase breaks (R178, R230). -/
def Bar.expect (b : Bar) (n : Nat) : Bar :=
  if b.pb + n > maxPending then b.complete true else { b with pb := b.pb + n }

/-- The awaited phase has completed (R179, R230). -/
def Bar.reached (b : Bar) (gen : Bool) (n : Nat) : Bool :=
  if gen then (let k := (b.gen + 256 - n % 256) % 256; 1 ≤ k && k ≤ 127) else b.gen % 2 != n % 2

def State.bar (s : State) (key : Nat) : Bar := barOf (s.word key) (s.word (key + 8))
def State.setBar (s : State) (ctx key : Nat) (b : Bar) : State :=
  (s.setPad ctx key (leBytes 8 b.w0.toNat)).setPad ctx (key + 8) (leBytes 8 b.w1.toNat)

/-! ### Events -/

def EvOp.len : EvOp → Nat
  | .load n => n
  | .store d => d.length
  | .rmw .. | .cas .. | .waitRead .. => 8
  | .ldfe n => 4 * n
  | .stfe d => d.length
  | .pbinit .. | .pbexp _ | .pbarv _ | .pbwait .. => 16
  | .hull .. => 0
  | .patch .. => 1

def EvOp.isLoad : EvOp → Bool
  | .load _ | .waitRead .. | .ldfe _ | .pbwait .. | .hull .. => true
  | _ => false
def EvOp.isRmw : EvOp → Bool
  | .rmw .. | .cas .. => true
  | _ => false
/-- A store that may stand in the store buffer. -/
def EvOp.isPlainStore : EvOp → Bool
  | .store _ | .patch .. => true
  | _ => false
def EvOp.isStore : EvOp → Bool
  | .store _ | .patch .. | .stfe _ | .pbinit .. | .pbexp _ | .pbarv _ => true
  | _ => false

/-- The bytes an event touches, as first key and length. -/
def Ev.ranges (e : Ev) : List (Nat × Nat) :=
  match e.op with
  | .hull _ _ es => es.flatMap fun x => (x.1 ++ x.2.2.toList).map fun k => (k.1, 1)
  | op => [(e.key, op.len)]
def overlap (a b : Nat × Nat) : Bool := a.1 < b.1 + b.2 && b.1 < a.1 + a.2
def Ev.overlaps (e f : Ev) : Bool := e.ranges.any fun a => f.ranges.any fun b => overlap a b

/-- An event made by a pad address, not by a PIN-CORE page (R258, R292). -/
def Ev.isPadEv (e : Ev) : Bool := isPad e.key && e.attr != .pinCore
/-- Performs at the home: a wide access or an RMW (R249). -/
def Ev.atHome (e : Ev) : Bool := Scope.isWide e.scope || e.op.isRmw || isCtl e.key

def State.ev? (s : State) (i : Nat) : Option Ev := s.evs.find? fun e => e.id == i
def State.setEv (s : State) (e : Ev) : State := { s with evs := s.evs.map fun x => if x.id == e.id then e else x }
def State.endEv (s : State) (i : Nat) : State := { s with evs := s.evs.filter fun x => x.id != i }

/-- The older events of an event that are not done. -/
def State.older (s : State) (preds : List Nat) : List Ev := s.evs.filter fun p => preds.contains p.id

/-- Every access to a control page is strong and at device scope at the least (R301). -/
def Ev.toCtl (e : Ev) : Ev :=
  if isCtl e.key then { e with strong := true, scope := if Scope.isWide e.scope && e.scope != .cluster then e.scope else .device } else e

/-! ### Copies and tiles as loads of their team (R180, R222, R257) -/

/-- A copy that has source bytes still to read. -/
def Copy.reading (c : Copy) : Bool := !c.stopped && !c.ended && decide (c.done < c.total)

/-- The older copies of an issue history that are still reading. -/
def State.olderCopies (s : State) (preds : List Nat) : List Copy := s.copies.filter fun c => preds.contains c.id && c.reading

/-- An older tile of the team is not yet written back: its pad reads are not all made. -/
def State.olderTile (s : State) (team : Nat) (preds : List Nat) : Bool :=
  match s.team? team with
  | some T => T.tiles.any fun t => preds.contains t.id
  | none => false

/-- What an issue history names is still under way: an event, a held atomic, a copy that reads, a tile. -/
def State.liveId (s : State) (i : Nat) : Bool :=
  s.evs.any (fun e => e.id == i) || s.atoms.any (fun a => a.id == i) || s.copies.any (fun c => c.id == i && c.reading) ||
  s.teams.any fun T => T.tiles.any fun t => t.id == i

/-- The live part of an issue history. -/
def State.liveHist (s : State) (h : List Nat) : List Nat := h.filter s.liveId

/-- The key an address has for a core: by its TLB, else by the tables; none where no page is there to read. -/
def State.keyAt (s : State) (core ctx va : Nat) : Option Nat :=
  let w := BitVec.ofNat 64 va
  match s.tlb.find? fun e => e.core == core && e.ctx == ctx && e.vpage == va % 2 ^ 48 / 2 ^ e.bits with
  | some e => s.tlbKey core e w
  | none => (match s.walkTables (dieOf core) ctx w with
    | (.leaf k wr a, bits) => s.tlbKey core ⟨core, ctx, 0, bits, k, wr, a⟩ w
    | _ => none)

/-- The keys of the bytes of memory a copy has yet to read. -/
def State.unread (s : State) (c : Copy) : List Nat :=
  (c.reads c.done (c.total - c.done)).filterMap fun va => s.keyAt c.core c.ctx va

/-- An older copy has yet to read one of the bytes: its reads are plain loads at its place in issue order (R222, R251). -/
def State.copyHolds (s : State) (preds : List Nat) (ranges : List (Nat × Nat)) : Bool :=
  (s.olderCopies preds).any fun c => (s.unread c).any fun k => ranges.any fun r => overlap (k, 1) r

/-- The older atomics of an issue history that are held until a drain (R315). -/
def State.olderAtoms (s : State) (preds : List Nat) : List HeldAtom := s.atoms.filter fun a => preds.contains a.id

/-- An older atomic to bytes of memory is held until a drain: a younger access to them waits for it (R251). Pad accesses wait for no
held atomic (R258). DESIGN CHOICE, log 75. -/
def State.atomHolds (s : State) (preds : List Nat) (ranges : List (Nat × Nat)) : Bool :=
  (s.olderAtoms preds).any fun a => !a.pad && ranges.any fun r => overlap (a.addr, 8) r

def Ev.waiting (e : Ev) : Bool := e.st == .issued || e.st == .sent
/-- Has taken B or P (R251). -/
def Ev.gone (e : Ev) : Bool := e.st != .issued

/-- The die of a home (R249, R260, R382). -/
def State.homeOf (s : State) (core key : Nat) : Nat :=
  if isPad key then (key - 2 ^ 60) / 2 ^ 22 / 32
  else if isCtl key then (key - 2 ^ 56) / 2 ^ 16
  else if isPeer key then dieOf core
  else if isHost key then s.hostDie.getD (dieOf core)
  else homeDie key

def State.ownDie (s : State) (core key : Nat) : Bool := s.homeOf core key == dieOf core

/-! ### Routes (R249, R320) -/

/-- The hop a ring queue feeds has failed. -/
def State.hopFailed (s : State) (die : Nat) (asc : Bool) : Bool := (s.die die).failed.getLsbD (if asc then 0 else 1)

/-- The way from a die to another in one direction crosses a failed hop. -/
def State.wayFailed (s : State) (src dst : Nat) (asc : Bool) : Bool :=
  (List.range (if asc then (dst + 4 - src) % 4 else (src + 4 - dst) % 4)).any fun i =>
    s.hopFailed (if asc then (src + i) % 4 else (src + 4 - i) % 4) asc

/-- The route of a flow crosses a failed hop: its messages wait there. -/
def State.routeBroken (s : State) (src dst : Nat) : Bool := s.wayFailed src dst (!(s.die src).route.getLsbD dst)

/-- What a core asks of a home, or its answer, waits at a failed hop. -/
def State.cutOff (s : State) (core key : Nat) : Bool :=
  s.routeBroken (dieOf core) (s.homeOf core key) || s.routeBroken (s.homeOf core key) (dieOf core)

/-- The peer port that the route of a die to the part of a peer address names has failed (R320, R382). -/
def State.portFailed (s : State) (die key : Nat) : Bool :=
  isPeer key && (s.die die).failed.getLsbD (if (s.die die).proute.getLsbD ((key - 2 ^ 53) / 2 ^ 40) then 3 else 2)

/-! ### Core copies (R248, R250, R296): the lines of each core, most recently used first -/

def lineBytes : Nat := 128
def State.line? (s : State) (core line : Nat) : Option Line := s.lines.find? fun l => l.core == core && l.line == line

/-- Put a line in front of the others. -/
def State.putLine (s : State) (l : Line) : State :=
  { s with lines := l :: s.lines.filter fun x => !(x.core == l.core && x.line == l.line) }

/-- Change a line in its place; one with no valid byte goes. -/
def State.setLine (s : State) (l : Line) : State :=
  { s with lines := (s.lines.map fun x => if x.core == l.core && x.line == l.line then l else x).filter fun x => x.valid != 0 }

/-- A line is used: it becomes the most recent one of its core (R296). -/
def State.touch (s : State) (core line : Nat) : State :=
  match s.line? core line with
  | some l => s.putLine l
  | none => s

/-- The lines of a core's copy that share a set with a line: 512 sets, by address bits [15:7] (R296). -/
def State.setMates (s : State) (core line : Nat) : List Line := s.lines.filter fun l => l.core == core && l.line % 512 == line % 512

/-- Eight bytes of a line hold poison that byte i belongs to (R387). -/
def Line.badAt (l : Line) (i : Nat) : Bool := l.bad.getLsbD (i / 8)

def Line.byte (l : Line) (i : Nat) : Byte := l.data.extractLsb' (8 * i) 8
def setByteIn (d : BitVec 1024) (i : Nat) (b : Byte) : BitVec 1024 :=
  (d &&& ~~~((0xFF : BitVec 1024) <<< (8 * i))) ||| (b.setWidth 1024 <<< (8 * i))

/-- Write bytes into a core copy as dirty (step B); a full aligned 8-byte store clears the poison of its bytes (R387). -/
def State.copyWrite (s : State) (core key : Nat) (tag : Scope) (bs : List Byte) : State :=
  let n := key / lineBytes
  let l := (s.line? core n).getD { core := core, line := n }
  let l' := (bs.zipIdx).foldl (fun (q : Line) x =>
    let i := key % lineBytes + x.2
    { q with data := setByteIn q.data i x.1, valid := q.valid ||| (1 <<< i), dirty := q.dirty ||| (1 <<< i) }) l
  let clean : BitVec 16 := if bs.length = 8 && key % 8 = 0 then 1 <<< (key % lineBytes / 8) else 0
  s.putLine { l' with tag := tag, bad := l'.bad &&& ~~~clean }

/-- The bytes are all valid in the core copy. -/
def State.copyHas (s : State) (core key n : Nat) : Bool :=
  match s.line? core (key / lineBytes) with
  | some l => (List.range n).all fun i => l.valid.getLsbD (key % lineBytes + i)
  | none => false

/-- A write-back of the line by the core is on its way to its home: until it is applied the core takes no copy of the line from
there (R256, R261). -/
def State.wbFlying (s : State) (core line : Nat) : Bool :=
  s.msgs.any fun m => m.core == core && (match m.body with | .writeBack l .. => l == line | _ => false)

/-- A byte on its way from the core to its home, in the youngest of the write-backs that carry it, and whether it is poisoned. -/
def State.ownWay (s : State) (core key : Nat) : Option (Byte × Bool) :=
  (s.msgs.filterMap fun m => match m.body with
    | .writeBack l mask data bad =>
      if m.core == core && l == key / lineBytes && mask.getLsbD (key % lineBytes) then
        some (data.extractLsb' (8 * (key % lineBytes)) 8, bad.getLsbD (key % lineBytes / 8)) else none
    | _ => none).getLast?

/-- A byte at its home as the core sees it, past the core's own write-backs on their way there, and whether it is poisoned. -/
def State.homeByte (s : State) (core key : Nat) : Byte × Bool := (s.ownWay core key).getD (s.byte key, s.poisoned key 1)

/-- A byte as the core copy shows it, else as its home does, and whether it is poisoned (R250, R387). -/
def State.copyByte (s : State) (core key : Nat) : Byte × Bool :=
  match s.line? core (key / lineBytes) with
  | some l =>
    if l.valid.getLsbD (key % lineBytes) then (l.byte (key % lineBytes), l.badAt (key % lineBytes)) else s.homeByte core key
  | none => s.homeByte core key

/-- The bytes are dirty in the core's copy, or on their way from it to their home: what reads or writes them at the home waits until
they are there (R251, R254 to R256). DEDUCED, log 83. -/
def State.dirtyHere (s : State) (core key n : Nat) : Bool :=
  let at' := fun (m : BitVec 128) => (List.range n).any fun i => m.getLsbD (key % lineBytes + i)
  (s.line? core (key / lineBytes)).any (fun l => at' l.dirty) ||
  s.msgs.any fun m => m.core == core && (match m.body with | .writeBack l mask _ _ => l == key / lineBytes && at' mask | _ => false)

/-- F may be made: the line's bytes are not dirty in that copy, nor on their way from it to the home (R256), and the home can be
reached (R320). -/
def State.canFill (s : State) (core line : Nat) : Bool :=
  let key := line * lineBytes
  !isPad key && !isCtl key && (s.line? core line).all (fun l => l.dirty == 0) && !s.wbFlying core line && !s.cutOff core key &&
  !s.portFailed (dieOf core) key

/-- An acquire at cluster scope or wider makes every clean byte of the core's copy invalid (R253). -/
def State.dropClean (s : State) (core : Nat) : State :=
  let ls := s.lines.map fun l => if l.core == core then { l with valid := l.valid &&& l.dirty } else l
  { s with lines := ls.filter fun l => l.valid != 0 }
def State.acquire (s : State) (core : Nat) (sc : Scope) : State := if Scope.isWide sc then s.dropClean core else s

/-- Drop the clean bytes of one line (step D; also in the H step of a wide load or an RMW, R250). -/
def State.dropLine (s : State) (core line : Nat) : State :=
  match s.line? core line with
  | some l => s.setLine { l with valid := l.valid &&& l.dirty }
  | none => s

/-! ### Homes -/

/-- Read bytes at their home; a control page answers as its registers do. -/
def State.homeRead (s : State) (key n : Nat) : List Byte :=
  if isCtl key then leBytes n (s.ctlRead ((key - 2 ^ 56) / 2 ^ 16) ((key - 2 ^ 56) % 2 ^ 16)).toNat else s.bytes key n
/-- Write bytes at their home. DEDUCED, log 34. -/
def State.homeWrite (s : State) (ctx key : Nat) (bs : List Byte) : State :=
  if isCtl key then s.ctlWrite ((key - 2 ^ 56) / 2 ^ 16) ((key - 2 ^ 56) % 2 ^ 16) (BitVec.ofNat 64 (leNat bs))
  else s.storeAt ctx key bs

/-- The write-back of the dirty bytes of a line reaches its home: poisoned ones stay so there, and eight aligned bytes written
together whole lose their poison (R387). DEDUCED, log 30. -/
def State.homeWriteMask (s : State) (line : Nat) (mask : BitVec 128) (data : BitVec 1024) (bad : BitVec 16) : State :=
  let s1 := (List.range lineBytes).foldl (fun q i =>
    if mask.getLsbD i then q.setByte (line * lineBytes + i) (data.extractLsb' (8 * i) 8) else q) s
  (List.range 16).foldl (fun (q : State) j =>
    if bad.getLsbD j then q.taint (((List.range 8).filter fun i => mask.getLsbD (8 * j + i)).map (line * lineBytes + 8 * j + ·))
    else if mask.extractLsb' (8 * j) 8 == 0xFF then q.clearPoison (line * lineBytes + 8 * j) 8 else q) s1

/-! ### Reads made within one step -/

/-- A byte after a store to it. -/
def EvOp.over (op : EvOp) (off : Nat) (b : Byte) : Byte :=
  match op with
  | .store d | .stfe d => d.getD off b
  | .patch m d => (b &&& ~~~m) ||| (d &&& m)
  | _ => b

/-- The older stores of a team to a byte that are still in the buffer, oldest first. -/
def State.buffered (s : State) (team : Nat) (preds : List Nat) (key : Nat) : List Ev :=
  s.evs.filter fun e => e.team == team && preds.contains e.id && e.st == .issued && e.op.isStore && decide (e.key ≤ key) &&
    decide (key < e.key + e.op.len)

/-- The store clears the poison of its bytes (R387). -/
def Ev.cleans (e : Ev) : Bool := e.op.isStore && e.op.len == 8 && e.key % 8 == 0

/-- A byte as a plain load of the team reads it, and whether it is poisoned: the older stores still in the buffer over the core
copy, else over the home; an UNCACHED page has no core copy (R250, R292, R387). DEDUCED, log 31. -/
def State.peekAt (s : State) (team core : Nat) (preds : List Nat) (k : Nat × Attr) : Byte × Bool :=
  (s.buffered team preds k.1).foldl (fun b e => (e.op.over (k.1 - e.key) b.1, b.2 && !e.cleans))
    (if isPad k.1 then (s.byte k.1, false) else if k.2 == .uncached then s.homeByte core k.1 else s.copyByte core k.1)
def State.peekByte (s : State) (team core : Nat) (preds : List Nat) (k : Nat × Attr) : Byte := (s.peekAt team core preds k).1

/-- Bytes in a row of one page. -/
def spanOf (key n : Nat) (a : Attr) : List (Nat × Attr) := (List.range n).map fun i => (key + i, a)

/-- DEDUCED, log 31. -/
def State.peek (s : State) (team core : Nat) (preds : List Nat) (key n : Nat) (a : Attr) : List Byte :=
  (spanOf key n a).map (s.peekByte team core preds)

/-- An access of the team would read poisoned bytes: as it stands, in the buffer, in the core copy where the access reads that or where
its bytes are dirty, else at the home (R387). DEDUCED, log 30. -/
def State.readsBad (s : State) (team core : Nat) (preds : List Nat) (home : Bool) (key n : Nat) (a : Attr) : Bool :=
  (List.range n).any fun i =>
    (s.peekAt team core preds (key + i, if home && !s.dirtyHere core (key + i) 1 then .uncached else a)).2

/-! ### Messages (R248, R249) -/

/-- Send a message from a die: into its home queue, or onto the ring along the source die's route. -/
def State.send (s : State) (core src dest key len : Nat) (body : MsgBody) : State :=
  let reply := match body with | .reply .. => true | _ => false
  let place := if src == dest then (if reply then .back else .home)
    else .ring src (!(s.die src).route.getLsbD dest)
  { s.fresh with msgs := s.msgs ++ [⟨s.evId, core, dest, place, body, key, len⟩] }

def State.endMsg (s : State) (i : Nat) : State := { s with msgs := s.msgs.filter fun m => m.id != i }

/-- The event's access goes to its home as a message. -/
def State.sendEv (s : State) (e : Ev) : State :=
  (s.setEv { e with st := .sent }).send e.core (dieOf e.core) (s.homeOf e.core e.key) e.key e.op.len (.access e.id)

/-- Write back the dirty bytes of a line (step E): they become clean, and the stores in them are acknowledged when the
home has answered. -/
def State.writeBackLine (s : State) (core line : Nat) : State :=
  match s.line? core line with
  | none => s
  | some l =>
    if l.dirty == 0 then s
    else
      let m := s.evId
      let s1 := s.send core (dieOf core) (s.homeOf core (line * lineBytes)) (line * lineBytes) lineBytes
        (.writeBack line l.dirty l.data l.bad)
      let s2 := s1.setLine { l with dirty := 0 }
      { s2 with evs := s2.evs.map fun e =>
          if e.core == core && e.st == .left none && e.key / lineBytes == line then { e with st := .left (some m) } else e }

/-- A line is to come into a core copy: where its set has eight others, the least recently used of these goes, its dirty bytes written
back first (R296). -/
def State.makeRoom (s : State) (core line : Nat) : State :=
  let mates := s.setMates core line
  if mates.any (fun l => l.line == line) || decide (mates.length < 8) then s
  else match mates.getLast? with
    | some v =>
      let s1 := s.writeBackLine core v.line
      { s1 with lines := s1.lines.filter fun x => !(x.core == core && x.line == v.line) }
    | none => s

/-- A write-back is acknowledged. -/
def State.ackWriteBack (s : State) (m : Nat) : State := { s with evs := s.evs.filter fun e => e.st != .left (some m) }

/-! ### Answers -/

/-- The lane word of the register is full again once no event of the instruction still owes it a value (R41, R265). -/
def State.unmarkRegs (s : State) (e : Ev) (regs : List Nat) : State :=
  match e.dst with
  | .lane r l _ =>
    if s.evs.any fun x => x.id != e.id && x.team == e.team && x.grp == e.grp &&
        (match x.dst with | .lane r' l' _ => r' == r && l' / 32 == l / 32 | _ => false) then s
    else s.modTeam e.team fun T => { T with
      marks := T.marks.filter fun m => !(regs.contains m.reg && m.word == l / 32 && m.grp == e.grp) }
  | _ => s
def State.unmark (s : State) (e : Ev) : State := s.unmarkRegs e (match e.dst with | .lane r _ _ => [r] | _ => [])

def Team.spOf (T : Team) (h : Bool) : Split := if h then T.hsplit else T.split
def Team.setSpOf (T : Team) (h : Bool) (sp : Split) : Team := if h then { T with hsplit := sp } else { T with split := sp }

/-- A fragment goes on to the next word (R36, R140). -/
def Split.advance (sp : Split) (slot : Nat) : Split :=
  let f := sp.frag slot
  sp.moved slot { f with pc := f.pc + 1, seq := true, wait := none, again := false }

/-- A fragment that has issued its word stays there and waits. -/
def Split.waits (sp : Split) (slot : Nat) (w : LaneWait) : Split :=
  { sp.setFrag slot { sp.frag slot with state := 2, wait := some w } with last := slot }

/-- PBWAIT's status (R230): true or undecided on completion, false at the limit. -/
def Team.pbStatus (T : Team) (w : LaneWait) (v : Tri) : Team :=
  match w.instr with
  | .pbwait _ d _ _ _ => (lanesOf w.exec T.lanes).foldl (fun q l => q.setQ d.toNat l v) T
  | _ => T

/-- A fragment's wait has ended: the next word, and one on the clock unless its issue counted already (R309, R312). -/
def Team.waitOver (T : Team) (h : Bool) (slot : Nat) : Team :=
  let sp := T.spOf h
  { T.setSpOf h (sp.advance slot) with clock := if (sp.frag slot).again then T.clock else T.clock + 1 }

/-- A fragment's wait has ended by completion. -/
def Team.waitDone (T : Team) (h : Bool) (slot : Nat) (w : LaneWait) (broken : Bool) : Team :=
  (T.pbStatus w (if broken then .u else .t)).waitOver h slot

/-- A lane of a waiting fragment is satisfied; the last one ends the wait (R230, R273). -/
def Team.satisfied (T : Team) (h : Bool) (slot lane : Nat) (broken : Bool) : Team :=
  let sp := T.spOf h
  let f := sp.frag slot
  match f.wait with
  | some w =>
    (match w.what with
    | .reads p b n =>
      let p' := p &&& ~~~(laneBit lane)
      if p' == 0 then T.waitDone h slot w (b || broken)
      else T.setSpOf h (sp.setFrag slot { f with wait := some { w with what := .reads p' (b || broken) n } })
    | _ => T)
  | none => T

/-- A wait of a level the team is not at: it stays as the trap left it until the handler returns (R327). -/
def State.frozen (s : State) (e : Ev) : Bool :=
  match e.dst with
  | .wait h _ _ => (match s.team? e.team with | some T => T.trapLevel != h | none => false)
  | _ => false

/-- Deliver bytes to the destination of an event that is done. -/
def State.deliver (s : State) (e : Ev) (bs : List Byte) (fl : BitVec 16) : State :=
  match e.dst with
  | .none => s
  | .lane r l ty =>
    let v := loadValue ty bs
    (s.modTeam e.team fun T => (T.setV r l v.1).orFlags l (v.2 ||| fl)).unmark e
  | .scalar r => s.modTeam e.team fun T => T.setS r (BitVec.ofNat 64 (leNat bs))
  | .wait h slot lane => s.modTeam e.team fun T => T.satisfied h slot lane false

/-! ### Conditions (R251 to R253, R258) -/

/-- A younger access may step: no older acquire is outstanding (R253). DEDUCED, log 32. -/
def heldBack (older : List Ev) : Bool := older.any fun p => p.acq && p.waiting

/-- Own-die strong accesses to memory at cluster scope or wider (R251). -/
def State.ownStrong (s : State) (e : Ev) : Bool := !e.isPadEv && e.strong && Scope.isWide e.scope && s.ownDie e.core e.key

/-- A write-back of the core that a release must see acknowledged: one under way, unless every store in it is the releasing team's
own and not among the older accesses (R254). DEDUCED, log 33. -/
def State.writingBack (s : State) (team core : Nat) (preds : List Nat) : Bool :=
  s.msgs.any fun m => m.core == core &&
    (let wb : Option Nat := match m.body with | .writeBack .. => some m.id | .reply none i => some i | _ => none
     match wb with
     | some i =>
       let inIt := s.evs.filter fun e => e.st == .left (some i)
       inIt.isEmpty || inIt.any fun e => e.team != team || preds.contains e.id
     | none => false)

/-- A release at a scope may take its step as far as its own older accesses go (R252): the older loads, those of copies and tiles among
them (R257), have performed, and the older stores have left or, where they go to a home, have reached it (R254); from cluster scope on,
everything dirty is written back, no older atomic is held (R315) and the older stores are acknowledged. DEDUCED, log 33. -/
def State.releaseOwn (s : State) (team core : Nat) (preds : List Nat) (sc : Scope) : Bool :=
  let o := s.older preds
  o.all (fun p => !p.waiting) && (s.olderCopies preds).isEmpty && !s.olderTile team preds &&
  (!Scope.isWide sc ||
    (o.all (fun p => p.op.isLoad) && (s.olderAtoms preds).isEmpty && s.lines.all fun l => l.core != core || l.dirty == 0))

/-- A release at a scope may take its step: from cluster scope on, what others stored on the core and happens before it is acknowledged
too (R252, R254). DEDUCED, log 33. -/
def State.releaseOk (s : State) (team core : Nat) (preds : List Nat) (sc : Scope) : Bool :=
  s.releaseOwn team core preds sc && (!Scope.isWide sc || !s.writingBack team core preds)

/-- Same bytes (R251, R256): older accesses to an overlapping byte have stepped; one that left into the core copy is written back and
acknowledged before an access at the home, and one sent to its home has performed there before a load reads the core copy. -/
def State.sameBytesOk (older : List Ev) (e : Ev) : Bool :=
  older.all fun p => !p.overlaps e || (p.gone && (match p.st with
    | .left _ => !e.atHome
    | .sent => e.atHome || !e.op.isLoad
    | _ => true))

/-- An access to memory at its home waits for the bytes of it that are dirty in the core's copy or on their way from there. -/
def State.homeHeld (s : State) (e : Ev) : Bool := e.atHome && e.attr != .pinCore && s.dirtyHere e.core e.key e.op.len

/-- A store or RMW may take B. -/
def State.canLeave (s : State) (e : Ev) : Bool :=
  let o := s.older e.preds
  e.st == .issued && !heldBack o && State.sameBytesOk o e && !s.copyHolds e.preds e.ranges && !s.atomHolds e.preds e.ranges &&
  !s.homeHeld e &&
  (!s.ownStrong e || o.all fun p => !s.ownStrong p || (p.op.isLoad && !p.waiting)) &&
  (!e.rel || s.releaseOk e.team e.core e.preds e.scope)

/-- The bytes a load takes from the buffer: those of the youngest older store to them, when it covers them all and every other
older overlapping access has stepped (R250, R251). DEDUCED, log 29. -/
def State.forwardFrom (s : State) (e : Ev) : Option (List Byte) :=
  let o := (s.older e.preds).filter fun p => p.overlaps e && !p.gone && !isCtl e.key
  match o.getLast? with
  | some p => (match p.op with
    | .store d =>
      if decide (p.key ≤ e.key) && decide (e.key + e.op.len ≤ p.key + d.length) && o.all (fun q => q.op.isPlainStore) &&
          (s.olderAtoms e.preds).all fun a => a.pad || decide (a.id < p.id) || !(overlap (a.addr, 8) (e.key, e.op.len)) then
        some ((d.drop (e.key - p.key)).take e.op.len) else none
    | _ => none)
  | none => none

/-- A load may take P as far as other bytes are concerned: no older acquire holds it back, and the own-die order of strong
accesses lets it. -/
def State.mayLoad (s : State) (e : Ev) : Bool :=
  let o := s.older e.preds
  e.st == .issued && !heldBack o && !s.frozen e &&
  (!s.ownStrong e || o.all fun p => !s.ownStrong p || p.op.isStore || !p.waiting)

/-- A load may take P (apart from forwarding). DEDUCED, log 29. -/
def State.canLoad (s : State) (e : Ev) : Bool :=
  s.mayLoad e && State.sameBytesOk (s.older e.preds) e && !s.copyHolds e.preds e.ranges && !s.atomHolds e.preds e.ranges &&
  !s.homeHeld e

/-- An older access to bytes that `peek` reads lets it: a store in the buffer or in the core copy, or an access that has performed. -/
def Ev.seen (p : Ev) : Bool :=
  match p.st with
  | .issued => p.op.isPlainStore
  | .left _ => true
  | .sent => false
  | .performed => true

/-- A byte is there to be read within one step: in its pad bank, in the core copy, or at a home that can be reached; one of an
UNCACHED page takes F first (R250, R292, R320). -/
def State.byteThere (s : State) (core : Nat) (k : Nat × Attr) : Bool :=
  isPad k.1 || (if k.2 == .uncached then s.canFill core (k.1 / lineBytes)
    else s.copyHas core k.1 1 || (!s.cutOff core k.1 && !s.portFailed (dieOf core) k.1))

/-- Bytes may be read as plain loads of a team now (R251, R253): no older acquire is outstanding, the older accesses to them let it, and
they are there. -/
def State.mayPeek (s : State) (core : Nat) (preds : List Nat) (ks : List (Nat × Attr)) : Bool :=
  let o := s.older preds
  let ranges := ks.map fun k => (k.1, 1)
  !heldBack o && (o.all fun p => p.seen || !(p.ranges.any fun a => ranges.any fun b => overlap a b)) && !s.atomHolds preds ranges &&
  ks.all (s.byteThere core)

/-- Bytes have been read as plain loads: the lines of the core copy were used (R296), and one of an UNCACHED page is dropped (R292). -/
def State.afterPeek (s : State) (core : Nat) (ks : List (Nat × Attr)) : State :=
  (ks.map fun k => (k.1 / lineBytes, k.2 == .uncached)).eraseDups.foldl (fun (q : State) x =>
    if x.2 then q.dropLine core x.1 else q.touch core x.1) s

/-! ### Steps of the machine (R250) -/

/-- F: a clean copy of a line from the home value, poison and all (R387). -/
def State.stepFill (s : State) (core line : Nat) (tag : Scope) : State :=
  let key := line * lineBytes
  if !s.canFill core line then s
  else
    let data := (List.range lineBytes).foldl (fun d i => setByteIn d i (s.byte (key + i))) (0 : BitVec 1024)
    let bad := (List.range 16).foldl (fun (d : BitVec 16) j => if s.poisoned (key + 8 * j) 8 then d ||| (1 <<< j) else d) 0
    (s.makeRoom core line).putLine { core := core, line := line, valid := BitVec.allOnes 128, data := data, bad := bad, tag := tag }

/-- Something in an issue history is to access the pad and is not done: an access, a copy that reads the pad, a tile (R257, R258). -/
def State.padPending (s : State) (team : Nat) (preds : List Nat) : Bool :=
  (s.older preds).any (fun p => p.isPadEv) || (s.olderCopies preds).any (fun c => c.dir == .padToMem) || s.olderTile team preds

/-- Something before a pad access in its team's pad order is not done, or a tile has yet to read what it would store over (R207,
R258). -/
def State.padBusy (s : State) (e : Ev) : Bool :=
  s.padPending e.team e.preds || ((e.op.isStore || e.op.isRmw) && s.tileHolds e.team e.id e.key e.op.len)

/-- LDFE and STFE commit the region they belong to, when they perform (R270, R336). -/
def State.commitOf (s : State) (e : Ev) : State :=
  s.modTeam e.team fun T => if e.region = T.regionNo + 1 then { T with committed := true } else T

/-- Perform one pad event in its single step (R258, R259); none while its condition does not hold. -/
def State.performPad (s : State) (e : Ev) : Option State :=
  let o := s.older e.preds
  if e.st != .issued || heldBack o || s.frozen e || s.padBusy e || (e.rel && !s.releaseOk e.team e.core e.preds e.scope) then none
  else
    let tagKeys := fun (n : Nat) => (List.range n).map fun i => e.key + 4 * i
    match e.op with
    | .load n => some ((s.endEv e.id).deliver e (s.bytes e.key n) 0)
    | .store d => some ((s.endEv e.id).setPad e.ctx e.key d)
    | .rmw op ty b =>
      let old := s.word e.key
      let r := atomNew op ty old b
      some (((s.endEv e.id).setPad e.ctx e.key (leBytes 8 r.1.toNat)).deliver e (leBytes 8 old.toNat) r.2)
    | .cas x n =>
      let old := s.word e.key
      let s1 := if old = x then (s.endEv e.id).setPad e.ctx e.key (leBytes 8 n.toNat) else s.endEv e.id
      some (s1.deliver e (leBytes 8 old.toNat) 0)
    | .waitRead c x failed =>
      if failed then none
      else if condHolds c (s.word e.key) x then some (((s.endEv e.id).deliver e (s.bytes e.key 8) 0).acquire e.core e.scope)
      else some (s.setEv { e with op := .waitRead c x true, value := lowPair (s.word e.key) })
    | .ldfe n =>
      if (tagKeys n).all fun k => s.tagFull k then
        let s1 := ((s.endEv e.id).deliver e (s.bytes e.key (4 * n)) 0)
        some ((((tagKeys n).foldl (fun q k => q.setTag k false) s1).acquire e.core e.scope).commitOf e)
      else none
    | .stfe d =>
      let ks := tagKeys (d.length / 4)
      if ks.all fun k => !s.tagFull k then
        some ((ks.foldl (fun q k => q.setTag k true) ((s.endEv e.id).setPad e.ctx e.key d)).commitOf e)
      else none
    | .pbinit a n =>
      some ((s.endEv e.id).setBar e.ctx e.key ⟨0, a, a, false, n, n⟩)
    | .pbexp n => some ((s.endEv e.id).setBar e.ctx e.key ((s.bar e.key).expect n))
    | .pbarv n => some ((s.endEv e.id).setBar e.ctx e.key ((s.bar e.key).lower (some n) none))
    | .pbwait g n =>
      let b := s.bar e.key
      if b.reached g n then
        match e.dst with
        | .wait h slot lane =>
          some (((s.endEv e.id).modTeam e.team fun T => T.satisfied h slot lane b.broken).acquire e.core e.scope)
        | _ => some (s.endEv e.id)
      else none
    | .hull .. | .patch .. => none

/-- The accesses of one instruction to one place act together, in ascending lane order (R266). -/
def State.groupOf (s : State) (e : Ev) : List Ev :=
  match e.op with
  | .load _ | .store _ | .patch .. | .rmw .. | .cas .. =>
    s.evs.filter fun x => x.team == e.team && x.grp == e.grp && x.key == e.key && x.waiting
  | _ => [e]

/-- The bytes a plain store writes over what the core sees, when it can: a store of some bits of a byte needs the byte (R173). -/
def State.storeBytes (s : State) (e : Ev) : Option (List Byte) :=
  match e.op with
  | .store d => some d
  | .patch .. =>
    if e.attr == .pinCore then some [e.op.over 0 (s.byte e.key)]
    else if e.attr == .uncached then (if s.canFill e.core (e.key / lineBytes) then some [e.op.over 0 (s.byte e.key)] else none)
    else if s.copyHas e.core e.key 1 then some [e.op.over 0 (s.copyByte e.core e.key).1] else none
  | _ => none

/-- A store's own effect where it has no core copy to go to: UNCACHED takes B and E together, a PIN-CORE bank takes it
at once (R292). -/
def State.leaveOne (s : State) (e : Ev) : State :=
  if e.isPadEv then (s.performPad e).getD s
  else if !s.canLeave e then s
  else if e.op.isRmw then s.sendEv e
  else if e.attr != .pinCore && e.atHome && e.op.isPlainStore then s.sendEv e
  else
    match s.storeBytes e with
    | some d =>
      if e.attr == .pinCore then (s.endEv e.id).storeAt e.ctx e.key d
      else
        let n := e.key / lineBytes
        let s0 := if e.attr == .uncached then s else s.makeRoom e.core n
        let s1 := (s0.copyWrite e.core e.key e.scope d).setEv { e with st := .left none }
        if e.attr == .uncached then (s1.writeBackLine e.core n).dropLine e.core n else s1
    | none => s

/-- B, for every access of the instruction to the same place. -/
def State.stepLeave (s : State) (e : Ev) : State := (s.groupOf e).foldl State.leaveOne s

/-- The value of an LDH event, every element read by a plain load (R172). -/
def State.hullRead (s : State) (e : Ev) (elems : List (List (Nat × Attr) × Nat × Option (Nat × Attr))) : List (Nat × Nat) :=
  elems.map fun x =>
    (leNat (x.1.map (s.peekByte e.team e.core e.preds)) / 2 ^ x.2.1,
     match x.2.2 with | some k => (s.peekByte e.team e.core e.preds k).toNat | none => 127)

/-- The event would read poisoned bytes (R387). -/
def State.evBad (s : State) (e : Ev) : Bool := !isPad e.key && s.readsBad e.team e.core e.preds e.atHome e.key e.op.len e.attr

/-- A wait's read that gives a value within one step: it is satisfied and acquires, or it has failed (R60, R273). A read of poisoned
bytes satisfies nothing: WAIT_REREAD then traps (R387). -/
def State.waitAt (s : State) (e : Ev) (c : Cond) (x w : Word) : State :=
  if condHolds c w x && !s.evBad e then ((s.endEv e.id).deliver e (leBytes 8 w.toNat) 0).acquire e.core e.scope
  else s.setEv { e with op := .waitRead c x true, value := lowPair w }

/-- A load's value given within one step. -/
def State.loadAt (s : State) (e : Ev) (bs : List Byte) : State :=
  ((s.endEv e.id).deliver e bs 0).acquire e.core (if e.acq then e.scope else .team)

/-- What a load at team or core scope, or a read at a PIN-CORE bank, reads in one step: the bank, the home of an UNCACHED page, the
core copy; none while it is not there. -/
def State.readHere (s : State) (e : Ev) : Option (List Byte) :=
  if e.attr == .pinCore then some (s.bytes e.key e.op.len)
  else if e.attr == .uncached then (if s.canFill e.core (e.key / lineBytes) then some (s.homeRead e.key e.op.len) else none)
  else if s.copyHas e.core e.key e.op.len then some ((List.range e.op.len).map fun i => (s.copyByte e.core (e.key + i)).1)
  else none

/-- The keys an event reads. -/
def Ev.reads (e : Ev) : List (Nat × Attr) :=
  match e.op with
  | .hull _ _ es => es.flatMap fun x => x.1 ++ x.2.2.toList
  | op => spanOf e.key op.len e.attr

/-- LDH reads every element by a plain load: from the buffer, or from where a load at team scope reads (R172, R250). -/
def State.canHull (s : State) (e : Ev) : Bool := s.mayLoad e && s.mayPeek e.core e.preds e.reads && !s.copyHolds e.preds e.ranges

/-- P: a load forwards from the buffer, reads the core copy, or sends a message to its home. -/
def State.loadOne (s : State) (e : Ev) : State :=
  if e.isPadEv then (s.performPad e).getD s
  else
    match e.op with
    | .load _ =>
      (match s.forwardFrom e with
      | some bs => if s.mayLoad e then s.loadAt e bs else s
      | none =>
        if !s.canLoad e then s
        else if e.atHome && e.attr != .pinCore then s.sendEv e
        else match s.readHere e with
          | some bs => (s.afterPeek e.core e.reads).loadAt e bs
          | none => s)
    | .waitRead c x failed =>
      if failed then s
      else match s.forwardFrom e with
        | some bs => if s.mayLoad e then s.waitAt e c x (BitVec.ofNat 64 (leNat bs)) else s
        | none =>
          if !s.canLoad e then s
          else if e.atHome && e.attr != .pinCore then s.sendEv e
          else match s.readHere e with
            | some bs => (s.afterPeek e.core e.reads).waitAt e c x (BitVec.ofNat 64 (leNat bs))
            | none => s
    | .hull lay ty es =>
      if !s.canHull e then s
      else
        let r := hullValue lay ty (s.hullRead e es)
        (match e.dst with
        | .lane d l _ =>
          (((s.afterPeek e.core e.reads).endEv e.id).modTeam e.team fun T =>
            let T1 := (T.setVp (ty == .iv64) d l r.1).orFlags l r.2.1
            match T1.item l with
            | some h => if e.item = h.no && decide (h.ldh < e.id) then T1.setItem l (some { h with wide := r.2.2, ldh := e.id }) else T1
            | none => T1).unmarkRegs e (if ty == .iv64 then [d, d + 1] else [d])
        | _ => s.endEv e.id)
    | .rmw .. | .cas .. => if s.canLeave e then s.sendEv e else s
    | _ => s

/-- P, for every access of the instruction to the same place. -/
def State.stepLoad (s : State) (e : Ev) : State := (s.groupOf e).foldl State.loadOne s

/-- An event whose access was applied at its home is answered: at once on the home's own die, by a reply otherwise
(R249, R250 K). -/
def State.answer (s : State) (e : Ev) (bs : List Byte) (fl : BitVec 16) : State :=
  if s.ownDie e.core e.key then (s.endEv e.id).deliver e bs fl
  else
    (s.setEv { e with st := .performed, value := Pair.mk (BitVec.ofNat 64 (leNat bs)) (fl.setWidth 64) }).send
      e.core (s.homeOf e.core e.key) (dieOf e.core) e.key e.op.len (.reply (some e.id) 0)

/-- H for an event's access. One at a home on an absent die is made as on any other (only PIN-CORE has a fate there, R294).
DESIGN CHOICE, log 13. -/
def State.applyEv (s : State) (e : Ev) : State :=
  let line := e.key / lineBytes
  match e.op with
  | .store d => ((s.homeWrite e.ctx e.key d).dropLine e.core line).answer e [] 0
  | .load n => (((s.dropLine e.core line).acquire e.core (if e.acq then e.scope else .team)).answer e (s.homeRead e.key n) 0)
  | .rmw op ty b =>
    let old := BitVec.ofNat 64 (leNat (s.homeRead e.key 8))
    let r := atomNew op ty old b
    (((s.homeWrite e.ctx e.key (leBytes 8 r.1.toNat)).dropLine e.core line).acquire e.core
      (if e.acq then e.scope else .team)).answer e (leBytes 8 old.toNat) r.2
  | .cas x n =>
    let old := BitVec.ofNat 64 (leNat (s.homeRead e.key 8))
    let s1 := if old = x then s.homeWrite e.ctx e.key (leBytes 8 n.toNat) else s
    ((s1.dropLine e.core line).acquire e.core (if e.acq then e.scope else .team)).answer e (leBytes 8 old.toNat) 0
  | .patch .. => ((s.homeWrite e.ctx e.key [e.op.over 0 (s.byte e.key)]).dropLine e.core line).answer e [] 0
  | .waitRead c x _ =>
    let w := BitVec.ofNat 64 (leNat (s.homeRead e.key 8))
    if condHolds c w x && !s.frozen e && !s.evBad e then
      ((s.dropLine e.core line).acquire e.core e.scope).answer e (leBytes 8 w.toNat) 0
    else s.setEv { e with st := .issued, op := .waitRead c x true, value := lowPair w }
  | _ => s

/-- An access from outside is answered: a peer's to the peer, the host's to the host; poisoned bytes have no value (R382, R387). -/
def State.answerOutside (s : State) (key : Nat) (peer : Bool) (v : Option Word) : State :=
  if peer then { s with peerReplies := s.peerReplies ++ [(key, v)] } else { s with hostReplies := s.hostReplies ++ [(key, v)] }

/-- An RMW from outside reads and writes a doubleword in one step, and is answered with the value it found (R382). -/
def State.externalRmw (s : State) (key : Nat) (peer : Bool) (f : Word → Word) : State :=
  let old := BitVec.ofNat 64 (leNat (s.homeRead key 8))
  if s.poisoned key 8 then s.answerOutside key peer none
  else (s.homeWrite 0 key (leBytes 8 (f old).toNat)).answerOutside key peer (some old)

/-- H for a message at the head of its home queue (R248, R250). -/
def State.applyMsg (s : State) (m : Msg) : State :=
  let s0 := s.endMsg m.id
  match m.body with
  | .writeBack line mask data bad =>
    let s1 := s0.homeWriteMask line mask data bad
    if s.ownDie m.core (line * lineBytes) then s1.ackWriteBack m.id
    else s1.send m.core (s.homeOf m.core (line * lineBytes)) (dieOf m.core) m.key m.len (.reply none m.id)
  | .access i =>
    (match s0.ev? i with
    | some e => (s0.groupOf e).foldl (fun q x =>
        { q.applyEv x with msgs := (q.applyEv x).msgs.filter fun m => m.body != .access x.id }) s0
    | none => s0)
  | .external key acc peer =>
    (match acc with
    | .read => s0.answerOutside key peer (if s0.poisoned key 8 then none else some (BitVec.ofNat 64 (leNat (s0.homeRead key 8))))
    | .write n v => s0.homeWrite 0 key ((leBytes 8 v.toNat).take n)
    | .rmw op ty b => s0.externalRmw key peer fun old => (atomNew op ty old b).1
    | .cas x n => s0.externalRmw key peer fun old => if old = x then n else old)
  | .stamp ctx w => s0.homeWrite ctx m.key (leBytes 8 w.toNat)
  | .reply .. => s0

/-- A message may be applied: none ahead of it in a home queue touches its bytes. -/
def headOfHome (before : List Msg) (m : Msg) : Bool :=
  m.place == .home && before.all fun x => x.place != .home || !overlap (x.key, x.len) (m.key, m.len)

/-- A message to a peer part waits while the port on its route has failed (R320). -/
def State.stepApply (s : State) (i : Nat) : State :=
  match s.msgs.find? fun m => m.id == i with
  | none => s
  | some m => if headOfHome (s.msgs.takeWhile fun x => x.id != i) m && !s.portFailed m.dest m.key then s.applyMsg m else s

/-- K: an acknowledgement or reply reaches the issuing core. -/
def State.stepAck (s : State) (i : Nat) : State :=
  match s.msgs.find? fun m => m.id == i && m.place == .back with
  | none => s
  | some m =>
    (match m.body with
    | .reply (some ev) _ =>
      (match s.ev? ev with
      | some e => if s.frozen e then s else ((s.endMsg i).endEv ev).deliver e (leBytes e.op.len e.value.even.toNat) (e.value.odd.setWidth 16)
      | none => s.endMsg i)
    | .reply none wb => (s.endMsg i).ackWriteBack wb
    | _ => s)

/-- G: the message at the head of a ring queue moves one hop. -/
def State.stepRing (s : State) (die : Nat) (asc : Bool) : State :=
  match s.msgs.find? fun m => m.place == .ring die asc with
  | none => s
  | some m =>
    if s.hopFailed die asc then s
    else
      let d := if asc then (die + 1) % 4 else (die + 3) % 4
      let place := if d == m.dest then (match m.body with | .reply .. => .back | _ => .home) else .ring d asc
      { s with msgs := (s.msgs.filter fun x => x.id != m.id) ++ [{ m with place := place }] }

/-! ### Releases made whole in one step by other agents (R34, R223, R307) -/

/-- The rest of a message's way crosses a failed hop or port (R320). -/
def State.heldUpMsg (s : State) (m : Msg) : Bool :=
  match m.place with
  | .ring d asc => s.wayFailed d m.dest asc
  | .home => s.portFailed m.dest m.key
  | .back => false

/-- Everything the cores have written can reach its homes. -/
def State.canDrain (s : State) (cores : List Nat) : Bool :=
  (s.msgs.all fun m => !cores.contains m.core || (match m.body with | .reply .. => true | _ => !s.heldUpMsg m)) &&
  s.lines.all fun l => !cores.contains l.core || l.dirty == 0 ||
    (!s.cutOff l.core (l.line * lineBytes) && !s.portFailed (dieOf l.core) (l.line * lineBytes))

/-- Bring everything the cores have written to its homes: their messages are applied in order, then their dirty lines.
DESIGN CHOICE, log 75. -/
def State.drainCores (s : State) (cores : List Nat) : State :=
  let s1 := s.msgs.foldl (fun q m =>
    if cores.contains m.core then (match m.body with
      | .writeBack line mask data bad => ((q.homeWriteMask line mask data bad).endMsg m.id).ackWriteBack m.id
      | .access _ | .stamp .. => q.applyMsg m
      | _ => q) else q) s
  s1.lines.foldl (fun q l =>
    if cores.contains l.core && l.dirty != 0 then
      let q1 := (q.homeWriteMask l.line l.dirty l.data l.bad).setLine { l with dirty := 0 }
      { q1 with evs := q1.evs.filter fun e => !(e.core == l.core && e.st == .left none && e.key / lineBytes == l.line) }
    else q) s1

end Sys2Proof.Machine
end

