-- ==== Sys2Proof/Machine/Ops.lean ====
section
/-!
DEFINITION. The shared operations: live-work counts, retirement and completion, taking a trap and returning from one,
regions, turns of deterministic launches, and how scalar and lane instructions issue.
-/
namespace Sys2Proof.Machine

/-! ### Live-work counts (R12, R170) -/

def State.addLive (s : State) (l n : Nat) : State := s.modLaunch l fun L => { L with live := L.live + n }
def State.subLive (s : State) (l n : Nat) : State := s.modLaunch l fun L => { L with live := L.live - n }
def State.liveOf (s : State) (l : Nat) : Nat := match s.launch? l with | some L => L.live | none => 0

/-- Drop the item of a lane, when it holds one (R161, R169). -/
def State.dropItem (s : State) (t lane : Nat) : State :=
  match s.team? t with
  | none => s
  | some T => if (T.item lane).isSome then (s.setTeam (T.setItem lane none)).subLive T.launch 1 else s

def State.dropItems (s : State) (T : Team) : State := (T.items.map (·.1)).foldl (fun q l => q.dropItem T.id l) s

/-! ### Keys and turns of a deterministic launch (R310, R312, R314) -/

def DetKey.lt (a b : DetKey) : Bool :=
  a.clock < b.clock || (a.clock == b.clock && (a.cohort < b.cohort || (a.cohort == b.cohort && a.t < b.t)))

/-- The index t of a team's key: element teams follow the ordinary ones. -/
def State.keyT (s : State) (T : Team) : Nat :=
  match T.sort with
  | .element o l _ _ _ => 65536 + 1024 * (match s.team? o with | some O => O.tidx | none => T.tidx) + l
  | _ => T.tidx
def State.keyOf (s : State) (T : Team) : DetKey := ⟨T.clock, T.cohort, s.keyT T, 0⟩

def DetKey.max (a b : Option DetKey) : Option DetKey :=
  match a, b with
  | some x, some y => if DetKey.lt x y then some y else some x
  | some x, none => some x
  | none, y => y

/-- The pending event of a descriptor of a DET launch: there once every contributor of the current instance has issued its
contribution, under the greatest key among these (R314). -/
def State.collKey (s : State) (l key : Nat) : Option DetKey :=
  let inst := s.insts.find? fun i => i.key == key
  let here := match inst with | some i => i.arrived | none => []
  let new := (s.contribs.filter fun c => c.key == key && !here.contains c.contributor).foldl
    (fun (r : List Contrib) c => if r.any fun x => x.contributor == c.contributor then r else r ++ [c]) []
  let nc := match inst with | some i => i.tree.nc | none => (match new with | c :: _ => c.tree.nc | [] => 0)
  let launch := match inst with | some i => i.launch | none => (match new with | c :: _ => c.launch | [] => 0)
  if nc != 0 && here.length + new.length = nc && launch = l then
    new.foldl (fun k c => DetKey.max k c.det) (match inst with | some i => i.det | none => none)
  else none

/-- The keys of the pending events of a launch (R314). -/
def State.pendingKeys (s : State) (l : Nat) : List DetKey :=
  (s.copies.filterMap fun c => if c.launch == l then c.det else none) ++
  (s.tasks.filterMap fun t => match t.det with | some (l', k) => if l' == l then some k else none | none => none) ++
  ((s.insts.map (·.key) ++ s.contribs.map (·.key)).filterMap (s.collKey l))

/-- It is the team's turn: its key is less than that of every other counted team and of every pending event. -/
def State.turn (s : State) (T : Team) : Bool :=
  !T.counted ||
  ((s.teams.all fun X => X.id == T.id || X.launch != T.launch || !X.counted || DetKey.lt (s.keyOf T) (s.keyOf X)) &&
   (s.pendingKeys T.launch).all fun k => DetKey.lt (s.keyOf T) k)

/-! ### Held atomics (R315) -/

/-- The order of a drain: cohort, t, lane, clock. -/
def HeldAtom.before (a b : HeldAtom) : Bool :=
  let k := fun (x : HeldAtom) => [x.key.cohort, x.key.t, x.key.lane, x.key.clock]
  decide (k a < k b)

def insertAtom (a : HeldAtom) : List HeldAtom → List HeldAtom
  | [] => [a]
  | b :: t => if a.before b then a :: b :: t else b :: insertAtom a t

/-- One held atomic performs at its home or pad bank. -/
def State.performAtom (s : State) (a : HeldAtom) : State :=
  let old := BitVec.ofNat 64 (leNat (s.homeRead a.addr 8))
  let s1 := s.homeWrite a.ctx a.addr (leBytes 8 (atomNew a.op a.ty old a.b).1.toNat)
  if a.pad then s1 else s1.dropLine a.core (a.addr / lineBytes)

/-- A drain of the launch below a key takes the held atomic. -/
def HeldAtom.due (a : HeldAtom) (l : Nat) (below : Option DetKey) : Bool :=
  a.launch == l && (match below with | some k => DetKey.lt a.key k | none => true)

/-- The access that a held atomic makes at its drain. -/
def HeldAtom.ev (a : HeldAtom) : Ev :=
  { id := 0, team := a.team, core := a.core, grp := 0, preds := a.preds, key := a.addr, attr := a.attr, scope := a.scope
    strong := true, rel := a.rel, op := .rmw a.op a.ty a.b, ctx := a.ctx }

/-- What the atomic's team issued before it lets it step, as for any atomic: same bytes, own-die order and its release (R251, R252,
R258, R275), and its home can be reached (R320, R382). Held atomics do not wait for one another: a drain has its own order (R315).
DESIGN CHOICE, log 75. -/
def State.atomMay (s0 : State) (a : HeldAtom) : Bool :=
  let s : State := { s0 with atoms := [] }
  if a.pad then
    !heldBack (s.older a.preds) && !s.padBusy a.ev && (!a.rel || s.releaseOk a.team a.core a.preds a.scope)
  else s.canLeave a.ev && !s.cutOff a.core a.addr && !s.portFailed (dieOf a.core) a.addr

/-- Every held atomic that a flush point drains may perform; until then the flush point waits at its turn (R315). -/
def State.drainReady (s : State) (l : Nat) (below : Option DetKey) : Bool := s.atoms.all fun a => !a.due l below || s.atomMay a

/-- A drain takes every held atomic of the launch whose key is less than the flush point's, sorted. -/
def State.drain (s : State) (l : Nat) (below : Option DetKey) : State :=
  let take := fun (a : HeldAtom) => a.due l below
  ((s.atoms.filter take).foldl (fun r a => insertAtom a r) []).foldl State.performAtom
    { s with atoms := s.atoms.filter fun a => !take a }

/-! ### Completion (R33, R34) -/

/-- The key an agent of a die reaches an address under, walking its tables (R290). -/
def State.dispKey (s : State) (d ctx : Nat) (va : Word) : Option (Nat × Bool) :=
  if !canonical va then none
  else match s.walkTables d ctx va with
    | (.leaf k w a, bits) => (s.tlbKey (32 * d) ⟨32 * d, ctx, 0, bits, k, w, a⟩ va).map fun key => (key, w)
    | _ => none

/-- A dispatcher's stamp (R22, R34): one 8-byte store, when its address is mapped writable; a home on another die is reached by a
message (R249), and so is a peer part behind a failed port (R320). Otherwise nothing is stored, no record is written and nothing waits.
DESIGN CHOICE, log 75. -/
def State.dispStamp (s : State) (d ctx : Nat) (va : Nat) (w : Word) : State :=
  match s.dispKey d ctx (BitVec.ofNat 64 va) with
  | some (k, true) =>
    if s.ownDie (32 * d) k && !s.portFailed d k then s.homeWrite ctx k (leBytes 8 w.toNat)
    else s.send (32 * d) d (s.homeOf (32 * d) k) k 8 (.stamp ctx w)
  | _ => s

/-- The last cohort has retired: the writes of the launch are released, held atomics drain, the stamp is written, a task's output
token is signalled, and what belonged to the launch goes (R34, R69, R278, R285, R315). DESIGN CHOICE, log 75; for requests
still held, DEDUCED, log 51. -/
def State.completeLaunch (s : State) (L : Launch) : State :=
  let s1 := (s.drainCores L.cores).drain L.id none
  let s2 := if L.hdr.stampAddr = 0 then s1 else s1.dispStamp L.die L.ctx L.hdr.stampAddr L.hdr.stampVal
  let s3 := match L.token with | some k => s2.signal (32 * L.die) L.ctx k | none => s2
  let gone := fun (r : Req) => (match r.place with | .held | .inWave _ => true | _ => false) &&
    s3.objs.any fun o => o.launch == L.id && r.obj == some o.id && o.wave.isNone
  { s3 with
    launches := s3.launches.filter fun x => x.id != L.id
    reqs := s3.reqs.map fun (r : Req) => if gone r then { r with place := .answered, status := .u, value := 0 } else r
    objs := s3.objs.filter fun o => o.launch != L.id
    tickets := s3.tickets.filter fun t => t.launch != L.id }

/-- The address of a ring slot of a cohort (R162). -/
def slotVa (h : Header) (cohort slot : Nat) : Nat := (h.spill + cohort * 512 * h.cap + 32 * slot) % 2 ^ 64

/-- Slots a spilled entry or a refill in flight occupies. -/
def Cistern.busy (c : Cistern) : List Nat := c.spilled ++ (match c.refill with | some r => r.slots | none => [])

/-- The bytes of a slot that no longer holds a spilled entry have no defined value (R14). DESIGN CHOICE, log 79. -/
def State.staleSlot (s : State) (ctx key : Nat) : State :=
  (List.range 4).foldl (fun (q : State) i => (q.storeAt ctx (key + 8 * i) (leBytes 8 q.freeWord.toNat)).nextFree) s

/-- The slots of the entries a retiring cohort leaves are stale. -/
def State.staleCistern (s : State) (C : Cohort) : State :=
  match s.launch? C.launch with
  | none => s
  | some L => C.cistern.busy.foldl (fun (q : State) k =>
      match q.dispKey (dieOf (C.cores.headD 0)) L.ctx (BitVec.ofNat 64 (slotVa L.hdr C.idx k)) with
      | some (key, _) => q.staleSlot L.ctx key
      | none => q) s

/-- A cohort retires with its last team: pad and cistern return and the entries left in it are discarded. -/
def State.retireCohort (s : State) (l c : Nat) : State :=
  match s.cohort? l c with
  | none => s
  | some C =>
    let n := C.cistern.pad.length + C.cistern.busy.length
    let s0 := s.staleCistern C
    let s1 := ({ s0 with cohorts := s0.cohorts.filter fun x => !(x.launch == l && x.idx == c) }.subLive l n).modLaunch l
      fun L => { L with retired := insertNat c L.retired }
    match s1.launch? l with
    | some L => if L.retired.length = L.hdr.cohorts then s1.completeLaunch L else s1
    | none => s1

/-- The requests of an object's wave that CRET has not answered are answered undecided (R242, R280). A wave that ends without CRET is
like one that traps in this alone: it has no cause to record, and its object is not poisoned. DEDUCED, log 50. -/
def State.answerWave (s : State) (obj : Nat) : State :=
  { s with reqs := s.reqs.map fun r =>
      if r.obj == some obj && (match r.place with | .inWave _ => true | _ => false) then
        { r with place := .answered, status := .u, value := 0, keep := false } else r }

/-- A window opens when a request is held and no wave of the object is running (R240). -/
def State.openWindow (s : State) (obj : Nat) : State :=
  { s with objs := s.objs.map fun o =>
      if o.id == obj && o.wave.isNone && o.packed.isEmpty && o.window.isNone &&
          s.reqs.any (fun r => r.obj == some obj && r.place == .held) then { o with window := some (s.cycle, s.cycle) } else o }

/-- The wave of an object is over (R242). -/
def State.endWave (s : State) (obj : Nat) : State :=
  let s1 := s.answerWave obj
  let os := s1.objs.map fun (x : ObjReg) => if x.id == obj then { x with wave := none, packed := [] } else x
  State.openWindow { s1 with objs := os } obj

/-- An access that ends with its team: a load, the read of a wait, or a tagged access that has yet to find its tags; nobody is left to
take its value. DEDUCED, log 25. -/
def Ev.abandoned (e : Ev) : Bool := e.op.isLoad || (match e.op with | .stfe _ => true | _ => false)

/-- The loads and waits of a team that is over are given up. DEDUCED, log 25. -/
def State.abandon (s : State) (T : Team) : State := { s with evs := s.evs.filter fun e => !(e.team == T.id && e.abandoned) }

/-- Remove a team and return its resources (R33): its copies that have not ended go, and so do the reads of its waits. -/
def State.removeTeam (s : State) (T : Team) : State :=
  let s1 := { s.abandon T with
    teams := s.teams.filter fun x => x.id != T.id
    copies := s.copies.filter fun c => c.team != some T.id || c.ended }
  let s2 := if T.isElement then s1.subLive T.launch 1 else s1
  match T.sort with
  | .wave o => s2.endWave o
  | .handler => s2
  | _ =>
    if s2.teams.any fun X => X.launch == T.launch && X.cohort == T.cohort && X.inCohort then s2
    else s2.retireCohort T.launch T.cohort

/-- An access has been performed at the scope it names: a store up to core scope once it has left into the core copy. -/
def Ev.settled (e : Ev) : Bool := !Scope.isWide e.scope && (match e.st with | .left _ => true | _ => false)

/-- The accesses of a team that are not done, but for those of frozen waits. -/
def State.evsOf (s : State) (T : Team) : List Nat := (s.evs.filter fun e => e.team == T.id && !s.frozen e).map (·.id)

/-- The team is the last of its cohort, and the cohort's cistern still holds entries. -/
def State.leavesEntries (s : State) (T : Team) : Bool :=
  T.inCohort && (s.teams.all fun X => X.id == T.id || X.launch != T.launch || X.cohort != T.cohort || !X.inCohort) &&
  match s.cohort? T.launch T.cohort with
  | some C => !C.cistern.pad.isEmpty || !C.cistern.spilled.isEmpty || C.cistern.refill.isSome
  | none => false

/-- The end of the team lowers a live-work count: that is a release at device scope (R170). -/
def State.mustRelease (s : State) (T : Team) : Bool := !T.items.isEmpty || T.isElement || s.leavesEntries T

/-- The launch that ends with the team: it is the last of its launch's last cohort (R34). -/
def State.endedLaunch (s : State) (T : Team) : Option Launch :=
  if T.inCohort && s.teams.all fun X => X.id == T.id || X.launch != T.launch || X.cohort != T.cohort || !X.inCohort then
    (s.launch? T.launch).filter fun L => L.retired.length + 1 == L.hdr.cohorts
  else none

/-- The end of a team may act: what it lowers the live-work count by is released at device scope (R170); and where its launch ends with
it, the writes of the launch can reach their homes (R34, R320) and its held atomics may step (R315). DESIGN CHOICE, log 75. -/
def State.endReady (s : State) (T : Team) : Bool :=
  (!s.mustRelease T || s.releaseOk T.id T.core (s.evsOf T) .device) &&
  match s.endedLaunch T with
  | some L => s.canDrain L.cores && s.drainReady L.id none
  | none => true

/-- The stores and atomics of a team have been performed: they take their steps before it halts, so that what releases the writes of
the cohort or the launch later finds them (R34, R257, R332). DEDUCED, log 25. -/
def State.storesOut (s : State) (T : Team) : Bool := s.evs.all fun e => e.team != T.id || e.abandoned || e.settled

/-- What a team waits for before it retires (R33): its accesses are performed, but for the reads of waits that its handler
interrupted, which end with it as no access still to be performed; its tiles are written back, its copies done or stopped; a
wave's own requests are answered (R282); and its end may act. DESIGN CHOICE, log 69. -/
def State.quiet (s : State) (T : Team) : Bool :=
  T.tiles.isEmpty &&
  (s.evs.all fun e => e.team != T.id || e.settled || s.frozen e) &&
  (s.copies.all fun c => c.team != some T.id || c.stopped || c.ended) &&
  (s.contribs.all fun c => c.team != T.id || c.leftCore) &&
  (!T.isWave || s.reqs.all fun r => r.team != T.id) && s.endReady T

/-- The team after an instruction that may have ended its block: a spawned team whose block has ended retires (R176,
R242, R284), once it is quiet, and in a DET launch at its turn, since the live-work count it lowers is seen by others (R317); until then
the instruction waits, in the state `s0` it found. DESIGN CHOICE, log 69; DEDUCED, log 72. -/
def State.afterBlock (s0 s1 : State) (T : Team) : Out :=
  if !T.isOrdinary && !T.trapLevel && T.run.isNone && T.queue.isEmpty then
    (if s1.quiet T && s1.turn T then .next ((s1.setTeam T).removeTeam T) else .next s0)
  else .next (s1.setTeam T)

/-! ### Taking a trap (R327 to R332) -/

/-- A DRAW of the team still awaits the answer of its steal request. -/
def Team.stealing (T : Team) : Bool :=
  T.sp.live.any fun p => match p.2.wait with
    | some ⟨_, _, .steal .., _⟩ => true
    | _ => false

/-- The team's register writes in flight (R327): loads and SWAITA, lane writes of scalar registers, replies, tiles, statuses. Waits
of fragments stay as they are. -/
def State.writesInFlight (s : State) (T : Team) : Bool :=
  (s.evs.any fun e => e.team == T.id && (match e.dst with
    | .lane .. | .scalar _ => true
    | _ => false)) ||
  !T.fills.isEmpty || !T.tiles.isEmpty ||
  T.stealing ||
  (s.reqs.any fun r => r.team == T.id && !r.dropped && (match r.kind with | .comb .. => true | _ => false)) ||
  (s.contribs.any fun c => c.team == T.id && !c.leftCore)

/-- x.trapcause (R328). -/
def trapCause (r : Raised) : Half :=
  BitVec.ofNat 32 (r.cause + r.code.toNat * 2 ^ 8 + (if r.ti then 2 ^ 26 else 0) + (if r.ln then 2 ^ 27 else 0))

/-- Trap entry: the trap registers are set, the team enters trap level and its scalar stream starts at x.tvec, low bits and all;
x.trappc keeps 32 bits of the counter, whatever it is. DESIGN CHOICE, log 81. -/
def Team.enter (T : Team) (r : Raised) : Team :=
  { T with
    trapcause := trapCause r
    trappc := BitVec.ofInt 32 r.resume
    faultmask := r.mask
    trapLevel := true
    spc := T.tvec.toNat
    raised := none
    swait := none, swaited := [], sfailed := 0
    hqueue := [], hrun := none, hsplit := {} }

/-- No handler (R76, R332). -/
def noHandler : Half := 0xFFFFFFFF

/-- The program counter of fragment slot LAST, or 0 (R333). -/
def Team.lanePc (T : Team) : Nat :=
  let f := T.split.frag T.split.last
  if f.valid then (f.pc % 2 ^ 24).toNat else 0

/-- The trap halts the team (R332). -/
def Team.halts (T : Team) : Bool := T.trapLevel || T.tvec == noHandler

/-- A trap is not yet taken: register writes are in flight, or it halts the team, whose stores are not out or whose end may not act. -/
def State.mustWait (s : State) (T : Team) : Bool :=
  s.writesInFlight T || (T.halts && !(s.storesOut T && s.endReady T))

/-- A team may be halted at once: its engine runs no tile of it, which is never abandoned (R205), no entry is on its way to it (R15),
its stores are out and its end may act. -/
def State.mayHalt (s : State) (T : Team) : Bool :=
  !(T.tiles.any fun t => t.running) && !T.stealing && s.storesOut T && s.endReady T

/-- A team halts: copies discarded, items dropped, resources returned, one record of KIND 2 (R332, R333). -/
def State.haltTeam (s : State) (T : Team) (first second : Nat) (ln : Bool) (resume : Int) : State :=
  let wid := match T.sort with
    | .wave o => (match s.objs.find? fun x => x.id == o with | some x => BitVec.ofNat 64 x.va | none => 0)
    | _ => T.wid 0
  let w3 := BitVec.ofNat 64 ((resume % 2 ^ 32).toNat + T.lanePc * 2 ^ 32)
  let s1 := (s.dropItems T).recordEvent (dieOf T.core) T.core T.ctx (if ln then 0 else 1) wid
    (BitVec.ofNat 64 (2 + first % 256 * 4 + second % 256 * 2 ^ 10)) w3
  let s2 := if T.isOrdinary then s1.modLaunch T.launch fun L => { L with halted := insertNat (T.wid 0).toNat L.halted } else s1
  s2.removeTeam ((s2.team? T.id).getD T)

/-- Take a trap: a double fault halts the team, and so does any trap of a team without a handler. -/
def State.takeTrap (s : State) (T : Team) (r : Raised) : State :=
  if T.trapLevel then s.haltTeam T (T.trapcause.toNat % 256) r.cause r.ln r.resume
  else if T.tvec = noHandler then s.haltTeam T 0xFF r.cause r.ln r.resume
  else s.setTeam (T.enter r)

/-- Raise a trap. It is taken at once when nothing holds it back; otherwise both streams stop and TRAP_ENTRY takes it. A wave's
trap is left for WAVE_HALT (R282). -/
def State.raise (s : State) (T : Team) (r : Raised) : State :=
  if T.isWave || s.mustWait T then s.setTeam { T with raised := some r } else s.takeTrap T r

/-- A trap of the scalar stream at its own word (R329: the trapping word is the resume point). -/
def State.scalarTrap (s : State) (T : Team) (cause : Nat) : Out := .next (s.raise T { cause := cause, resume := T.spc })

/-- A trap of a fragment at its own word: it keeps its counter there, in state ready, and LAST names it (R51, R327).
DEDUCED, log 67. -/
def State.laneTrapMask (s : State) (T : Team) (slot cause : Nat) (mask : LaneMask) : Out :=
  let sp := T.sp
  let T' := T.setSp { sp.setFrag slot { sp.frag slot with state := 0, wait := none } with last := slot }
  .next (s.raise T' { cause := cause, ln := true, slot := slot, mask := mask, resume := T.spc })
/-- DEDUCED, log 67. -/
def State.laneTrap (s : State) (T : Team) (slot cause : Nat) : Out := s.laneTrapMask T slot cause (T.frag slot).mask

/-- Leave trap level (R331): the scalar stream resumes at x.trappc, the lane queue and the fragments as they stand. -/
def Team.leave (T : Team) : Team :=
  { T with
    trapLevel := false, spc := T.trappc.toNat, hqueue := [], hrun := none, hsplit := {}, swait := none, swaited := []
    lqAt := if T.lqAt = some (T.trappc.toNat : Int) then T.lqAt else none }

/-! ### Issue -/

/-- The memory accesses of the team's lane instructions that are not done, its held atomics and those of its copies and tiles among
them (R245, R257). The reads of waits that a handler interrupted are made after it, not before (R327). -/
def State.laneEvs (s : State) (T : Team) : List Nat :=
  (s.evs.filter fun e => e.team == T.id && e.grp != e.id && !s.frozen e).map (·.id) ++
  (s.atoms.filter fun a => a.team == T.id).map (·.id) ++
  (s.copies.filter fun c => c.team == some T.id && c.reading).map (·.id) ++ T.tiles.map (·.id)

/-- The team of the current scalar stream. DESIGN CHOICE, log 14. -/
def State.withScalar (s : State) (k : Team → Out) : Out :=
  match s.cur with
  | some c => (match s.team? c.team with | some T => k T | none => .fault .noStream)
  | none => .fault .noStream

/-- The team and fragment slot of the current lane stream. DESIGN CHOICE, log 14. -/
def State.withLane (s : State) (k : Team → Nat → Out) : Out :=
  match s.cur with
  | some ⟨t, some slot⟩ => (match s.team? t with | some T => k T slot | none => .fault .noStream)
  | _ => .fault .noStream

/-- A scalar instruction retires: the next word, one more on the clock (R35, R309). -/
def Team.retireS (T : Team) (pc : Int) : Team :=
  { T with spc := pc, clock := T.clock + 1, swaited := [], swait := none, sfailed := 0 }
def Team.nextS (T : Team) : Team := T.retireS (T.spc + 4)

/-- An instruction that had to wait for a register filled by lane code follows what the filling instruction followed
(R32). -/
def Team.linkFills (T : Team) : Team :=
  { T with shist := T.swaited.foldl (fun h r => unionNat h (SMap.rd [] T.sfill r)) T.shist }

/-- Budget check and operand wait of a scalar instruction (R27, R52), then what it does. -/
def State.scalarIssue (s : State) (named reads : List Nat) (k : Team → Out) : Out :=
  s.withScalar fun T =>
    if named.any (fun r => decide (T.sbud ≤ r)) then s.scalarTrap T 0x09
    else
      let e := reads.filter T.sIsEmpty
      if e.isEmpty then k T.linkFills else .next (s.setTeam { T with swaited := unionNat e T.swaited })

/-- A scalar instruction that only writes registers of its team. -/
def State.scalarOp (s : State) (named reads : List Nat) (f : Team → Team) : Out :=
  s.scalarIssue named reads fun T => .next (s.setTeam (f T).nextS)

/-- A lane instruction has issued: one on the clock unless it is a reissue; LAST names the fragment, unless the instruction only ends a
wait (R151, R309). -/
def Team.countL (T : Team) (slot : Nat) : Team :=
  let sp := T.sp
  let again := (sp.frag slot).again
  let last := if !T.counted && (sp.frag slot).state == 2 then sp.last else slot
  { T.setSp { sp.setFrag slot { sp.frag slot with again := true } with last := last } with
    clock := if again then T.clock else T.clock + 1 }

/-- At the turn of a synchronising operation of the lane stream (R312); before it, the fragment waits. DEDUCED, log 72. -/
def State.laneTurn (s : State) (T : Team) (k : Team → Out) : Out :=
  if !T.counted then k T else if s.turn T then k { T with committed := true } else .next s

/-- As `laneTurn`, for an instruction that commits its region when it issues: it has issued while it waits for its turn (R336). -/
def State.commitTurn (s : State) (T : Team) (k : Team → Out) : Out :=
  if !T.counted then k T else if s.turn T then k { T with committed := true } else .next (s.setTeam { T with committed := true })

/-- The instruction at the fragment's counter is done. -/
def Team.nextL (T : Team) (slot : Nat) : Team :=
  let T1 := T.countL slot
  T1.setSp (T1.sp.advance slot)

/-- A register a tile of the team will write counts as empty for every other instruction (R207): tiles mark it. -/
def Team.anyEmpty (T : Team) (regs : List Nat) (m : LaneMask) : Bool := regs.any fun r => T.emptyIn r m

/-- What a lane instruction names: source fields with the registers each covers, destination registers, and scalar
registers. -/
structure Names where
  srcs : List (Src × Nat) := []
  dst : List Nat := []
  scalar : List Nat := []
deriving DecidableEq, Repr

def Names.regs (n : Names) : List Nat := n.dst ++ n.srcs.flatMap fun p => srcRegs p.1 p.2

/-- A register at or above its budget is named (R27). -/
def Team.overBudget (T : Team) (n : Names) : Bool :=
  n.regs.any (fun r => decide (T.vbud ≤ r)) || n.scalar.any fun r => decide (T.sbud ≤ r)

/-- The checks of R51 before execution, in order: budgets (0x09), the checks of values that are full (0x0A; `judge` pairs
a source with the lanes in which its value fails), empty trapping sources (0x08); then the wait for empty registers
(R27, R45, R103, R265). `exec` is the mask of lanes that execute; each trap names the fragment's lanes (R51, R329).
DEDUCED, log 66, 67. -/
def State.laneChecks (s : State) (T : Team) (slot : Nat) (exec : LaneMask) (n : Names) (judge : List (Src × LaneMask))
    (k : Unit → Out) : Out :=
  let bad := judge.foldl (fun m j => if T.anyEmpty (srcRegs j.1 1) exec then m else m ||| j.2) (0 : LaneMask)
  if T.overBudget n then s.laneTrap T slot 0x09
  else if bad != 0 then s.laneTrap T slot 0x0A
  else if (n.srcs.filter fun p => p.1.fe).any fun p => T.anyEmpty (srcRegs p.1 p.2) exec then s.laneTrap T slot 0x08
  else if T.anyEmpty n.regs exec then .next s
  else k ()

/-- A lane instruction of arithmetic kind (R102, R103): checks, then `f` per executing lane, then the next word. Every
source is read in the team as it stood before any lane wrote. -/
def State.laneOp (s : State) (g : Guard) (n : Names) (f : Team → Team → Nat → Team) : Out :=
  s.withLane fun T slot =>
    let exec := T.execMask (T.frag slot) g
    s.laneChecks T slot exec n [] fun _ =>
      .next (s.setTeam (((lanesOf exec T.lanes).foldl (fun q l => f T q l) T).nextL slot))

/-- Drop the items of lanes, once the fragment's earlier writes are released at device scope (R161, R169, R170). Until then the team
stays as the instruction has it when it issues. -/
def State.dropHeld (s : State) (T : Team) (slot : Nat) (ls : List Nat) (k : State → Team → Out) : Out :=
  let held := ls.filter fun l => (T.item l).isSome
  if held.isEmpty then k s T
  else if !s.releaseOk T.id T.core (T.frag slot).hist .device then .next (s.setTeam T)
  else k (s.subLive T.launch held.length) (held.foldl (fun q l => q.setItem l none) T)

/-- Commit the current region (R336). -/
def Team.commit (T : Team) : Team := { T with committed := true }

end Sys2Proof.Machine
end

