-- ==== Sys2Proof/Machine/Fetch.lean ====
section
/-!
DEFINITION. The instruction store (R349 to R353): landed pages and what a fetch of either stream finds.
-/
namespace Sys2Proof.Machine

/-- The lowest-numbered slot of the team's core landed with a page of its image (R350). -/
def State.landedSlot (s : State) (T : Team) (page : Nat) : Option CodeSlot :=
  s.slots.foldl (fun (r : Option CodeSlot) x =>
    if x.core == T.core && x.landed && x.image == T.hdr.image && x.page == page &&
        (match r with | some y => decide (x.slot < y.slot) | none => true) then some x else r) none
def State.pageLanded (s : State) (T : Team) (page : Nat) : Bool := (s.landedSlot T page).isSome
def State.pagePending (s : State) (T : Team) (page : Nat) : Bool :=
  s.slots.any fun x => x.core == T.core && !x.landed && x.image == T.hdr.image && x.page == page

/-- The page of the image that holds a lane word (R36). -/
def Team.lanePage (T : Team) (word : Nat) : Nat := T.hdr.laneBase / 4096 + word / 341

/-- What a fetch finds (R353): the bytes of the word, which an uncorrectable error may have poisoned (R387). DEDUCED, log 84. -/
inductive Fetched where
  | bytes (bs : List Byte)
  | wait
  | missing
  | bounds
  | poisoned
deriving DecidableEq, Repr

def State.fetchPage (s : State) (T : Team) (page off n : Nat) : Fetched :=
  match s.landedSlot T page with
  | some x => if x.bad.any fun b => overlap (b, 8) (off, n) then .poisoned else .bytes ((x.bytes.drop off).take n)
  | none => if s.pagePending T page then .wait else .missing

/-- The scalar word at the counter (R35, R63): the four bytes there, fewer at a page's end, where x.tvec has low bits set. DESIGN CHOICE,
log 81. -/
def State.fetchScalar (s : State) (T : Team) : Fetched :=
  if T.spc < 0 || 0xFFFFFFFC < T.spc then .bounds
  else s.fetchPage T (T.spc.toNat / 4096) (T.spc.toNat % 4096) 4

/-- The END bit of a lane block's trailer, or of block 0's preload word (R349); 0 where no slot holds the block's page any more (R36).
DESIGN CHOICE, log 81. -/
def State.blockEnd (s : State) (T : Team) (block : Nat) : Bool :=
  match s.landedSlot T (T.hdr.laneBase / 4096 + block) with
  | some x => (leNat ((x.bytes.drop 4092).take 4)).testBit (if block = 0 then 15 else 0)
  | none => false

/-- The lane word at a counter; `seq` says that the counter was reached by sequential fetch (R36, R156). -/
def State.fetchLane (s : State) (T : Team) (pc : Int) (seq : Bool) : Fetched :=
  let n := pc.toNat
  if pc < 0 || 2 ^ 24 ≤ n || (seq && n % 341 = 0 && 0 < n && s.blockEnd T (n / 341 - 1)) then .bounds
  else s.fetchPage T (T.lanePage n) (12 * (n % 341)) 12

end Sys2Proof.Machine
end

