-- ==== Sys2Proof/Machine/Lanes.lean ====
section
/-!
DEFINITION. Lane arithmetic as a shape (R102 to R104): each executing lane reads its sources, then writes its destination and
its flags.
-/
namespace Sys2Proof.Machine

/-- The source fields of an instruction of a type, with the registers each covers. -/
def srcsOf (ty : LTy) (as : List Src) : List (Src × Nat) := as.map fun a => (a, pairLen (isPair ty))
/-- The registers of a destination field. -/
def dstOf (ty : LTy) (d : BitVec 9) : List Nat := (List.range (pairLen (isPair ty))).map (d.toNat + ·)

/-- Write a result and its flags in a lane. -/
def Team.put (q : Team) (ty : LTy) (d : BitVec 9) (l : Nat) (r : Res) : Team :=
  (q.setVp (isPair ty) d.toNat l r.1).orFlags l r.2

def Team.in (T : Team) (ty : LTy) (a : Src) (l : Nat) : Pair := T.src (isPair ty) a l

def State.lane1 (s : State) (o : V1) (f : Pair → Res) : Out :=
  s.laneOp o.g { srcs := srcsOf o.ty [o.a], dst := dstOf o.ty o.d } fun T q l => q.put o.ty o.d l (f (T.in o.ty o.a l))
def State.lane2 (s : State) (o : V2) (f : Pair → Pair → Res) : Out :=
  s.laneOp o.g { srcs := srcsOf o.ty [o.a, o.b], dst := dstOf o.ty o.d } fun T q l =>
    q.put o.ty o.d l (f (T.in o.ty o.a l) (T.in o.ty o.b l))
def State.lane3 (s : State) (o : V3) (f : Pair → Pair → Pair → Res) : Out :=
  s.laneOp o.g { srcs := srcsOf o.ty [o.a, o.b, o.c], dst := dstOf o.ty o.d } fun T q l =>
    q.put o.ty o.d l (f (T.in o.ty o.a l) (T.in o.ty o.b l) (T.in o.ty o.c l))
/-- Immediate forms (R46). -/
def State.lane0i (s : State) (o : V0i) (f : Pair → Res) : Out :=
  s.laneOp o.g { dst := dstOf o.ty o.d } fun _ q l => q.put o.ty o.d l (f (immOf o.ty o.imm))
def State.lane1i (s : State) (o : V1i) (f : Pair → Pair → Res) : Out :=
  s.laneOp o.g { srcs := srcsOf o.ty [o.a], dst := dstOf o.ty o.d } fun T q l =>
    q.put o.ty o.d l (f (T.in o.ty o.a l) (immOf o.ty o.imm))
def State.lane2i (s : State) (o : V2i) (f : Pair → Pair → Pair → Res) : Out :=
  s.laneOp o.g { srcs := srcsOf o.ty [o.a, o.b], dst := dstOf o.ty o.d } fun T q l =>
    q.put o.ty o.d l (f (T.in o.ty o.a l) (T.in o.ty o.b l) (immOf o.ty o.imm))
/-- Comparisons write a predicate (R116, R127). -/
def State.laneC (s : State) (o : C2) (f : Pair → Pair → Tri × FFlags) : Out :=
  s.laneOp o.g { srcs := srcsOf o.ty [o.a, o.b] } fun T q l =>
    let r := f (T.in o.ty o.a l) (T.in o.ty o.b l)
    (q.setQ o.d.toNat l r.1).orFlags l r.2
def State.laneCi (s : State) (o : C1i) (f : Pair → Pair → Tri × FFlags) : Out :=
  s.laneOp o.g { srcs := srcsOf o.ty [o.a] } fun T q l =>
    let r := f (T.in o.ty o.a l) (immOf o.ty o.imm)
    (q.setQ o.d.toNat l r.1).orFlags l r.2
/-- Selections read a predicate first (R118, R128). -/
def State.laneS (s : State) (o : QS) (f : Tri → Pair → Pair → Res) : Out :=
  s.laneOp o.g { srcs := srcsOf o.ty [o.b, o.c], dst := dstOf o.ty o.d } fun T q l =>
    q.put o.ty o.d l (f (T.qv o.q.toNat l) (T.in o.ty o.b l) (T.in o.ty o.c l))
def State.laneSi (s : State) (o : QSi) (f : Tri → Pair → Pair → Res) : Out :=
  s.laneOp o.g { srcs := srcsOf o.ty [o.b], dst := dstOf o.ty o.d } fun T q l =>
    q.put o.ty o.d l (f (T.qv o.q.toNat l) (T.in o.ty o.b l) (immOf o.ty o.imm))

/-! ### Gathering for `.all` (R155) -/

def Frag.atAll (f : Frag) : Bool :=
  f.state == 2 && (match f.wait with | some w => (match w.what with | .all _ => true | _ => false) | none => false)

/-- Every non-exited lane is in a fragment waiting at the word at the level. -/
def Team.gathered (T : Team) (f : Frag) : Bool :=
  T.sp.live.all fun p => p.2.level == f.level && p.2.pc == f.pc && p.2.atAll

/-- The fragments at the word fuse into one, which waits there for its operands. -/
def Team.fuseAll (T : Team) (level : Nat) (w : LaneWait) : Team × Nat :=
  let sp := T.sp.merge level fun _ => true
  match sp.atLevel level with
  | (k, f) :: _ => (T.setSp { sp.setFrag k { f with wait := some { w with exec := f.mask, what := .all true } } with last := k }, k)
  | [] => (T, 0)

/-- Run a cross-lane instruction: at once without `.all`; with it, once the team has gathered. -/
def State.gather (s : State) (all : Bool) (i : Instr) (n : Names) (k : State → Team → Nat → Out) : Out :=
  s.withLane fun T slot =>
    let f := T.frag slot
    if !all then k s T slot
    else if T.overBudget n then s.laneTrap T slot 0x09
    else
      let w : LaneWait := ⟨i, f.mask, .all false, s.cycle⟩
      let run := fun (T1 : Team) =>
        if T1.gathered f then
          let (T2, kept) := T1.fuseAll f.level w
          k (s.setTeam T2) T2 kept
        else .next (s.setTeam T1)
      match f.wait with
      | none => let T1 := T.countL slot; run (T1.setSp (T1.sp.waits slot w))
      | some ⟨_, _, .all true, _⟩ => k s T slot
      | some _ => run T

/-- A cross-lane instruction of arithmetic kind: `f` gives the team after it, from the executing lanes. -/
def State.crossOp (s : State) (all : Bool) (i : Instr) (g : Guard) (n : Names) (f : Team → List Nat → Team) : Out :=
  s.gather all i n fun s1 T slot =>
    let exec := T.execMask (T.frag slot) g
    s1.laneChecks T slot exec n [] fun _ => .next (s1.setTeam ((f T (lanesOf exec T.lanes)).nextL slot))

/-- A write of a scalar register from lane code: empty from issue until SCALAR_REGISTER_FILL (R31). -/
def Team.fillS (T : Team) (id slot : Nat) (d : BitVec 7) (w : Word) : Team :=
  if d = 0 then T
  else { T.emptyS d.toNat with fills := T.fills ++ [⟨id, d.toNat, w, (T.frag slot).hist, T.regionTag⟩] }

end Sys2Proof.Machine
end

