-- ==== Sys2Proof/Machine/Access.lean ====
section
/-!
DEFINITION. Lane accesses: their addresses, translation and parking (R263, R153), and the events they make (R265).
-/
namespace Sys2Proof.Machine

/-- The address of an LM instruction in a lane (R263). -/
def Team.addr (T : Team) (p : Adr) (l : Nat) : Word := T.srcW p.a l + p.off.signExtend 64

/-- The lanes in which a condition holds. -/
def maskWhere (ls : List Nat) (p : Nat → Bool) : LaneMask := maskOf (ls.filter p)

/-- One access of a lane: the register it moves, its address and length. -/
structure Piece where
  lane : Nat
  reg : Nat
  va : Word
  len : Nat
deriving DecidableEq, Repr

/-- An access with its byte key and page attribute. -/
structure Placed where
  p : Piece
  key : Nat
  attr : Attr
deriving DecidableEq, Repr

/-- The fragment parks whole (R153). In a DET launch its instruction counts only once it has taken effect: until then the team keeps
the clock it found, which is the key of the instruction (R309, R312). -/
def Team.parkWhole (T : Team) (slot : Nat) : Team :=
  let T1 := if T.counted then T else T.countL slot
  T1.setSp (T1.sp.setFrag slot { T1.frag slot with state := 3 })

/-- A fragment that parks takes the place of `old` in the records of the pages it faulted on (R153, R299). -/
def State.attachAll (s : State) (T : Team) (old who : Requester) (vas : List Word) : State :=
  { s with records := s.records.map fun r =>
      if r.ctx == T.ctx && r.who.contains old && vas.any (fun va => pageNo va == r.vpage) then
        { r with who := (r.who.filter (· != old)).filter (· != who) ++ [who] } else r }

/-- Pad accesses: every byte below the usable limit, or cause 0x07, which names the fragment's lanes (R26, R51, R263, R329).
DEDUCED, log 67. -/
def State.locatePad (s : State) (T : Team) (slot : Nat) (ps : List Piece) (k : State → Team → List Placed → Out) : Out :=
  if ps.any fun p => !s.padOk T p.va p.len then s.laneTrap T slot 0x07
  else k s T (ps.map fun p => ⟨p, s.padKeyOf T p.va.toNat, .cached⟩)

/-- Memory accesses (R263, R153): walks are asked for; a refused mapping raises cause 0x05, which names the fragment that was parked
for it, or the lanes of an address for which no lane was parked; a write to a read-only page or a read of poisoned bytes raises
0x06; lanes with page faults park, or the whole fragment does. Each piece says whether it is
read and whether it is written; `wide` says that they are read at their homes. DEDUCED, log 66. -/
def State.locateMem' (s : State) (T : Team) (slot : Nat) (exec : LaneMask) (wide : Bool) (ps : List (Piece × Bool × Bool))
    (k : State → Team → List Placed → Out) : Out :=
  let who := Requester.lanes T.id T.trapLevel slot
  let ts := ps.map fun p => (p, s.translate who T.core T.ctx p.1.va)
  let lanesBy := fun (f : Piece × Bool × Bool → Trans → Bool) => maskOf ((ts.filter fun t => f t.1 t.2).map (·.1.1.lane))
  if ts.any fun t => t.2 == .miss then
    .next (ts.foldl (fun q t => if t.2 == .miss then q.askWalk who T.core T.ctx t.1.1.va t.1.2.2 0 else q) s)
  else
    let refused := lanesBy fun _ t => t == .refused
    let denied := lanesBy fun p t => match t with
      | .ok key a w => (p.2.2 && !w) || (p.2.1 && s.readsBad T.id T.core (T.frag slot).hist wide key p.1.len a)
      | _ => false
    let faulty := lanesBy fun _ t => t == .fault
    let placed := ts.filterMap fun t => match t.2 with
      | .ok key a _ => if faulty.getLsbD t.1.1.lane then none else some (⟨t.1.1, key, a⟩ : Placed)
      | _ => none
    let parked := ts.any fun t => t.2 == .refused && s.verdicts.any fun v =>
      v.who == who && v.ctx == T.ctx && v.vpage == pageNo t.1.1.va && v.parked
    let vas := (ts.filter fun t => t.2 == .fault).map (·.1.1.va)
    if refused != 0 then (s.forget who).laneTrapMask T slot 0x05 (if parked then (T.frag slot).mask else refused)
    else if denied != 0 then (s.forget who).laneTrapMask T slot 0x06 denied
    else if faulty == 0 then k (s.forget who) T placed
    else if faulty == exec || T.counted || T.sp.freeSlots.isEmpty then
      .next ((s.attachAll T who who vas).setTeam (T.parkWhole slot))
    else
      k ((s.attachAll T who (.lanes T.id T.trapLevel (T.sp.freeSlots.headD 0)) vas).forget who)
        (T.setSp (T.sp.part slot faulty 3)) placed

/-- DEDUCED, log 30. -/
def State.locateMem (s : State) (T : Team) (slot : Nat) (exec : LaneMask) (wide rd wr : Bool) (ps : List Piece)
    (k : State → Team → List Placed → Out) : Out := s.locateMem' T slot exec wide (ps.map fun p => (p, rd, wr)) k

def State.locate (s : State) (T : Team) (slot : Nat) (exec : LaneMask) (pad wide rd wr : Bool) (ps : List Piece)
    (k : State → Team → List Placed → Out) : Out :=
  if pad then s.locatePad T slot ps k else s.locateMem T slot exec wide rd wr ps k

/-- An event to be issued. -/
def evAt (pl : Placed) (op : EvOp) (dst : Dst := .none) : Ev :=
  { id := 0, team := 0, core := 0, grp := 0, lane := pl.p.lane, preds := [], key := pl.key, attr := pl.attr, op := op, dst := dst }

/-- Issue the events of one lane instruction: each follows everything in the fragment's issue history, and they are
unordered with each other (R245, R266). -/
def State.emit (s : State) (T : Team) (slot grp : Nat) (es : List Ev) : State × Team :=
  let f := T.frag slot
  let h := s.liveHist f.hist
  let new := es.zipIdx.map fun x => { x.1.toCtl with
    id := s.evId + x.2, team := T.id, core := T.core, ctx := T.ctx, grp := grp, preds := h, region := T.regionTag }
  ({ s with evId := s.evId + es.length, evs := s.evs ++ new }, T.setFrag slot { f with hist := h ++ new.map (·.id) })

/-- After its events are issued, an instruction is done; a synchronising operation of a DET launch first finishes them
(R312). -/
def State.goOn (s : State) (T : Team) (slot grp : Nat) (sync : Bool) (i : Instr) (exec : LaneMask) : Out :=
  if T.counted && sync then .next (s.setTeam (T.setSp (T.sp.waits slot ⟨i, exec, .finish grp, s.cycle⟩)))
  else .next (s.setTeam (T.nextL slot))

/-- An instruction still has accesses that are not done, or requests that have not reached their units. -/
def State.unfinished (s : State) (T : Team) (grp : Nat) : Bool :=
  (s.evs.any fun e => e.team == T.id && e.grp == grp) ||
  s.reqs.any fun r => r.team == T.id && r.grp == grp && r.place == .sent

/-- Run an instruction that may be finishing: it goes on once nothing of it is left to finish. -/
def State.orFinish (s : State) (k : Team → Nat → Out) : Out :=
  s.withLane fun T slot =>
    match (T.frag slot).wait with
    | some ⟨_, _, .finish grp, _⟩ => if s.unfinished T grp then .next s else .next (s.setTeam (T.nextL slot))
    | some _ => .next s
    | none => k T slot

end Sys2Proof.Machine
end

