-- ==== Sys2Proof/Machine/Fabric.lean ====
section
/-!
DEFINITION. The steps of the order machine (R250), page walks and invalidations (R298 to R301), and pinned ways (R293).
-/
namespace Sys2Proof.Machine

/-! ### Pinned ways (R293) -/

/-- The set of an L2 slice that a line of device memory falls into. -/
def l2Set (line : Nat) : Nat := line % 2 ^ 12 ^^^ line / 2 ^ 12 % 2 ^ 12

/-- A PIN-SLICE line occupies a way of its set when it is first reached, on behalf of the page it is reached through; a set of 16
pinned ways takes no more. -/
def State.pinLine (s : State) (core line : Nat) : State :=
  let key := line * lineBytes
  let same := fun (p : Pin) => s.sliceOf (p.line * lineBytes) == s.sliceOf key && homeDie (p.line * lineBytes) == homeDie key && l2Set p.line == l2Set line
  match s.tlb.find? fun e => e.core == core && e.attr == .pinSlice && decide (e.key ≤ key) && decide (key < e.key + 2 ^ e.bits) with
  | some e =>
    if isDev key && !(s.pins.any fun p => p.line == line) && decide ((s.pins.filter same).length < 16) then
      { s with pins := ⟨line, e.ctx, e.vpage, e.bits⟩ :: s.pins }
    else s
  | none => s

/-! ### Steps of the order machine (R250) -/

/-- FILL: only team- and core-scope accesses, and PFETCH, fill a core copy. DESIGN CHOICE, log 78. -/
def execFill (core line : Nat) (tag : Scope) (s : State) : Out :=
  if !Scope.isWide tag && decide (core < 128) then .next ((s.stepFill core line tag).pinLine core line) else .next s
/-- PFETCH asks for an F step of a line where the core copy holds such lines (R271, R292). -/
def State.prefetchLine (s : State) (core key : Nat) (a : Attr) : State :=
  if a == .cached || a == .pinSlice then (s.stepFill core (key / lineBytes) .team).pinLine core (key / lineBytes) else s

/-- DESIGN CHOICE, log 78. -/
def execDropLine (core line : Nat) (s : State) : Out := .next (s.dropLine core line)
def execWriteBack (core line : Nat) (s : State) : Out := .next (s.writeBackLine core line)

/-- A step of the event named, when it is there. -/
def State.onEv (s : State) (ev : Nat) (f : Ev → State) : Out :=
  match s.ev? ev with
  | some e => .next (f e)
  | none => .next s

def execLeave (ev : Nat) (s : State) : Out := s.onEv ev s.stepLeave
def execPerformLoad (ev : Nat) (s : State) : Out := s.onEv ev s.stepLoad

/-- APPLY: a message at the head of its home queue. -/
def execApply (msg : Nat) (s : State) : Out :=
  match s.msgs.find? fun m => m.id == msg with
  | some m => .next ((s.stepApply msg).pinLine m.core (m.key / lineBytes))
  | none => .next s
def execRingMove (die : Nat) (asc : Bool) (s : State) : Out := .next (s.stepRing die asc)
def execAcknowledge (ack : Nat) (s : State) : Out := .next (s.stepAck ack)

/-! ### Page walks (R290, R298, R299) -/

/-- The translation unit of a die runs at most 32 walks at once (R298). -/
def maxWalks : Nat := 32

/-- The pages a die's cores wait for, each once, in the order in which they were first asked for. -/
def State.pagesAsked (s : State) (d : Nat) : List (Nat × Nat) :=
  s.walks.foldl (fun r w => if dieOf w.core == d && !r.contains (w.ctx, w.vpage) then r ++ [(w.ctx, w.vpage)] else r) []

/-- The walk runs: its page is one of the first that the die's unit has taken up. -/
def State.walkRuns (s : State) (w : Walk) : Bool := ((s.pagesAsked (dieOf w.core)).take maxWalks).contains (w.ctx, w.vpage)

/-- The walks of a die's cores to one page, which share one walk. -/
def State.sharedWalk (s : State) (w : Walk) : List Walk :=
  s.walks.filter fun x => dieOf x.core == dieOf w.core && x.ctx == w.ctx && x.vpage == w.vpage

def State.endWalks (s : State) (ws : List Walk) : State := { s with walks := s.walks.filter fun x => !(ws.any fun w => w.id == x.id) }

/-- The requesters of walks that take a fault: a prefetch takes none (R271). -/
def askers (ws : List Walk) : List Requester :=
  ws.foldl (fun r w => r ++ w.who.filter fun x => !r.contains x && !x.isPrefetch) []

/-- The queue of a die has no room for a record. -/
def State.recordsFull (s : State) (d : Nat) : Bool := (s.die d).fqFull || !(s.die d).fqwait.isEmpty

/-- A core's requesters attach to the record that is pending for its own page (R299). -/
def State.attachWalk (s : State) (w : Walk) : State :=
  { s with records := s.records.map fun r =>
      if r.core == w.core && r.ctx == w.ctx && r.vpage == w.vpage then { r with who := r.who ++ (askers [w]).filter fun x => !r.who.contains x } else r }

/-- A walk met an entry that is not present: a core that has a pending record for the page attaches to it; the others share one new
record, which names the first of them, and wait for room while the queue has none (R299). -/
def State.walkAbsent (s : State) (ws : List Walk) : State :=
  let known := fun (w : Walk) => s.records.any fun r => r.core == w.core && r.ctx == w.ctx && r.vpage == w.vpage
  let s1 := ((ws.filter known).foldl State.attachWalk s).endWalks (ws.filter known)
  let rest := ws.filter fun w => !known w
  match rest.find? fun w => !(askers [w]).isEmpty with
  | none => s1.endWalks rest
  | some w =>
    let d := dieOf w.core
    if s.recordsFull d then s1
    else
      let q := (s1.endWalks rest).recordFault w.core w.ctx w.va w.write w.src 0
      { q with records := q.records ++ [⟨d, (s.die d).fqseq, w.core, w.ctx, w.vpage, askers rest⟩] }

/-- A malformed entry: cause 0x05 for every requester, and one record of KIND 1. -/
def State.walkMalformed (s : State) (ws : List Walk) : State :=
  match ws.find? fun w => !(askers [w]).isEmpty with
  | none => s.endWalks ws
  | some w =>
    if s.recordsFull (dieOf w.core) then s
    else
      let q := (s.endWalks ws).recordFault w.core w.ctx w.va w.write w.src 1
      (askers ws).foldl (fun (q : State) r => q.refuse w.core w.ctx w.vpage r) q

/-- The F steps that prefetches asked for while a core walked to their page (R271). -/
def State.prefetchAfter (s : State) (w : Walk) : State :=
  w.who.foldl (fun (q : State) r => match r with
    | .prefetch core va => (match q.translate r core w.ctx va with
      | .ok key attr _ => q.prefetchLine core key attr
      | _ => q)
    | _ => q) s

/-- PAGE_WALK: a running walk reaches its end for every core that shares it (R298). DEDUCED, log 19. -/
def execPageWalk (walk : Nat) (s : State) : Out :=
  match s.walks.find? fun w => w.id == walk with
  | none => .next s
  | some w =>
    let ws := s.sharedWalk w
    if !s.walkRuns w then .next s
    else
      let out := s.walkTables (dieOf w.core) w.ctx w.va
      match out.1 with
      | .leaf key writable attr => .next (ws.foldl (fun (q : State) x =>
          (q.tlbFill ⟨x.core, x.ctx, x.va.toNat % 2 ^ 48 / 2 ^ out.2, out.2, key, writable, attr⟩).prefetchAfter x) (s.endWalks ws))
      | .malformed => .next (s.walkMalformed ws)
      | _ => .next (s.walkAbsent ws)

/-! ### Answers and invalidations (R300, R301) -/

/-- An access to the register waits in the home queue of the die's control page. -/
def State.ctlQueued (s : State) (die off : Nat) : Bool :=
  s.msgs.any fun m => m.place == .home && overlap (m.key, m.len) (ctlKey die off, 8)

/-- A write of a register of a die's control page takes its place in the home queue behind what waits there (R301). DEDUCED, log 21. -/
def State.ctlStore (s : State) (die off : Nat) (w : Word) : Out :=
  if (s.die die).present && !s.ctlQueued die off then .next (s.ctlWrite die off w) else .next s

def execResolveResolved (die seq : Nat) (s : State) : Out := s.ctlStore die 0x028 (BitVec.ofNat 64 (seq % 2 ^ 32))
def execResolveRefused (die seq : Nat) (s : State) : Out := s.ctlStore die 0x028 (BitVec.ofNat 64 (seq % 2 ^ 32 + 2 ^ 32))
/-- DEDUCED, log 21. -/
def execInvalPage (die ctx vpage : Nat) (s : State) : Out :=
  s.ctlStore die 0x030 (BitVec.ofNat 64 (vpage % 2 ^ 32 * 2 ^ 16 + ctx % 2 ^ 12 * 2 ^ 48))
def execInvalContext (die ctx : Nat) (s : State) : Out := s.ctlStore die 0x030 (BitVec.ofNat 64 (ctx % 2 ^ 12 * 2 ^ 48 + 2 ^ 60))
def execInvalAll (die : Nat) (s : State) : Out := s.ctlStore die 0x030 (BitVec.ofNat 64 (2 ^ 61))

/-- A cached translation falls under an invalidation. -/
def TlbEntry.hit (e : TlbEntry) (die : Nat) (i : Option Nat × Option Nat) : Bool :=
  dieOf e.core == die &&
  (match i.1 with | some c => e.ctx == c | none => true) &&
  (match i.2 with | some p => p * 2 ^ 16 / 2 ^ e.bits == e.vpage | none => true)

/-- A pinned way falls under an invalidation that names its page, its context or everything, whoever caches the page (R293). -/
def Pin.hit (p : Pin) (i : Option Nat × Option Nat) : Bool :=
  (match i.1 with | some c => p.ctx == c | none => true) &&
  (match i.2 with | some v => v * 2 ^ 16 / 2 ^ p.bits == p.vpage | none => true)

/-- INVAL_COMPLETE: every TLB of the die drops the translations named, and the die's pinned ways of their pages are released.
DEDUCED, log 19. -/
def execInvalComplete (die : Nat) (s : State) : Out :=
  let is := (s.die die).invals
  let s1 := { s with
    tlb := s.tlb.filter fun e => !(is.any fun i => e.hit die i)
    pins := s.pins.filter fun p => homeDie (p.line * lineBytes) != die || !(is.any fun i => p.hit i) }
  .next (s1.modDie die fun D => { D with invals := [] })

end Sys2Proof.Machine
end

