-- ==== Sys2Proof/Machine/Memory.lean ====
section
/-!
DEFINITION. Lane memory instructions (R267 to R276): loads, stores, tagged words, prefetch, fences, waits and atomics.
-/
namespace Sys2Proof.Machine

def Access.isPad : Access → Bool | .pad => true | _ => false
def Access.scope : Access → Scope | .strong sc => sc | .ordered sc => sc | _ => .team
def Access.isStrong : Access → Bool | .strong _ => true | .ordered _ => true | _ => false
def Access.isOrdered : Access → Bool | .ordered _ => true | _ => false

/-- The width of a lane's access (R264). -/
def accessWidth (ty : LTy) : Nat := if isPair ty then 16 else accessLen ty

/-- The accesses of a lane from register `reg` on: a pair is two 8-byte accesses (R256). -/
def piecesOf (ty : LTy) (reg l : Nat) (va : Word) : List Piece :=
  if isPair ty then [⟨l, reg, va, 8⟩, ⟨l, reg + 1, va + 8, 8⟩] else [⟨l, reg, va, accessLen ty⟩]

/-- The type under which one access of a pair moves. -/
def pieceTy (ty : LTy) : LTy := if isPair ty then .b64 else ty

/-- A load of the executing lanes into registers marked empty until the values arrive (R265). -/
def State.loadOp (s : State) (g : Guard) (i : Instr) (ty : LTy) (dst : List Nat) (p : Adr) (width : Nat) (acc : Access)
    (pieces : Nat → Word → List Piece) : Out :=
  s.orFinish fun T slot =>
    let exec := T.execMask (T.frag slot) g
    let ls := lanesOf exec T.lanes
    let sync := Scope.isWide (Access.scope acc)
    s.laneChecks T slot exec { srcs := [(p.a, 1)], dst := dst } [(p.a, maskWhere ls fun l => (T.addr p l).toNat % width != 0)] fun _ =>
      let act := fun (T1 : Team) =>
        s.locate T1 slot exec (Access.isPad acc) sync true false (ls.flatMap fun l => pieces l (T1.addr p l)) fun s2 T2 ps =>
          let grp := s2.evId
          let es := ps.map fun x => { evAt x (.load x.p.len) (.lane x.p.reg x.p.lane (pieceTy ty)) with
            scope := Access.scope acc, strong := Access.isStrong acc, acq := Access.isOrdered acc }
          let (s3, T3) := s2.fresh.emit T2 slot grp es
          s3.goOn (T3.mark dst (maskOf (ps.map (·.p.lane))) grp) slot grp sync i exec
      if sync && exec != 0 then s.laneTurn T act else act T

def execLd (g : Guard) (ty : LTy) (d : BitVec 9) (p : Adr) (acc : Access) (s : State) : Out :=
  s.loadOp g (.ld g ty d p acc) ty (dstOf ty d) p (accessWidth ty) acc (piecesOf ty d.toNat)

def runPieces (reg n l : Nat) (va : Word) : List Piece :=
  (List.range n).map fun j => ⟨l, reg + j, va + BitVec.ofNat 64 (8 * j), 8⟩

def execLds (g : Guard) (d : BitVec 9) (p : Adr) (pad : Bool) (n : BitVec 3) (s : State) : Out :=
  let k := n.toNat + 1
  s.loadOp g (.lds g d p pad n) .b64 ((List.range k).map (d.toNat + ·)) p 8 (if pad then .pad else .plain)
    (runPieces d.toNat k)

/-- A store of the executing lanes: the bytes of each access, and the flags of its conversion (R268). -/
def State.storeOp (s : State) (g : Guard) (i : Instr) (b : Src) (n : Nat) (p : Adr) (width : Nat) (acc : Access)
    (pieces : Nat → Word → List Piece) (value : Team → Piece → List Byte × FFlags) : Out :=
  s.orFinish fun T slot =>
    let exec := T.execMask (T.frag slot) g
    let ls := lanesOf exec T.lanes
    let sync := Scope.isWide (Access.scope acc)
    s.laneChecks T slot exec { srcs := [(p.a, 1), (b, n)] } [(p.a, maskWhere ls fun l => (T.addr p l).toNat % width != 0)] fun _ =>
      let act := fun (T1 : Team) =>
        s.locate T1 slot exec (Access.isPad acc) sync false true (ls.flatMap fun l => pieces l (T1.addr p l)) fun s2 T2 ps =>
          let grp := s2.evId
          let es := ps.map fun x => { evAt x (.store (value T2 x.p).1) with
            scope := Access.scope acc, strong := Access.isStrong acc, rel := Access.isOrdered acc }
          let (s3, T3) := s2.fresh.emit T2 slot grp es
          s3.goOn (ps.foldl (fun q x => q.orFlags x.p.lane (value T2 x.p).2) T3) slot grp sync i exec
      if sync && exec != 0 then s.laneTurn T act else act T

/-- Register j of a store's data: a vector register, or the slot of a uniform run. -/
def Team.dataWord (T : Team) (b : Src) (reg l : Nat) : Word := if b.u then T.arg reg else T.v reg l

def execSt (g : Guard) (ty : LTy) (p : Adr) (b : Src) (acc : Access) (s : State) : Out :=
  s.storeOp g (.st g ty p b acc) b (pairLen (isPair ty)) p (accessWidth ty) acc (piecesOf ty b.n.toNat) fun T x =>
    storeValue (pieceTy ty) (T.dataWord b x.reg x.lane)

def execSts (g : Guard) (p : Adr) (b : Src) (pad : Bool) (n : BitVec 3) (s : State) : Out :=
  let k := n.toNat + 1
  s.storeOp g (.sts g p b pad n) b k p 8 (if pad then .pad else .plain) (runPieces b.n.toNat k) fun T x =>
    (leBytes 8 (T.dataWord b x.reg x.lane).toNat, 0)

/-! ### Tagged pad words (R270) -/

/-- The scope of a cohort (R259): core, or cluster when it spreads. DEDUCED, log 35. -/
def State.cohortScope (s : State) (T : Team) : Scope :=
  match s.cohort? T.launch T.cohort with
  | some c => if 1 < c.cores.length then .cluster else .core
  | none => .core

/-- Earlier lanes of the instruction that name the same words come first. -/
def chainEvs : List Ev → List Ev
  | [] => []
  | e :: t => e :: (chainEvs t).map fun x => if overlap (e.key, e.op.len) (x.key, x.op.len) then { x with preds := e.id :: x.preds } else x

/-- LDFE and STFE: each lane's access waits at its pad bank while the fragment goes on; under DET the fragment stays, every
lane tries at each turn, and a turn that leaves a lane waiting is retried (R313). -/
def State.taggedOp (s : State) (g : Guard) (i : Instr) (n : Names) (p : Adr) (w1 : Bool) (mk : Scope → Team → Placed → Ev) : Out :=
  s.withLane fun T slot =>
    let f := T.frag slot
    let len := if w1 then 4 else 8
    let start := fun (T1 : Team) (exec : LaneMask) (grp : Option Nat) (failed : Nat) =>
      let ls := lanesOf exec T1.lanes
      s.locatePad T1 slot (ls.map fun l => ⟨l, 0, T1.addr p l, len⟩) fun s2 T2 ps =>
        let grp' := grp.getD s2.evId
        let (s3, T3) := s2.fresh.emit T2 slot grp' (ps.map (mk (s.cohortScope T) T2))
        let mine := fun (e : Ev) => e.team == T.id && e.grp == grp'
        let s4 := { s3 with evs := (s3.evs.filter fun e => !mine e) ++ chainEvs (s3.evs.filter mine) }
        let T4 := if grp.isSome then T3 else T3.mark n.dst exec grp'
        if T.counted then .next (s4.setTeam (T4.setSp (T4.sp.waits slot ⟨i, exec, .tries grp' failed, s.cycle⟩)))
        else .next (s4.setTeam (T4.nextL slot))
    match f.wait with
    | none =>
      let exec := T.execMask f g
      let ls := lanesOf exec T.lanes
      s.laneChecks T slot exec n [(p.a, maskWhere ls fun l => (T.addr p l).toNat % len != 0)] fun _ =>
        if exec == 0 then .next (s.setTeam (T.nextL slot)) else s.laneTurn T fun T1 => start T1 exec none 0
    | some ⟨_, _, .tries grp _, _⟩ =>
      if s.evs.any fun e => e.team == T.id && e.grp == grp then .next s else .next (s.setTeam (T.nextL slot))
    | some ⟨_, _, .turn grp failed pending _, _⟩ => s.laneTurn T fun T1 => start T1 pending (some grp) failed
    | some _ => .next s

def execLdfe (g : Guard) (ty : LTy) (d : BitVec 9) (p : Adr) (w1 : Bool) (s : State) : Out :=
  s.taggedOp g (.ldfe g ty d p w1) { srcs := [(p.a, 1)], dst := [d.toNat] } p w1 fun sc _ x =>
    { evAt x (.ldfe (if w1 then 1 else 2)) (.lane d.toNat x.p.lane .b64) with
      scope := sc, acq := true, strong := true }

def execStfe (g : Guard) (ty : LTy) (p : Adr) (b : Src) (w1 : Bool) (s : State) : Out :=
  s.taggedOp g (.stfe g ty p b w1) { srcs := [(p.a, 1), (b, 1)] } p w1 fun sc T x =>
    { evAt x (.stfe (leBytes (if w1 then 4 else 8) (T.srcW b x.p.lane).toNat)) with
      scope := sc, rel := true, strong := true }

/-! ### Prefetch and fences (R271, R272) -/

/-- PFETCH of one address asks for an F step of its line where the core copy holds such lines, after a walk where nothing is cached
for its page; it takes no fault (R271). -/
def State.prefetch (s : State) (T : Team) (va : Word) : State :=
  let who := Requester.prefetch T.core va
  match s.translate who T.core T.ctx va with
  | .ok key attr _ => s.prefetchLine T.core key attr
  | .miss => s.askWalk who T.core T.ctx va false 0
  | _ => s

def execPfetch (g : Guard) (p : Adr) (l2 : Bool) (s : State) : Out :=
  s.withLane fun T slot =>
    let exec := T.execMask (T.frag slot) g
    s.laneChecks T slot exec { srcs := [(p.a, 1)] } [] fun _ =>
      let s1 := if l2 then s else (lanesOf exec T.lanes).foldl (fun q l => q.prefetch T (T.addr p l)) s
      .next (s1.setTeam (T.nextL slot))

/-- FENCE: the fragment stays at the word until the release of R252 may complete; it then acquires (R253). -/
def execFence (g : Guard) (sc : Scope) (s : State) : Out :=
  s.withLane fun T slot =>
    if T.execMask (T.frag slot) g == 0 then .next (s.setTeam (T.nextL slot))
    else
      let act := fun (T1 : Team) =>
        if s.releaseOk T1.id T1.core (T1.frag slot).hist sc then .next ((s.acquire T1.core sc).setTeam (T1.nextL slot)) else .next s
      if Scope.isWide sc then s.laneTurn T act else act T

/-! ### Waiting on memory (R273) -/

/-- A wait whose lanes read by events: WAITA and PBWAIT. Outside DET the events stand until every lane is satisfied;
under DET each turn makes one read per lane that still waits (R313), and a wait that has reached its limit makes none.
DEDUCED, log 32. -/
def State.waitOp (s : State) (g : Guard) (i : Instr) (n : Names) (judge : Team → Nat → LaneMask → LaneMask) (a : Src)
    (place : State → Team → Nat → LaneMask → (State → Team → List Placed → Out) → Out) (mk : Team → Placed → Ev) : Out :=
  s.withLane fun T slot =>
    let f := T.frag slot
    let start := fun (T1 : Team) (exec all : LaneMask) (broken : Bool) (failed : Nat) =>
      place s T1 slot exec fun s2 T2 ps =>
        let es := ps.map fun x => { mk T2 x with dst := .wait T.trapLevel slot x.p.lane }
        let (s3, T3) := s2.fresh.emit T2 slot s2.evId es
        let T4 := if T.counted then T3 else T3.countL slot
        let got := maskOf (ps.map (·.p.lane))
        .next (s3.setTeam (T4.setSp (T4.sp.waits slot ⟨i, if T.counted then all else got, .reads got broken failed, s.cycle⟩)))
    match f.wait with
    | none =>
      let exec := T.execMask f g
      s.laneChecks T slot exec n [(a, judge T slot exec)] fun _ =>
        if exec == 0 then .next (s.setTeam (T.nextL slot)) else s.laneTurn T fun T1 => start T1 exec exec false 0
    | some ⟨_, all, .turn _ failed pending broken, _⟩ =>
      if T.waitlimit != 0 && T.waitlimit.toNat ≤ failed then .next s
      else s.laneTurn T fun T1 => start T1 pending all broken failed
    | some _ => .next s

def execWaita (g : Guard) (ty : LTy) (p : Adr) (b : Src) (c : Cond) (pad : Bool) (sc : Scope) (s : State) : Out :=
  s.waitOp g (.waita g ty p b c pad sc) { srcs := [(p.a, 1), (b, 1)] }
    (fun T _ exec => maskWhere (lanesOf exec T.lanes) fun l => (T.addr p l).toNat % 8 != 0) p.a
    (fun s1 T1 slot exec k =>
      s1.locate T1 slot exec pad (Scope.isWide sc) true false ((lanesOf exec T1.lanes).map fun l => ⟨l, 0, T1.addr p l, 8⟩) k)
    fun T x => { evAt x (.waitRead c (T.srcW b x.p.lane) false) with
      scope := if pad then .team else sc, strong := true, acq := true }

/-! ### Atomics (R274 to R276, R315) -/

def Ord.isAcq : Ord → Bool | .acq => true | .ar => true | _ => false
def Ord.isRel : Ord → Bool | .rel => true | .ar => true | _ => false

/-- The read-modify-writes of the executing lanes. `held` says that, under DET, they are held until a drain; otherwise
they drain first and perform at their turn (R313, R315). -/
def State.rmwOp (s : State) (g : Guard) (i : Instr) (n : Names) (a : Src) (adr : Team → Nat → Word) (pad held : Bool)
    (sc : Scope) (o : Ord) (op : Team → Nat → EvOp) (dst : Nat → Dst) (hold : Team → Placed → HeldAtom) : Out :=
  s.orFinish fun T slot =>
    let exec := T.execMask (T.frag slot) g
    let ls := lanesOf exec T.lanes
    s.laneChecks T slot exec n [(a, maskWhere ls fun l => (adr T l).toNat % 8 != 0)] fun _ =>
      if exec == 0 then .next (s.setTeam (T.nextL slot))
      else
        let place := fun (T1 : Team) (k : State → Team → List Placed → Out) =>
          s.locate T1 slot exec pad true true true (ls.map fun l => ⟨l, 0, adr T1 l, 8⟩) k
        if T.counted && held then
          place T fun s2 T2 ps =>
            let f := T2.frag slot
            let h := s2.liveHist f.hist
            let as := ps.zipIdx.map fun x => { hold T2 x.1 with id := s2.evId + x.2, scope := sc, rel := Ord.isRel o, preds := h }
            let s3 := { s2 with evId := s2.evId + as.length, atoms := s2.atoms ++ as }
            let T3 := T2.setFrag slot { f with hist := h ++ as.map (·.id) }
            .next (s3.setTeam (Team.nextL { T3 with committed := true } slot))
        else s.laneTurn T fun T1 =>
          if T.counted && !s.drainReady T.launch (some (s.keyOf T)) then .next s
          else place T1 fun s2a T2 ps =>
            let s2 := if T.counted then s2a.drain T.launch (some (s.keyOf T)) else s2a
            let grp := s2.evId
            let es := ps.map fun x => { evAt x (op T2 x.p.lane) (dst x.p.lane) with
              scope := sc, strong := true, acq := Ord.isAcq o, rel := Ord.isRel o }
            let (s3, T3) := s2.fresh.emit T2 slot grp es
            let T4 := T3.mark n.dst (maskOf (ps.map (·.p.lane))) grp
            s3.goOn { T4 with committed := true } slot grp true i exec

def execAtom (g : Guard) (ty : LTy) (d : BitVec 9) (p : Adr) (b : Src) (op : AtomOp) (pad nr : Bool) (sc : Scope) (o : Ord)
    (s : State) : Out :=
  s.rmwOp g (.atom g ty d p b op pad nr sc o) { srcs := [(p.a, 1), (b, 1)], dst := if nr then [] else [d.toNat] } p.a
    (fun T l => T.addr p l) pad nr sc o (fun T l => .rmw op ty (T.srcW b l))
    (fun l => if nr then .none else .lane d.toNat l .b64)
    fun T x => { launch := T.launch, key := { s.keyOf T with lane := x.p.lane }, team := T.id, core := T.core, ctx := T.ctx,
                   addr := x.key, attr := x.attr, pad := pad, op := op, ty := ty, b := T.srcW b x.p.lane }

def execAtomc (g : Guard) (ty : LTy) (d : BitVec 9) (a b c : Src) (pad : Bool) (sc : Scope) (o : Ord) (s : State) : Out :=
  s.rmwOp g (.atomc g ty d a b c pad sc o) { srcs := [(a, 1), (b, 1), (c, 1)], dst := [d.toNat] } a (fun T l => T.srcW a l) pad
    false sc o (fun T l => .cas (T.srcW b l) (T.srcW c l)) (fun l => .lane d.toNat l .b64)
    fun T x => { launch := T.launch, key := { s.keyOf T with lane := x.p.lane }, team := T.id, core := T.core, ctx := T.ctx,
                   addr := x.key, attr := x.attr, pad := pad, op := .exch, ty := ty, b := 0 }

end Sys2Proof.Machine
end

