-- ==== Sys2Proof/Machine/Sluice.lean ====
section
/-!
DEFINITION. The sluice (R220 to R227): how a copy finds its addresses, writes its sectors, completes or fails.
-/
namespace Sys2Proof.Machine

/-! ### Asking for addresses (R153, R222) -/

inductive Need where
  | ready
  | wait (s : State)
  | refused
deriving Repr

/-- Ask for addresses in turn, for reading or for writing; read-only pages and the bytes that `bad` calls poisoned are refusals (R224,
R387). -/
def State.needAll (s : State) (who : Requester) (core ctx : Nat) (bad : Nat → Attr → Bool) : List (Nat × Bool) → Need
  | [] => .ready
  | (va, wr) :: t =>
    match s.ask who core ctx (BitVec.ofNat 64 va) wr 2 with
    | .ok key a w => if (wr && !w) || (!wr && bad key a) then .refused else s.needAll who core ctx bad t
    | .wait s' => .wait s'
    | .refused => .refused

/-- A source byte of a copy is poisoned as its team reads it (R387). -/
def State.copyBad (s : State) (c : Copy) (key : Nat) (a : Attr) : Bool := s.readsBad (c.team.getD 0) c.core c.preds false key 1 a

/-- The byte key of an address that `needAll` found ready, and its attribute. -/
def State.vaKey (s : State) (who : Requester) (core ctx va : Nat) : Nat × Attr :=
  match s.translate who core ctx (BitVec.ofNat 64 va) with
  | .ok k a _ => (k, a)
  | _ => (0, .cached)

/-! ### Completion and failure (R223, R224, R314) -/

def Copy.who (c : Copy) : Requester := .copy c.id
def copyRefused : Word := 0x8000000000000005
def copyInvalid : Word := 0x8000000000000006

def State.setCopy (s : State) (c : Copy) : State := { s with copies := s.copies.map fun x => if x.id == c.id then c else x }
def State.endCopy (s : State) (c : Copy) : State :=
  { s.forget c.who with copies := s.copies.filter fun x => x.id != c.id }

/-- One credit of a barrier, with the arrival of ARV when it is the last (R223). -/
def State.credit (s : State) (c : Copy) (n : Nat) (last : Bool) : State :=
  match c.pb with
  | none => s
  | some k => s.setBar c.ctx k ((s.bar k).lower (if last && c.arv then some 1 else none) (some n))

/-- The credits owed by a copy of a DET launch; `done` says that the copy has completed. -/
def State.payOwed (s : State) (c : Copy) (done : Bool) : List Nat → State
  | [] => s
  | [n] => s.credit c n done
  | n :: t => (s.credit c n false).payOwed c done t

/-- A copy has delivered every byte, or has failed: its slot is free, and the flags of its conversions are set (R222, R223).
DEDUCED, log 58. -/
def State.finishCopy (s : State) (c : Copy) : State :=
  let s1 := s.setCopy { c with ended := true }
  match c.team with
  | some t => if c.fail != 0 then s1 else s1.modTeam t fun T => T.orFlags c.lane c.flags
  | none => s1

/-- The stamp and token of a copy (R223): its bytes stand at their homes already. DEDUCED, log 58. -/
def State.copyEnd (s : State) (c : Copy) (stamp : Option (Nat × Word)) : State :=
  let s2 := match stamp with | some (k, v) => s.homeWrite c.ctx k (leBytes 8 v.toNat) | none => s
  let s3 := if c.fail != 0 then s2 else match c.token with | some t => s2.signal c.core c.ctx t | none => s2
  s3.endCopy c

/-- What is left of a copy that has ended acts: owed credits, stamp, token. A stamp address that is not yet translated keeps it
waiting, and so does one whose home cannot be reached (R320); one that cannot be written makes the copy fail without a stamp.
DEDUCED, log 58. -/
def State.copyAct (s : State) (c : Copy) : State :=
  let pay := fun (q : State) (fail : Bool) =>
    if c.det.isSome then q.payOwed c (!fail) (if c.owed.isEmpty && !fail then [0] else c.owed) else q
  match c.stamp with
  | none => (pay s (c.fail != 0)).copyEnd c none
  | some (va, v) =>
    match s.needAll c.who c.core c.ctx (s.copyBad c) [(va, true)] with
    | .wait s' => s'
    | .ready =>
      let k := (s.vaKey c.who c.core c.ctx va).1
      if s.cutOff c.core k || s.portFailed (dieOf c.core) k then s
      else (pay s (c.fail != 0)).copyEnd c (some (k, if c.fail != 0 then c.fail else v))
    | .refused => (pay s true).copyEnd { c with fail := copyRefused } none

/-- A wait has read in vain: that read is done, and the next one comes after what its team has issued since (R230, R273). -/
def State.readInVain (s : State) (e : Ev) : Bool :=
  match e.op with
  | .waitRead _ _ failed => failed
  | .pbwait g n => s.frozen e || (!heldBack (s.older e.preds) && !s.padPending e.team e.preds && !(s.bar e.key).reached g n)
  | _ => false

/-- A pad access that the team issued before the copy is not done (R325). -/
def State.padBefore (s : State) (c : Copy) : Bool :=
  s.evs.any fun p => p.team == c.team.getD 0 && p.isPadEv && decide (p.id < c.id) && !s.readInVain p

/-- A copy's accesses and credits may act: no older acquire of the issuing lane is outstanding (R222); where it touches the pad, no pad
access of its team issued before it (R325), and where it reads the pad, no older tile's pad loads (R257, R258). -/
def State.copyMay (s : State) (c : Copy) : Bool :=
  !heldBack (s.older c.preds) && ((c.dir == .memToMem && c.pb.isNone) || !s.padBefore c) &&
  !(c.dir == .padToMem && s.olderTile (c.team.getD 0) c.preds)

/-- A copy ends: in a DET launch what is left of it waits for its turn. -/
def State.closeCopy (s : State) (c : Copy) : State :=
  if c.det.isSome then s.finishCopy c else (s.finishCopy c).copyAct { c with ended := true }

def State.copyFail (s : State) (c : Copy) (status : Word) : State := s.closeCopy { c with fail := status }

/-- The addresses that the next sector needs, each with whether it is written: its sources and its destination in memory. -/
def Copy.needs (c : Copy) : List (Nat × Bool) :=
  let n := c.sectorAt c.done
  (c.reads c.done n).map (fun a => (a, false)) ++ (if c.dir != .toPad && n != 0 then [(c.destAt c.done, true)] else [])

/-- A pad destination waits for the team's tiles that read it (R207). -/
def State.copyHeld (s : State) (c : Copy) : Bool :=
  let team := c.team.getD 0
  !s.copyMay c || (c.dir == .toPad && match s.team? team with
    | some T => s.tileHolds team c.id (s.padKeyOf T (c.destAt c.done)) (c.sectorAt c.done)
    | none => false)

/-- The homes of the next sector can be reached (R320), and older accesses of the issuing lane to the bytes it reads and writes let it
(R222, R251). -/
def State.sectorFree (s : State) (c : Copy) : Bool :=
  let n := c.sectorAt c.done
  let key := s.vaKey c.who c.core c.ctx
  let dst := (key (c.destAt c.done)).1
  s.mayPeek c.core c.preds ((c.reads c.done n).map key) &&
  (c.dir == .toPad || n == 0 ||
    (!s.cutOff c.core dst && !s.portFailed (dieOf c.core) dst && !s.dirtyHere c.core dst n && !s.atomHolds c.preds [(dst, n)] &&
     (s.older c.preds).all fun p => (p.op.isLoad && !p.waiting) || !(p.ranges.any fun r => overlap r (dst, n))))

/-- The next sector could be written now. -/
def State.sectorReady (s : State) (c : Copy) : Bool :=
  c.fail == 0 && decide (c.done < c.total) && !s.copyHeld c && (match s.needAll c.who c.core c.ctx (s.copyBad c) c.needs with | .ready => true | _ => false) &&
  s.sectorFree c

/-- One sector of a running copy, written at its homes or pad banks (R257) in one step once its sources are there and its destination
is translated; the last one ends the copy. -/
def State.copySector (s : State) (c : Copy) : State :=
  let n := c.sectorAt c.done
  let d := c.destAt c.done
  let last := decide (c.total ≤ c.done + n)
  let toMem := c.dir != .toPad
  let team := c.team.getD 0
  let padKey := fun (o : Nat) => match s.team? team with | some T => s.padKeyOf T o | none => 0
  if s.copyHeld c then s
  else match s.needAll c.who c.core c.ctx (s.copyBad c) c.needs with
    | .wait s' => s'
    | .refused => s.copyFail c copyRefused
    | .ready =>
      if !s.sectorFree c then s
      else
        let rd := fun (a : Nat) => s.peekByte team c.core c.preds (s.vaKey c.who c.core c.ctx a)
        let pad := fun (o : Nat) => s.byte (padKey o)
        let key := if toMem then s.vaKey c.who c.core c.ctx d else (padKey d, .cached)
        let old := fun (a : Nat) => if toMem then s.byte (key.1 + (a - d)) else pad a
        let first := c.done
        let w := c.sector rd pad old first n
        let put := fun (q : State) (x : Byte × Nat) =>
          let k := key.1 + (c.destAt (first + x.2) - d)
          if toMem then q.homeWrite c.ctx k [x.1] else q.setPad c.ctx k [x.1]
        let s1 := (w.1.zipIdx).foldl put (s.afterPeek c.core ((c.reads first n).map (s.vaKey c.who c.core c.ctx)))
        let c' := { c with done := c.done + n, flags := c.flags ||| w.2, owed := if c.det.isSome && c.pb.isSome then c.owed ++ [n] else c.owed }
        let s2 := if c.det.isSome then s1.setCopy c' else (s1.credit c n last).setCopy c'
        if last then s2.closeCopy c' else s2

def execCopySector (copy : Nat) (s : State) : Out :=
  match s.copies.find? fun c => c.id == copy with
  | none => .next s
  | some c =>
    if c.stopped then .next s
    else if c.ended then .next (if c.det.isSome then s else s.copyAct c)
    else
      let s1 := s.copySector c
      let halt := fun (x : Copy) => if c.stopping && x.id == c.id && !x.ended then { x with stopped := true, stopping := false } else x
      .next { s1 with copies := s1.copies.map halt }

end Sys2Proof.Machine
end

