-- ==== Sys2Proof/Machine/Async.lean ====
section
/-!
DEFINITION. Copies and barriers as lane instructions: CPY, CPYS, PBINIT, PBEXP, PBARV, PBWAIT and BAR (R220 to R232).
-/
namespace Sys2Proof.Machine

/-! ### CPY (R220, R221) -/

/-- Registers of the completion run. -/
def cpyRun (o : CpyOps) : Nat := (if o.pb then 1 else 0) + (if o.st then 2 else 0)
/-- Word n of the completion run in a lane. -/
def cpyWord (o : CpyOps) (T : Team) (n l : Nat) : Word := T.dataWord o.c (o.c.n.toNat + n) l
def cpyStampAt (o : CpyOps) : Nat := if o.pb then 1 else 0
/-- D and, with .rs, D + 1, as registers read. -/
def cpyDst (o : CpyOps) : Src := ⟨o.d, false, false⟩

/-- The copy a lane asks for, its record read. -/
def cpyCopy (o : CpyOps) (s : State) (T : Team) (slot l : Nat) (lay : Layout) : Copy :=
  let c : Copy := {
    id := 0, team := some T.id, core := T.core, ctx := T.ctx, lane := l, dir := o.dir, lay := lay, coord := T.srcW o.b l
    dst := (T.v o.d.toNat l).toNat, arv := o.arv, launch := T.launch, preds := s.liveHist (T.frag slot).hist
    pb := if o.pb then some (s.padKeyOf T (cpyWord o T 0 l).toNat) else none
    stamp := if o.st then some ((cpyWord o T (cpyStampAt o) l).toNat, cpyWord o T ((cpyStampAt o) + 1) l) else none
    token := if o.tk then some o.tok.toNat else none
    det := if T.counted then some { s.keyOf T with lane := l } else none, region := T.regionTag }
  { c with total := c.bytes }

/-- The start count of a lane (R221). -/
def cpyStart (o : CpyOps) (T : Team) (l : Nat) : Nat := if o.rs then ((T.v (o.d.toNat + 1) l).extractLsb' 0 32).toNat else 0

/-- The checks made once the records are read, in the order of R221. DEDUCED, log 62. -/
def cpyCheck (o : CpyOps) (s : State) (T : Team) (cs : List Copy) : Option Nat :=
  let causes : List (Nat × Bool) := [
    (0x06, cs.any fun c => !c.lay.valid || !c.lay.allows o.dir),
    (0x0A, cs.any fun c => o.dir != .memToMem && c.lay.mode == 3 && c.dst % 32 != 0),
    (0x07, cs.any fun c => o.dir != .memToMem && !s.padOk T (BitVec.ofNat 64 c.dst) (padSpan c)),
    (0x07, cs.any fun c => o.pb && !s.padOk T (cpyWord o T 0 c.lane) 16),
    (0x06, cs.any fun c => (match c.stamp with | some (_, v) => v.getLsbD 63 | none => false)),
    (0x06, cs.any fun _ => o.tk && !(s.die (o.tok.toNat / 4096)).present),
    (0x06, cs.any fun c => !c.startOk (cpyStart o T c.lane))]
  (causes.find? fun x => x.2).map (·.1)

/-- Give copies the lowest free slots in ascending lane order. -/
def State.startCopies (s : State) (o : CpyOps) (T : Team) : List Nat → List Copy → State
  | slot :: free, c :: cs =>
    ({ s.fresh with copies := s.copies ++ [{ c with id := s.evId, slot := slot, done := cpyStart o T c.lane }] }).startCopies o T free cs
  | _, _ => s

/-- The free copy slots of a team, ascending. -/
def State.freeCopySlots (s : State) (T : Team) : List Nat :=
  (List.range 32).filter fun n => s.copies.all fun c => c.team != some T.id || c.ended || c.slot != n

/-- DEDUCED, log 62. -/
def execCpy (o : CpyOps) (s : State) : Out :=
  s.withLane fun T slot =>
    let exec := T.execMask (T.frag slot) o.g
    let ls := lanesOf exec T.lanes
    let n : Names := { srcs := [(o.a, 1), (o.b, 1), ((cpyDst o), if o.rs then 2 else 1)] ++ (if (cpyRun o) = 0 then [] else [(o.c, (cpyRun o))]) }
    let stampSrc : Src := { o.c with n := o.c.n + BitVec.ofNat 9 (cpyStampAt o) }
    let odd := fun (p : Nat → Bool) => maskWhere ls p
    let judge := [(o.a, odd fun l => (T.srcW o.a l).toNat % 64 != 0), (cpyDst o, odd fun l => (T.v o.d.toNat l).toNat % 8 != 0)] ++
      (if o.pb then [(o.c, odd fun l => (cpyWord o T 0 l).toNat % 16 != 0)] else []) ++
      (if o.st then [(stampSrc, odd fun l => (cpyWord o T (cpyStampAt o) l).toNat % 8 != 0)] else [])
    s.laneChecks T slot exec n judge fun _ =>
      if exec == 0 then .next (s.setTeam (T.nextL slot))
      else if 32 < ls.length then s.laneTrap T slot 0x06
      else s.laneTurn T fun T1 =>
        s.locateMem T1 slot exec false true false (ls.map fun l => ⟨l, 0, T1.srcW o.a l, 64⟩) fun s2 T2 ps =>
          let ks := ps.flatMap fun x => spanOf x.key 64 x.attr
          if !s2.mayPeek T2.core (T2.frag slot).hist ks then .next s
          else
            let cs := ps.map fun x => cpyCopy o s2 T2 slot x.p.lane (layoutOf (s2.peek T2.id T2.core (T2.frag slot).hist x.key 64 x.attr))
            match cpyCheck o s2 T2 cs with
            | some cause => (s2.afterPeek T2.core ks).laneTrap T2 slot cause
            | none =>
              let free := s2.freeCopySlots T2
              if free.length < cs.length then .next s
              else
                let f := T2.frag slot
                let T3 := T2.setFrag slot { f with hist := s2.liveHist f.hist ++ (List.range cs.length).map (s2.evId + ·) }
                .next (((s2.afterPeek T2.core ks).startCopies o T2 free cs).setTeam (T3.commit.nextL slot))

/-- CPYS (R225). -/
def State.progress (s : State) (T : Team) (slot : Nat) : Pair :=
  let mine := s.copies.filter fun c => c.team == some T.id && !c.ended
  let out := BitVec.ofNat 64 (mine.length * 2 ^ 32)
  match mine.find? fun c => c.slot == slot with
  | some c => Pair.mk (BitVec.ofNat 64 (c.done % 2 ^ 32 + slot * 2 ^ 32 + (if c.stopped then 2 else 1) * 2 ^ 37))
      (BitVec.ofNat 64 (c.total % 2 ^ 32) ||| out)
  | none => Pair.mk (BitVec.ofNat 64 (slot * 2 ^ 32)) out

def execCpys (g : Guard) (d : BitVec 9) (a : Src) (s : State) : Out :=
  s.laneOp g { srcs := [(a, 1)], dst := [d.toNat, d.toNat + 1] } fun T q l =>
    q.setVp true d.toNat l (s.progress T ((T.srcW a l).toNat % 32))

/-! ### Phase barriers (R230) -/

/-- PBINIT, PBEXP, PBARV: one pad step per executing lane, in ascending lane order. -/
def State.barrierOp (s : State) (g : Guard) (a : Src) (others : List Src) (commits : Bool) (bad : Team → Nat → Bool)
    (op : Team → Nat → EvOp) : Out :=
  s.withLane fun T slot =>
    let exec := T.execMask (T.frag slot) g
    let ls := lanesOf exec T.lanes
    s.laneChecks T slot exec { srcs := (a :: others).map fun x => (x, 1) } [(a, maskWhere ls fun l => (T.srcW a l).toNat % 16 != 0)] fun _ =>
      let far := maskWhere ls (bad T)
      if far != 0 then s.laneTrap T slot 0x06
      else s.locatePad T slot (ls.map fun l => ⟨l, 0, T.srcW a l, 16⟩) fun s2 T2 ps =>
        let grp := s2.evId
        let (s3, T3) := s2.fresh.emit T2 slot grp (ps.map fun x => evAt x (op T2 x.p.lane))
        let mine := fun (e : Ev) => e.team == T.id && e.grp == grp
        let s4 := { s3 with evs := (s3.evs.filter fun e => !mine e) ++ chainEvs (s3.evs.filter mine) }
        .next (s4.setTeam ((if commits && exec != 0 then T3.commit else T3).nextL slot))

def execPbinit (g : Guard) (a b c : Src) (s : State) : Out :=
  s.barrierOp g a [b, c] false (fun T l => decide (maxArrivals < (T.srcW b l).toNat) || decide (maxPending < (T.srcW c l).toNat))
    fun T l => .pbinit (T.srcW b l).toNat (T.srcW c l).toNat
def execPbexp (g : Guard) (a b : Src) (s : State) : Out :=
  s.barrierOp g a [b] false (fun _ _ => false) fun T l => .pbexp ((T.srcW b l).toNat % 2 ^ 32)
def execPbarv (g : Guard) (a b : Src) (s : State) : Out :=
  s.barrierOp g a [b] true (fun _ _ => false) fun T l => .pbarv ((T.srcW b l).toNat % 2 ^ 24)

/-- PBWAIT (R179, R230, R231). DEDUCED, log 35. -/
def execPbwait (g : Guard) (d : BitVec 4) (a : Src) (gen : Bool) (n : BitVec 8) (s : State) : Out :=
  s.waitOp g (.pbwait g d a gen n) { srcs := [(a, 1)] }
    (fun T _ exec => maskWhere (lanesOf exec T.lanes) fun l => (T.srcW a l).toNat % 16 != 0) a
    (fun s1 T1 slot exec k => s1.locatePad T1 slot ((lanesOf exec T1.lanes).map fun l => ⟨l, 0, T1.srcW a l, 16⟩) k)
    fun T x => { evAt x (.pbwait gen n.toNat) with scope := s.cohortScope T, strong := true, acq := true }

/-! ### BAR (R154, R232) -/

/-- A fragment waits at a BAR of the scope. -/
def Frag.atBar (f : Frag) (cohort : Bool) : Bool :=
  f.state == 2 && (match f.wait with | some ⟨.bar _ c, _, .bar _, _⟩ => c == cohort | _ => false)

/-- Every non-exited lane is in a fragment that waits at a BAR of the scope. -/
def Team.arrived (T : Team) (cohort : Bool) : Bool :=
  (T.sp.live.all fun p => p.2.atBar cohort) && T.sp.live.foldl (fun m p => m ||| p.2.mask) 0 == T.mask

/-- The teams that a BAR waits for: the team, or the ordinary teams of its cohort (R176, R232). DEDUCED, log 63. -/
def State.barGroup (s : State) (T : Team) (cohort : Bool) : List Team :=
  if cohort && T.isOrdinary then s.teams.filter fun X => X.launch == T.launch && X.cohort == T.cohort && X.isOrdinary else [T]

/-- The group has arrived and what the barrier releases has been performed. DEDUCED, log 63. -/
def State.barMet (s : State) (T : Team) (cohort : Bool) : Bool :=
  (s.barGroup T cohort).all fun X => X.arrived cohort &&
    s.releaseOk X.id X.core (X.sp.live.flatMap fun p => p.2.hist) (if cohort then s.cohortScope T else .team)

/-- Complete a barrier in a team: its fragments go on; one turn is counted under DET, for a team that has fragments at the BAR (R154,
R312). -/
def Team.passBar (T : Team) : Team :=
  let T1 := T.setSp ((T.sp.live.map (·.1)).foldl (fun sp slot => sp.advance slot) T.sp)
  if T.counted && !T.sp.live.isEmpty then { T1 with clock := T.clock + 1 } else T1

def State.barTry (s : State) (T : Team) (cohort : Bool) : State :=
  if s.barMet T cohort then
    (s.barGroup T cohort).foldl (fun q X =>
      (q.acquire X.core (if cohort then s.cohortScope T else .team)).setTeam X.passBar) s
  else s

def execBar (g : Guard) (cohort : Bool) (s : State) : Out :=
  s.withLane fun T slot =>
    let f := T.frag slot
    match f.wait with
    | none =>
      if T.execMask f g == 0 then .next (s.setTeam (T.nextL slot))
      else s.laneTurn T fun T1 =>
        let T2 := if T.counted then T1 else T1.countL slot
        let sp := (T2.sp.waits slot ⟨.bar g cohort, f.mask, .bar T.counted, s.cycle⟩).merge f.level fun x => x.pc == f.pc && x.atBar cohort
        let T3 := T2.setSp sp
        .next ((s.setTeam T3).barTry T3 cohort)
    | some w => s.laneTurn T fun T1 =>
      let tried := T1.setFrag slot { f with wait := some { w with what := .bar T.counted } }
      .next ((s.setTeam tried).barTry tried cohort)

end Sys2Proof.Machine
end

