-- ==== Sys2Proof/Machine/Collective.lean ====
section
/-!
DEFINITION. Collectives, flushes and pending events (R305 to R308, R314 to R321).
-/
namespace Sys2Proof.Machine

/-! ### Tree descriptors (R305) -/

/-- A descriptor's bytes after the first 32: its contributors and nodes. -/
def treeTail (nc : Nat) : Nat := 8 * nc + 4 * (nc - 1)

/-- The descriptor in its bytes, the first 32 and the tail; `ok` says that it is valid. -/
def treeOf (bs : List Byte) : Tree :=
  let n := leNat bs
  let nc := bitsAt n 0 8
  let node := fun (k : Nat) => bitsAt n (8 * (0x20 + 8 * nc + 4 * k)) 32
  let wids := (List.range nc).map fun i => BitVec.ofNat 64 (bitsAt n (8 * (0x20 + 8 * i)) 64)
  let nodes := (List.range (nc - 1)).map fun k => (bitsAt (node k) 0 7, bitsAt (node k) 8 7, bitsAt (node k) 16 4)
  let inputs := nodes.flatMap fun x => [x.1, x.2.1]
  { nc := nc, timeout := bitsAt n 32 32, result := bitsAt n 64 64, stamp := bitsAt n 128 64
    tag := BitVec.ofNat 64 (bitsAt n 192 56), wids := wids, nodes := nodes
    ok := decide (2 ≤ nc) && decide (nc ≤ 64) && bitsAt n 8 8 == nc - 1 && bitsAt n 16 16 == 0 && bitsAt n 32 32 != 0 &&
      bitsAt n 64 64 % 8 == 0 && bitsAt n 128 64 % 16 == 0 && bitsAt n 248 8 == 0 && decide wids.Nodup &&
      ((List.range (nc - 1)).all fun k => bitsAt (node k) 7 1 == 0 && bitsAt (node k) 15 1 == 0 && bitsAt (node k) 20 12 == 0) &&
      (nodes.zipIdx.all fun x => decide (x.1.1 < nc + x.2) && decide (x.1.2.1 < nc + x.2)) &&
      (List.range (2 * nc - 2)).all fun i => inputs.count i == 1 }

/-! ### Communicators (R321) -/

def State.comm? (s : State) (key : Nat) : Option Comm := s.comms.find? fun c => c.key == key
def State.setComm (s : State) (c : Comm) : State := { s with comms := (s.comms.filter fun x => x.key != c.key) ++ [c] }

/-- The dies a launch's contributions to a descriptor have come from. -/
def State.commDies (s : State) (launch key : Nat) : List Nat :=
  match s.comm? key with
  | some c => if c.launch = launch then c.dies else []
  | none => []

/-- Dies from which a descriptor's contributors send: those of the launch's teams it lists, of its contributions under way, and of the
ones made so far. -/
def State.contributorDies (s : State) (launch key : Nat) (t : Tree) : List Nat :=
  ((s.teams.filter fun T => T.launch == launch && (List.range T.words).any fun w => t.wids.contains (T.wid (32 * w))).map
    fun T => dieOf T.core) ++ ((s.contribs.filter fun c => c.key == key && c.launch == launch).map fun c => dieOf c.core) ++ s.commDies launch key

/-- The descriptor's communicator is invalid, or becomes so because a listed route crosses a failed link. -/
def State.commRefuses (s : State) (launch core key : Nat) (t : Tree) : Bool :=
  let home := s.homeOf core key
  (s.comms.any fun c => c.key == key && c.invalid) ||
  ((s.insts.all fun i => i.key != key) && (dieOf core :: s.contributorDies launch key t).any fun d => s.routeBroken d home)

/-! ### COLL (R306, R318, R319) -/

/-- The lane words in which lanes execute, each with its lowest executing lane. -/
def Team.collWords (T : Team) (exec : LaneMask) : List (Nat × Nat) :=
  (wordsOf exec).filterMap fun w => ((lanesOf exec T.lanes).find? fun l => l / 32 == w).map fun l => (w, l)

/-- A contribution as it issues, or a refusal. -/
structure CollPart where
  word : Nat
  key : Nat
  tree : Tree
deriving DecidableEq, Repr

/-- The descriptor of each lane word, read through its lanes. -/
def State.collParts (s : State) (T : Team) (slot : Nat) (ws : List (Nat × Nat)) (vaOf : Nat → Word) (ps : List Placed) : List CollPart :=
  ws.filterMap fun w =>
    (ps.find? fun x => x.p.lane == w.2 && x.p.va == vaOf w.2 && x.p.len == 32).map fun x =>
      let rd := fun (p : Placed) => s.peek T.id T.core (T.frag slot).hist p.key p.p.len p.attr
      let tail := (ps.filter fun y => y.p.lane == w.2 && y.p.len == 4).flatMap rd
      ⟨w.1, x.key, treeOf (rd x ++ tail)⟩

/-- DEDUCED, log 53. -/
def execColl (o : V2) (op : RedOp) (s : State) : Out :=
  s.withLane fun T slot =>
    let exec := T.execMask (T.frag slot) o.g
    let ws := T.collWords exec
    let vaOf := fun (l : Nat) => T.srcW o.a l
    s.laneChecks T slot exec { srcs := [(o.a, 1), (o.b, 1)], dst := [o.d.toNat] }
        [(o.a, maskWhere (ws.map (·.2)) fun l => (vaOf l).toNat % 64 != 0)] fun _ =>
      if exec == 0 then .next (s.setTeam (T.nextL slot))
      else s.laneTurn T fun T1 =>
        let lead := fun (l : Nat) => ((ws.find? fun w => w.1 == l / 32).map (·.2)).getD l
        let head := (lanesOf exec T.lanes).map fun l => ((⟨l, 0, vaOf (lead l), 32⟩ : Piece), true, false)
        -- the number of contributors, once the first 32 bytes can be read
        let nc := fun (l : Nat) => match s.translate (.lanes T.id T.trapLevel slot) T.core T.ctx (vaOf (lead l)) with
          | .ok key a _ =>
            if s.mayPeek T.core (T.frag slot).hist [(key, a)] then (s.peekByte T.id T.core (T.frag slot).hist (key, a)).toNat else 0
          | _ => 0
        let tail := (lanesOf exec T.lanes).flatMap fun l =>
          (List.range (if nc l ≤ 64 then treeTail (nc l) / 4 else 0)).map fun i =>
            ((⟨l, 0, vaOf (lead l) + BitVec.ofNat 64 (0x20 + 4 * i), 4⟩ : Piece), true, false)
        s.locateMem' T1 slot exec false (head ++ tail) fun s2 T2 ps =>
          let ks := ps.flatMap fun x => spanOf x.key x.p.len x.attr
          if !s2.mayPeek T2.core (T2.frag slot).hist ks then .next s else
          let parts := s2.collParts T2 slot ws vaOf ps
          let idx := fun (c : CollPart) => c.tree.wids.findIdx? (· == T.wid (32 * c.word))
          if parts.any fun c => !c.tree.ok || (idx c).isNone then (s2.afterPeek T2.core ks).laneTrap T2 slot 0x06
          else
            let lanesIn := fun (c : CollPart) => (lanesOf exec T.lanes).filter fun l => l / 32 == c.word
            let no := parts.filter fun c => s2.commRefuses T.launch T.core c.key c.tree
            let yes := parts.filter fun c => !s2.commRefuses T.launch T.core c.key c.tree
            let grp := s2.evId
            let new := yes.zipIdx.map fun x => ({
              id := grp + 1 + x.2, team := T.id, launch := T.launch, core := T.core, ctx := T.ctx, key := x.1.key
              contributor := (idx x.1).getD 0, word := x.1.word, grp := grp, reg := o.d.toNat, op := op, ty := o.ty, tree := x.1.tree
              elems := (List.range 32).map fun j => if exec.getLsbD (32 * x.1.word + j) then some (T.srcW o.b (32 * x.1.word + j)) else none
              det := if T.counted then some (s.keyOf T) else none } : Contrib)
            let s3 := no.foldl (fun (q : State) c => q.setComm { key := c.key, gen := (q.die (q.homeOf T.core c.key)).rtgen.toNat
                                                                 launch := T.launch, invalid := true
                                                                 dies := q.commDies T.launch c.key })
              { s2.afterPeek T2.core ks with evId := grp + 1 + yes.length, contribs := s2.contribs ++ new }
            let T3 := no.foldl (fun (q : Team) c => (lanesIn c).foldl (fun (r : Team) l => r.setV o.d.toNat l 0) q) T2
            let T4 := T3.mark [o.d.toNat] (maskOf (yes.flatMap lanesIn)) grp
            .next (s3.setTeam (T4.commit.nextL slot))

/-- CONTRIBUTION_LEAVES_CORE: vD becomes 1 in the contributing lanes. -/
def execContributionLeavesCore (contrib : Nat) (s : State) : Out :=
  match s.contribs.find? fun c => c.id == contrib && !c.leftCore with
  | none => .next s
  | some c =>
    let cs := s.contribs.map fun (x : Contrib) => if x.id == contrib then { x with leftCore := true } else x
    .next (State.modTeam { s with contribs := cs } c.team fun T =>
      let T1 := c.elems.zipIdx.foldl (fun (q : Team) x => if x.1.isSome then q.setV c.reg (32 * c.word + x.2) 1 else q) T
      { T1 with marks := T1.marks.filter fun m => !(m.reg == c.reg && m.word == c.word && m.grp == c.grp) })

/-! ### Instances (R307, R308) -/

def State.inst? (s : State) (i : Nat) : Option Inst := s.insts.find? fun x => x.id == i
def State.setInst (s : State) (i : Inst) : State := { s with insts := s.insts.map fun x => if x.id == i.id then i else x }

/-- Contributors whose contributions had not reached their nodes. -/
def Inst.missing (i : Inst) : Nat := (List.range i.tree.nc).foldl (fun n c => if i.arrived.contains c then n else n + 2 ^ c) 0

/-- The instance is over: its time has passed with a contribution missing, or its communicator became invalid (R308, R321). -/
def State.instOver (s : State) (i : Inst) : Bool := i.broken || (decide (i.began + i.tree.timeout ≤ s.cycle) && i.missing != 0)

/-- A contribution joins an instance. What the contributions must agree on is taken from the lowest contributor, so that nothing depends
on the order of arrival (R307). DEDUCED, log 53. -/
def Inst.join (i : Inst) (c : Contrib) : Inst :=
  let i1 := if i.arrived.all fun x => decide (c.contributor < x) then
    { i with ctx := c.ctx, core := c.core, launch := c.launch, tree := c.tree, op := c.op, ty := c.ty } else i
  { i1 with present := i1.present ++ [(c.contributor, c.elems)], arrived := insertNat c.contributor i1.arrived, det := DetKey.max i1.det c.det }

/-- CONTRIBUTION_ARRIVAL: a contribution reaches its node and begins an instance or joins one; a contributor that is
already in the instance waits, and so does one that finds the instance over, or its communicator invalid; one that binds a communicator
with a listed route over a failed link makes it so at once (R321). DEDUCED, log 53. -/
def execContributionArrival (contrib : Nat) (s : State) : Out :=
  match s.contribs.find? fun c => c.id == contrib && c.leftCore with
  | none => .next s
  | some c =>
    let home := s.homeOf c.core c.key
    let before := s.contribs.takeWhile fun x => x.id != contrib
    if (before.any fun x => x.key == c.key && x.contributor == c.contributor) || s.routeBroken (dieOf c.core) home ||
        (s.comms.any fun x => x.key == c.key && x.invalid) then .next s
    else
      let s1 := { s with contribs := s.contribs.filter fun x => x.id != contrib }
      let dies := insertNat (dieOf c.core) (s.commDies c.launch c.key)
      match s.insts.find? fun i => i.key == c.key with
      | some i =>
        if i.arrived.contains c.contributor || s.instOver i then .next s
        else .next ((s1.setInst (i.join c)).setComm { key := c.key, gen := i.gen, launch := c.launch, bound := true, dies := dies })
      | none =>
        let gen := (s.die home).rtgen.toNat
        let i : Inst := { id := s.evId, key := c.key, ctx := c.ctx, core := c.core, launch := c.launch, tree := c.tree, op := c.op,
                          ty := c.ty, began := s.cycle, gen := gen }
        if (s.contributorDies c.launch c.key c.tree).any fun d => s.routeBroken d home then
          .next (s.setComm { key := c.key, gen := gen, launch := c.launch, invalid := true, dies := s.commDies c.launch c.key })
        else
          .next (State.setComm { s1.fresh with insts := s1.insts ++ [i.join c] }
            { key := c.key, gen := gen, launch := c.launch, bound := true, dies := dies })

/-- The instance ends: its result, when there is one, and its stamp are written at their homes (R307, R308); none while an
address is not mapped writable, or its home lies behind a failed hop or port (R320). The communicator stays bound until the home die's next RTGEN (R321). -/
def State.collWrite (s : State) (i : Inst) (status missing : Nat) (res : List (Option Word)) : Option State :=
  let home := s.homeOf i.core i.key
  let key := fun (va : Nat) => match s.dispKey home i.ctx (BitVec.ofNat 64 va) with
    | some (k, true) => if s.cutOff (32 * home) k || s.portFailed home k then none else some k
    | _ => none
  let put := fun (q : Option State) (x : Nat × Word) => match q, key x.1 with
    | some q, some k => some (q.homeWrite i.ctx k (leBytes 8 x.2.toNat))
    | _, _ => none
  let words := res.zipIdx.map fun x => (i.tree.result + 8 * x.2, x.1.getD (redUnit i.op i.ty).even)
  let out := words ++ [(i.tree.stamp + 8, BitVec.ofNat 64 missing), (i.tree.stamp, BitVec.ofNat 64 (status + i.tree.tag.toNat * 2 ^ 8))]
  (out.foldl put (some s)).map fun q => { q with insts := q.insts.filter fun x => x.id != i.id }

/-- The root has its result: outside DET it writes at once. -/
def State.collDone (s : State) (i : Inst) : State :=
  match i.result with
  | some r => if i.det.isSome || i.broken then s else (s.collWrite i 1 0 r).getD s
  | none => s

/-- An input of a node as it is read: an ill-formed interval is empty, a NaN quiet and canonical (R82, R83, R94, R318). -/
def collRead (ty : LTy) (w : Word) : Word := (redRead ty w.toPair).1.even

/-- Combine two inputs of a node, element by element; an absent one passes the other. -/
def collPair (op : RedOp) (ty : LTy) (a b : Option Word) : Option Word :=
  match a, b with
  | some x, some y => some (redOp op ty x.toPair y.toPair).1.even
  | some x, none => some (collRead ty x)
  | none, y => y.map (collRead ty)

/-- NODE_COMBINE: a node with both inputs present gives its output; the root's is the result. The nodes are those of contributor 0's
descriptor, and wait for its contribution. DEDUCED, log 53. -/
def execNodeCombine (inst node : Nat) (s : State) : Out :=
  match s.inst? inst with
  | none => .next s
  | some i =>
    if s.instOver i || !i.arrived.contains 0 then .next s
    else if i.result.isSome then .next (s.collDone i)
    else match i.tree.nodes[node]? with
    | none => .next s
    | some (l, r, _) =>
      let get := fun (n : Nat) => (i.present.find? fun x => x.1 == n).map (·.2)
      (match get l, get r, get (i.tree.nc + node) with
      | some a, some b, none =>
        let out := (a.zip b).map fun x => collPair i.op i.ty x.1 x.2
        let root := node + 1 == i.tree.nodes.length
        let i1 := { i with present := i.present ++ [(i.tree.nc + node, out)], result := if root then some out else none }
        .next ((s.setInst i1).collDone i1)
      | _, _, _ => .next s)

/-- COLL_TIMEOUT: STATUS 2 once the time has passed with a contribution missing; STATUS 3 of a broken instance whose stamp
could not be written at once. -/
def execCollTimeout (inst : Nat) (s : State) : Out :=
  match s.inst? inst with
  | none => .next s
  | some i =>
    if s.instOver i then .next ((s.collWrite i (if i.broken then 3 else 2) i.missing []).getD s) else .next s

/-- The dies that a communicator's contributors send from: those seen so far and, of a running instance, those of its launch's teams. -/
def State.dangerDies (s : State) (c : Comm) : List Nat :=
  match s.insts.find? fun i => i.key == c.key with
  | some i => s.contributorDies i.launch i.key i.tree
  | none => c.dies

/-- A communicator becomes invalid when a link on the route of a contributor's flow fails under its generation; its running instance
ends with STATUS 3 (R321), but one whose time has passed ends with STATUS 2 (R308). DEDUCED, log 23. -/
def State.breakComm (s : State) (c : Comm) : State :=
  let home := s.homeOf 0 c.key
  if !c.invalid && (s.die home).rtgen.toNat == c.gen && (s.dangerDies c).any fun d => s.routeBroken d home then
    let s1 := s.setComm { c with invalid := true }
    match s.insts.find? fun i => i.key == c.key with
    | some i => if s.instOver i then s1 else (s1.collWrite { i with broken := true } 3 i.missing []).getD (s1.setInst { i with broken := true })
    | none => s1
  else s

/-! ### Pending events and flushes (R314 to R316) -/

/-- With the lane as fourth part. -/
def DetKey.lt4 (a b : DetKey) : Bool := DetKey.lt a b || (!DetKey.lt b a && decide (a.lane < b.lane))

/-- A pending event's turn: less than every counted team's key, and no other event less than it. -/
def State.eventTurn (s : State) (l : Nat) (k : DetKey) : Bool :=
  (s.teams.all fun X => X.launch != l || !X.counted || DetKey.lt k (s.keyOf X)) && (s.pendingKeys l).all fun k' => !DetKey.lt4 k' k

def execPendingEventAct (ev : Nat) (s : State) : Out :=
  match s.copies.find? fun c => c.id == ev with
  | some c =>
    (match c.det with
    | some k => if c.ended && s.copyMay c && s.eventTurn c.launch k then .next (s.copyAct c) else .next s
    | none => .next s)
  | none =>
    match s.inst? ev with
    | none => .next s
    | some i =>
      match i.result, s.collKey i.launch i.key with
      | some r, some k => if i.det.isSome && !i.broken && s.eventTurn i.launch k then .next ((s.collWrite i 1 0 r).getD s) else .next s
      | _, _ => .next s

/-- FLUSH (R316): in a DET launch, when a lane executes it, it drains at its turn. -/
def execFlush (g : Guard) (s : State) : Out :=
  s.withLane fun T slot =>
    if T.execMask (T.frag slot) g == 0 || !T.counted then .next (s.setTeam (T.nextL slot))
    else s.laneTurn T fun T1 =>
      if s.drainReady T.launch (some (s.keyOf T)) then .next ((s.drain T.launch (some (s.keyOf T))).setTeam (T1.nextL slot))
      else .next s

end Sys2Proof.Machine
end

