-- ==== Sys2Proof/Machine/Pools.lean ====
section
/-!
DEFINITION. The pools of a core (R23, R171, R346) and how a team starts (R28).
-/
namespace Sys2Proof.Machine

def Pool.add (a b : Pool) : Pool := ⟨a.slots + b.slots, a.words + b.words, a.vregs + b.vregs, a.sregs + b.sregs⟩
/-- What is left of `a` beside `b`, and the part of `a` that `b` covers. -/
def Pool.minus (a b : Pool) : Pool := ⟨a.slots - b.slots, a.words - b.words, a.vregs - b.vregs, a.sregs - b.sregs⟩
def Pool.meet (a b : Pool) : Pool := ⟨min a.slots b.slots, min a.words b.words, min a.vregs b.vregs, min a.sregs b.sregs⟩
def Pool.times (n : Nat) (a : Pool) : Pool := ⟨n * a.slots, n * a.words, n * a.vregs, n * a.sregs⟩
def Pool.le (a b : Pool) : Bool := decide (a.slots ≤ b.slots ∧ a.words ≤ b.words ∧ a.vregs ≤ b.vregs ∧ a.sregs ≤ b.sregs)

/-- The full pools of one core (R23). -/
def fullPool : Pool := ⟨96, 1024, 16384, 6144⟩

/-- What a team of some lane words and budgets takes. -/
def takes (words vbud sbud : Nat) : Pool := ⟨1, words, words * vbud, sbud⟩
/-- What each ordinary team of a launch takes. -/
def Header.teamTakes (h : Header) : Pool := takes h.words (8 * h.vbud) (16 * h.sbud)
/-- What a cohort of a BOUNDS launch reserves for element teams (R171). -/
def Header.reserves (h : Header) : Pool := if h.bounds then takes 32 (8 * h.vbud) (16 * h.sbud) else {}

/-- What is taken from a core's pools: its teams, but one that runs on a reservation, and the reservations. -/
def State.used (s : State) (core : Nat) : Pool :=
  let ts := (s.teams.filter fun T => T.core == core && !T.fromResv).foldl (fun (p : Pool) T => p.add (takes T.words T.vbud T.sbud)) {}
  s.cohorts.foldl (fun p c => c.resv.foldl (fun p x => if x.1 == core then p.add x.2 else p) p) ts

def State.roomFor (s : State) (core : Nat) (p : Pool) : Bool := ((s.used core).add p).le fullPool

/-- The partition and slot a team gets on a core (R346): the fewest resident lane words among those with a free slot. -/
def State.partition (s : State) (core : Nat) : Option (Nat × Nat) :=
  let mine := s.teams.filter fun T => T.core == core
  let ps := (List.range 12).filterMap fun p =>
    let ts := mine.filter fun T => T.part == p
    ((List.range 8).find? fun k => ts.all fun T => T.slot != k).map fun k =>
      (ts.foldl (fun n T => n + T.words) 0, p, k)
  (ps.foldl (fun (r : Option (Nat × Nat × Nat)) x => match r with
    | none => some x
    | some y => if x.1 < y.1 then some x else some y) none).map (·.2)

/-! ### Preload spans (R349, R351) -/

/-- The pages of a preload span. -/
def spanPages (laneBase spages lblocks : Nat) : List Nat :=
  List.range spages ++ (List.range lblocks).map fun b => laneBase / 4096 + b
def Launch.span (L : Launch) : List Nat := spanPages L.hdr.laneBase L.spages L.lblocks

/-- A page of an image is landed on a core. -/
def State.landedOn (s : State) (core image page : Nat) : Bool :=
  s.slots.any fun x => x.core == core && x.landed && x.image == image && x.page == page
def pageVa (image page : Nat) : Word := BitVec.ofNat 64 (image + 4096 * page)
/-- A team of the launch may start on the core: each page of the span is landed there, or its read was refused. -/
def State.spanReady (s : State) (core : Nat) (L : Launch) : Bool :=
  L.span.all fun p => s.landedOn core L.hdr.image p ||
    s.translate (.preload L.id core) core L.ctx (pageVa L.hdr.image p) == .refused

/-- A slot is held by the span of a team of the core. -/
def State.slotHeld (s : State) (x : CodeSlot) : Bool :=
  s.teams.any fun T => T.core == x.core && T.hdr.image == x.image && (spanPages T.hdr.laneBase T.spages T.lblocks).contains x.page

/-- A team as it starts (R28). DESIGN CHOICE, log 4. -/
def startTeam (id : Nat) (L : Launch) (cohort tidx core : Nat) (place : Nat × Nat) : Team :=
  { id := id, launch := L.id, cohort := cohort, tidx := tidx, ctx := L.ctx, core := core, part := place.1, slot := place.2
    pri := L.hdr.pri, hdr := L.hdr, words := L.hdr.words, vbud := 8 * L.hdr.vbud, sbud := 16 * L.hdr.sbud
    spages := L.spages, lblocks := L.lblocks, spc := L.hdr.entry, regionpc := BitVec.ofNat 32 L.hdr.entry, mask := fullMask (32 * L.hdr.words), tvec := L.hdr.tvec }

/-- The lane stream of a team starts with one block (R29, R176, R242, R284). -/
def Team.runBlock (T : Team) (b : Block) : Team := { T with run := some b, split := Split.start b.entry T.mask [] }

end Sys2Proof.Machine
end

