-- ==== Sys2Proof/Machine/Cistern.lean ====
section
/-!
DEFINITION. Cisterns and the bounds pass (R11 to R15, R159 to R177): pushes, draws, steals and refills, hulls and tile
stores, quartering and element teams.
-/
namespace Sys2Proof.Machine

/-! ### Entries (R159 to R161) -/

def headerWord (depth kind axis tag : Nat) : Word :=
  BitVec.ofNat 64 (depth % 2 ^ 8 + kind % 2 ^ 4 * 2 ^ 8 + axis % 2 ^ 4 * 2 ^ 12 + tag % 2 ^ 48 * 2 ^ 16)
/-- A lane's item state on receiving an entry. -/
def Item.held (x : Item) : Held :=
  { depth := fieldAt x.w0 0 8, kind := fieldAt x.w0 8 4, axis := fieldAt x.w0 12 4, tag := fieldAt x.w0 16 48, tile := x.w1 }
def Item.bytes (x : Item) : List Byte := [x.w0, x.w1, x.w2, x.w3].flatMap fun w => leBytes 8 w.toNat
def State.itemAt (s : State) (key : Nat) : Item := ⟨s.word key, s.word (key + 8), s.word (key + 16), s.word (key + 24)⟩
/-- An entry from its header and its words; a word not supplied is zero. -/
def itemOf (h : Word) (ws : List Word) : Item := ⟨h, ws.getD 0 0, ws.getD 1 0, ws.getD 2 0⟩

/-- A tile word's column, row and edge (R160). -/
def tileCol (w : Word) : Nat := fieldAt w 0 24
def tileRow (w : Word) : Nat := fieldAt w 24 24
def tileEdge (w : Word) : Nat := fieldAt w 48 8
def tileWord (row col edge : Nat) : Word := BitVec.ofNat 64 (col % 2 ^ 24 + row % 2 ^ 24 * 2 ^ 24 + edge % 2 ^ 8 * 2 ^ 48)
/-- The tile word LDH accepts (R172). -/
def tileOk (w : Word) : Bool := fieldAt w 56 8 == 0 && [1, 2, 4, 8, 16, 32].contains (tileEdge w)

/-! ### The spill area (R162) -/

def ringSize (h : Header) : Nat := 16 * h.cap

/-- The free slots in ring order from the one that follows the bottom-most entry already spilled. DEDUCED, log 41. -/
def Cistern.freeFrom (c : Cistern) (ring : Nat) : List Nat :=
  let start := match c.spilled.getLast? with
    | some k => k + 1
    | none => (match c.refill.bind fun r => r.slots.getLast? with | some k => k + 1 | none => c.nextSlot)
  ((List.range ring).map fun i => (start + i) % ring).filter fun k => !c.busy.contains k

/-- Push an entry at the bottom (R14): with the pad part full, its top half first moves to the slots given.
DESIGN CHOICE, log 79. -/
def Cistern.push (c : Cistern) (cap : Nat) (x : Item) : Cistern × List (Nat × Item) :=
  if c.pad.length < cap then ({ c with pad := c.pad ++ [x] }, [])
  else
    let ks := (c.freeFrom (16 * cap)).take (cap / 2)
    let out := c.pad.take (cap / 2)
    ({ c with pad := c.pad.drop (cap / 2) ++ [x], first := (c.first + cap / 2) % cap, spilled := c.spilled ++ ks
              nextSlot := ((ks.getLast?.getD 0) + 1) % (16 * cap) }, ks.zip out)

/-- DESIGN CHOICE, log 79. -/
def Cistern.pushAll (c : Cistern) (cap : Nat) : List Item → Cistern × List (Nat × Item)
  | [] => (c, [])
  | x :: t =>
    let a := c.push cap x
    let b := a.1.pushAll cap t
    (b.1, a.2 ++ b.2)

/-- Entries that n pushes spill. -/
def spillsOf (cap pad : Nat) : Nat → Nat
  | 0 => 0
  | n + 1 => if pad < cap then spillsOf cap (pad + 1) n else cap / 2 + spillsOf cap (pad - cap / 2 + 1) n

/-! ### Where the entries lie (R14, R26) -/

/-- The entries of the pad part are stored in the top bytes of the cohort's pad (R26). DESIGN CHOICE, log 79. -/
def State.storeCistern (s : State) (C : Cohort) (h : Header) (ctx : Nat) (c : Cistern) : State :=
  c.pad.zipIdx.foldl (fun (q : State) x =>
    q.setPad ctx (C.padKey h (h.pad - 32 * h.cap + 32 * ((c.first + x.2) % h.cap))) x.1.bytes)
    (s.modCohort C.launch C.idx fun X => { X with cistern := c })

/-! ### Refills (R14, R163, R164) -/

/-- The batch a refill takes: the bottom-most spilled entries. -/
def Cistern.batch (c : Cistern) (cap : Nat) : List Nat := c.spilled.drop (c.spilled.length - min c.spilled.length (cap / 2))
/-- A refill starts: its batch leaves the spilled entries. -/
def Cistern.startRefill (c : Cistern) (cap : Nat) (hold : Option Requester) : Cistern :=
  { c with spilled := c.spilled.take (c.spilled.length - (c.batch cap).length)
           refill := some ⟨c.batch cap, hold⟩, faulted := false }

/-- A refill lands: the bottom-most entries of its batch for which the pad part has room become its top; those without room stay
spilled, in their slots. DESIGN CHOICE, log 79. -/
def Cistern.land (c : Cistern) (cap : Nat) (batch : List (Nat × Item)) : Cistern :=
  let n := min batch.length (cap - c.pad.length)
  let stay := batch.length - n
  { c with pad := (batch.drop stay).map (·.2) ++ c.pad, first := (c.first + cap - n) % cap
           spilled := c.spilled ++ (batch.take stay).map (·.1), refill := none }

/-- An instruction that needs addresses of the spill area: ready, waiting, or a trap. -/
inductive Spill where
  | ready
  | wait (s : State)
  | trap (cause : Nat)
deriving Repr

/-- Ask for spill addresses on behalf of a requester; records have SRC 2. DEDUCED, log 42. -/
def State.askSpill (s : State) (who : Requester) (core ctx : Nat) (wr : Bool) : List Nat → Spill
  | [] => .ready
  | va :: t =>
    match s.ask who core ctx (BitVec.ofNat 64 va) wr 2 with
    | .ok key _ w => if wr && !w then .trap 0x06 else if !wr && s.poisoned key 32 then .trap 0x05 else s.askSpill who core ctx wr t
    | .wait s' => .wait s'
    | .refused => .trap 0x05

/-- The home of an address can be reached from a core (R320, R382). -/
def State.reachable (s : State) (core key : Nat) : Bool := !s.cutOff core key && !s.portFailed (dieOf core) key

/-- The key of a spill address. -/
def State.spillKey (s : State) (core ctx va : Nat) : Nat := (s.vaKey (.cistern 0 0) core ctx va).1

/-! ### Instructions on a cistern -/

/-- The cistern of a team, or cause 0x0B: a capacity of 0, or a team that is not an ordinary one (R26, R176, R277).
DEDUCED, log 44. -/
def State.withCistern (s : State) (T : Team) (slot : Nat) (exec : LaneMask) (k : Cohort → Out) : Out :=
  if !T.isOrdinary || T.hdr.cap = 0 then s.laneTrapMask T slot 0x0B exec
  else match s.cohort? T.launch T.cohort with
    | none => s.laneTrapMask T slot 0x0B exec
    | some C => k C

/-- A faulted cistern's refill is retried on behalf of an instruction, which waits for it to land (R163). -/
def State.retryRefill (s : State) (T : Team) (slot : Nat) (exec : LaneMask) (C : Cohort) : Out :=
  let who := Requester.lanes T.id T.trapLevel slot
  match s.askSpill who T.core T.ctx false ((C.cistern.batch T.hdr.cap).map (slotVa T.hdr T.cohort)) with
  | .wait s' => .next s'
  | .trap c => (s.forget who).laneTrapMask T slot (if c = 6 then 0x05 else c) exec
  | .ready =>
    let s1 := (s.forget who).modCohort T.launch T.cohort fun C => { C with cistern := C.cistern.startRefill T.hdr.cap (some who) }
    .next (s1.setTeam T.commit)

/-- The instruction of a fragment has retried the refill and waits for it to land; it alone does (R14, R163). -/
def Cistern.heldBy (c : Cistern) (who : Requester) : Bool := c.refill.any fun r => r.hold == some who

/-- Before n pushes (R162, R163): a faulted cistern retries; the quota; the slots of the batches, free and mapped
writable; then the release that a pushed entry carries (R12). The region is committed while the instruction waits for these (R336).
DEDUCED, log 42. -/
def State.prepPush (s : State) (T : Team) (slot : Nat) (exec : LaneMask) (C : Cohort) (n : Nat) (k : State → Out) : Out :=
  let c := C.cistern
  let spills := spillsOf T.hdr.cap c.pad.length n
  let slots := (c.freeFrom (ringSize T.hdr)).take spills
  let who := Requester.lanes T.id T.trapLevel slot
  if n != 0 && c.faulted then s.retryRefill T slot exec C
  else if n != 0 && c.heldBy who then .next (s.setTeam T.commit)
  else if ringSize T.hdr < c.spilled.length + spills then s.laneTrapMask T slot 0x0B exec
  else if slots.length < spills then .next (s.setTeam T.commit)
  else match s.askSpill who T.core T.ctx true (slots.map (slotVa T.hdr T.cohort)) with
    | .wait s' => .next s'
    | .trap x => (s.forget who).laneTrapMask T slot x exec
    | .ready =>
      if s.releaseOk T.id T.core (T.frag slot).hist .device && (slots.all fun i => s.reachable T.core (s.spillKey T.core T.ctx (slotVa T.hdr T.cohort i)))
      then k (s.forget who) else .next (s.setTeam T.commit)

/-- Push entries, spill what they displace, and count them (R13). -/
def State.pushItems (s : State) (T : Team) (xs : List Item) : State :=
  match s.cohort? T.launch T.cohort with
  | none => s
  | some C =>
    let r := C.cistern.pushAll T.hdr.cap xs
    let s1 := r.2.foldl (fun (q : State) x =>
      q.storeAt T.ctx (q.spillKey T.core T.ctx (slotVa T.hdr T.cohort x.1)) x.2.bytes) s
    (s1.storeCistern C T.hdr T.ctx r.1).addLive T.launch xs.length

/-! ### SPLIT, FORK (R166, R167) -/

/-- The halves of an interval: upper and lower, with the flags of reading it. DEDUCED, log 45. -/
def halves (ty : LTy) (p : Pair) : Pair × Pair × FFlags :=
  let f := fmtOf ty
  let x := readIvP ty p
  match x.iv with
  | none => ((putIv ty f.emptyIv).1, (putIv ty f.emptyIv).1, x.fl)
  | some (a, b) =>
    let mid := Bd.ofFV (f.read (f.oneOf .mid x).lo)
    ((putIv ty (f.tight false (some (mid, b)))).1, (putIv ty (f.tight false (some (a, mid)))).1, x.fl)

/-- DEDUCED, log 45. -/
def execSplit (g : Guard) (ty : LTy) (a b c : Src) (axis : BitVec 4) (nw : BitVec 2) (s : State) : Out :=
  s.withLane fun T slot =>
    let exec := T.execMask (T.frag slot) g
    let ls := lanesOf exec T.lanes
    let extra := [b, c].take nw.toNat
    let n : Names := { srcs := (a, pairLen (isPair ty)) :: extra.map fun x => (x, 1), dst := dstOf ty a.n }
    s.laneChecks T slot exec n [] fun _ =>
      s.withCistern T slot exec fun C =>
        let bare := maskWhere ls fun l => (T.item l).isNone
        if bare != 0 then s.laneTrapMask T slot 0x0B bare
        else if exec == 0 then .next (s.setTeam (T.nextL slot))
        else s.commitTurn T fun T1 =>
          s.prepPush T1 slot exec C ls.length fun s1 =>
            let deep := fun (h : Held) => { h with depth := min (h.depth + 1) 255, axis := axis.toNat }
            let item := fun (l : Nat) =>
              let h := deep ((T.item l).getD {})
              let u := (halves ty (T.in ty a l)).1
              itemOf (headerWord h.depth h.kind h.axis h.tag)
                ((if ty == .iv64 then [u.even, u.odd] else [u.even]) ++ extra.map fun x => T.srcW x l)
            let T2 := ls.foldl (fun (q : Team) l =>
              let r := halves ty (T.in ty a l)
              (q.setItem l ((T.item l).map deep)).put ty a.n l (r.2.1, r.2.2)) T1
            .next ((s1.pushItems T1 (ls.map item)).setTeam (T2.commit.nextL slot))

def execFork (g : Guard) (a b c : Src) (kind : BitVec 4) (nw : BitVec 2) (hdr : Bool) (s : State) : Out :=
  s.withLane fun T slot =>
    let exec := T.execMask (T.frag slot) g
    let ls := lanesOf exec T.lanes
    let words := if hdr then [b, c].take (nw.toNat + 1) else [a, b, c].take (nw.toNat + 1)
    let named := if hdr then a :: words else words
    s.laneChecks T slot exec { srcs := named.map fun x => (x, 1) } [] fun _ =>
      s.withCistern T slot exec fun C =>
        if exec == 0 then .next (s.setTeam (T.nextL slot))
        else s.commitTurn T fun T1 =>
          s.prepPush T1 slot exec C ls.length fun s1 =>
            let head := fun (l : Nat) =>
              if hdr then T.srcW a l
              else match T.item l with
                | some h => headerWord h.depth kind.toNat h.axis h.tag
                | none => headerWord 0 kind.toNat 0 0
            .next ((s1.pushItems T1 (ls.map fun l => itemOf (head l) (words.map fun x => T.srcW x l))).setTeam (T1.commit.nextL slot))

/-! ### DRAW and steals (R11, R14, R15, R168) -/

/-- A taker receives an entry: its words, its header with `.hdr`, its item state, numbered `no`, and q. -/
def Team.receive (T : Team) (q : BitVec 4) (d : BitVec 9) (nw : BitVec 2) (hdr : Bool) (no l : Nat) (x : Item) : Team :=
  let n := nw.toNat + 1
  let T1 := ((List.range n).foldl (fun (q : Team) w => q.setV (d.toNat + w) l ([x.w1, x.w2, x.w3].getD w 0)) T)
  let T2 := if hdr then T1.setV (d.toNat + n) l x.w0 else T1
  (T2.setItem l (some { x.held with no := no })).setQ q.toNat l .t

/-- Takers pop the bottom entries in ascending lane order; while a refill is in flight they find none (R14). A refill
starts when the last entry of the pad part goes and spilled entries remain. DEDUCED, log 41. -/
def Cistern.serve (c : Cistern) (cap : Nat) (takers : List Nat) : Cistern × List (Nat × Item) :=
  if c.refill.isSome then (c, [])
  else
    let got := takers.zip c.pad.reverse
    let c1 := { c with pad := c.pad.take (c.pad.length - got.length) }
    (if !got.isEmpty && c1.pad.isEmpty && !c1.spilled.isEmpty then c1.startRefill cap none else c1, got)

/-- Hops between dies, and the order in which a steal tries dies at equal distance: die d + 1 first.
DESIGN CHOICE, log 43. -/
def stealRank (own d : Nat) : Nat :=
  let k := (d + 4 - own) % 4
  2 * min k (4 - k) + (if 1 < k then 1 else 0)

def Cohort.die (c : Cohort) : Nat := dieOf (c.cores.headD 0)

/-- Put a cohort into a list that an order sorts. -/
def insertCohort (lt : Cohort → Cohort → Bool) (c : Cohort) : List Cohort → List Cohort
  | [] => [c]
  | a :: t => if lt c a then c :: a :: t else a :: insertCohort lt c t

/-- The victims a request tries (R15, R163, R164), those that can give an entry, after the one it has moved on from.
DESIGN CHOICE, log 43. -/
def State.victims (s : State) (C : Cohort) (h : Header) (past : Option (Nat × Nat)) : List Cohort :=
  let rank := fun (c : Cohort) => (stealRank C.die c.die, c.idx)
  let less := fun (p r : Nat × Nat) => decide (p.1 < r.1) || (p.1 == r.1 && decide (p.2 < r.2))
  let after := fun (c : Cohort) => past.all fun p => less p (rank c)
  let vs := s.cohorts.filter fun c => c.launch == C.launch && c.idx != C.idx && (h.steals || c.die == C.die) && after c &&
    !c.cistern.faulted && (!c.cistern.spilled.isEmpty || !c.cistern.pad.isEmpty)
  vs.foldl (fun r c => insertCohort (fun x y => less (rank x) (rank y)) c r) []

/-- What is left of a DRAW: every taker without an entry gets false, or undecided when `zero` says that it found the live-work count
at zero, and the acquires of R12 and R170. A steal request is made only where the count is not zero, and its answer is false (R15).
The DRAW is then done, but under DET with its refill (R313). -/
def State.drawEnd (s : State) (T : Team) (slot : Nat) (q : BitVec 4) (got zero : Bool) (w : Option LaneWait) : Out :=
  let T1 := ((lanesOf (T.frag slot).mask T.lanes).foldl (fun (x : Team) l =>
    x.setQ q.toNat l (if (T.item l).isSome then .t else if zero then .u else .f)) T).commit
  .next ((if got || zero then s.acquire T.core .device else s).setTeam (match w with
    | some w => T1.setSp (T1.sp.waits slot w)
    | none => T1.nextL slot))

/-- The owner of a cistern takes the last entry that a steal request of another cohort has won in the same cycle; the request moves on to
the victims after it (R15). -/
def State.reclaim (s : State) (C : Cohort) : State × List Item :=
  let won := fun (w : LaneWait) => match w.what with
    | .steal _ _ (some (v, cyc, x)) => if v = C.idx && cyc = s.cycle then some x else none
    | _ => none
  let of := fun (T : Team) => if T.launch == C.launch then
    T.sp.live.findSome? fun p => (p.2.wait.bind won).map fun x => (T, p.1, x) else none
  match s.teams.findSome? of with
  | some (T, slot, x) =>
    let rank := match s.cohort? T.launch T.cohort with | some mine => (stealRank mine.die C.die, C.idx) | none => (0, 0)
    (s.setTeam (T.setSp (T.sp.setFrag slot { T.sp.frag slot with
      wait := (T.sp.frag slot).wait.map fun w => { w with what := match w.what with | .steal g .. => .steal g (some rank) none | k => k } })), [x])
  | none => (s, [])

def execDraw (q : BitVec 4) (d : BitVec 9) (steal : Bool) (nw : BitVec 2) (hdr : Bool) (s : State) : Out :=
  s.withLane fun T slot =>
    let f := T.frag slot
    let regs := (List.range (nw.toNat + 1 + (if hdr then 1 else 0))).map (d.toNat + ·)
    let takers := (lanesOf f.mask T.lanes).filter fun l => (T.item l).isNone
    let i : Instr := .draw q d steal nw hdr
    if f.wait.isSome then
      (match f.wait.map LaneWait.what, s.cohort? T.launch T.cohort with
      | some .refill, some C => if C.cistern.refill.isNone then .next (s.setTeam (T.nextL slot)) else .next s
      | _, _ => .next s)
    else s.laneChecks T slot (maskOf takers) { dst := regs } [] fun _ =>
      s.withCistern T slot f.mask fun C =>
        s.laneTurn T fun T1 =>
          if takers.isEmpty then s.drawEnd T1 slot q false false none
          else if C.cistern.faulted then s.retryRefill T1 slot f.mask C
          else if C.cistern.heldBy (.lanes T.id T.trapLevel slot) then .next (s.setTeam T1)
          else
            let cap := T.hdr.cap
            let c0 := if C.cistern.pad.isEmpty && !C.cistern.spilled.isEmpty && C.cistern.refill.isNone then
              C.cistern.startRefill cap none else C.cistern
            let (c1, mine) := c0.serve cap takers
            let s0 := s.modCohort T.launch T.cohort fun C => { C with cistern := c1 }
            let rest := takers.drop mine.length
            let (s1, back) := if rest.isEmpty || !c1.pad.isEmpty || !c1.spilled.isEmpty || c1.refill.isSome then (s0, []) else s0.reclaim C
            let got := mine ++ rest.zip back
            let grp := s.evId
            let T2 := got.foldl (fun (x : Team) g => x.receive q d nw hdr grp g.1 g.2) T1
            let left := takers.drop got.length
            if steal && !left.isEmpty && c1.pad.isEmpty && c1.spilled.isEmpty && c1.refill.isNone && s.liveOf T.launch != 0 then
              let T3 := (T2.mark regs (maskOf takers) grp).commit
              .next ((if got.isEmpty then s1.fresh else s1.fresh.acquire T.core .device).setTeam
                (T3.setSp (T3.sp.waits slot ⟨i, f.mask, .steal grp none none, s.cycle⟩)))
            else s1.fresh.drawEnd T2 slot q (!got.isEmpty) (s.liveOf T.launch == 0)
              (if T.counted && c1.refill.isSome then some ⟨i, f.mask, .refill, s.cycle⟩ else none)

/-- The fragment of a team that waits for its steal request, with its wait. -/
def Team.thief (T : Team) : Option (Nat × LaneWait) :=
  T.sp.live.findSome? fun p => p.2.wait.bind fun w => match w.what with
    | .steal .. => some (p.1, w)
    | _ => none

/-- What a victim gives: its topmost spilled entry, else the top of its pad part, and whether it was its last (R15). A spilled entry is
read at its home by the thief's core once it is mapped there; a refused mapping moves the request on. -/
def State.give (s : State) (T : Team) : List Cohort → State × Option (Nat × Item × Bool)
  | [] => (s, none)
  | v :: t =>
    let set := fun (c : Cistern) => s.modCohort v.launch v.idx fun C => { C with cistern := c }
    match v.cistern.spilled, v.cistern.pad with
    | k :: rest, _ =>
      (match s.dispKey (dieOf T.core) T.ctx (BitVec.ofNat 64 (slotVa T.hdr v.idx k)) with
      | some (key, _) => ((set { v.cistern with spilled := rest }).staleSlot T.ctx key,
          some (v.idx, s.itemAt key, rest.isEmpty && v.cistern.pad.isEmpty && v.cistern.refill.isNone))
      | none => s.give T t)
    | [], x :: rest => (set { v.cistern with pad := rest, first := (v.cistern.first + 1) % T.hdr.cap },
        some (v.idx, x, rest.isEmpty && v.cistern.refill.isNone))
    | [], [] => s.give T t

/-- The victim that gives, or one that the request asks before it, cannot be reached, or the entry it gives cannot (R320). -/
def State.stealWaits (s : State) (T : Team) : List Cohort → Bool
  | [] => false
  | v :: t =>
    s.routeBroken (dieOf T.core) v.die || s.routeBroken v.die (dieOf T.core) ||
    match v.cistern.spilled with
    | k :: _ =>
      (match s.dispKey (dieOf T.core) T.ctx (BitVec.ofNat 64 (slotVa T.hdr v.idx k)) with
      | some (key, _) => !s.reachable T.core key
      | none => s.stealWaits T t)
    | [] => false

/-- The answer of a steal request reaches its DRAW: the entry goes to the lowest taker without one. -/
def State.stolen (s : State) (T : Team) (slot grp : Nat) (i : Instr) (x : Option Item) : Out :=
  match i with
  | .draw q d _ nw hdr =>
    let T1 := { T with marks := T.marks.filter fun m => m.grp != grp }
    (match x, ((lanesOf (T.frag slot).mask T.lanes).filter fun l => (T.item l).isNone).head? with
    | some x, some l => s.drawEnd (T1.receive q d nw hdr grp l x) slot q true false none
    | _, _ => s.drawEnd T1 slot q false false none)
  | _ => .next s

/-- STEAL_REQUEST: the request is answered. A victim's last entry is delivered in a later cycle than it is won, for in its own cycle
the victim's owner comes first (R15). -/
def execStealRequest (team : Nat) (s : State) : Out :=
  match s.team? team with
  | none => .next s
  | some T =>
    match T.thief, s.cohort? T.launch T.cohort with
    | some (slot, w), some C =>
      (match w.what with
      | .steal grp _ (some (_, cyc, x)) => if s.cycle ≤ cyc then .next s else s.stolen T slot grp w.instr (some x)
      | .steal grp past none =>
        let vs := s.victims C T.hdr past
        -- the request, or its answer, waits at a failed hop (R320)
        if s.stealWaits T vs then .next s else
        let r := s.give T vs
        (match r.2 with
        | some (v, x, true) => .next (r.1.setTeam (T.setSp (T.sp.waits slot { w with what := .steal grp past (some (v, s.cycle, x)) })))
        | some (_, x, false) => r.1.stolen T slot grp w.instr (some x)
        | none => s.stolen T slot grp w.instr none)
      | _ => .next s)
    | _, _ => .next s

/-- REFILL_LAND (R163): the batch is read from its homes and becomes the top of the pad part. -/
def execRefillLand (launch cohort : Nat) (s : State) : Out :=
  match s.cohort? launch cohort, s.launch? launch with
  | some C, some L =>
    (match C.cistern.refill with
    | none => .next s
    | some r =>
      let who := Requester.cistern launch cohort
      let core := C.cores.headD 0
      match s.askSpill who core L.ctx false (r.slots.map (slotVa L.hdr cohort)) with
      | .wait s' => .next s'
      | .trap _ => .next (s.refuse core L.ctx 0 who)
      | .ready =>
        if r.slots.any fun k => !s.reachable core (s.spillKey core L.ctx (slotVa L.hdr cohort k)) then .next s else
        let keyOf := fun (k : Nat) => s.spillKey core L.ctx (slotVa L.hdr cohort k)
        let batch := r.slots.map fun k => (k, s.itemAt (keyOf k))
        let c := C.cistern.land L.hdr.cap batch
        let freed := r.slots.filter fun k => !c.spilled.contains k
        .next (freed.foldl (fun (q : State) k => q.staleSlot L.ctx (keyOf k)) ((s.forget who).storeCistern C L.hdr L.ctx c)))
  | _, _ => .next s

/-! ### DROP (R169) -/

def execDrop (g : Guard) (s : State) : Out :=
  s.withLane fun T slot =>
    let exec := T.execMask (T.frag slot) g
    if exec == 0 then .next (s.setTeam (T.nextL slot))
    else s.commitTurn T fun T1 =>
      s.dropHeld T1.commit slot (lanesOf exec T.lanes) fun s1 T2 => .next (s1.setTeam (T2.commit.nextL slot))

/-! ### LDH and STB (R172, R173) -/

/-- The tile's elements that lie within the record's extents. -/
def Layout.tileElems (l : Layout) (w : Word) : List Idx :=
  let e := tileEdge w
  ((List.range (e * e)).map fun i => (⟨tileCol w + i % e, tileRow w + i / e, 0, 0, 0⟩ : Idx)).filter l.inside

/-- An element address that is not aligned to its format's width. -/
def Layout.tileOdd (l : Layout) (w : Word) : Bool :=
  !l.narrow && decide (l.ety ≤ 16) && (l.tileElems w).any fun i => (l.place i).1 % (l.w / 8) != 0
/-- The record is not one LDH or STB accepts. -/
def Layout.tileBad (l : Layout) (ldh : Bool) : Bool := !l.valid || (ldh && l.ety == 15) || (l.narrow && l.desc.lut)

/-- Bytes of the elements and of their scales, with the lane: read, and written when `wr` (scales are only read). -/
def Layout.tilePieces (l : Layout) (lane : Nat) (w : Word) (wr : Bool) : List (Piece × Bool × Bool) :=
  (l.tileElems w).flatMap fun i =>
    ((l.bytesOf i).map fun a => ((⟨lane, 0, BitVec.ofNat 64 a, 1⟩ : Piece), !wr, wr)) ++
    (l.scaleAt i).toList.map fun a => ((⟨lane, 1, BitVec.ofNat 64 a, 1⟩ : Piece), true, false)

/-- Read the records of the executing lanes by plain loads, check them, and place their elements (R172, R173, R177). `tile` gives a
lane's tile word; LDH alone judges it. The continuation gets the lanes that go on with their records, and a reader of their addresses.
DEDUCED, log 48. -/
def State.tileOp (s : State) (T : Team) (slot : Nat) (exec : LaneMask) (p : Adr) (ldh : Bool) (tile : Nat → Word)
    (k : State → Team → List (Nat × Layout) → (Nat → Word → Nat × Attr) → Out) : Out :=
  let ls := lanesOf exec T.lanes
  let who := Requester.lanes T.id T.trapLevel slot
  let recs := ls.map fun l => ((⟨l, 2, T.addr p l, 64⟩ : Piece), true, false)
  if recs.any fun r => s.translate who T.core T.ctx r.1.va == .miss then s.locateMem' T slot exec false recs fun s1 _ _ => .next s1
  else
    let keys := ls.filterMap fun l => match s.translate who T.core T.ctx (T.addr p l) with
      | .ok key a _ => some (l, key, a)
      | _ => none
    let bytes := keys.flatMap fun x => spanOf x.2.1 64 x.2.2
    if !s.mayPeek T.core (T.frag slot).hist bytes then .next s else
    let lays := keys.map fun x => (x.1, layoutOf (s.peek T.id T.core (T.frag slot).hist x.2.1 64 x.2.2))
    let takes := fun (l : Nat) => !ldh || tileOk (tile l)
    let odd := maskOf ((lays.filter fun x => takes x.1 && x.2.tileOdd (tile x.1)).map (·.1))
    let bad := maskOf ((lays.filter fun x => x.2.tileBad ldh).map (·.1))
    if odd != 0 then s.laneTrap T slot 0x0A
    else if bad != 0 then s.laneTrapMask T slot 0x06 bad
    else
      let elems := lays.flatMap fun x => if takes x.1 then x.2.tilePieces x.1 (tile x.1) (!ldh) else []
      (s.afterPeek T.core bytes).locateMem' T slot exec false (recs ++ elems) fun s1 T1 ps =>
        let on := ps.map (·.p.lane)
        let at' := fun (l : Nat) (va : Word) => match ps.find? fun x => x.p.lane == l && x.p.va == va && x.p.len == 1 with
          | some x => (x.key, x.attr)
          | none => (0, .cached)
        k s1 T1 (lays.filter fun x => on.contains x.1) at'

/-- LDH: one event per lane reads every element when it performs; a tile word that is no tile gives empty at once.
DEDUCED, log 48. -/
def execLdh (g : Guard) (ty : LTy) (d : BitVec 9) (p : Adr) (b : Src) (s : State) : Out :=
  s.withLane fun T slot =>
    let exec := T.execMask (T.frag slot) g
    let ls := lanesOf exec T.lanes
    let n : Names := { srcs := [(p.a, 1), (b, 1)], dst := dstOf ty d }
    s.laneChecks T slot exec n [(p.a, maskWhere ls fun l => (T.addr p l).toNat % 64 != 0)] fun _ =>
      s.tileOp T slot exec p true (fun l => T.srcW b l) fun s1 T1 lays at' =>
        let grp := s1.evId
        let good := lays.filter fun x => tileOk (T.srcW b x.1)
        let T2 := (lays.filter fun x => !tileOk (T.srcW b x.1)).foldl (fun (q : Team) x =>
          q.put ty d x.1 ((putIv ty (fmtOf ty).emptyIv).1, fNV ||| fIL)) T1
        let es := good.map fun x =>
          let elems := (x.2.tileElems (T.srcW b x.1)).map fun i =>
            ((x.2.bytesOf i).map fun a => at' x.1 (BitVec.ofNat 64 a), (x.2.place i).2,
              (x.2.scaleAt i).map fun a => at' x.1 (BitVec.ofNat 64 a))
          ({ id := 0, team := 0, core := 0, grp := 0, lane := x.1, preds := [], key := 0, op := .hull x.2 ty elems,
             dst := .lane d.toNat x.1 ty, item := (match T2.item x.1 with | some h => h.no | none => 0) } : Ev)
        let (s2, T3) := s1.fresh.emit T2 slot grp es
        .next (s2.setTeam ((T3.mark (dstOf ty d) (maskOf (good.map (·.1))) grp).nextL slot))

/-- The value of STB. -/
def stbIn (ty : LTy) (w : Word) : StbIn :=
  match ty with
  | .pt32 => .flt f32 (w.toNat % 2 ^ 32)
  | .pt64 => .flt f64 w.toNat
  | .i64 => .int w.toInt
  | _ => .int w.toNat
def stbRaw (ty : LTy) (w : Word) : Word := if ty == .pt32 then (w.setWidth 32).setWidth 64 else w

/-- The stores of one element: accesses of at most 8 bytes, or, for a packed element, the bits in each byte.
DEDUCED, log 49. -/
def Layout.elemStores (l : Layout) (lane : Nat) (i : Idx) (code : Nat) (at' : Word → Nat × Attr) : List Ev :=
  let mk := fun (a : Nat) (op : EvOp) =>
    let x := at' (BitVec.ofNat 64 a)
    ({ id := 0, team := 0, core := 0, grp := 0, lane := lane, preds := [], key := x.1, attr := x.2, op := op } : Ev)
  let as := l.bytesOf i
  let bit := (l.place i).2
  if l.w % 8 = 0 && bit = 0 then
    (List.range ((as.length + 7) / 8)).map fun c =>
      mk (as.getD (8 * c) 0) (.store (((leBytes as.length code).drop (8 * c)).take 8))
  else
    let m := (2 ^ l.w - 1) * 2 ^ bit
    let v := code % 2 ^ l.w * 2 ^ bit
    as.zipIdx.map fun x => mk x.1 (.patch (BitVec.ofNat 8 (m / 2 ^ (8 * x.2))) (BitVec.ofNat 8 (v / 2 ^ (8 * x.2))))

/-- STB. The flags are those of the conversion, also where no element of the tile is stored (R173). DEDUCED, log 49. -/
def execStb (g : Guard) (ty : LTy) (p : Adr) (b : Src) (s : State) : Out :=
  s.withLane fun T slot =>
    let exec := T.execMask (T.frag slot) g
    let ls := lanesOf exec T.lanes
    let tile := fun (l : Nat) => (match T.item l with | some h => h.tile | none => 0)
    s.laneChecks T slot exec { srcs := [(p.a, 1), (b, 1)] } [(p.a, maskWhere ls fun l => (T.addr p l).toNat % 64 != 0)] fun _ =>
      let bare := maskWhere ls fun l => (match T.item l with | some h => h.kind != 1 | none => true)
      if bare != 0 then s.laneTrapMask T slot 0x0B bare
      else s.tileOp T slot exec p false tile fun s1 T1 lays at' =>
        let scales := lays.flatMap fun x => (x.2.tileElems (tile x.1)).flatMap fun i =>
          (x.2.scaleAt i).toList.map fun a => at' x.1 (BitVec.ofNat 64 a)
        if !s1.mayPeek T.core (T.frag slot).hist scales then .next s else
        let rd := fun (l a : Nat) => s1.peekByte T.id T.core (T.frag slot).hist (at' l (BitVec.ofNat 64 a))
        let conv := fun (x : Nat × Layout) (sc : Nat) => x.2.convert (stbIn ty (T.srcW b x.1)) (stbRaw ty (T.srcW b x.1)) sc
        let all := lays.flatMap fun x => (x.2.tileElems (tile x.1)).map fun i => (x, i, conv x (x.2.scaleCode (rd x.1) i))
        let es := all.flatMap fun e => e.1.2.elemStores e.1.1 e.2.1 e.2.2.1 (at' e.1.1)
        let none := lays.filter fun x => (x.2.tileElems (tile x.1)).isEmpty
        let T2 := none.foldl (fun (q : Team) x => q.orFlags x.1 (conv x 127).2)
          (all.foldl (fun (q : Team) e => q.orFlags e.1.1 e.2.2.2) T1)
        let (s2, T3) := (s1.afterPeek T.core scales).fresh.emit T2 slot s1.evId es
        .next (s2.setTeam (T3.nextL slot))

/-! ### QUART, ELEM and element teams (R174 to R176) -/

/-- Lanes without a tile item. -/
def Team.noTile (T : Team) (ls : List Nat) : LaneMask :=
  maskWhere ls fun l => (match T.item l with | some h => h.kind != 1 | none => true)

/-- The four quarters of a tile item, in push order. -/
def quarters (h : Held) : List Item :=
  let e := tileEdge h.tile / 2
  let r := tileRow h.tile
  let c := tileCol h.tile
  [(r + e, c + e), (r + e, c), (r, c + e), (r, c)].map fun x =>
    itemOf (headerWord (h.depth + 1) 1 0 h.tag) [tileWord x.1 x.2 e]

/-- The tile may not be quartered. -/
def Held.whole (x : Held) (h : Header) : Bool :=
  x.wide || decide (h.depthMax < x.depth + 1) || decide (tileEdge x.tile / 2 < h.edgeMin)

/-- An LDH of one of the lanes is still to set WIDE of the item the lane holds (R161). -/
def State.hullPending (s : State) (T : Team) (ls : List Nat) : Bool :=
  s.evs.any fun e => e.team == T.id && ls.contains e.lane && (match e.op with | .hull .. => true | _ => false) &&
    (match T.item e.lane with | some h => e.item == h.no | none => false)

/-- A fragment that waits for its element teams to start; the items stay with the lanes until they do. DEDUCED, log 46. -/
def Team.awaitElems (T : Team) (slot : Nat) (i : Instr) (exec : LaneMask) (ls : List Nat) (entry : Int) (cycle : Nat) : Team :=
  T.setSp (T.sp.waits slot ⟨i, exec, .elems (maskOf ls) entry, cycle⟩)

/-- The fragment goes on past QUART and its ELEM word. -/
def Team.nextQ (T : Team) (slot : Nat) : Team :=
  let T1 := T.countL slot
  let sp := T1.sp
  let f := sp.frag slot
  T1.setSp (sp.moved slot { f with pc := f.pc + 2, seq := true, wait := none, again := false })

/-- The target of the ELEM word at a counter, or the cause QUART takes. -/
def State.elemWord (s : State) (T : Team) (pc : Int) : Option (Except Nat Int) :=
  match s.fetchLane T pc true with
  | .bytes bs => (match decodeLane (BitVec.ofNat 96 (leNat bs)) with
    | .ok (.elem tt) => some (.ok (pc + tt.toInt))
    | _ => some (.error 0x01))
  | .wait => none
  | .missing => some (.error 0x04)
  | .bounds => some (.error 0x01)
  | .poisoned => some (.error 0x06)

def execQuart (g : Guard) (s : State) : Out :=
  s.withLane fun T slot =>
    let f := T.frag slot
    if f.wait.isSome then .next s
    else match s.elemWord T (f.pc + 1) with
      | none => .next s
      | some (.error c) => s.laneTrap T slot c
      | some (.ok entry) =>
        let exec := T.execMask f g
        let ls := lanesOf exec T.lanes
        let bare := if T.isOrdinary then T.noTile ls else exec
        if exec == 0 && T.isOrdinary then .next (s.setTeam (T.nextQ slot))
        else if bare != 0 then s.laneTrapMask T slot 0x0B bare
        else if s.hullPending T ls then .next s
        else s.withCistern T slot exec fun C =>
          s.commitTurn T fun T1 =>
            let item := fun (l : Nat) => (T.item l).getD {}
            let split := ls.filter fun l => !(item l).whole T.hdr
            let whole := ls.filter fun l => (item l).whole T.hdr
            s.prepPush T1 slot exec C (4 * split.length) fun s1 =>
              let s2 := (s1.pushItems T1 (split.flatMap fun l => quarters (item l))).subLive T.launch split.length
              let T2 := (split.foldl (fun (q : Team) l => q.setItem l none) T1).commit
              .next (s2.setTeam (if whole.isEmpty then T2.nextQ slot else T2.awaitElems slot (.quart g) exec whole entry s.cycle))

def execElem (tt : BitVec 20) (s : State) : Out :=
  s.withLane fun T slot =>
    let f := T.frag slot
    let ls := lanesOf f.mask T.lanes
    if f.wait.isSome then .next s
    else
      let bare := if T.isOrdinary then T.noTile ls else f.mask
      if bare != 0 then s.laneTrapMask T slot 0x0B bare
      else s.commitTurn T fun T1 =>
        if !s.releaseOk T.id T.core f.hist .device then .next (s.setTeam T1.commit)
        else .next (s.setTeam (T1.commit.awaitElems slot (.elem tt) f.mask ls (f.pc + tt.toInt) s.cycle))

/-- Whether an element team may start on the spawning team's core, and on what: the free pools, or (true) the cohort's reservation.
DEDUCED, log 47. -/
def State.elementPlace (s : State) (T : Team) (words : Nat) : Option Bool :=
  if s.roomFor T.core (takes words T.vbud T.sbud) then some false
  else match s.cohort? T.launch T.cohort with
    | some C =>
      if C.resv.isEmpty || decide (32 < words) || s.teams.any fun X => X.launch == T.launch && X.cohort == T.cohort && X.fromResv then none
      else some true
    | none => none

/-- The element team of a lane's tile. -/
def elementTeam (T : Team) (L : Launch) (id : Nat) (place : Nat × Nat) (resv : Bool) (lane : Nat) (tile : Word)
    (entry : Int) : Team :=
  let e := tileEdge tile
  let T0 := { startTeam id L T.cohort T.tidx T.core place with
    sort := .element T.id lane (tileRow tile) (tileCol tile) e
    words := (e * e + 31) / 32, mask := fullMask (e * e), fromResv := resv, clock := if T.counted then T.clock else 0
    widOf := SMap.wr 0 [] 0 (T.wid lane) }
  let T1 := (List.range (e * e)).foldl (fun (q : Team) i => q.setV 0 i
    (BitVec.ofNat 64 ((tileRow tile + i / e) % 2 ^ 32 + (tileCol tile + i % e) % 2 ^ 32 * 2 ^ 32))) T0
  T1.runBlock { entry := entry, args := match T.block with | some b => b.args | none => [] }

/-- The element team of a lane has started: the lane gives up its item; the last one lets the fragment go on. -/
def Team.elemStarted (T : Team) (slot lane : Nat) (w : LaneWait) (p : LaneMask) (entry : Int) : Team :=
  let T1 := T.setItem lane none
  let p' := p &&& ~~~(laneBit lane)
  if p' != 0 then T1.setSp (T1.sp.waits slot { w with what := .elems p' entry })
  else match w.instr with
    | .quart _ => T1.nextQ slot
    | _ => T1.nextL slot

/-- ELEMENT_TEAM_START: the lowest lane whose team has yet to start. DEDUCED, log 46. -/
def execElementTeamStart (team lane : Nat) (s : State) : Out :=
  match s.team? team with
  | none => .next s
  | some T =>
    match T.sp.live.findSome? (fun p => match p.2.wait with
        | some w => (match w.what with
          | .elems m entry => if lowest m T.lanes == some lane then some (p.1, w, m, entry) else none
          | _ => none)
        | none => none), s.launch? T.launch with
    | some (slot, w, m, entry), some L =>
      let tile := match T.item lane with | some h => h.tile | none => 0
      let words := (tileEdge tile * tileEdge tile + 31) / 32
      (match s.elementPlace T words with
      | none => .next s
      | some resv =>
        (match s.partition T.core with
        | none => .next s
        | some place =>
          let E := elementTeam T L s.evId place resv lane tile entry
          let s1 := s.fresh.setTeam (T.elemStarted slot lane w m entry)
          let s2 := { s1 with teams := s1.teams ++ [E] }
          .next (State.acquire (s2.modLaunch T.launch fun L => { L with cores := insertNat T.core L.cores }) T.core .device)))
    | _, _ => .next s

end Sys2Proof.Machine
end

