-- ==== Sys2Proof/Machine/Tickets.lean ====
section
/-!
DEFINITION. Tickets (R285 to R287).
-/
namespace Sys2Proof.Machine

/-- The unit of a device address: its home die and slice. DEDUCED, log 50. -/
def State.unitOf (s : State) (key : Nat) : Nat × Nat := (homeDie key, s.sliceOf key)
/-- Host memory, reached through the host or a peer port. -/
def inHost (key : Nat) : Bool := isHost key || isPeer key

/-- Bits below the ordinal of a level (R285). -/
def Header.below (h : Header) (k : Nat) : Nat := (h.widths.take k).foldl (· + ·) 0
def Header.ordinal (h : Header) (k : Nat) (wid : Nat) : Nat := wid / 2 ^ h.below k

/-! ### Binding and the object's words -/

def State.ticket? (s : State) (key : Nat) : Option Ticket := s.tickets.find? fun t => t.key == key
def State.turnOf (s : State) (key : Nat) : Nat := leNat (s.homeRead key 8)
def State.poisonOf (s : State) (key : Nat) : Bool := (leNat (s.homeRead (key + 8) 8)).testBit 0

/-- The unit accepts an object for a launch: bound to it, or unbound with room for one more (R285). -/
def State.bindable (s : State) (launch key : Nat) : Bool :=
  match s.ticket? key with
  | some t => t.launch == launch
  | none => decide ((s.tickets.filter fun t => s.unitOf t.key == s.unitOf key).length < 64)
def State.bind (s : State) (launch level key : Nat) : State :=
  match s.ticket? key with
  | some _ => s
  | none => { s with tickets := s.tickets ++ [⟨key, launch, level, []⟩] }

/-- Bind the objects of lanes in ascending order; the lanes that fail. -/
def State.bindAll (s : State) (launch level : Nat) : List Placed → State × LaneMask
  | [] => (s, 0)
  | x :: t =>
    if inHost x.key || !s.bindable launch x.key then
      let r := s.bindAll launch level t
      (r.1, laneBit x.p.lane ||| r.2)
    else (s.bind launch level x.key).bindAll launch level t

/-! ### Passing the turn (R286) -/

def State.setTurn (s : State) (key g : Nat) : State := s.homeWrite 0 key (leBytes 8 g)

/-- Held passes whose turn has come take effect. -/
def State.cascade (s : State) (key : Nat) : Nat → State
  | 0 => s
  | n + 1 =>
    match s.ticket? key with
    | none => s
    | some t =>
      let g := s.turnOf key
      if t.held.contains g then
        let ts := s.tickets.map fun (x : Ticket) => if x.key == key then { x with held := x.held.filter (· != g) } else x
        (State.setTurn { s with tickets := ts } key (g + 1)).cascade key n
      else s

/-- The turn moves past g, and held passes follow. DEDUCED, log 64. -/
def State.passTo (s : State) (key g : Nat) : State :=
  (s.setTurn key (g + 1)).cascade key (match s.ticket? key with | some t => t.held.length | none => 0)

/-- A pass for g: now, held, or ignored. -/
def State.pass (s : State) (key g : Nat) : State :=
  let now := s.turnOf key
  if now = g then s.passTo key g
  else if now < g then
    { s with tickets := s.tickets.map fun x => if x.key == key then { x with held := insertNat g x.held } else x }
  else s

/-! ### Teams of a group (R287) -/

/-- A team of group g of a launch is live: running, or not started yet. An element team is in no ticket group (R176). -/
def State.groupLive (s : State) (L : Launch) (k g : Nat) : Bool :=
  (s.teams.any fun T => T.launch == L.id && T.isOrdinary && L.hdr.ordinal k (T.wid 0).toNat == g) ||
  (List.range L.hdr.cohorts).any fun c => !L.placed.contains c &&
    (List.range L.hdr.teams).any fun t => L.hdr.ordinal k (L.hdr.wid 0 t c) == g

/-- An automatic pass is due on a ticket of a launch: no team of the group whose turn it is is live, and the launch has that group or a
later one. -/
def State.passDue (s : State) (launch : Nat) : Bool :=
  match s.launch? launch with
  | none => false
  | some L => s.tickets.any fun t => t.launch == launch && !s.groupLive L t.level (s.turnOf t.key) &&
      (List.range L.hdr.cohorts).any fun c => (List.range L.hdr.teams).any fun i =>
        decide (s.turnOf t.key ≤ L.hdr.ordinal t.level (L.hdr.wid 0 i c))

/-! ### The instructions -/

/-- Translate the objects of the executing lanes, bind them, and go on. -/
def State.ticketOp (s : State) (T : Team) (slot : Nat) (exec : LaneMask) (p : Adr) (lv : Nat)
    (k : State → Team → List Placed → Out) : Out :=
  s.locateMem T slot exec false false false ((lanesOf exec T.lanes).map fun l => ⟨l, 0, T.addr p l, 16⟩) fun s2 T2 ps =>
    let (s3, bad) := s2.bindAll T.launch lv ps
    if bad != 0 then s2.laneTrapMask T2 slot 0x06 bad else k s3 T2 ps

def Team.ordinal (T : Team) (lv l : Nat) : Nat := T.hdr.ordinal lv (T.wid l).toNat

/-- The answer of a lane: none while it waits. DEDUCED, log 64. -/
def State.ticketAnswer (s : State) (key g : Nat) : Option Tri :=
  if s.poisonOf key then some .u
  else if s.turnOf key = g then some .t else if g < s.turnOf key then some .f else none

/-- TKWAIT: each poll answers the lanes whose turn has come; the last answer acquires at device scope. In a DET launch a poll follows
the passes that are due by then (R317). DEDUCED, log 72. -/
def execTkwait (g : Guard) (d : BitVec 4) (p : Adr) (lv : BitVec 3) (s : State) : Out :=
  s.withLane fun T slot =>
    let f := T.frag slot
    let look := fun (T1 : Team) (exec pending : LaneMask) =>
      if heldBack (s.older f.hist) || (T1.counted && s.passDue T1.launch) then .next s
      else s.ticketOp T1 slot pending p lv.toNat fun s2 T2 ps =>
        let ans := ps.map fun x => (x.p.lane, s2.ticketAnswer x.key (T2.ordinal lv.toNat x.p.lane))
        let T3 := ans.foldl (fun q a => match a.2 with | some v => q.setQ d.toNat a.1 v | none => q) T2
        let left := maskOf ((ans.filter fun a => a.2.isNone).map (·.1))
        let s3 := s2.acquire T2.core .device
        if left == 0 then
          .next (s3.setTeam (if f.wait.isSome then T3.waitOver T3.trapLevel slot else T3.nextL slot))
        else
          let T4 := if f.wait.isSome || T3.counted then T3 else T3.countL slot
          .next (s3.setTeam (T4.setSp (T4.sp.waits slot ⟨.tkwait g d p lv, exec, .tickets left T3.counted, s.cycle⟩)))
    match f.wait with
    | none =>
      let exec := T.execMask f g
      s.laneChecks T slot exec { srcs := [(p.a, 1)] } [(p.a, maskWhere (lanesOf exec T.lanes) fun l => (T.addr p l).toNat % 16 != 0)] fun _ =>
        if exec == 0 then .next (s.setTeam (T.nextL slot)) else s.laneTurn T fun T1 => look T1 exec exec
    | some ⟨_, exec, .tickets pending _, _⟩ => s.laneTurn T fun T1 => look T1 exec pending
    | some _ => .next s

/-- TKPASS: one pass for each object and distinct ordinal, once the lanes' earlier writes are released at device scope. -/
def execTkpass (g : Guard) (p : Adr) (lv : BitVec 3) (s : State) : Out :=
  s.withLane fun T slot =>
    let exec := T.execMask (T.frag slot) g
    s.laneChecks T slot exec { srcs := [(p.a, 1)] } [(p.a, maskWhere (lanesOf exec T.lanes) fun l => (T.addr p l).toNat % 16 != 0)] fun _ =>
      if exec == 0 then .next (s.setTeam (T.nextL slot))
      else s.commitTurn T fun T1 =>
        s.ticketOp T1 slot exec p lv.toNat fun s2 T2 ps =>
          if !s.releaseOk T.id T.core (T.frag slot).hist .device then .next (s.setTeam T1.commit)
          else
            let todo := ps.foldl (fun (r : List (Nat × Nat)) x =>
              let k := (x.key, T2.ordinal lv.toNat x.p.lane)
              if r.contains k then r else r ++ [k]) []
            .next ((todo.foldl (fun q x => q.pass x.1 x.2) s2).setTeam (T2.commit.nextL slot))

/-! ### The unit passes a turn itself (R287) -/

/-- What teams that have retired wrote on some cores has reached its homes: nothing is dirty there, and every write-back is acknowledged. -/
def State.writtenBack (s : State) (cores : List Nat) : Bool :=
  (s.lines.all fun l => !cores.contains l.core || l.dirty == 0) &&
  s.msgs.all fun m => !cores.contains m.core || (match m.body with | .writeBack .. | .reply none _ => false | _ => true)

/-- The automatic pass is a release at device scope of what the group's teams wrote (R257, R287). -/
def execTicketAutoPass (ticket : Nat) (s : State) : Out :=
  match s.ticket? ticket with
  | none => .next s
  | some t =>
    match s.launch? t.launch with
    | none => .next s
    | some L =>
      let g := s.turnOf ticket
      if s.groupLive L t.level g || !s.writtenBack L.cores then .next s
      else
        let bad := L.halted.any fun w => L.hdr.ordinal t.level w == g
        let s1 := if bad then s.homeWrite 0 (ticket + 8) (leBytes 8 (leNat (s.homeRead (ticket + 8) 8) ||| 1)) else s
        .next (s1.passTo ticket g)

end Sys2Proof.Machine
end

