-- ==== Sys2Proof/Machine/Confluence.lean ====
section
/-!
DEFINITION. Contended objects and active messages (R240 to R244, R277 to R284): registrations, requests, windows, waves,
replies, message queues and handlers.
-/
namespace Sys2Proof.Machine

/-! ### Table entries (R277) -/

/-- An entry of a method or handler table. -/
structure Method where
  entry : Nat
  budget : Nat
  rb : Nat
deriving DecidableEq, Repr

/-- The entry two words describe; none when it is invalid. -/
def methodOf (w0 w1 : Word) : Option Method :=
  let m : Method := ⟨fieldAt w0 0 24, fieldAt w0 32 6, fieldAt w0 40 4⟩
  if fieldAt w0 24 8 = 0 && fieldAt w0 38 2 = 0 && fieldAt w0 44 20 = 0 && w1 = 0 && decide (1 ≤ m.budget) &&
      decide (m.budget ≤ 40) && [0, 1, 2, 4, 8].contains m.rb then some m else none

/-- Read an entry of a table on a die; none when it is invalid or not mapped. -/
def State.method (s : State) (die ctx table index : Nat) : Option Method :=
  match s.dispKey die ctx (BitVec.ofNat 64 (table + 16 * index)), s.dispKey die ctx (BitVec.ofNat 64 (table + 16 * index + 8)) with
  | some (k, _), some (k', _) => methodOf (s.word k) (s.word k')
  | _, _ => none

/-! ### Registrations and requests at a unit (R278 to R280) -/

def State.obj? (s : State) (o : Nat) : Option ObjReg := s.objs.find? fun x => x.id == o
def State.modObj (s : State) (o : Nat) (f : ObjReg → ObjReg) : State :=
  { s with objs := s.objs.map fun (x : ObjReg) => if x.id == o then f x else x }

/-- The registration of a launch that holds an address, at the address's unit. DEDUCED, log 50. -/
def State.objFor (s : State) (launch key : Nat) : Option ObjReg :=
  s.objs.find? fun o => o.launch == launch && s.unitOf o.key == s.unitOf key && decide (o.key ≤ key) && decide (key < o.key + o.len)

def ReqKind.isComb : ReqKind → Bool | .comb .. => true | _ => false
def ReqKind.isRegister : ReqKind → Bool | .register .. => true | _ => false
def ReqKind.meth : ReqKind → Nat | .comb m _ => m | _ => 0
def ReqAt.isInWave : ReqAt → Bool | .inWave _ => true | _ => false

def State.setReq (s : State) (r : Req) : State := { s with reqs := s.reqs.map fun x => if x.id == r.id then r else x }
def State.endReq (s : State) (i : Nat) : State := { s with reqs := s.reqs.filter fun x => x.id != i }

/-- The next request of a core to arrive at its unit: requests from one core to one unit keep their order (R243), and those whose route
crosses a failed hop wait there (R320). -/
def State.arriving (s : State) (i : Nat) : Option Req :=
  match s.reqs.find? fun r => r.id == i && r.place == .sent && !s.routeBroken (dieOf r.core) (homeDie r.key) with
  | none => none
  | some r =>
    if (s.reqs.takeWhile fun x => x.id != i).any fun x => x.place == .sent && x.core == r.core && s.unitOf x.key == s.unitOf r.key
    then none else some r

/-- The requests that one lane instruction sends. -/
def State.sendReqs (s : State) (T : Team) (slot : Nat) (ps : List Placed) (mk : Nat → ReqKind) (reg qs : Nat) : State :=
  let h := s.liveHist (T.frag slot).hist
  let new := ps.zipIdx.map fun x => ({
    id := s.evId + 1 + x.2, team := T.id, launch := T.launch, core := T.core, ctx := T.ctx, lane := x.1.p.lane, grp := s.evId
    kind := mk x.1.p.lane, va := x.1.p.va.toNat, key := x.1.key, wid := T.wid x.1.p.lane, cohort := (T.cohortIdx x.1.p.lane).toNat
    clock := T.clock, reg := reg, qs := qs, preds := h, region := T.regionTag, h := T.trapLevel, slot := slot } : Req)
  { s with evId := s.evId + 1 + ps.length, reqs := s.reqs ++ new }

/-- Lanes whose address lies in host memory. -/
def hostLanes (ps : List Placed) : LaneMask := maskOf ((ps.filter fun x => inHost x.key).map (·.p.lane))

/-- Requests a core may have awaiting replies (R279). -/
def maxRequests : Nat := 1024

/-- COMB. Under DET its turn lasts until its requests have reached their units, so that they arrive in the order of the turns
(R241, R312). DEDUCED, log 80. -/
def execComb (g : Guard) (d : BitVec 9) (p : Adr) (b : Src) (qs : BitVec 4) (meth : BitVec 8) (s : State) : Out :=
  s.orFinish fun T slot =>
    let exec := T.execMask (T.frag slot) g
    let ls := lanesOf exec T.lanes
    s.laneChecks T slot exec { srcs := [(p.a, 1), (b, 1)], dst := [d.toNat] }
        [(p.a, maskWhere ls fun l => (T.addr p l).toNat % 8 != 0)] fun _ =>
      if exec == 0 then .next (s.setTeam (T.nextL slot))
      else if T.hdr.methods = 0 then s.laneTrapMask T slot 0x06 exec
      else s.laneTurn T fun T1 =>
        s.locateMem T1 slot exec false false false (ls.map fun l => ⟨l, 0, T1.addr p l, 8⟩) fun s2 T2 ps =>
          if hostLanes ps != 0 then s2.laneTrapMask T2 slot 0x06 (hostLanes ps)
          else if maxRequests < (s.reqs.filter fun r => r.core == T.core && r.kind.isComb).length + ps.length then .next s
          else
            let s3 := s2.sendReqs T2 slot ps (fun l => .comb meth.toNat (T.srcW b l)) d.toNat qs.toNat
            s3.goOn ((T2.mark [d.toNat] (maskOf (ps.map (·.p.lane))) s2.evId).commit) slot s2.evId true (.comb g d p b qs meth) exec

/-- A registration that is withdrawn: requests it holds are answered as unregistered. -/
def State.withdraw (s : State) (o : Nat) : State :=
  { s with
    objs := s.objs.filter fun x => x.id != o
    reqs := s.reqs.map fun (r : Req) =>
      if r.obj == some o && r.kind.isComb && (r.place == .held || r.place.isInWave) then
        { r with place := .answered, status := .u, value := 0, keep := false } else r }

/-- Every registration of an OBJREG is answered: it is done, or it takes its cause. While a handler runs, or a trap is to be taken, the
answers stay at the core and the wait as it is (R327). -/
def State.registered (s : State) (r : Req) (rs : List Req) : Out :=
  let bad := maskOf ((rs.filter (·.bad)).map (·.lane))
  let s1 := { s with reqs := s.reqs.filter fun x => !(x.team == r.team && x.grp == r.grp) }
  let s2 := if bad == 0 then s1
    else (rs.filterMap fun x => if x.fresh then x.obj else none).foldl State.withdraw s1
  match s.team? r.team with
  | none => .next s2
  | some T =>
    if r.dropped then .next s2
    else if T.trapLevel != r.h || T.raised.isSome then .next s
    else if bad != 0 then s2.laneTrapMask T r.slot 0x06 bad
    else .next (s2.setTeam (T.waitOver r.h r.slot))

/-- OBJREG: the fragment waits until every lane's registration is answered; answers that came back while a handler ran are taken when
the fragment goes on with its wait. -/
def execObjreg (g : Guard) (p : Adr) (b : Src) (s : State) : Out :=
  s.withLane fun T slot =>
    let f := T.frag slot
    if f.wait.isSome then
      let rs := s.reqs.filter fun r => r.team == T.id && r.h == T.trapLevel && r.slot == slot && r.kind.isRegister && !r.dropped
      match rs with
      | r :: _ => if rs.all fun x => x.place == .back then s.registered r rs else .next s
      | [] => .next s
    else
      let exec := T.execMask f g
      let ls := lanesOf exec T.lanes
      s.laneChecks T slot exec { srcs := [(p.a, 1), (b, 1)] } [(p.a, maskWhere ls fun l => (T.addr p l).toNat % 8 != 0)] fun _ =>
        if exec == 0 then .next (s.setTeam (T.nextL slot))
        else if T.hdr.methods = 0 then s.laneTrapMask T slot 0x06 exec
        else s.locateMem T slot exec false false false (ls.map fun l => ⟨l, 0, T.addr p l, 8⟩) fun s2 T2 ps =>
          if hostLanes ps != 0 then s2.laneTrapMask T2 slot 0x06 (hostLanes ps)
          else
            let word := fun (l : Nat) => T.srcW b l
            let s3 := s2.sendReqs T2 slot ps (fun l => .register (fieldAt (word l) 0 32) (fieldAt (word l) 32 16) (fieldAt (word l) 48 16)) 0 0
            let T3 := T2.countL slot
            .next (s3.setTeam (T3.setSp (T3.sp.waits slot ⟨.objreg g p b, exec, .objreg (maskOf (ps.map (·.p.lane))), s.cycle⟩)))

/-- OBJCLR: a clear goes to the unit of each lane's address; the fragment goes on. -/
def execObjclr (g : Guard) (p : Adr) (s : State) : Out :=
  s.withLane fun T slot =>
    let exec := T.execMask (T.frag slot) g
    s.laneChecks T slot exec { srcs := [(p.a, 1)] } [] fun _ =>
      s.locateMem T slot exec false false false ((lanesOf exec T.lanes).map fun l => ⟨l, 0, T.addr p l, 1⟩) fun s2 T2 ps =>
        .next ((s2.sendReqs T2 slot ps (fun _ => .clear) 0 0).setTeam (T2.nextL slot))

def State.heldFor (s : State) (o : Nat) : List Req := s.reqs.filter fun r => r.obj == some o && r.place == .held
def State.isDet (s : State) (l : Nat) : Bool := match s.launch? l with | some L => L.hdr.det | none => false

/-- Every team of a DET launch that has not retired has passed the largest clock held; one not yet started counts with 0 (R241). -/
def State.passed (s : State) (o : ObjReg) : Bool :=
  let top := (s.heldFor o.id).foldl (fun n r => max n r.clock) 0
  (s.launch? o.launch).any fun L => decide (L.placed.length = L.hdr.cohorts) &&
    s.teams.all fun T => T.launch != o.launch || !T.counted || decide (top < T.clock)

/-- The open window of an object is due to close (R240; in a DET launch R241). -/
def State.windowDue (s : State) (o : ObjReg) : Bool :=
  match o.window with
  | none => false
  | some (opened, last) =>
    decide (32 ≤ (s.heldFor o.id).length) ||
    (if s.isDet o.launch then s.passed o
     else decide (opened + (if o.win = 0 then 64 else o.win) ≤ s.cycle) || decide (last + 16 ≤ s.cycle))

/-- REQUEST_ARRIVAL: a COMB request, released at device scope, reaches its unit. A window that is due closes before it takes another. -/
def execRequestArrival (req : Nat) (s : State) : Out :=
  match s.arriving req with
  | none => .next s
  | some r =>
    if !r.kind.isComb || !s.releaseOk r.team r.core r.preds .device then .next s
    else match s.objFor r.launch r.key with
      | none => .next (s.setReq { r with place := .answered, status := .u, value := 0 })
      | some o =>
        let s1 := { s.endReq req with reqs := (s.endReq req).reqs ++ [{ r with place := .held, obj := some o.id }] }
        if s.windowDue o then .next s
        else .next (match o.window with
          | some (w, _) => s1.modObj o.id fun x => { x with window := some (w, s.cycle) }
          | none => s1.openWindow o.id)

/-- What a unit makes of a registration: refused, equal to one in force, or new. -/
inductive Registered where
  | bad
  | same (obj : Nat)
  | new
deriving DecidableEq, Repr

def State.judgeReg (s : State) (r : Req) (len mbase win : Nat) : Registered :=
  let here := s.objs.filter fun o => s.unitOf o.key == s.unitOf r.key
  if len = 0 || len % 8 != 0 then .bad
  else match here.find? fun o => o.launch == r.launch && o.key == r.key && o.len == len && o.mbase == mbase && o.win == win with
    | some o => .same o.id
    | none =>
      if (here.any fun o => overlap (o.key, o.len) (r.key, len)) || decide (256 ≤ here.length) then .bad else .new

def execRegistrationArrival (req : Nat) (s : State) : Out :=
  match s.arriving req with
  | none => .next s
  | some r =>
    match r.kind with
    | .register len mbase win =>
      .next (match s.judgeReg r len mbase win with
        | .bad => s.setReq { r with place := .answered, bad := true }
        | .same o => s.setReq { r with place := .answered, obj := some o }
        | .new =>
          let new : ObjReg := { id := s.evId, launch := r.launch, key := r.key, va := r.va, ctx := r.ctx, len := len, mbase := mbase, win := win }
          State.setReq { s.fresh with objs := s.objs ++ [new] } { r with place := .answered, obj := some s.evId, fresh := true })
    | _ => .next s

/-- OBJCLR reaches the unit. -/
def execObjclrArrival (req : Nat) (s : State) : Out :=
  match s.arriving req with
  | none => .next s
  | some r =>
    if r.kind == .clear then
      .next (match s.objFor r.launch r.key with
        | some o => (s.endReq req).modObj o.id fun x => { x with poisoned := false }
        | none => s.endReq req)
    else .next s

/-! ### Windows (R240, R241, R280) -/

def Req.before (a b : Req) : Bool := a.clock < b.clock || (a.clock == b.clock && a.wid.toNat < b.wid.toNat)
def insertReq (r : Req) : List Req → List Req
  | [] => [r]
  | a :: t => if r.before a then r :: a :: t else a :: insertReq r t

/-- Pack requests, given oldest or least first: those with the first one's method index, up to 32. A poisoned object answers
them false. -/
def State.packWave (s : State) (o : ObjReg) (rs : List Req) : State :=
  let m := (rs.headD default).kind.meth
  let take := ((rs.filter fun r => r.kind.meth == m).take 32).map (·.id)
  let s1 := s.modObj o.id fun x => { x with window := none }
  if o.poisoned then
    let no := fun (r : Req) => if take.contains r.id then { r with place := .answered, status := .f, value := 0 } else r
    State.openWindow { s1 with reqs := s1.reqs.map no } o.id
  else
    { s1 with
      reqs := s1.reqs.map fun (r : Req) => match take.zipIdx.find? fun x => x.1 == r.id with
        | some x => { r with place := .inWave x.2 }
        | none => r
      objs := s1.objs.map fun (x : ObjReg) => if x.id == o.id then { x with packed := take } else x }

/-- WINDOW_CLOSE, outside DET. -/
def execWindowClose (obj : Nat) (s : State) : Out :=
  match s.obj? obj with
  | none => .next s
  | some o =>
    if !s.isDet o.launch && s.windowDue o then .next (s.packWave o (s.heldFor obj)) else .next s

/-- WINDOW_CLOSE_DET: 32 requests are held, or every team of the launch has passed the largest clock held. -/
def execWindowCloseDet (obj : Nat) (s : State) : Out :=
  match s.obj? obj with
  | none => .next s
  | some o =>
    if s.isDet o.launch && s.windowDue o then .next (s.packWave o ((s.heldFor obj).foldl (fun r x => insertReq x r) [])) else .next s

/-! ### Waves (R242, R243, R281, R282) -/

/-- The cores of the cluster paired with a unit. -/
def unitCores (u : Nat × Nat) : List Nat := [32 * u.1 + 2 * u.2, 32 * u.1 + 2 * u.2 + 1]

/-- The requests of a wave, in lane order. -/
def State.packedReqs (s : State) (o : ObjReg) : List Req := o.packed.filterMap fun i => s.reqs.find? fun r => r.id == i

/-- The method of an object's packed requests. -/
def State.waveMethod (s : State) (o : ObjReg) (L : Launch) : Option Method :=
  s.method (s.unitOf o.key).1 o.ctx L.hdr.methods (o.mbase + ((s.packedReqs o).headD default).kind.meth)

/-- The team of a wave. -/
def waveTeam (L : Launch) (o : ObjReg) (m : Method) (rs : List Req) (id core : Nat) (place : Nat × Nat) : Team :=
  let lanes := rs.zipIdx
  let T0 := { startTeam id L 0 0 core place with
    sort := .wave o.id, pri := 7, words := 1, vbud := 8 * m.budget, sbud := 16, tvec := noHandler
    mask := fullMask rs.length
    widOf := lanes.foldl (fun q x => SMap.wr 0 q x.2 x.1.wid) []
    cohortOf := lanes.foldl (fun q x => SMap.wr 0 q x.2 (BitVec.ofNat 64 x.1.cohort)) [] }
  let T1 := lanes.foldl (fun (q : Team) x => q.setV 0 x.2 (match x.1.kind with | .comb _ a => a | _ => 0)) T0
  T1.runBlock { entry := m.entry, args := [BitVec.ofNat 64 o.va] }

/-- WAVE_START: once a core of the paired cluster has the resources and the preload span; where both have, the lower one (R242).
DESIGN CHOICE, log 89. -/
def execWaveStart (obj : Nat) (s : State) : Out :=
  match s.obj? obj with
  | none => .next s
  | some o =>
    match s.launch? o.launch with
    | none => .next s
    | some L =>
      if o.packed.isEmpty || o.wave.isSome then .next s
      else match s.waveMethod o L with
        | none => .next (s.endWave obj)
        | some m =>
          let ok := fun (k : Nat) => s.roomFor k (takes 1 (8 * m.budget) 16) && s.spanReady k L && (s.partition k).isSome
          (match (unitCores (s.unitOf o.key)).find? ok with
          | none => .next s
          | some core =>
            let W := waveTeam L o m (s.packedReqs o) s.evId core ((s.partition core).getD (0, 0))
            let s1 := s.fresh.modObj obj fun x => { x with wave := some W.id }
            let s2 := { s1 with teams := s1.teams ++ [W] }
            .next (State.acquire (s2.modLaunch L.id fun L => { L with cores := insertNat core L.cores }) core .device))

/-- The reply of a lane of a wave: the low RB bytes, zero-extended. -/
def replyValue (rb : Nat) (w : Word) : Word := BitVec.ofNat 64 (w.toNat % 2 ^ (8 * rb))

/-- CRET's replies. -/
def State.replyAll (s : State) (T : Team) (o : Nat) (exec : LaneMask) (a : BitVec 4) (rb : Nat) : State :=
  { s with reqs := s.reqs.map fun (r : Req) =>
      if r.obj == some o then
        match r.place with
        | .inWave l =>
          if exec.getLsbD l then { r with place := .answered, status := T.qv a.toNat l, value := replyValue rb (T.v 0 l), keep := rb == 0 }
          else { r with place := .answered, status := .u, value := 0, keep := rb == 0 }
        | _ => r
      else r }

/-- DEDUCED, log 44, 51. -/
def execCret (g : Guard) (a : BitVec 4) (s : State) : Out :=
  s.withLane fun T0 slot0 =>
    match T0.sort with
    | .wave o =>
      s.gather true (.cret g a) {} fun s1 T slot =>
        let exec := T.execMask (T.frag slot) g
        s1.laneChecks T slot exec { srcs := [(⟨0, false, false⟩, 1)] } [] fun _ =>
          if T.replied then .next (s1.setTeam (T.nextL slot))
          else if !s1.releaseOk T.id T.core (s1.evsOf T) .device then .next s1
          else
            let rb := match s1.obj? o, s1.launch? T.launch with
              | some x, some L => (match s1.waveMethod x L with | some m => m.rb | none => 0)
              | _, _ => 0
            .next ((s1.replyAll T o exec a rb).setTeam ({ T with replied := true }.nextL slot))
    | _ => s.laneTrap T0 slot0 0x02

/-- WAVE_HALT: a wave that trapped gives up its loads and halts once its stores are out, its requests are answered undecided, and its object is poisoned. -/
def execWaveHalt (team : Nat) (s : State) : Out :=
  match s.team? team with
  | none => .next s
  | some T =>
    match T.sort, T.raised with
    | .wave o, some r =>
      let q := s.abandon T
      if q.writesInFlight T || !q.storesOut T || !q.endReady T then .next q
      else .next ((q.modObj o fun x => { x with poisoned := true }).haltTeam T 0xFE r.cause r.ln r.resume)
    | _, _ => .next s

/-! ### Replies (R243, R244, R278) -/

/-- The lane word of COMB's register is full again once every lane of it has its reply. -/
def State.unmarkReq (s : State) (r : Req) : State :=
  if s.reqs.any fun x => x.id != r.id && x.team == r.team && x.grp == r.grp && x.lane / 32 == r.lane / 32 then s
  else s.modTeam r.team fun T => { T with
    marks := T.marks.filter fun m => !(m.reg == r.reg && m.word == r.lane / 32 && m.grp == r.grp) }

/-- An answer of a unit waits at a failed hop on its way back (R320). -/
def State.replyWaits (s : State) (r : Req) : Bool := s.routeBroken (homeDie r.key) (dieOf r.core)

/-- REPLY_ARRIVAL: a reply of COMB writes the lane's register and status; the lane acquires at device scope. -/
def execReplyArrival (reply : Nat) (s : State) : Out :=
  match s.reqs.find? fun r => r.id == reply && r.place == .answered && !r.kind.isRegister && !s.replyWaits r with
  | none => .next s
  | some r =>
    let s1 := (s.acquire r.core .device).endReq reply
    if r.dropped then .next s1
    else .next ((s1.modTeam r.team fun T =>
      (if r.keep then T else T.setV r.reg r.lane r.value).setQ r.qs r.lane r.status).unmarkReq r)

/-- REGISTRATION_ANSWER: the answer to a registration is back at its core; OBJREG completes with the last one. -/
def execRegistrationAnswer (req : Nat) (s : State) : Out :=
  match s.reqs.find? fun r => r.id == req && r.place == .answered && r.kind.isRegister && !s.replyWaits r with
  | none => .next s
  | some r =>
    let s1 := s.setReq { r with place := .back }
    let rs := s1.reqs.filter fun x => x.team == r.team && x.grp == r.grp
    if rs.all fun x => x.place == .back then s1.registered r rs else .next s1

/-! ### Active messages (R283, R284) -/

/-- Messages a core's incoming queue holds. -/
def maxMessages : Nat := 64

/-- The core a message of a lane goes to. -/
def State.amsgCore (s : State) (key : Nat) : Nat := 32 * (s.unitOf key).1 + 2 * (s.unitOf key).2

def Team.message (T : Team) (b : Src) (n : Nat) (h : Nat) (l core : Nat) (addr : Word) : AMsg :=
  { core := core, handler := h, payload := (List.range n).map fun j => T.dataWord b (b.n.toNat + j) l, addr := addr, wid := T.wid l
    cohort := (T.cohortIdx l).toNat, ctx := T.ctx, pri := T.hdr.pri, hdr := T.hdr, launch := T.launch, spages := T.spages, lblocks := T.lblocks }

/-- Enqueue messages from a die in lane order, up to the first whose queue is full or whose route crosses a failed hop.
DEDUCED, log 52. -/
def State.enqueue (s : State) (src : Nat) : List (Nat × AMsg) → State × List Nat
  | [] => (s, [])
  | (l, m) :: t =>
    if maxMessages ≤ (s.amsgs.filter fun x => x.core == m.core).length || s.routeBroken src (dieOf m.core) then (s, l :: t.map (·.1))
    else State.enqueue { s with amsgs := s.amsgs ++ [m] } src t

/-- Another fragment of the team has messages that are not yet queued. DEDUCED, log 52. -/
def Team.sending (T : Team) (slot : Nat) : Bool :=
  T.sp.live.any fun p => p.1 != slot && (match p.2.wait with | some ⟨_, _, .amsg _, _⟩ => true | _ => false)

def execAmsg (g : Guard) (p : Adr) (b : Src) (core : Bool) (h : BitVec 12) (n : BitVec 3) (s : State) : Out :=
  let k := n.toNat + 1
  s.withLane fun T slot =>
    let f := T.frag slot
    let send := fun (T1 : Team) (exec pending : LaneMask) =>
      let ls := lanesOf pending T1.lanes
      let bad := if core then maskWhere ls fun l =>
        decide (128 ≤ (T1.srcW p.a l).toNat) || !(s.die ((T1.srcW p.a l).toNat / 32)).present else 0
      if bad != 0 then s.laneTrapMask T1 slot 0x06 bad
      else s.locateMem T1 slot exec false false false (if core then [] else ls.map fun l => ⟨l, 0, T1.addr p l, 1⟩) fun s2 T2 ps =>
        if hostLanes ps != 0 then s2.laneTrapMask T2 slot 0x06 (hostLanes ps)
        else if T.sending slot || !s2.releaseOk T2.id T2.core (T2.frag slot).hist .device then .next (s.setTeam T1.commit)
        else
          let dests := if core then ls.map fun l => (l, (T.srcW p.a l).toNat, (0 : Word))
            else ps.map fun x => (x.p.lane, s2.amsgCore x.key, x.p.va)
          let (s3, left) := s2.enqueue (dieOf T.core) (dests.map fun x => (x.1, T2.message b k h.toNat x.1 x.2.1 x.2.2))
          if left.isEmpty then
            .next (s3.setTeam (if f.wait.isSome then T2.commit.waitOver T2.trapLevel slot else T2.commit.nextL slot))
          else
            let T3 := if f.wait.isSome || T2.counted then T2.commit else T2.commit.countL slot
            .next (s3.setTeam (T3.setSp (T3.sp.waits slot ⟨.amsg g p b core h n, exec, .amsg (maskOf left), s.cycle⟩)))
    match f.wait with
    | none =>
      let exec := T.execMask f g
      s.laneChecks T slot exec { srcs := [(p.a, 1), (b, k)] } [] fun _ =>
        if exec == 0 then .next (s.setTeam (T.nextL slot))
        else if T.hdr.handlers = 0 then s.laneTrapMask T slot 0x06 exec
        else s.commitTurn T fun T1 => send T1 exec exec
    | some ⟨_, exec, .amsg pending, _⟩ => s.laneTurn T fun T1 => send T1 exec pending
    | some _ => .next s

/-- The launch whose code and identity a handler runs under. -/
def AMsg.launchOf (m : AMsg) : Launch := { id := m.launch, num := 0, die := dieOf m.core, ctx := m.ctx, hdr := m.hdr, spages := m.spages, lblocks := m.lblocks }

/-- The team of a message handler. -/
def handlerTeam (m : AMsg) (x : Method) (id : Nat) (place : Nat × Nat) : Team :=
  let T0 := { startTeam id m.launchOf m.cohort 0 m.core place with
    sort := .handler, words := 1, vbud := 8 * x.budget, sbud := 16, mask := 1, widOf := SMap.wr 0 [] 0 m.wid }
  let T1 := m.payload.zipIdx.foldl (fun (q : Team) y => q.setV y.2 0 y.1) T0
  T1.runBlock { entry := x.entry, args := [m.addr] }

/-- HANDLER_START: the message at the head of a core's queue. -/
def execHandlerStart (core : Nat) (s : State) : Out :=
  match s.amsgs.find? fun m => m.core == core with
  | none => .next s
  | some m =>
    let s1 := { s with amsgs := s.amsgs.erase m }
    match s.method (dieOf core) m.ctx m.hdr.handlers m.handler with
    | none => .next (s1.deviceEvent (dieOf core) core m.ctx 2 (BitVec.ofNat 64 m.handler))
    | some x =>
      if x.rb != 0 then .next (s1.deviceEvent (dieOf core) core m.ctx 2 (BitVec.ofNat 64 m.handler))
      else if !s.roomFor core (takes 1 (8 * x.budget) 16) || !s.spanReady core m.launchOf then .next s
      else match s.partition core with
        | none => .next s
        | some place =>
          let H := handlerTeam m x s.evId place
          .next (State.acquire { s1.fresh with teams := s1.teams ++ [H] } core .device)

end Sys2Proof.Machine
end

