-- ==== Sys2Proof/Machine/Control.lean ====
section
/-!
DEFINITION. Predicates, the split table's instructions and SPUT (R134 to R150).
-/
namespace Sys2Proof.Machine

/-! ### Predicates (R135 to R138) -/

def triAnd (a b : Tri) : Tri := if a == .f || b == .f then .f else if a == .t && b == .t then .t else .u
def triOr (a b : Tri) : Tri := if a == .t || b == .t then .t else if a == .f && b == .f then .f else .u
def triNot : Tri → Tri | .t => .f | .f => .t | .u => .u

/-- A predicate instruction: `f` per executing lane. -/
def State.predOp (s : State) (g : Guard) (d : BitVec 4) (f : Team → Nat → Tri) : Out :=
  s.laneOp g {} fun T q l => q.setQ d.toNat l (f T l)

def execQand (g : Guard) (d a b : BitVec 4) (s : State) : Out :=
  s.predOp g d fun T l => triAnd (T.qv a.toNat l) (T.qv b.toNat l)
def execQor (g : Guard) (d a b : BitVec 4) (s : State) : Out :=
  s.predOp g d fun T l => triOr (T.qv a.toNat l) (T.qv b.toNat l)
def execQnot (g : Guard) (d a : BitVec 4) (s : State) : Out := s.predOp g d fun T l => triNot (T.qv a.toNat l)

def QForce.apply : QForce → Tri → Tri
  | .f, .u => .f
  | .t, .u => .t
  | .isu, .u => .t
  | .isu, _ => .f
  | _, v => v

def execQforce (g : Guard) (d a : BitVec 4) (op : QForce) (s : State) : Out :=
  s.predOp g d fun T l => QForce.apply op (T.qv a.toNat l)
def execQset (g : Guard) (d : BitVec 4) (v : Tri) (s : State) : Out := s.predOp g d fun _ _ => v

/-- The combination of VOTE over lanes. -/
def Team.vote (T : Team) (a : BitVec 4) (or : Bool) (ls : List Nat) : Tri :=
  if or then ls.foldl (fun v l => triOr v (T.qv a.toNat l)) .f else ls.foldl (fun v l => triAnd v (T.qv a.toNat l)) .t

def execVote (g : Guard) (d a : BitVec 4) (or all : Bool) (s : State) : Out :=
  s.crossOp all (.vote g d a or all) g {} fun T ls => ls.foldl (fun q l => q.setQ d.toNat l (T.vote a or ls)) T

/-- The scalar form writes even over no lane. -/
def execVoteScalar (g : Guard) (d : BitVec 7) (a : BitVec 4) (or all : Bool) (s : State) : Out :=
  let n : Names := { scalar := [d.toNat] }
  s.gather all (.voteScalar g d a or all) n fun s1 T slot =>
    let exec := T.execMask (T.frag slot) g
    s1.laneChecks T slot exec n [] fun _ =>
      .next (s1.fresh.setTeam ((T.fillS s1.evId slot d
        ((T.vote a or (lanesOf exec T.lanes)).bits.setWidth 64)).nextL slot))

/-- LEAD (R137). -/
def execLead (g : Guard) (d : BitVec 4) (s : State) : Out :=
  s.withLane fun T slot =>
    let exec := T.execMask (T.frag slot) g
    s.laneChecks T slot exec {} [] fun _ =>
      let ls := lanesOf exec T.lanes
      .next (s.setTeam ((ls.foldl (fun q l => q.setQ d.toNat l (triB (ls.head? == some l))) T).nextL slot))

/-- SPUT (R138): nothing is marked or written when no lane executes it. -/
def execSput (g : Guard) (d : BitVec 7) (a : Src) (s : State) : Out :=
  s.withLane fun T slot =>
    let exec := T.execMask (T.frag slot) g
    s.laneChecks T slot exec { srcs := [(a, 1)], scalar := [d.toNat] } [] fun _ =>
      match lowest exec T.lanes with
      | some l => .next (s.fresh.setTeam ((T.fillS s.evId slot d (T.srcW a l)).nextL slot))
      | none => .next (s.setTeam (T.nextL slot))

/-! ### Branches (R144) -/

/-- Replace the fragment by pieces above a new entry; cause 0x11 beyond 32 levels or 64 fragments. -/
def State.pushOp (s : State) (T : Team) (slot : Nat) (call : Bool) (join : Int) (ps : List (LaneMask × Int × Bool)) : Out :=
  if !T.sp.canPush (T.frag slot).level ps.length then s.laneTrap T slot 0x11
  else
    let T1 := T.countL slot
    .next (s.fresh.setTeam (T1.setSp (T1.sp.push slot s.evId call join ps)))

/-- The lanes of a fragment whose predicate has a value. -/
def Team.lanesWith (T : Team) (f : Frag) (q : BitVec 4) (v : Tri) : LaneMask :=
  maskOf ((lanesOf f.mask T.lanes).filter fun l => T.qv q.toNat l == v)

def execBq (q : BitVec 4) (tt ut jt : BitVec 20) (s : State) : Out :=
  s.withLane fun T slot =>
    let f := T.frag slot
    let t := T.lanesWith f q .t
    let u := T.lanesWith f q .u
    s.pushOp T slot false (f.pc + jt.toInt)
      (([(t, f.pc + tt.toInt, false), (u, f.pc + ut.toInt, false), (f.mask &&& ~~~(t ||| u), f.pc + 1, true)] :
        List (LaneMask × Int × Bool)).filter fun p => p.1 != 0)

def execBc (q : BitVec 4) (tt jt : BitVec 20) (s : State) : Out :=
  s.withLane fun T slot =>
    let f := T.frag slot
    let t := T.lanesWith f q .t
    s.pushOp T slot false (f.pc + jt.toInt)
      (([(t, f.pc + tt.toInt, false), (f.mask &&& ~~~t, f.pc + 1, true)] : List (LaneMask × Int × Bool)).filter fun p => p.1 != 0)

/-- A fragment goes to another word. -/
def Team.jumpL (T : Team) (slot : Nat) (pc : Int) : Team :=
  let T1 := T.countL slot
  T1.setSp (T1.sp.moved slot { T1.frag slot with pc := pc, seq := false, again := false, wait := none })

def execJmp (tt : BitVec 20) (s : State) : Out :=
  s.withLane fun T slot => .next (s.setTeam (T.jumpL slot ((T.frag slot).pc + tt.toInt)))

/-! ### Calls (R145 to R147) -/

/-- What the header word at a target says. -/
inductive Callee where
  | budget (n : Nat)
  | wait
  | trap (cause : Nat)
deriving DecidableEq, Repr

def State.callee (s : State) (T : Team) (t : Int) : Callee :=
  match s.fetchLane T t false with
  | .bytes bs => (match headerBudget (BitVec.ofNat 96 (leNat bs)) with | some n => .budget n | none => .trap 0x01)
  | .wait => .wait
  | .missing => .trap 0x04
  | .bounds => .trap 0x03
  | .poisoned => .trap 0x06

def execCall (tt : BitVec 20) (s : State) : Out :=
  s.withLane fun T slot =>
    let f := T.frag slot
    let t := f.pc + tt.toInt
    match s.callee T t with
    | .wait => .next s
    | .trap c => s.laneTrap T slot c
    | .budget n =>
      if T.vbud < n then s.laneTrap T slot 0x09
      else s.pushOp T slot true (f.pc + 1) [(f.mask, t + 1, false)]

/-- The distinct targets of CALLI in ascending order, with their lanes. -/
def Team.targets (T : Team) (f : Frag) (a : Src) : List (Nat × LaneMask) :=
  let ls := lanesOf f.mask T.lanes
  let ts := ls.foldl (fun r l => insertNat (T.srcW a l).toNat r) []
  ts.map fun t => (t, maskOf (ls.filter fun l => (T.srcW a l).toNat == t))

def execCalli (a : Src) (s : State) : Out :=
  s.withLane fun T slot =>
    let f := T.frag slot
    s.laneChecks T slot f.mask { srcs := [(a, 1)] } [] fun _ =>
      let ts := T.targets f a
      let far := ts.foldl (fun m t => if 2 ^ 24 ≤ t.1 then m ||| t.2 else m) (0 : LaneMask)
      if far != 0 then s.laneTrapMask T slot 0x03 far
      else
        let cs := ts.map fun t => (t, s.callee T t.1)
        match cs.find? fun c => (match c.2 with | .budget _ => false | _ => true) with
        | some (_, .wait) => .next s
        | some (t, .trap c) => s.laneTrapMask T slot c t.2
        | _ =>
          let far := cs.foldl (fun m c => (match c.2 with | .budget n => if T.vbud < n then m ||| c.1.2 else m | _ => m)) (0 : LaneMask)
          if far != 0 then s.laneTrapMask T slot 0x09 far
          else s.pushOp T slot true (f.pc + 1) (ts.map fun t => (t.2, (t.1 : Int) + 1, false))

/-- The innermost call entry at or below a level. -/
def Split.callLevel (sp : Split) : Nat → Option Nat
  | 0 => none
  | c + 1 => if (sp.entry (c + 1)).call then some (c + 1) else sp.callLevel c

/-- A fragment leaves the entries above a level for a counter there (R142). -/
def Team.leaveL (T : Team) (slot level : Nat) (pc : Int) : Team :=
  let T1 := T.countL slot
  let sp := T1.sp.leaveTo slot level fun f => { f with pc := pc, again := false, wait := none, seq := false }
  T1.setSp (sp.moved slot (sp.frag slot))

def execRet (s : State) : Out :=
  s.withLane fun T slot =>
    match T.sp.callLevel (T.frag slot).level with
    | none => s.laneTrap T slot 0x03
    | some c => .next (s.setTeam (T.leaveL slot c (T.sp.entry c).join))

def execBrk (n tt : BitVec 20) (s : State) : Out :=
  s.withLane fun T slot =>
    let f := T.frag slot
    let d := f.level
    let k := n.toNat
    if d < k || (List.range k).any fun i => (T.sp.entry (d - i)).call then s.laneTrap T slot 0x11
    else .next (s.setTeam (T.leaveL slot (d - k) (f.pc + tt.toInt)))

/-! ### EXIT and LEND (R149, R150) -/

/-- The block has ended when the table is empty and every live fragment is at LEND (R29, R150). -/
def Team.endBlock (T : Team) : Team :=
  if T.sp.depth = 0 && (T.sp.live.all fun p => p.2.state == 4) then (T.setBlock none).setSp {} else T

/-- EXIT of a holding lane drops its item (R161), which is a release at device scope (R170). -/
def execExit (g : Guard) (s : State) : Out :=
  s.withLane fun T slot =>
    let exec := T.execMask (T.frag slot) g
    s.dropHeld T slot (lanesOf exec T.lanes) fun s1 T0 =>
      let T1 := T0.countL slot
      let sp := T1.sp.dropLanes slot exec
      let sp' := if (sp.frag slot).valid then sp.advance slot else sp.settle
      s.afterBlock s1 ({ T1.setSp sp' with mask := T.mask &&& ~~~exec }.endBlock)

def execLend (s : State) : Out :=
  s.withLane fun T slot =>
    let T1 := T.countL slot
    let sp := T1.sp.leaveTo slot 0 fun f => { f with state := 4, again := false, wait := none, seq := false }
    s.afterBlock s ((T1.setSp sp.settle).endBlock)

end Sys2Proof.Machine
end

