-- ==== Sys2Proof/Machine/Scalar.lean ====
section
/-!
DEFINITION. The scalar stream's arithmetic, flags, memory accesses, fences, branches and lane blocks (R52 to R66).
-/
namespace Sys2Proof.Machine

/-! ### Integer and bit operations (R53 to R55) -/

def sDivide (a b : Word) : Word :=
  if b = 0 then BitVec.allOnes 64 else BitVec.ofInt 64 (a.toInt.tdiv b.toInt)
def sRemain (a b : Word) : Word := if b = 0 then a else BitVec.ofInt 64 (a.toInt.tmod b.toInt)
def sMulHigh (a b : Word) : Word := BitVec.ofInt 64 (a.toInt * b.toInt / 2 ^ 64)
def sShiftCount (b : Word) : Nat := (b.extractLsb' 0 6).toNat
def sMinimum (a b : Word) : Word := if a.toInt ≤ b.toInt then a else b
def sMaximum (a b : Word) : Word := if a.toInt ≤ b.toInt then b else a

/-- A register form: d := f a b. -/
def State.alu (s : State) (d a b : BitVec 7) (f : Word → Word → Word) : Out :=
  s.scalarOp [d.toNat, a.toNat, b.toNat] [a.toNat, b.toNat] fun T => T.setS d.toNat (f (T.sreg a.toNat) (T.sreg b.toNat))

/-- An immediate form: b is the immediate, sign-extended. -/
def State.aluImm (s : State) (d a : BitVec 7) (i : BitVec 11) (f : Word → Word → Word) : Out :=
  s.scalarOp [d.toNat, a.toNat] [a.toNat] fun T => T.setS d.toNat (f (T.sreg a.toNat) (i.signExtend 64))

def State.aluOne (s : State) (d a : BitVec 7) (f : Word → Word) : Out :=
  s.scalarOp [d.toNat, a.toNat] [a.toNat] fun T => T.setS d.toNat (f (T.sreg a.toNat))

/-- A shift by an immediate of 0 to 63 (R54). -/
def State.shiftImm (s : State) (d a : BitVec 7) (i : BitVec 6) (f : Word → Nat → Word) : Out :=
  s.scalarOp [d.toNat, a.toNat] [a.toNat] fun T => T.setS d.toNat (f (T.sreg a.toNat) i.toNat)

def execSadd (d a b : BitVec 7) (s : State) : Out := s.alu d a b fun x y => x + y
def execSsub (d a b : BitVec 7) (s : State) : Out := s.alu d a b fun x y => x - y
def execSmul (d a b : BitVec 7) (s : State) : Out := s.alu d a b fun x y => x * y
def execSmulh (d a b : BitVec 7) (s : State) : Out := s.alu d a b sMulHigh
def execSdiv (d a b : BitVec 7) (s : State) : Out := s.alu d a b sDivide
def execSrem (d a b : BitVec 7) (s : State) : Out := s.alu d a b sRemain
def execSand (d a b : BitVec 7) (s : State) : Out := s.alu d a b fun x y => x &&& y
def execSor (d a b : BitVec 7) (s : State) : Out := s.alu d a b fun x y => x ||| y
def execSxor (d a b : BitVec 7) (s : State) : Out := s.alu d a b fun x y => x ^^^ y
def execSandn (d a b : BitVec 7) (s : State) : Out := s.alu d a b fun x y => x &&& ~~~y
def execSshl (d a b : BitVec 7) (s : State) : Out := s.alu d a b fun x y => x <<< sShiftCount y
def execSshr (d a b : BitVec 7) (s : State) : Out := s.alu d a b fun x y => x >>> sShiftCount y
def execSsar (d a b : BitVec 7) (s : State) : Out := s.alu d a b fun x y => x.sshiftRight (sShiftCount y)
def execSmin (d a b : BitVec 7) (s : State) : Out := s.alu d a b sMinimum
def execSmax (d a b : BitVec 7) (s : State) : Out := s.alu d a b sMaximum
def execSmov (d a : BitVec 7) (s : State) : Out := s.aluOne d a id
def execSclz (d a : BitVec 7) (s : State) : Out := s.aluOne d a fun x => BitVec.ofNat 64 (clzNat 64 x.toNat)
def execSpop (d a : BitVec 7) (s : State) : Out := s.aluOne d a fun x => BitVec.ofNat 64 (popNat 64 x.toNat)
def execSaddImm (d a : BitVec 7) (i : BitVec 11) (s : State) : Out := s.aluImm d a i fun x y => x + y
def execSmulImm (d a : BitVec 7) (i : BitVec 11) (s : State) : Out := s.aluImm d a i fun x y => x * y
def execSandImm (d a : BitVec 7) (i : BitVec 11) (s : State) : Out := s.aluImm d a i fun x y => x &&& y
def execSorImm (d a : BitVec 7) (i : BitVec 11) (s : State) : Out := s.aluImm d a i fun x y => x ||| y
def execSxorImm (d a : BitVec 7) (i : BitVec 11) (s : State) : Out := s.aluImm d a i fun x y => x ^^^ y
def execSshlImm (d a : BitVec 7) (i : BitVec 6) (s : State) : Out := s.shiftImm d a i fun x n => x <<< n
def execSshrImm (d a : BitVec 7) (i : BitVec 6) (s : State) : Out := s.shiftImm d a i fun x n => x >>> n
def execSsarImm (d a : BitVec 7) (i : BitVec 6) (s : State) : Out := s.shiftImm d a i fun x n => x.sshiftRight n
def execSminImm (d a : BitVec 7) (i : BitVec 11) (s : State) : Out := s.aluImm d a i sMinimum
def execSmaxImm (d a : BitVec 7) (i : BitVec 11) (s : State) : Out := s.aluImm d a i sMaximum

/-- R55. -/
def execSli (d : BitVec 7) (i : BitVec 18) (s : State) : Out :=
  s.scalarOp [d.toNat] [] fun T => T.setS d.toNat (i.signExtend 64)
/-- R55: SLIH reads D. -/
def execSlih (d : BitVec 7) (i : BitVec 18) (s : State) : Out :=
  s.scalarOp [d.toNat] [d.toNat] fun T => T.setS d.toNat ((T.sreg d.toNat <<< 18) ||| i.setWidth 64)

/-! ### Flags (R56 to R58) -/

def KOp.apply : KOp → Tri → Tri → Tri
  | .and, a, b => triAnd a b
  | .or, a, b => triOr a b
  | .not, a, _ => triNot a
  | .ff, a, _ => if a == .u then .f else a
  | .ft, a, _ => if a == .u then .t else a
  | .isu, a, _ => if a == .u then .t else .f
  | .mov, a, _ => a
  | .setu, _, _ => .u

def execScmp (k : BitVec 3) (a b : BitVec 7) (c : Cond) (s : State) : Out :=
  s.scalarOp [a.toNat, b.toNat] [a.toNat, b.toNat] fun T =>
    T.setK k.toNat (triB (condHolds c (T.sreg a.toNat) (T.sreg b.toNat)))
def execSkop (d a b : BitVec 3) (op : KOp) (s : State) : Out :=
  s.scalarOp [] [] fun T => T.setK d.toNat (KOp.apply op (T.kf a.toNat) (T.kf b.toNat))
def execSsel (d a b : BitVec 7) (k : BitVec 3) (s : State) : Out :=
  s.scalarOp [d.toNat, a.toNat, b.toNat] [a.toNat, b.toNat] fun T =>
    T.setS d.toNat (if T.kf k.toNat == .t then T.sreg a.toNat else T.sreg b.toNat)

/-! ### Loads, stores, waits and fences (R59 to R61) -/

/-- A memory event of the scalar stream: it follows every earlier one (R32). -/
def State.issueScalar (s : State) (T : Team) (e : Ev) : State × Team :=
  let h := s.liveHist T.shist
  ({ s.fresh with evs := s.evs ++ [{ e.toCtl with
      id := s.evId, team := T.id, core := T.core, ctx := T.ctx, grp := s.evId, preds := h, region := T.regionTag }] },
   { T with shist := h ++ [s.evId] })

/-- Translate an address of the scalar stream (R59): a page fault stops the stream, a refused mapping raises cause 0x05,
a store to a page without write permission or a read of poisoned bytes cause 0x06 (R387); `wide` says that the access reads at the
home. -/
def State.scalarAsk (s : State) (T : Team) (va : Word) (n : Nat) (wide wr : Bool) (k : State → Nat → Attr → Out) : Out :=
  let who := Requester.scalar T.id
  match s.ask who T.core T.ctx va wr 1 with
  | .wait s' => .next s'
  | .refused => (s.forget who).scalarTrap T 0x05
  | .ok key a w =>
    if (wr && !w) || (!wr && s.readsBad T.id T.core T.shist wide key n a) then (s.forget who).scalarTrap T 0x06 else k (s.forget who) key a

/-- The turn of a synchronising operation of the scalar stream (R312): before it, the stream waits; at it, the region
commits. DEDUCED, log 72. -/
def State.scalarTurn (s : State) (T : Team) (k : Team → Out) : Out :=
  if !T.counted then k T else if s.turn T then k T.commit else .next s

/-- SLD (R59): D is empty from issue until the value arrives. -/
def execSld (d a : BitVec 7) (i : BitVec 11) (s : State) : Out :=
  s.scalarIssue [d.toNat, a.toNat] [a.toNat] fun T =>
    let va := T.sreg a.toNat + i.signExtend 64
    if va.toNat % 8 ≠ 0 then s.scalarTrap T 0x0A
    else s.scalarAsk T va 8 false false fun s1 key attr =>
      let (s2, T2) := s1.issueScalar T { id := 0, team := 0, core := 0, grp := 0, preds := [], key := key, attr := attr, op := .load 8, dst := .scalar d.toNat }
      .next (s2.setTeam (T2.emptyS d.toNat).nextS)

/-- SST (R59). -/
def execSst (d a : BitVec 7) (i : BitVec 11) (s : State) : Out :=
  s.scalarIssue [d.toNat, a.toNat] [d.toNat, a.toNat] fun T =>
    let va := T.sreg a.toNat + i.signExtend 64
    if va.toNat % 8 ≠ 0 then s.scalarTrap T 0x0A
    else s.scalarAsk T va 8 false true fun s1 key attr =>
      let (s2, T2) := s1.issueScalar T { id := 0, team := 0, core := 0, grp := 0, preds := [], key := key, attr := attr, op := .store (leBytes 8 (T.sreg d.toNat).toNat) }
      .next (s2.setTeam T2.nextS)

/-- The read of a SWAITA that the stream waits at, in a DET launch. -/
def State.swaitEv (s : State) (T : Team) : Option Ev :=
  match T.swait with
  | some i => s.ev? i
  | none => none

/-- The event of a SWAITA: a strong system-scope load that acquires when it succeeds (R60). -/
def swaitaEv (c : Cond) (expected : Word) (d key : Nat) (attr : Attr) (start : Nat) : Ev :=
  { id := 0, team := 0, core := 0, grp := 0, preds := [], key := key, attr := attr, scope := .system, strong := true,
    acq := true, op := .waitRead c expected false, dst := .scalar d, start := start }

/-- A SWAITA reads poisoned bytes when it reads again: the stream traps at the word it stands at, and D keeps the value read last (R60,
R387). DEDUCED, log 30. -/
def State.swaitPoisoned (s : State) (T : Team) (e : Ev) (r : Nat) : State :=
  let T1 := { T.setS r e.value.even with swait := none }
  if T.raised.isSome then (s.endEv e.id).setTeam T1 else (s.endEv e.id).raise T1 { cause := 0x06, resume := T.spc }

/-- SWAITA (R60, R313): outside DET the stream goes on and D fills when the wait completes; under DET the stream stays
at the word and each turn makes one read. -/
def execSwaita (d a : BitVec 7) (c : Cond) (s : State) : Out :=
  s.withScalar fun T0 =>
    if T0.swait.isSome then
      match s.swaitEv T0 with
      | none => .next (s.setTeam T0.nextS)
      | some e =>
        (match e.op with
        | .waitRead c' x true =>
          if s.evBad e then .next (s.swaitPoisoned T0 e d.toNat)
          else if e.start < T0.sfailed && (T0.waitlimit == 0 || decide (T0.sfailed < T0.waitlimit.toNat)) then
            s.scalarTurn T0 fun T => .next ((s.setTeam T).setEv { e with op := .waitRead c' x false, start := T.sfailed })
          else .next s
        | _ => .next s)
    else s.scalarIssue [d.toNat, a.toNat] [d.toNat, a.toNat] fun T =>
      let va := T.sreg a.toNat
      if va.toNat % 8 ≠ 0 then s.scalarTrap T 0x0A
      else s.scalarAsk T va 8 true false fun s1 key attr =>
        s1.scalarTurn T fun T1 =>
          let (s2, T2) := s1.issueScalar T1
            (swaitaEv c (T1.sreg d.toNat) d.toNat key attr (if T1.counted then 0 else s1.cycle))
          let T3 := T2.emptyS d.toNat
          .next (s2.setTeam (if T1.counted then { T3 with swait := some s1.evId } else T3.nextS))

/-- Wait until every scalar access is performed at a scope, then acquire at it: of the acknowledgements of R252 it waits for those of its
own accesses alone (R61). DEDUCED, log 33. -/
def State.scalarFence (s : State) (T : Team) (sc : Scope) (k : State → Team → Out) : Out :=
  if s.releaseOwn T.id T.core T.shist sc then k (s.acquire T.core sc) { T with sfenced := s.liveHist T.shist } else .next s

def execSfence (sc : Scope) (s : State) : Out :=
  s.scalarIssue [] [] fun T =>
    let run := fun (T1 : Team) => s.scalarFence T1 sc fun s1 T2 => .next (s1.setTeam T2.nextS)
    if Scope.isWide sc then s.scalarTurn T run else run T

/-! ### Branches (R62, R63) -/

def execSbr (k : BitVec 3) (m : GMode) (i : BitVec 19) (s : State) : Out :=
  s.scalarIssue [] [] fun T =>
    .next (s.setTeam (T.retireS (if guardPasses m (T.kf k.toNat) then T.spc + 4 * i.toInt else T.spc + 4)))

def execSj (i : BitVec 19) (s : State) : Out :=
  s.scalarIssue [] [] fun T => .next (s.setTeam (T.retireS (T.spc + 4 * i.toInt)))

def execScall (d : BitVec 7) (i : BitVec 18) (s : State) : Out :=
  s.scalarIssue [d.toNat] [] fun T =>
    .next (s.setTeam ((T.setS d.toNat (BitVec.ofInt 64 (T.spc + 4))).retireS (T.spc + 4 * i.toInt)))

/-- The target of SRET and SJF (R63): cause 0x0A, then 0x03. -/
def State.jumpTo (s : State) (a : BitVec 7) (k : Team → Nat → Out) : Out :=
  s.scalarIssue [a.toNat] [a.toNat] fun T =>
    let v := (T.sreg a.toNat).toNat
    if v % 4 ≠ 0 then s.scalarTrap T 0x0A
    else if 2 ^ 32 ≤ v then s.scalarTrap T 0x03
    else k T v

def execSret (a : BitVec 7) (s : State) : Out := s.jumpTo a fun T v => .next (s.setTeam (T.retireS v))

def execSjf (a : BitVec 7) (s : State) : Out :=
  s.jumpTo a fun T v => if s.pageLanded T (v / 4096) then .next (s.setTeam (T.retireS v)) else s.scalarTrap T 0x04

/-! ### Lane blocks (R5, R29, R64, R65) -/

/-- No block is queued or running at the team's level, and every scalar-register write of ended blocks has completed.
DEDUCED, log 73. -/
def Team.laneIdle (T : Team) : Bool := T.lq.isEmpty && T.block.isNone && T.fills.isEmpty

/-- Under DET: the LQ at the counter has enqueued its block. -/
def Team.lqOpen (T : Team) : Bool := T.counted && (if T.trapLevel then T.swait.isSome else T.lqAt == some T.spc)

/-- LQ. Under DET it waits until no block is queued or running, enqueues, and retires once its block has ended (R309). An entry
whose segment has not landed raises 0x04 before any wait for a place in a full queue (R5, R64). DESIGN CHOICE, log 82. -/
def execLq (a : BitVec 7) (n : BitVec 4) (e : BitVec 14) (s : State) : Out :=
  let regs := (List.range n.toNat).map (a.toNat + ·)
  s.withScalar fun T0 =>
    if T0.lqOpen then
      (if T0.lq.isEmpty && T0.block.isNone then .next (s.setTeam { T0.nextS with lqAt := none }) else .next s)
    else s.scalarIssue regs regs fun T =>
      if !s.pageLanded T (T.lanePage e.toNat) then s.scalarTrap T 0x04
      else if 4 ≤ T.lq.length || (T.counted && (!T.lq.isEmpty || T.block.isSome)) then .next (s.setTeam T)
      else
        let b : Block := { entry := e.toNat, args := regs.map T.sreg, handler := T.trapLevel, after := T.sfenced }
        let T1 := T.setLq (T.lq ++ [b])
        .next (s.setTeam (if !T.counted then T1.nextS
          else if T.trapLevel then { T1 with swait := some 0 } else { T1 with lqAt := some T.spc }))

/-- The accesses of the block that the team's trap interrupted, which has not ended (R32, R323). -/
def State.interrupted (s : State) (T : Team) : List Nat :=
  match T.trapLevel, T.run with
  | true, some b =>
    (s.evs.filter fun e => e.team == T.id && e.region != 0 && decide (b.born ≤ e.id)).map (·.id) ++
    (s.copies.filter fun c => c.team == some T.id && c.region != 0 && decide (b.born ≤ c.id)).map (·.id)
  | _, _ => []

/-- LSYNC (R32): what follows it follows every access of the ended blocks. -/
def execLsync (s : State) : Out :=
  s.scalarIssue [] [] fun T =>
    if !T.laneIdle then .next s
    else
      let open' := s.interrupted T
      .next (s.setTeam { T.nextS with shist := unionNat ((s.laneEvs T).filter fun i => !open'.contains i) (s.liveHist T.shist) })

def execSempty (d : BitVec 7) (n : BitVec 4) (s : State) : Out :=
  let regs := (List.range (n.toNat + 1)).map (d.toNat + ·)
  s.scalarOp regs [] fun T => regs.foldl Team.emptyS T

def execNop (s : State) : Out := s.scalarOp [] [] id

end Sys2Proof.Machine
end

