-- ==== Sys2Proof/Machine/Work.lean ====
section
/-!
DEFINITION. Creating work and code segments from the scalar stream: LAUNCH, TASK, SIGNAL, CFETCH, CINV (R20, R67 to R73).
-/
namespace Sys2Proof.Machine

/-! ### Launch headers (R20) -/

/-- The header in 128 little-endian bytes. -/
def headerOf (bs : List Byte) : Header :=
  let n := leNat bs
  let f := fun (off len : Nat) => bitsAt n (8 * off) (8 * len)
  let flags := f 0x26 2
  let mask := f 0x50 1
  { version := f 0 2
    mbz := f 2 6 == 0 && f 0x37 1 == 0 && flags / 32 == 0 && f 0x4C 4 / 16 == 0 &&
      !mask.testBit 0 && !mask.testBit 1 && !mask.testBit 6 && !mask.testBit 7
    entry := f 0x08 4, laneBase := f 0x0C 4, image := f 0x10 8, args := BitVec.ofNat 64 (f 0x18 8)
    widths := (List.range 6).map fun i => f (0x20 + i) 1
    flags := BitVec.ofNat 16 flags, cohorts := f 0x28 8, teams := f 0x30 2, words := f 0x32 1
    vbud := f 0x33 2, sbud := f 0x35 1, pri := f 0x36 1, pad := f 0x38 4, cap := f 0x3C 4, spill := f 0x40 8
    tvec := BitVec.ofNat 32 (f 0x48 4), dieMask := BitVec.ofNat 32 (f 0x4C 4), tileMask := mask
    edge := f 0x51 1, edgeMin := f 0x52 1, depthMax := f 0x53 1, stride := f 0x54 4
    regions := f 0x58 8, handlers := f 0x60 8, methods := f 0x68 8, stampAddr := f 0x70 8
    stampVal := BitVec.ofNat 64 (f 0x78 8) }

/-- Headers a die holds posted and unchecked at most (R67), and pending tasks (R69). -/
def maxPosts : Nat := 64
def maxTasks : Nat := 1024

/-- A scalar instruction that commits its region as it issues (R52, R336), and then acts as SFENCE.dev, at its turn under DET (R67,
R313). `k` is given the state in which the instruction waits, and the one after the fence. -/
def State.fenced (s : State) (T : Team) (k : State → State → Team → Out) : Out :=
  let s0 := s.setTeam T.commit
  s0.scalarTurn T.commit fun T1 => s0.scalarFence T1 .device (k s0)

/-- Read n bytes that LAUNCH or TASK names, at their home: the fence before it has brought the team's stores there. -/
def State.readRecord (s : State) (T : Team) (va : Word) (n : Nat) (k : State → List Byte → Out) : Out :=
  s.scalarAsk T va n true false fun s1 key _ => k s1 (s1.bytes key n)

def execLaunch (a : BitVec 7) (s : State) : Out :=
  s.scalarIssue [a.toNat] [a.toNat] fun T =>
    let va := T.sreg a.toNat
    if va.toNat % 128 ≠ 0 then s.scalarTrap T 0x0A
    else s.fenced T fun s0 s1 T1 =>
      let d := dieOf T.core
      if maxPosts ≤ (s.posts.filter fun p => p.die == d).length then .next s0
      else s1.readRecord T1 va 128 fun s2 bs =>
        let post : Post := { die := d, ctx := T.ctx, hdr := headerOf bs }
        .next (State.setTeam { s2 with posts := s2.posts ++ [post] } T1.nextS)

/-! ### Tasks and tokens (R68 to R70) -/

/-- A task record is malformed; `present` says which dies are there. -/
def taskBad (bs : List Byte) (present : Nat → Bool) : Bool :=
  let n := leNat bs
  let kind := bitsAt n 0 8
  let count := bitsAt n 8 8
  let out := bitsAt n 32 16
  !(kind == 1 || kind == 2) || decide (4 < count) || bitsAt n 16 16 != 0 || bitsAt n 48 16 != 0 || bitsAt n 192 64 != 0 ||
  (out != 0xFFFF && (out / 2 ^ 14 != 0 || !present (out / 2 ^ 12))) ||
  (List.range (min count 4)).any fun i => bitsAt n (64 + 16 * i + 12) 4 != 0

/-- The task a record describes. -/
def taskOf (bs : List Byte) (id die ctx core : Nat) (det : Option (Nat × DetKey)) : Task :=
  let n := leNat bs
  let out := bitsAt n 32 16
  { id := id, die := die, ctx := ctx, core := core, kind := bitsAt n 0 8
    inputs := (List.range (bitsAt n 8 8)).map fun i => bitsAt n (64 + 16 * i) 12
    token := if out = 0xFFFF then none else some out
    payload := bitsAt n 128 64, det := det }

def execTask (a : BitVec 7) (s : State) : Out :=
  s.scalarIssue [a.toNat] [a.toNat] fun T =>
    let va := T.sreg a.toNat
    if va.toNat % 32 ≠ 0 then s.scalarTrap T 0x0A
    else s.fenced T fun s0 s1 T1 =>
      let d := dieOf T.core
      if maxTasks ≤ (s.tasks.filter fun t => t.die == d).length then .next s0
      else s1.readRecord T1 va 32 fun s2 bs =>
        if taskBad bs fun x => (s.die x).present then s2.scalarTrap T1 0x06
        else
          let det := if T.counted && bitsAt (leNat bs) 0 8 == 2 then some (T.launch, s.keyOf T) else none
          let task := taskOf bs s2.evId d T.ctx T.core det
          .next (State.setTeam { s2.fresh with tasks := s2.tasks ++ [task] } T1.nextS)

def execSignal (a : BitVec 7) (s : State) : Out :=
  s.scalarIssue [a.toNat] [a.toNat] fun T =>
    let v := (T.sreg a.toNat).toNat
    if 2 ^ 14 ≤ v || !(s.die (v / 4096)).present then s.scalarTrap T 0x06
    else s.fenced T fun _ s1 T1 => .next ((s1.signal T.core T.ctx v).setTeam T1.nextS)

/-! ### Code segments (R71 to R73, R352, R354) -/

/-- Take a slot of a core out of every CINV not yet in effect: it no longer holds the page that CINV named.
DEDUCED, log 71. -/
def State.uncinv (s : State) (core slot : Nat) : State :=
  { s with cinvs := s.cinvs.map fun c => if c.core == core then { c with slots := c.slots.filter (· != slot) } else c }

/-- CFETCH: the slot turns pending at once, and the page it held is landed no more. DEDUCED, log 71. -/
def execCfetch (a b : BitVec 7) (s : State) : Out :=
  s.scalarIssue [a.toNat, b.toNat] [a.toNat, b.toNat] fun T =>
    let off := (T.sreg a.toNat).toNat
    let slot := (T.sreg b.toNat).toNat % 128
    if off % 4096 ≠ 0 then s.scalarTrap T 0x0A
    else
      let new : CodeSlot := {
        core := T.core, slot := slot, landed := false, ctx := T.ctx, image := T.hdr.image, page := off / 4096
        vpage := pageNo (BitVec.ofNat 64 (T.hdr.image + off))
        preds := s.liveHist T.shist }
      let rest := s.slots.filter fun x => !(x.core == T.core && x.slot == slot)
      .next ((({ s with slots := new :: rest }).uncinv T.core slot).setTeam T.nextS)

/-- The slots of the core whose pages overlap [a, a + b) of the team's image. -/
def State.overlapping (s : State) (T : Team) (a b : Nat) : List Nat :=
  let hi := min (a + b) (2 ^ 32)
  (s.slots.filter fun x => x.core == T.core && x.image == T.hdr.image &&
    decide (a < 4096 * x.page + 4096) && decide (4096 * x.page < hi)).map (·.slot)

def execCinv (a b : BitVec 7) (s : State) : Out :=
  s.scalarIssue [a.toNat, b.toNat] [a.toNat, b.toNat] fun T =>
    let off := (T.sreg a.toNat).toNat
    let len := (T.sreg b.toNat).toNat
    let ss := if len = 0 then [] else s.overlapping T off len
    let c : Cinv := ⟨s.evId, T.id, T.core, ss⟩
    .next (State.setTeam { s.fresh with cinvs := s.cinvs ++ [c] } T.nextS)

/-- CINV takes effect. -/
def execCinvEffect (cinv : Nat) (s : State) : Out :=
  match s.cinvs.find? fun c => c.id == cinv with
  | none => .next s
  | some c => .next { s with
      cinvs := s.cinvs.filter fun x => x.id != cinv
      slots := s.slots.filter fun x => !(x.core == c.core && c.slots.contains x.slot) }

/-- The first offsets, counted from `off` on, of the poisoned eight bytes among the n bytes at a key (R387). DEDUCED, log 84. -/
def State.badCode (s : State) (key off n : Nat) : List Nat :=
  ((List.range (n / 8)).filter fun i => s.poisoned (key + 8 * i) 8).map fun i => off + 8 * i

/-- A fill goes on by one sector of 32 bytes, and lands with the last one (R352). Each sector is a strong load at device scope:
it follows every scalar access issued before the CFETCH, waits at a failed hop or port (R320), reads its home, and drops the core's
clean copy of its line (R250). A refused mapping ends the fill (R71). -/
def execSegmentLand (core slot : Nat) (s : State) : Out :=
  match s.slots.find? fun x => x.core == core && x.slot == slot && !x.landed with
  | none => .next s
  | some x =>
    let rest := s.slots.filter fun y => !(y.core == core && y.slot == slot)
    match s.ask (.code core slot) core x.ctx (BitVec.ofNat 64 (x.image + 4096 * x.page)) false 3 with
    | .wait s' => .next s'
    | .refused => .next { s.forget (.code core slot) with slots := rest }
    | .ok key _ _ =>
      let o := s.older x.preds
      let k := key + x.bytes.length
      if s.cutOff core k || s.portFailed (dieOf core) k || heldBack o ||
          o.any fun p => !p.gone || p.ranges.any fun r => overlap r (k, 32) then .next s
      else
        let got := x.bytes ++ s.bytes k 32
        let s1 := if isPad k then s else s.dropLine core (k / lineBytes)
        let bad := x.bad ++ s.badCode k x.bytes.length 32
        .next { s1 with slots := { x with landed := decide (4096 ≤ got.length), bytes := got, bad := bad } :: rest }

end Sys2Proof.Machine
end

