-- ==== Sys2Proof/Machine/Dispatcher.lean ====
section
/-!
DEFINITION. The dispatchers (R22 to R25, R171, R311, R342 to R351): header checks, placement, preloads, requests for
pre-emption and ageing.
-/
namespace Sys2Proof.Machine

/-! ### Demands (R23, R25, R171) -/

/-- Teams of a spread cohort on its lower core. -/
def Header.lowTeams (h : Header) : Nat := (h.teams + 1) / 2
def Header.whole (h : Header) : Pool := Pool.times h.teams h.teamTakes
/-- A cohort spreads over a cluster (R25). -/
def Header.spreads (h : Header) : Bool := !h.whole.le fullPool || decide (padBytes < h.pad)
/-- What the halves take. -/
def Header.half (h : Header) (upper : Bool) : Pool := Pool.times (if upper then h.teams - h.lowTeams else h.lowTeams) h.teamTakes
def Header.halfPad (h : Header) (upper : Bool) : Nat := if upper then h.pad - h.pad / 2 else h.pad / 2

/-- Pad bytes of a core outside its window. -/
def State.padSize (s : State) (core : Nat) : Nat := padBytes - 2 ^ 16 * s.pinwin core

/-! ### Places (R343) -/

def State.allowedDies (s : State) (h : Header) : List Nat := (List.range 4).filter fun d => h.dieMask.getLsbD d && (s.die d).present

/-- The value of cohort field i, from 2 to 5 (R18). -/
def Header.field (h : Header) (c i : Nat) : Nat := c / 2 ^ ((List.range (i - 2)).foldl (fun n j => n + h.width (j + 2)) 0) % 2 ^ h.width i

/-- The tile coordinate: the marked fields, the lowest in the lowest bits. -/
def Header.tile (h : Header) (c : Nat) : Nat :=
  ([2, 3, 4, 5].foldl (fun (r : Nat × Nat) i =>
    if h.tileMask.testBit i then (r.1 + h.field c i * 2 ^ r.2, r.2 + h.width i) else r) (0, 0)).1

/-- The die and cluster a tile coordinate fixes; none when the mask marks no field. -/
def State.tilePlace (s : State) (h : Header) (c : Nat) : Option (Nat × Nat) :=
  let ds := s.allowedDies h
  let t := h.tile c
  if h.tileMask / 4 % 16 = 0 then none
  else if h.stride != 0 then
    let a := t * h.stride % 2 ^ 64
    let d := a / 2 ^ 37 % 4
    let die := ((List.range 4).map fun i => (d + i) % 4).find? ds.contains
    die.map fun k => (k, (s.die k).slice a)
  else some (ds.getD (t % ds.length) 0, t / ds.length % 16)

def clusterCores (p : Nat × Nat) : List Nat := [32 * p.1 + 2 * p.2, 32 * p.1 + 2 * p.2 + 1]
def State.freeWords (s : State) (core : Nat) : Nat := 1024 - (s.used core).words

/-- The first of the best by a measure. -/
def firstBest {α : Type} (f : α → Nat) : List α → Option α
  | [] => none
  | a :: t => match firstBest f t with
    | some b => if f a < f b then some b else some a
    | none => some a

def State.allPlaces (s : State) (h : Header) : List (Nat × Nat) :=
  (s.allowedDies h).flatMap fun d => (List.range 16).map fun k => (d, k)

/-- The free lane words of a cluster. -/
def State.clusterWords (s : State) (p : Nat × Nat) : Nat := ((clusterCores p).map s.freeWords).foldl (· + ·) 0

/-! ### What the full pools hold (R22, R311) -/

/-- A cohort fits the full pools of a cluster (R22, R25, R171): each half of a spread one on its core, and both with the reservation
in the cluster. -/
def State.fitsFull (s : State) (h : Header) (p : Nat × Nat) : Bool :=
  match clusterCores p with
  | [lo, hi] =>
    if h.spreads then
      (h.half false).le fullPool && (h.half true).le fullPool && decide (h.halfPad false ≤ s.padSize lo) &&
      decide (h.halfPad true ≤ s.padSize hi) && (h.whole.add h.reserves).le (Pool.times 2 fullPool)
    else [lo, hi].any fun k => (h.whole.add h.reserves).le fullPool && decide (h.pad ≤ s.padSize k)
  | _ => false

/-- How many cohorts of a launch the full pools of a cluster hold together (R311). -/
def State.holdsFull (s : State) (h : Header) (p : Nat × Nat) : Nat :=
  let most := fun (ok : Nat → Bool) => ((List.range 97).filter ok).foldl max 0
  match clusterCores p with
  | [lo, hi] =>
    if h.spreads then most fun n =>
      (Pool.times n (h.half false)).le fullPool && (Pool.times n (h.half true)).le fullPool &&
      decide (n * h.halfPad false ≤ s.padSize lo) && decide (n * h.halfPad true ≤ s.padSize hi) &&
      (Pool.times n (h.whole.add h.reserves)).le (Pool.times 2 fullPool)
    else
      let one := fun (k : Nat) => most fun n => (Pool.times n (h.whole.add h.reserves)).le fullPool && decide (n * h.pad ≤ s.padSize k)
      one lo + one hi
  | _ => 0

/-- The places of the cohorts of a DET launch without a tile coordinate, from cohort 0 on: each has the most free lane words, once its
earlier cohorts are counted there, among the clusters whose full pools hold it beside them (R311, R343). DEDUCED, log 56. -/
def State.detPlaces (s : State) (h : Header) : Nat → List (Nat × Nat)
  | 0 => []
  | n + 1 =>
    let ps := s.detPlaces h n
    let free := fun (p : Nat × Nat) => 4096 + s.clusterWords p - ps.count p * h.whole.words
    ps ++ (firstBest free ((s.allPlaces h).filter fun p => decide (ps.count p < s.holdsFull h p))).toList

/-- The die and cluster of a cohort; without a tile coordinate, the one it waits at, or those with the most free lane words.
DEDUCED, log 56. -/
def State.placeOf (s : State) (L : Launch) (c : Nat) : Option (Nat × Nat) :=
  match s.tilePlace L.hdr c with
  | some p => some p
  | none => match SMap.rd none L.places c with
    | some p => some p
    | none => if L.hdr.det then (s.detPlaces L.hdr (c + 1))[c]? else firstBest s.clusterWords (s.allPlaces L.hdr)

/-! ### Header checks (R18, R20 to R22, R171, R311, R349) -/

/-- Every cohort can be made resident (code 0x06): each at its place, and those of a DET launch together. -/
def State.resident (s : State) (h : Header) : Bool :=
  let places := s.allPlaces h
  if (s.tilePlace h 0).isSome then
    places.all fun p =>
      let n := ((List.range h.cohorts).filter fun c => s.tilePlace h c == some p).length
      n == 0 || (s.fitsFull h p && (!h.det || decide (n ≤ s.holdsFull h p)))
  else
    (places.any fun p => s.fitsFull h p) &&
    (!h.det || decide (h.cohorts ≤ (places.map (s.holdsFull h)).foldl (· + ·) 0))

/-- Code 0x03. -/
def Header.widthsBad (h : Header) : Bool :=
  let w := h.width
  decide (w 0 < 5) || decide (10 < w 0) || decide (2 ^ w 0 < 32 * h.words) || decide (16 < w 0 + w 1) || decide (2 ^ w 1 < h.teams) ||
  decide (2 ^ min 64 (w 2 + w 3 + w 4 + w 5) < h.cohorts) || decide (64 < w 0 + w 1 + w 2 + w 3 + w 4 + w 5)
/-- Code 0x04. -/
def Header.shapeBad (h : Header) : Bool :=
  h.teams == 0 || h.words == 0 || decide (32 < h.words) || decide (2048 < h.teams * h.words) || h.cohorts == 0
/-- Code 0x05. -/
def Header.budgetBad (h : Header) : Bool := h.vbud == 0 || decide (40 < h.vbud) || h.sbud == 0 || decide (8 < h.sbud)
/-- Code 0x07. -/
def Header.padBad (h : Header) : Bool :=
  h.pad % 64 != 0 || decide (h.pad < 32 * h.cap) || !([0, 8, 16, 32, 64, 128, 256, 512, 1024, 2048, 4096].contains h.cap)
/-- The BOUNDS part of code 0x08 (R171). -/
def Header.boundsBad (h : Header) : Bool :=
  h.bounds && (!([8, 16, 32].contains h.edge) || !([4, 8, 16, 32].contains h.edgeMin) || decide (h.edge < h.edgeMin) ||
    decide (3 < h.depthMax) || h.width 4 != 0 || h.width 5 != 0 || decide (2 ^ 24 ≤ 2 ^ h.width 3 * h.edge) ||
    decide (2 ^ 24 ≤ 2 ^ h.width 2 * h.edge))
/-- Code 0x0A. -/
def Header.misaligned (h : Header) : Bool :=
  h.entry % 4 != 0 || h.laneBase % 4096 != 0 || h.image % 4096 != 0 || h.stampAddr % 8 != 0 || (h.cap != 0 && h.spill % 64 != 0) ||
  (h.tvec != noHandler && h.tvec.toNat % 4 != 0)

/-- SPAGES and LBLOCKS of a preload word. -/
def spagesOf (w : Nat) : Nat := w % 2 ^ 15
def lblocksOf (w : Nat) : Nat := w / 2 ^ 16 % 2 ^ 16
def Header.preloadBad (h : Header) (w : Nat) : Bool :=
  decide (128 < spagesOf w + lblocksOf w) || decide (h.laneBase / 4096 < spagesOf w)

/-- The refusal code of a header whose preload word is w; none when it is accepted. -/
def State.refusalCode (s : State) (h : Header) (w : Nat) : Option Nat :=
  let checks : List (Nat × Bool) := [
    (0x01, h.version != 1), (0x02, !h.mbz || h.stampVal.getLsbD 63), (0x03, h.widthsBad), (0x04, h.shapeBad), (0x05, h.budgetBad)]
  match checks.find? (·.2) with
  | some (c, _) => some c
  | none =>
    -- a header that names no present die has no place to be judged at: its code is 0x08
    if (s.allowedDies h).isEmpty then
      (if !s.fitsFull h (0, 0) || h.preloadBad w then some 0x06 else if h.padBad then some 0x07 else some 0x08)
    else if !s.resident h || h.preloadBad w then some 0x06
    else if h.padBad then some 0x07
    else if h.boundsBad then some 0x08
    else if 7 < h.pri then some 0x09
    else if h.misaligned then some 0x0A
    else none

/-- A refused header (R22): its stamp, when it has an aligned one, takes the code. -/
def State.refuseHeader (s : State) (p : Post) (code : Nat) : State :=
  if p.hdr.stampAddr = 0 || p.hdr.stampAddr % 8 ≠ 0 then s
  else s.dispStamp p.die p.ctx p.hdr.stampAddr (BitVec.ofNat 64 (2 ^ 63 + code))

/-- An accepted header: the dispatcher numbers the launch; the seed tiles of a BOUNDS launch are counted (R170). -/
def State.acceptHeader (s : State) (p : Post) (w : Nat) : State :=
  let L : Launch := { id := s.evId, num := (s.die p.die).launches, die := p.die, ctx := p.ctx, hdr := p.hdr
                      live := if p.hdr.bounds then p.hdr.cohorts else 0, since := s.cycle
                      spages := spagesOf w, lblocks := lblocksOf w, token := p.token }
  let s1 := s.fresh.modDie p.die fun D => { D with launches := D.launches + 1 }
  { s1 with launches := s1.launches ++ [L] }

/-- The oldest post of a die, read. -/
def State.readPost (s : State) (die : Nat) (hdr : Header) : State :=
  let i := s.posts.findIdx fun p => p.die == die
  { s with posts := s.posts.zipIdx.map fun x => if x.2 = i then { x.1 with hdr := hdr, unread := none } else x.1 }

/-- HEADER_CHECK: the oldest header posted to the die. One posted by HLAUNCH is read first, and those behind it wait while its page does
(R67, R381); one that is poisoned is dropped, with the record of a refused one. Its preload word is read once the page is translated; an unreadable one
counts as an empty span. DEDUCED, log 27, 55, 84. -/
def execHeaderCheck (die : Nat) (s : State) : Out :=
  match s.posts.find? fun p => p.die == die with
  | none => .next s
  | some p =>
    match p.unread with
    | some va =>
      let drop := s.refuse (32 * die) p.ctx (pageNo (BitVec.ofNat 64 va)) (.dispatcher die)
      (match s.ask (.dispatcher die) (32 * die) p.ctx (BitVec.ofNat 64 va) false 2 with
      | .wait s' => .next s'
      | .refused => .next (drop.forget (.dispatcher die))
      | .ok key _ _ =>
        if s.poisoned key 128 then
          .next (State.deviceEvent { s with posts := s.posts.erase p } die (32 * die) p.ctx 4 (BitVec.ofNat 64 va))
        else .next ((s.forget (.dispatcher die)).readPost die (headerOf (s.bytes key 128))))
    | none =>
      let who := Requester.preload 0 (32 * die)
      let judge := fun (q : State) (w : Nat) =>
        let q1 := { q.forget who with posts := q.posts.erase p }
        match q.refusalCode p.hdr w with
        | some c => Host.Outcome.next (q1.refuseHeader p c)
        | none => .next (q1.acceptHeader p w)
      match s.ask who (32 * die) p.ctx (BitVec.ofNat 64 (p.hdr.image + p.hdr.laneBase + 4092)) false 3 with
      | .wait s' => .next s'
      | .refused => judge s 0
      | .ok key _ _ => judge s (s.nat key 4)

/-! ### Placement (R24, R25, R295, R311, R342, R346) -/

/-- The allocations in a core's pad, as base and length. -/
def State.allocs (s : State) (core : Nat) : List (Nat × Nat) :=
  s.cohorts.flatMap fun c => match s.launch? c.launch with
    | none => []
    | some L => ((c.cores.zip c.bases).zipIdx).filterMap fun x =>
        if x.1.1 == core then some (x.1.2, if c.cores.length = 1 then L.hdr.pad else L.hdr.halfPad (x.2 == 1)) else none

/-- A base for n bytes: the dispatcher's own choice among the free aligned ones below the window; with `low`, the lowest of them.
DESIGN CHOICE, log 10. -/
def State.padBase (s : State) (core n : Nat) (low : Bool) : Option Nat :=
  if n = 0 then some 0
  else
    let as := s.allocs core
    let bs := ((List.range ((s.padSize core - n) / 64 + 1)).map (64 * ·)).filter fun b => !(as.any fun a => overlap a (b, n))
    if s.padSize core < n || bs.isEmpty then none else some (bs.getD (if low then 0 else Config.padPlace s.placedNo % bs.length) 0)

/-- A pin window that waits to change keeps new cohorts off the core (R294). -/
def State.windowPending (s : State) (core : Nat) : Bool := (SMap.rd none (s.die (dieOf core)).pinwinNext (core % 32)).isSome

/-- Where a cohort is put: its cores, the bases of its allocation in them, and the reservation each core holds for it. -/
structure Place where
  cores : List Nat
  bases : List Nat
  resv : List (Nat × Pool) := []
deriving DecidableEq, Repr

/-- The reservation of a spread cohort beside its halves: what fits on the lower core, and the rest on the other (R171).
DEDUCED, log 47. -/
def State.splitReserve (s : State) (h : Header) (lo hi : Nat) : Option (List (Nat × Pool)) :=
  let a := h.reserves.meet (fullPool.minus ((s.used lo).add (h.half false)))
  let b := h.reserves.minus a
  if b.le (fullPool.minus ((s.used hi).add (h.half true))) then some [(lo, a), (hi, b)] else none

/-- Where the free pools of a cluster, on the cores that may take cohorts, can hold a cohort; none where they cannot. -/
def State.poolsFit (s : State) (h : Header) (low : Bool) (ok : Nat → Bool) (p : Nat × Nat) : Option Place :=
  match clusterCores p with
  | [lo, hi] =>
    if h.spreads then
      if ok lo && ok hi && s.roomFor lo (h.half false) && s.roomFor hi (h.half true) then
        match s.padBase lo (h.halfPad false) low, s.padBase hi (h.halfPad true) low, s.splitReserve h lo hi with
        | some a, some b, some r => some ⟨[lo, hi], [a, b], if h.bounds then r else []⟩
        | _, _, _ => none
      else none
    else
      let holds := fun (k : Nat) => ok k && s.roomFor k (h.whole.add h.reserves) && (s.padBase k h.pad low).isSome
      (firstBest s.freeWords ([lo, hi].filter holds)).bind fun k =>
        (s.padBase k h.pad low).map fun b => ⟨[k], [b], if h.bounds then [(k, h.reserves)] else []⟩
  | _ => none

/-- A cohort can be placed in a cluster: the pools hold it, and its span has landed there (R24, R294, R351). -/
def State.fitsNow (s : State) (L : Launch) (low : Bool) (p : Nat × Nat) : Option Place :=
  (s.poolsFit L.hdr low (fun k => !s.windowPending k) p).bind fun x => if x.cores.all fun k => s.spanReady k L then some x else none

/-- DEDUCED, log 47. -/
def State.placeable (s : State) (L : Launch) (low : Bool) (c : Nat) : Option Place := (s.placeOf L c).bind (s.fitsNow L low)

/-- The seed tile of a BOUNDS cohort (R171). -/
def seedTile (h : Header) (c : Nat) : Item :=
  itemOf (headerWord 0 1 0 0) [tileWord (h.field c 3 * h.edge) (h.field c 2 * h.edge) h.edge]

/-- A byte of an allocation last written under another context reads as zero, and every tag is empty (R295, R259).
DEDUCED, log 57. -/
def State.clearPad (s : State) (core base len ctx : Nat) : State :=
  let lo := padKey core base
  let mine := fun (k : Nat) => decide (lo ≤ k) && decide (k < lo + len)
  let s1 := (s.padCtx.filter fun x => mine x.1 && x.2 != ctx + 1).foldl (fun (q : State) x => q.setByte x.1 0) s
  { s1 with tags := s1.tags.filter fun k => !mine k }

/-- Start the teams of a cohort in ascending order, the first half of a spread cohort's on its lower core. -/
def State.startTeams (s : State) (L : Launch) (c : Nat) (cores : List Nat) : State :=
  (List.range L.hdr.teams).foldl (fun (q : State) t =>
    let core := if cores.length = 1 || decide (t < L.hdr.lowTeams) then cores.getD 0 0 else cores.getD 1 0
    let T := startTeam q.evId L c t core ((q.partition core).getD (0, 0))
    State.acquire { q.fresh with teams := q.teams ++ [{ T with issued := q.cycle }] } core .device) s

/-- The slots of a new cohort's ring hold no entry (R14): their bytes, where they are mapped, are stale. DESIGN CHOICE, log 79. -/
def State.staleRing (s : State) (L : Launch) (c die : Nat) : State :=
  (List.range (16 * L.hdr.cap)).foldl (fun (q : State) k =>
    match q.dispKey die L.ctx (BitVec.ofNat 64 (slotVa L.hdr c k)) with
    | some (key, true) => q.staleSlot L.ctx key
    | _ => q) s

/-- Place one cohort. -/
def State.placeCohort (s : State) (L : Launch) (c : Nat) (x : Place) : State :=
  let h := L.hdr
  let C : Cohort := { launch := L.id, idx := c, cores := x.cores, bases := x.bases, order := s.placedNo, resv := x.resv }
  let s1 := ((x.cores.zip x.bases).zipIdx).foldl (fun (q : State) y =>
    q.clearPad y.1.1 y.1.2 (if x.cores.length = 1 then h.pad else h.halfPad (y.2 == 1)) L.ctx) s
  let s2 := State.staleRing { s1 with cohorts := s1.cohorts ++ [C], placedNo := s1.placedNo + 1 } L c C.die
  let s3 := if h.bounds && h.cap != 0 then s2.storeCistern C h L.ctx { pad := [seedTile h c] } else s2
  (s3.startTeams L c x.cores).modLaunch L.id fun L =>
    { L with placed := insertNat c L.placed, cores := x.cores.foldl (fun r k => insertNat k r) L.cores }

/-- The cohorts that are placed with a cohort: of a DET launch all that wait. -/
def Launch.together (L : Launch) (c : Nat) : List Nat :=
  if L.hdr.det then (List.range L.hdr.cohorts).filter fun x => !L.placed.contains x else [c]

/-- Place cohorts one after the other, or none. -/
def State.placeAll (s : State) (L : Launch) (low : Bool) : List Nat → Option State
  | [] => some s
  | c :: t => match s.placeable L low c with
    | some x => (s.placeCohort L c x).placeAll L low t
    | none => none

/-- A cohort has its place from its first try on, and is not moved (R343); those of a DET launch, which start together, take theirs
together (R311). DEDUCED, log 56. -/
def State.keepPlace (s : State) (L : Launch) (c : Nat) : Launch :=
  { L with places := (L.together c).foldl (fun m x => SMap.wr none m x (s.placeOf L x)) L.places }

/-- A try to place a cohort, and with it those of its DET launch: at the pad bases the dispatcher chooses, or at the lowest where that
choice leaves the launch no room (R311). -/
def State.tryPlace (s : State) (L : Launch) (c : Nat) : Option State :=
  let K := s.keepPlace L c
  let s1 := s.modLaunch L.id fun _ => K
  match s1.placeAll K false (K.together c) with
  | some q => some q
  | none => s1.placeAll K true (K.together c)

def Launch.waits (L : Launch) (c : Nat) : Bool := decide (c < L.hdr.cohorts) && !L.placed.contains c

/-- The cohorts that the dispatcher scans before a cohort (R342): of launches of higher priority, of earlier ones of its own
priority, and the lower-numbered ones of its launch. DEDUCED, log 56. -/
def State.scannedBefore (s : State) (L : Launch) (c : Nat) : List (Launch × Nat) :=
  let higher := s.launches.filter fun X => L.hdr.pri < X.hdr.pri
  let earlier := (s.launches.takeWhile fun X => X.id != L.id).filter fun X => X.hdr.pri == L.hdr.pri
  ((higher ++ earlier).flatMap fun X => ((List.range X.hdr.cohorts).filter X.waits).map fun c => (X, c)) ++
  if L.hdr.det then [] else ((List.range c).filter L.waits).map fun c => (L, c)


/-- COHORT_PLACEMENT: a waiting cohort is placed when no cohort scanned before it on its die can be. -/
def execCohortPlacement (launch cohort : Nat) (s : State) : Out :=
  match s.launch? launch with
  | none => .next s
  | some L =>
    if !L.waits cohort then .next s
    else
      let die := (s.placeOf L cohort).map (·.1)
      if (s.scannedBefore L cohort).any fun x => (s.placeOf x.1 x.2).map (·.1) == die && (s.tryPlace x.1 x.2).isSome then .next s
      else .next ((s.tryPlace L cohort).getD (s.modLaunch launch fun _ => s.keepPlace L cohort))

/-! ### Preloads (R351) -/

/-- The slot the next page of a span takes: the highest free one, else the highest that no span holds. -/
def State.preloadSlot (s : State) (core : Nat) (L : Launch) : Option Nat :=
  let mine := s.slots.filter fun x => x.core == core
  let free := (List.range 128).filter fun k => mine.all fun x => x.slot != k
  let loose := mine.filter fun x => !s.slotHeld x && !(x.image == L.hdr.image && L.span.contains x.page)
  match free.getLast? with
  | some k => some k
  | none => if loose.isEmpty then none else some ((loose.map (·.slot)).foldl max 0)

/-- Land the pages of a span on a core, one after the other. -/
def State.landSpan (s : State) (core : Nat) (L : Launch) : List Nat → State
  | [] => s
  | p :: t =>
    let who := Requester.preload L.id core
    if s.landedOn core L.hdr.image p then s.landSpan core L t
    else match s.ask who core L.ctx (pageVa L.hdr.image p) false 3 with
      | .wait s' => s'
      | .refused => s.landSpan core L t
      | .ok key _ _ =>
        match s.preloadSlot core L with
        | none => s
        | some k =>
          let x : CodeSlot := { core := core, slot := k, landed := true, ctx := L.ctx, image := L.hdr.image, page := p,
                                bytes := s.bytes key 4096, bad := s.badCode key 0 4096 }
          let rest := s.slots.filter fun y => !(y.core == core && y.slot == k)
          (State.uncinv { s with slots := x :: rest } core k).landSpan core L t

/-- A cohort, a wave or a handler of the launch waits to start on the core. -/
def State.wantsSpan (s : State) (core : Nat) (L : Launch) : Bool :=
  ((List.range L.hdr.cohorts).any fun c => L.waits c &&
    match s.placeOf L c with
    | some p => (clusterCores p).contains core
    | none => false) ||
  (s.objs.any fun o => o.launch == L.id && !o.packed.isEmpty && o.wave.isNone && (unitCores (s.unitOf o.key)).contains core)

/-- PRELOAD_LAND. DEDUCED, log 55. -/
def execPreloadLand (launch core : Nat) (s : State) : Out :=
  match s.launch? launch with
  | some L => if s.wantsSpan core L then .next (s.landSpan core L L.span) else
      (match s.amsgs.find? fun m => m.core == core with
      | some m => if m.launch == launch then .next (s.landSpan core m.launchOf m.launchOf.span) else .next s
      | none => .next s)
  | none =>
    match s.amsgs.find? fun m => m.core == core with
    | some m => if m.launch == launch then .next (s.landSpan core m.launchOf m.launchOf.span) else .next s
    | none => .next s

/-! ### Requests for pre-emption (R344) and ageing (R348) -/

/-- Resident cohorts of a cluster that may be chosen for a cohort of priority p: lowest priority first, then the most
recently placed. -/
def State.evictable (s : State) (p : Nat × Nat) (pri : Nat) : List Cohort :=
  let priOf := fun (c : Cohort) => match s.launch? c.launch with | some L => L.hdr.pri | none => 0
  let ok := fun (c : Cohort) => (c.cores.any fun k => (clusterCores p).contains k) && decide (priOf c < pri) &&
    s.teams.all fun T => T.launch != c.launch || T.cohort != c.idx || !T.isOrdinary || T.tvec != noHandler
  (s.cohorts.filter ok).foldl (fun r c => insertCohort (fun x y => decide (priOf x < priOf y) || (priOf x == priOf y && decide (y.order < x.order))) c r) []

/-- The state without some cohorts and their teams. -/
def State.without (s : State) (cs : List Cohort) : State :=
  let gone := fun (l c : Nat) => cs.any fun x => x.launch == l && x.idx == c
  { s with cohorts := s.cohorts.filter fun x => !gone x.launch x.idx
           teams := s.teams.filter fun T => !(T.inCohort && gone T.launch T.cohort) }

/-- The shortest beginning of a list whose removal, beside that of the ones gone already, frees enough of the pools; all of it when none
does. -/
def State.chooseEvicted (s : State) (h : Header) (p : Nat × Nat) (gone chosen : List Cohort) : List Cohort → List Cohort
  | [] => chosen
  | c :: t => if ((s.without (gone ++ chosen)).poolsFit h true (fun _ => true) p).isSome then chosen
    else s.chooseEvicted h p gone (chosen ++ [c]) t

/-- Teams of the cohort were chosen less than 4096 cycles ago: their resources are on their way back (R344). -/
def State.recentlyAsked (s : State) (c : Cohort) : Bool :=
  s.teams.any fun T => T.launch == c.launch && T.cohort == c.idx && (match T.asked with | some n => decide (s.cycle < n + 4096) | none => false)

/-- DISPATCHER_PREEMPT: for a cohort that has waited 4096 cycles. -/
def execDispatcherPreempt (launch cohort : Nat) (s : State) : Out :=
  match s.launch? launch with
  | none => .next s
  | some L =>
    match s.placeOf L cohort with
    | none => .next s
    | some p =>
      if !L.waits cohort || decide (s.cycle < L.since + 4096) || (s.poolsFit L.hdr true (fun _ => true) p).isSome then .next s
      else
        let cs := s.evictable p L.hdr.pri
        let gone := cs.filter s.recentlyAsked
        let chosen := s.chooseEvicted L.hdr p gone [] (cs.filter fun c => !s.recentlyAsked c)
        let mine := fun (T : Team) => chosen.any fun c => c.launch == T.launch && c.idx == T.cohort
        let s1 := s.requestPreempt mine .preempt
        .next { s1 with teams := s1.teams.map fun T => if mine T then { T with asked := some s.cycle } else T }

/-- PRIORITY_AGING: a team gains a level, up to 7, for each 256 cycles in a row in which it had a candidate and did not issue.
DESIGN CHOICE, log 28. -/
def execPriorityAging (team : Nat) (s : State) : Out :=
  match s.team? team with
  | none => .next s
  | some T =>
    if 256 ≤ T.waited && T.pri + T.gain < 7 then .next (s.setTeam { T with gain := T.gain + 1, waited := T.waited - 256 }) else .next s

end Sys2Proof.Machine
end

