-- ==== Sys2Proof/Machine/Attach.lean ====
section
/-!
DEFINITION. The part seen from outside: control-page writes, routes and links, pin windows, host and peer accesses, reset, trust,
power and errors (R260, R294, R320, R340, R379 to R387).
-/
namespace Sys2Proof.Machine

/-! ### Control-page writes (R301, R340, R381) -/

def execPreemptRequest (die ctx : Nat) (s : State) : Out := s.ctlStore die 0x090 (BitVec.ofNat 64 (ctx % 2 ^ 12))
def execPreemptRemove (die ctx : Nat) (s : State) : Out := s.ctlStore die 0x090 (BitVec.ofNat 64 (ctx % 2 ^ 12 + 2 ^ 13))
/-- DEDUCED, log 27. -/
def execHlaunch (die : Nat) (value : Word) (s : State) : Out := s.ctlStore die 0x0A0 value
def execRtgen (die : Nat) (value : Word) (s : State) : Out := s.ctlStore die 0x088 value
def execPinwin (core : Nat) (value : Word) (s : State) : Out := s.ctlStore (dieOf core) (0x100 + 8 * (core % 32)) value
def execControlRegisterWrite (die off : Nat) (value : Word) (s : State) : Out := s.ctlStore die off value

/-- PINWIN_APPLY: no cohort holds pad on the core (R294). -/
def execPinwinApply (core : Nat) (s : State) : Out :=
  match SMap.rd none (s.die (dieOf core)).pinwinNext (core % 32) with
  | none => .next s
  | some n =>
    if (s.allocs core).any fun a => a.2 != 0 then .next s
    else .next (s.modDie (dieOf core) fun D => { D with
      pinwin := SMap.wr 0 D.pinwin (core % 32) n, pinwinNext := SMap.wr none D.pinwinNext (core % 32) none })

/-! ### Routes and links (R320, R321) -/

/-- The die a message was sent from. -/
def State.msgFrom (s : State) (m : Msg) : Nat := match m.body with | .reply .. => s.homeOf m.core m.key | _ => dieOf m.core

/-- A message stands in a ring queue of the die whose hop works, or one that the die sent is still on its way round the ring: no flow is
reordered by the switch (R320). DEDUCED, log 22. -/
def State.ringBusy (s : State) (die : Nat) : Bool :=
  s.msgs.any fun m => match m.place with
    | .ring d asc => (d == die && !s.hopFailed die asc) || (d != die && s.msgFrom m == die)
    | _ => false

/-- ROUTE_SWITCH: the table that the write of RTGEN took comes into force for every flow; messages that wait at a failed link go the new
way, in order, and the communicators of descriptors homed on the die are rebuilt. DEDUCED, log 22. -/
def execRouteSwitch (die : Nat) (s : State) : Out :=
  match (s.die die).rtgenNext with
  | none => .next s
  | some g =>
    if s.ringBusy die then .next s
    else
      let s1 := s.modDie die fun D => { D with route := D.routeTaken, proute := D.prouteTaken, rtgen := g, rtgenNext := none }
      let turn := fun (m : Msg) => match m.place with
        | .ring d _ => if d == die then { m with place := .ring die (!(s1.die die).route.getLsbD m.dest) } else m
        | _ => m
      .next { s1 with
        msgs := s1.msgs.map turn
        comms := s1.comms.filter fun c => s1.homeOf 0 c.key != die || (!c.invalid && s1.insts.any fun i => i.key == c.key) }

/-- A hop fails on both dies at its ends, a peer port on its own; LINKSTAT shows it. DEDUCED, log 23. -/
def State.failEnd (s : State) (die bit : Nat) : State :=
  (s.modDie die fun D => { D with linkstat := D.linkstat ||| (1 <<< bit), failed := D.failed ||| (1 <<< bit) }).deviceEvent
    die (32 * die) 0 3 (BitVec.ofNat 64 bit)

/-- LINK_FAILURE: recorded at its ends; communicators whose contributors' routes cross it become invalid. DEDUCED, log 23. -/
def execLinkFailure (die : Nat) (link : Link) (s : State) : Out :=
  if !(s.die die).present then .next s
  else
    let s1 := match link with
      | .up => (s.failEnd die 0).failEnd ((die + 1) % 4) 1
      | .down => (s.failEnd die 1).failEnd ((die + 3) % 4) 0
      | .peer p => s.failEnd die (2 + p % 2)
    .next (s1.comms.foldl (fun (q : State) c => q.breakComm c) s1)

/-! ### Host and peer accesses (R260, R379, R382) -/

/-- The core number of messages that come from no core. -/
def outside : Nat := 2 ^ 16

/-- An access from outside enters the home queue of its key on a die. DESIGN CHOICE, log 13. -/
def State.enter (s : State) (die key : Nat) (acc : ExtAccess) (peer : Bool) : Out :=
  if !(s.die die).present then .fault .absentAddress
  else
    let len := match acc with | .write n _ => n | _ => 8
    .next { s.fresh with msgs := s.msgs ++ [⟨s.evId, outside, die, .home, .external key acc peer, key, len⟩] }

/-- HOST_MEMORY_ACCESS: to the device's memory, or, behind it, to BAR 2 with the four control pages (R379). DESIGN CHOICE, log 13. -/
def execHostMemoryAccess (addr : Nat) (acc : ExtAccess) (s : State) : Out :=
  if s.hostDie.isNone then .next s
  else if addr < devLimit then s.enter (homeDie addr) addr acc false
  else if addr < devLimit + 2 ^ 18 then s.enter ((addr - devLimit) / 2 ^ 16) (ctlKey 0 (addr - devLimit)) acc false
  else .fault .absentAddress
def execPeerAccess (addr : Nat) (acc : ExtAccess) (s : State) : Out :=
  if addr < devLimit then s.enter (homeDie addr) addr acc true else .fault .absentAddress

/-! ### Reset and boot (R383) -/

/-- A key of a die's own memory, pads or control page. -/
def onDie (die key : Nat) : Bool :=
  if isPad key then (key - 2 ^ 60) / 2 ^ 22 / 32 == die else isDev key && homeDie key == die

/-- What a die holds goes: its teams and what they had under way, its code, copies and translations, the launches it
dispatched, and the bytes of its memory and pads. DEDUCED, log 24. -/
def State.clearDie (s : State) (die : Nat) : State :=
  let mine := fun (core : Nat) => dieOf core == die && core < 128
  let lost := fun (l : Nat) => s.launches.any fun L => L.id == l && L.die == die
  { s with
    staged := (s.mem.filter fun c => onDie die c.1).map fun c => (c.1, Memory.unlisted)
    poison := s.poison.filter fun k => !onDie die k
    tags := s.tags.filter fun k => !onDie die k
    padCtx := s.padCtx.filter fun x => !onDie die x.1
    lines := s.lines.filter fun l => !mine l.core
    evs := s.evs.filter fun e => !mine e.core
    msgs := s.msgs.filter fun m => !mine m.core && m.dest != die
    pins := s.pins.filter fun p => homeDie (p.line * lineBytes) != die
    padOld := s.padOld.filter fun x => !onDie die x.2.1
    caps := s.caps.filter fun x => x.1 / 4096 != die
    tlb := s.tlb.filter fun e => !mine e.core
    walks := s.walks.filter fun w => !mine w.core
    records := s.records.filter fun r => r.die != die
    verdicts := s.verdicts.filter fun v => match v.who with
      | .code k _ => !mine k
      | .preload _ k => !mine k
      | .prefetch k _ => !mine k
      | .dispatcher d => d != die
      | _ => true
    slots := s.slots.filter fun x => !mine x.core
    cinvs := s.cinvs.filter fun c => !mine c.core
    posts := s.posts.filter fun p => p.die != die
    launches := s.launches.filter fun L => L.die != die
    cohorts := s.cohorts.filter fun c => !lost c.launch && !(c.cores.any mine)
    teams := s.teams.filter fun T => !lost T.launch && !mine T.core
    tasks := s.tasks.filter fun t => t.die != die
    copies := s.copies.filter fun c => !mine c.core
    lastTile := s.lastTile.filter fun x => x.1 / 16 != die
    patterns := s.patterns.filter fun x => x.1 / 2 ^ 14 / 32 != die
    objs := s.objs.filter fun o => !lost o.launch && homeDie o.key != die
    reqs := s.reqs.filter fun r => !mine r.core && homeDie r.key != die
    amsgs := s.amsgs.filter fun m => !mine m.core
    tickets := s.tickets.filter fun t => !lost t.launch && homeDie t.key != die
    contribs := s.contribs.filter fun c => !mine c.core && !lost c.launch
    insts := s.insts.filter fun i => !mine i.core && !lost i.launch
    comms := s.comms.filter fun c => homeDie c.key != die
    atoms := s.atoms.filter fun a => !mine a.core && !lost a.launch }

/-- RESET: the die takes its reset values and boots: firmware that does not verify leaves it in ROM with its ports down, memory
that does not train leaves it absent, and a CXL link that does not train stays down. DEDUCED, log 24. -/
def execReset (die : Nat) (romOk dramOk linkOk : Bool) (s : State) : Out :=
  let D := Die.reset die
  let stage := if !romOk then 0 else if !dramOk then 1 else 2
  .next ((s.clearDie die).modDie die fun _ => { D with stage := stage, present := romOk && dramOk, linkUp := romOk && linkOk })

/-! ### Trust, power, errors (R384 to R387) -/

/-- SPDM_MEASUREMENT_REQUEST: the die answers with a signed measurement response. DESIGN CHOICE, log 12. -/
def execSpdmMeasurementRequest (die : Nat) (nonce : Word) (s : State) : Out :=
  let m := Config.measured die
  if (s.die die).present then .next { s with spdm := s.spdm ++ [⟨die, nonce, m, Config.spdmSign die m nonce⟩] } else .next s

/-- THERMAL_TRIP: every issue on the part halts until the die is reset. DEDUCED, log 26. -/
def execThermalTrip (die : Nat) (s : State) : Out := .next (s.modDie die fun D => { D with hot := true })

/-- POWER_LIMIT_CROSSING: partitions start or stop skipping issue cycles; results do not change. -/
def execPowerLimitCrossing (skip : Bool) (s : State) : Out := .next { s with skipping := skip }

def execEccCorrected (die : Nat) (s : State) : Out := .next (s.modDie die fun D => { D with eccCorrected := D.eccCorrected + 1 })

/-- The physical address of a key of device, host or peer memory (R289, R382). -/
def State.paOf (s : State) (d key : Nat) : Nat :=
  if isPeer key then fieldAt (SMap.rd 0 (s.die d).paper ((key - 2 ^ 53) / 2 ^ 40)) 39 13 * 2 ^ 39 + (key - 2 ^ 53) % 2 ^ 40
  else if isHost key then key - hostKey 0 else key

/-- The record of an uncorrectable error of a memory: EVENT 5, with the physical address in WID (R333, R387). -/
def State.eccRecord (s : State) (die pa : Nat) : State := s.deviceEvent die (32 * die) 0 5 (BitVec.ofNat 64 pa)

/-- ECC_UNCORRECTABLE: it is counted; eight bytes of the die's memory, of a core copy or of an instruction store are poisoned and
recorded, or the team that owns the word halts, once it may be halted (R205, R387). DEDUCED, log 25, 84. -/
def execEccUncorrectable (die : Nat) (hit : EccTarget) (s : State) : Out :=
  let s1 := s.modDie die fun D => { D with eccUncorrected := D.eccUncorrected + 1 }
  match hit with
  | .memory pa =>
    if devLimit ≤ pa || homeDie pa != die then .next s
    else .next ((s1.taint ((List.range 8).map (pa / 8 * 8 + ·))).eccRecord die pa)
  | .copy core key =>
    match s.line? core (key / lineBytes) with
    | some l =>
      if dieOf core != die || l.valid.extractLsb' (key % lineBytes / 8 * 8) 8 == 0 then .next s
      else .next ((s1.setLine { l with bad := l.bad ||| (1 <<< (key % lineBytes / 8)) }).eccRecord die (s.paOf die key))
    | none => .next s
  | .code core slot off =>
    match s.slots.find? fun x => x.core == core && x.slot == slot && x.landed with
    | some x =>
      if dieOf core != die || 4096 ≤ off then .next s
      else
        let s2 := { s1 with slots := s1.slots.map fun (y : CodeSlot) =>
          if y.core == core && y.slot == slot then { y with bad := insertNat (off / 8 * 8) y.bad } else y }
        .next (s2.eccRecord die (s.paOf die ((s.keyAt core x.ctx (x.image + 4096 * x.page + off)).getD 0)))
    | none => .next s
  | .team t => match s.team? t with
    | some T =>
      if dieOf T.core != die then .next s
      else .next (if (s1.abandon T).mayHalt T then (s1.abandon T).haltTeam T 0xFC 0 false T.spc else s1.setTeam { T with dying := true })
    | none => .next s

end Sys2Proof.Machine
end

