-- ==== Sys2Proof/Machine/Convert.lean ====
section
/-!
DEFINITION. Conversions and narrow formats (R129 to R132, R194 to R197, R213).
-/
namespace Sys2Proof.Machine

/-- CVT: source and destination fields each follow their own type (R129). -/
def execCvt (o : V1) (sty : LTy) (es : HSel) (rm : RM) (s : State) : Out :=
  s.laneOp o.g { srcs := srcsOf sty [o.a], dst := dstOf o.ty o.d } fun T q l =>
    q.put o.ty o.d l (cvtOp o.ty sty es rm (T.in sty o.a l))
def execPack (o : V2) (rm : RM) (s : State) : Out := s.lane2 o fun a b => packOp o.ty rm a.even b.even
def execUnpk (o : V1) (es : HSel) (s : State) : Out := s.lane1 o fun a => unpkOp o.ty es a.even

/-- QNT keeps the slots it does not write (R195). -/
def execQnt (o : V2) (nib : Bool) (pos : BitVec 4) (rm : RM) (s : State) : Out :=
  s.laneOp o.g { srcs := srcsOf .b64 [o.a, o.b], dst := dstOf .b64 o.d } fun T q l =>
    let r := qntOp o.ty nib pos.toNat rm (T.v o.d.toNat l) (T.srcW o.a l) (T.srcW o.b l)
    q.put .b64 o.d l (lowPair r.1, r.2)
def execQntScale (o : V2) (s : State) : Out :=
  s.lane2 o fun a b => let r := qntScaleOp o.ty a.even b.even; (lowPair r.1, r.2)
def execDqn (o : V2) (nib : Bool) (pos : BitVec 4) (rm : RM) (s : State) : Out :=
  s.lane2 o fun a b => dqnOp o.ty nib pos.toNat rm a.even b.even
def execPlane (g : Guard) (d : BitVec 9) (a : Src) (nib : Bool) (s : State) : Out :=
  s.laneOp g { srcs := srcsOf .b64 [a], dst := dstOf .b64 d } fun T q l => q.setV d.toNat l (planeOp nib (T.srcW a l))

end Sys2Proof.Machine
end

