-- ==== Sys2Proof/Machine/Cross.lean ====
section
/-!
DEFINITION. Cross-lane instructions and the crossbar tables (R8, R9, R98, R233 to R239).
-/
namespace Sys2Proof.Machine

/-! ### SHFL (R8, R234) -/

/-- The source lane of a destination lane, when it lies in the team. -/
def shflLane (md : ShMode) (l e : Nat) : Option Nat :=
  match md with
  | .idx => some e
  | .up => if e ≤ l then some (l - e) else none
  | .down => some (l + e)
  | .xor => some (l ^^^ e)

/-- What a destination lane receives; a source that does not execute gives the lane its own value. -/
def Team.shfl (T : Team) (ty : LTy) (a : Src) (md : ShMode) (ls : List Nat) (l e : Nat) : Pair :=
  match shflLane md l e with
  | some k => if ls.contains k then T.in ty a k else T.in ty a l
  | none => T.in ty a l

def execShfl (o : V2) (md : ShMode) (all : Bool) (s : State) : Out :=
  s.crossOp all (.shfl o md all) o.g { srcs := srcsOf o.ty [o.a] ++ [(o.b, 1)], dst := dstOf o.ty o.d } fun T ls =>
    ls.foldl (fun q l => q.setVp (isPair o.ty) o.d.toNat l (T.shfl o.ty o.a md ls l (fieldAt (T.srcW o.b l) 0 10))) T
def execShflImm (o : V1) (n : BitVec 10) (md : ShMode) (all : Bool) (s : State) : Out :=
  s.crossOp all (.shflImm o n md all) o.g { srcs := srcsOf o.ty [o.a], dst := dstOf o.ty o.d } fun T ls =>
    ls.foldl (fun q l => q.setVp (isPair o.ty) o.d.toNat l (T.shfl o.ty o.a md ls l n.toNat)) T

/-! ### SCAN and RED (R9, R98, R235) -/

/-- The running combination of values as read: what each lane receives, and the flags of every step (R96). -/
def scanSteps (op : RedOp) (ty : LTy) (excl : Bool) : Option Pair → List Pair → List Pair × FFlags
  | _, [] => ([], 0)
  | acc, x :: t =>
    let r : Res := match acc with | some a => redOp op ty a x | none => (x, 0)
    let (ys, fl) := scanSteps op ty excl (some r.1) t
    ((if excl then acc.getD (redUnit op ty) else r.1) :: ys, (if excl && t.isEmpty then 0 else r.2) ||| fl)

def execScan (o : V1) (op : RedOp) (excl all : Bool) (s : State) : Out :=
  s.crossOp all (.scan o op excl all) o.g { srcs := srcsOf o.ty [o.a], dst := dstOf o.ty o.d } fun T ls =>
    let xs := ls.map fun l => redRead o.ty (T.in o.ty o.a l)
    let (ys, fl) := scanSteps op o.ty excl none (xs.map (·.1))
    let all := xs.foldl (fun fl x => fl ||| x.2) fl
    (ls.zip ys).foldl (fun q x => q.put o.ty o.d x.1 (x.2, all)) T

/-- RED over the executing lanes of a team: lane l is leaf l (R98). -/
def Team.red (T : Team) (op : RedOp) (ty : LTy) (a : Src) (ls : List Nat) : Res :=
  redAll op ty ((List.range T.lanes).map fun l => if ls.contains l then some (T.in ty a l) else none)

def execRed (o : V1) (op : RedOp) (all : Bool) (s : State) : Out :=
  s.crossOp all (.red o op all) o.g { srcs := srcsOf o.ty [o.a], dst := dstOf o.ty o.d } fun T ls =>
    let r := T.red op o.ty o.a ls
    ls.foldl (fun q l => q.put o.ty o.d l r) T

/-- The scalar registers that a result of a type takes: D, and D + 1 with it for .iv64 (R42). -/
def scalarRun (ty : LTy) (d : BitVec 7) : List Nat := if isPair ty then [d.toNat, d.toNat + 1] else [d.toNat]

/-- The scalar form writes even over no lane (R235), and a register pair for .iv64 (R42). -/
def execRedScalar (g : Guard) (ty : LTy) (d : BitVec 7) (a : Src) (op : RedOp) (all : Bool) (s : State) : Out :=
  let n : Names := { srcs := srcsOf ty [a], scalar := scalarRun ty d }
  s.gather all (.redScalar g ty d a op all) n fun s1 T slot =>
    let exec := T.execMask (T.frag slot) g
    s1.laneChecks T slot exec n [] fun _ =>
      let ls := lanesOf exec T.lanes
      let r := T.red op ty a ls
      let T1 := (ls.foldl (fun q l => q.orFlags l r.2) T).fillS s1.evId slot d r.1.even
      if isPair ty then .next (s1.fresh.fresh.setTeam ((T1.fillS (s1.evId + 1) slot (d + 1) r.1.odd).nextL slot))
      else .next (s1.fresh.setTeam (T1.nextL slot))

/-! ### BALLOT (R236) -/

/-- The word of lane word j: bit i is set when lane 32j + i executes and its predicate has the value. -/
def Team.ballotWord (T : Team) (a : BitVec 4) (sel : Tri) (ls : List Nat) (j : Nat) : Half :=
  maskWord (maskOf (ls.filter fun l => T.qv a.toNat l == sel)) j

def execBallot (g : Guard) (d : BitVec 9) (a : BitVec 4) (sel : Tri) (all : Bool) (s : State) : Out :=
  s.crossOp all (.ballot g d a sel all) g { dst := [d.toNat] } fun T ls =>
    let sum := summary (maskOf (ls.filter fun l => T.qv a.toNat l == sel))
    ls.foldl (fun q l => q.setV d.toNat l (sum ++ T.ballotWord a sel ls (l / 32))) T

/-! ### Crossbar tables (R237 to R239) -/

def patKey (core table entry : Nat) : Nat := core * 2 ^ 14 + table * 2 ^ 8 + entry

/-- XBLD: it reads the pad after every earlier pad access of its fragment, those of its copies and tiles among them (R258). -/
def execXbld (g : Guard) (a b : Src) (s : State) : Out :=
  s.withLane fun T slot =>
    let exec := T.execMask (T.frag slot) g
    let first := maskOf ((lanesOf exec T.lanes).take 1)
    s.laneChecks T slot exec { srcs := [(a, 1), (b, 1)] } [(b, maskWhere (lanesOf first T.lanes) fun l => (T.srcW b l).toNat % 64 != 0)] fun _ =>
      match lowest exec T.lanes with
      | none => .next (s.setTeam (T.nextL slot))
      | some l =>
        if !s.padOk T (T.srcW b l) 512 then s.laneTrap T slot 0x07
        else if heldBack (s.older (T.frag slot).hist) || s.padPending T.id (T.frag slot).hist then .next s
        else
          let base := (T.srcW b l).toNat
          let table := (T.srcW a l).toNat % 64
          let ps := (List.range 256).foldl (fun m n =>
            let v : BitVec 16 := s.byte (s.padKeyOf T (base + 2 * n + 1)) ++ s.byte (s.padKeyOf T (base + 2 * n))
            SMap.wr 0 m (patKey T.core table n) v) s.patterns
          .next ({ s with patterns := ps }.setTeam (T.nextL slot))

/-- One destination byte of XBAR. -/
def xbarByte (e : BitVec 16) (v : Word) : Byte :=
  let n := e.toNat
  if n.testBit 15 then 0
  else
    let w := bitsAt n 11 3 + 1
    let x := bitsAt v.toNat (bitsAt n 5 6) w
    BitVec.ofInt 8 (asInt (n.testBit 14) w x)

/-- XBAR in lane l. -/
def State.xbar (s : State) (T : Team) (a : Src) (ls : List Nat) (table l : Nat) : Word :=
  let bs := (List.range 8).map fun j =>
    let e := SMap.rd 0 s.patterns (patKey T.core table (8 * (l % 32) + j))
    let k := 32 * (l / 32) + bitsAt e.toNat 0 5
    (xbarByte e (T.srcW a (if ls.contains k then k else l))).toNat
  BitVec.ofNat 64 (joinElems 8 bs)

def execXbar (g : Guard) (d : BitVec 9) (a b : Src) (s : State) : Out :=
  s.crossOp false (.xbar g d a b) g { srcs := [(a, 1), (b, 1)], dst := [d.toNat] } fun T ls =>
    match ls.head? with
    | none => T
    | some l0 =>
      let table := (T.srcW b l0).toNat % 64
      ls.foldl (fun q l => q.setV d.toNat l (s.xbar T a ls table l)) T

end Sys2Proof.Machine
end

