-- ==== Sys2Proof/Machine/Floating.lean ====
section
/-!
DEFINITION. Floating and interval instructions (R109 to R118).
-/
namespace Sys2Proof.Machine

def execFadd (o : V2) (rm : RM) (s : State) : Out := s.lane2 o fun a b => fBin .add o.ty rm a b
def execFsub (o : V2) (rm : RM) (s : State) : Out := s.lane2 o fun a b => fBin .sub o.ty rm a b
def execFmul (o : V2) (rm : RM) (s : State) : Out := s.lane2 o fun a b => fBin .mul o.ty rm a b
def execFdiv (o : V2) (rm : RM) (s : State) : Out := s.lane2 o fun a b => fBin .div o.ty rm a b
def execFfma (o : V3) (rm : RM) (s : State) : Out := s.lane3 o fun a b c => fFma o.ty rm a b c
def execFsqrt (o : V1) (rm : RM) (s : State) : Out := s.lane1 o fun a => fUn .sqrt o.ty rm a
def execFrcp (o : V1) (rm : RM) (s : State) : Out := s.lane1 o fun a => fUn .rcp o.ty rm a
def execFrsq (o : V1) (rm : RM) (s : State) : Out := s.lane1 o fun a => fUn .rsq o.ty rm a
def execFexp2 (o : V1) (rm : RM) (s : State) : Out := s.lane1 o fun a => fUn .exp2 o.ty rm a
def execFlog2 (o : V1) (rm : RM) (s : State) : Out := s.lane1 o fun a => fUn .log2 o.ty rm a
def execFmin (o : V2) (s : State) : Out := s.lane2 o fun a b => fBin .min o.ty .rne a b
def execFmax (o : V2) (s : State) : Out := s.lane2 o fun a b => fBin .max o.ty .rne a b
def execFabs (o : V1) (s : State) : Out := s.lane1 o fun a => fUn .abs o.ty .rne a
def execFneg (o : V1) (s : State) : Out := s.lane1 o fun a => fUn .neg o.ty .rne a
def execFhull (o : V2) (s : State) : Out := s.lane2 o fun a b => fBin .hull o.ty .rne a b
def execFcap (o : V2) (s : State) : Out := s.lane2 o fun a b => fBin .cap o.ty .rne a b
def execFmid (o : V1) (s : State) : Out := s.lane1 o fun a => fOne .mid o.ty a
def execFrad (o : V1) (s : State) : Out := s.lane1 o fun a => fOne .rad o.ty a
def execFwid (o : V1) (s : State) : Out := s.lane1 o fun a => fOne .wid o.ty a
def execFlo (o : V1) (s : State) : Out := s.lane1 o fun a => fOne .lo o.ty a
def execFhi (o : V1) (s : State) : Out := s.lane1 o fun a => fOne .hi o.ty a
def execFmk (o : V2) (s : State) : Out := s.lane2 o fun a b => fMk o.ty a b
def execFcmp (o : C2) (c : FCond) (es : BitVec 3) (s : State) : Out := s.laneC o fun a b => fCmp c o.ty es.toNat a b

/-- FCLASS writes the even register of a pair only (R117). -/
def execFclass (o : V1) (s : State) : Out :=
  s.laneOp o.g { srcs := srcsOf o.ty [o.a], dst := dstOf o.ty o.d } fun T q l =>
    q.setV o.d.toNat l (fClass o.ty (T.in o.ty o.a l))
def execFsel (o : QS) (s : State) : Out := s.laneS o (fSel o.ty)

/-! ### Immediate forms -/

def execFaddImm (o : V1i) (rm : RM) (s : State) : Out := s.lane1i o fun a b => fBin .add o.ty rm a b
def execFsubImm (o : V1i) (rm : RM) (s : State) : Out := s.lane1i o fun a b => fBin .sub o.ty rm a b
def execFmulImm (o : V1i) (rm : RM) (s : State) : Out := s.lane1i o fun a b => fBin .mul o.ty rm a b
def execFdivImm (o : V1i) (rm : RM) (s : State) : Out := s.lane1i o fun a b => fBin .div o.ty rm a b
def execFfmaImm (o : V2i) (rm : RM) (s : State) : Out := s.lane2i o fun a b c => fFma o.ty rm a b c
def execFminImm (o : V1i) (s : State) : Out := s.lane1i o fun a b => fBin .min o.ty .rne a b
def execFmaxImm (o : V1i) (s : State) : Out := s.lane1i o fun a b => fBin .max o.ty .rne a b
def execFhullImm (o : V1i) (s : State) : Out := s.lane1i o fun a b => fBin .hull o.ty .rne a b
def execFcapImm (o : V1i) (s : State) : Out := s.lane1i o fun a b => fBin .cap o.ty .rne a b
def execFcmpImm (o : C1i) (c : FCond) (es : BitVec 3) (s : State) : Out := s.laneCi o fun a b => fCmp c o.ty es.toNat a b
def execFselImm (o : QSi) (s : State) : Out := s.laneSi o (fSel o.ty)

end Sys2Proof.Machine
end

