-- ==== Sys2Proof/Machine/Integer.lean ====
section
/-!
DEFINITION. Integer and bit instructions (R119 to R128).
-/
namespace Sys2Proof.Machine

def execIadd (o : V2) (sat : Bool) (s : State) : Out := s.lane2 o fun a b => iBin .add o.ty sat a.even b.even
def execIsub (o : V2) (sat : Bool) (s : State) : Out := s.lane2 o fun a b => iBin .sub o.ty sat a.even b.even
def execImul (o : V2) (sat : Bool) (s : State) : Out := s.lane2 o fun a b => iBin .mul o.ty sat a.even b.even
def execImulh (o : V2) (s : State) : Out := s.lane2 o fun a b => iBin .mulh o.ty false a.even b.even
def execImad (o : V3) (s : State) : Out := s.lane3 o fun a b c => iMad o.ty a.even b.even c.even
def execIdiv (o : V2) (s : State) : Out := s.lane2 o fun a b => iBin .div o.ty false a.even b.even
def execIrem (o : V2) (s : State) : Out := s.lane2 o fun a b => iBin .rem o.ty false a.even b.even
def execImin (o : V2) (s : State) : Out := s.lane2 o fun a b => iBin .min o.ty false a.even b.even
def execImax (o : V2) (s : State) : Out := s.lane2 o fun a b => iBin .max o.ty false a.even b.even
def execIabs (o : V1) (sat : Bool) (s : State) : Out := s.lane1 o fun a => iAbs o.ty sat a.even
def execLand (o : V2) (s : State) : Out := s.lane2 o fun a b => bBin .and o.ty a.even b.even
def execLor (o : V2) (s : State) : Out := s.lane2 o fun a b => bBin .or o.ty a.even b.even
def execLxor (o : V2) (s : State) : Out := s.lane2 o fun a b => bBin .xor o.ty a.even b.even
def execAndn (o : V2) (s : State) : Out := s.lane2 o fun a b => bBin .andn o.ty a.even b.even
def execShl (o : V2) (s : State) : Out := s.lane2 o fun a b => bBin .shl o.ty a.even b.even
def execShr (o : V2) (s : State) : Out := s.lane2 o fun a b => bBin .shr o.ty a.even b.even
def execSar (o : V2) (s : State) : Out := s.lane2 o fun a b => bBin .sar o.ty a.even b.even
def execRot (o : V2) (s : State) : Out := s.lane2 o fun a b => bBin .rot o.ty a.even b.even
def execPopc (o : V1) (s : State) : Out := s.lane1 o fun a => iPopc o.ty a.even
def execClz (o : V1) (s : State) : Out := s.lane1 o fun a => iClz o.ty a.even
def execBfx (o : V2) (s : State) : Out := s.lane2 o fun a f => iBfx o.ty a.even f.even
def execBfi (o : V3) (s : State) : Out := s.lane3 o fun a b f => iBfi a.even b.even f.even
def execIcmp (o : C2) (c : Cond) (es : HSel) (s : State) : Out := s.laneC o fun a b => iCmp c o.ty es a.even b.even

/-- ISEL (R128). -/
def iSel (q : Tri) (b c : Pair) : Res := (if q == .t then b else c, 0)
def execIsel (o : QS) (s : State) : Out := s.laneS o iSel
def execMov (o : V1) (s : State) : Out := s.lane1 o fun a => (a, 0)

/-! ### Immediate forms -/

def execIaddImm (o : V1i) (sat : Bool) (s : State) : Out := s.lane1i o fun a b => iBin .add o.ty sat a.even b.even
def execIsubImm (o : V1i) (sat : Bool) (s : State) : Out := s.lane1i o fun a b => iBin .sub o.ty sat a.even b.even
def execImulImm (o : V1i) (sat : Bool) (s : State) : Out := s.lane1i o fun a b => iBin .mul o.ty sat a.even b.even
def execImulhImm (o : V1i) (s : State) : Out := s.lane1i o fun a b => iBin .mulh o.ty false a.even b.even
def execImadImm (o : V2i) (s : State) : Out := s.lane2i o fun a b c => iMad o.ty a.even b.even c.even
def execIdivImm (o : V1i) (s : State) : Out := s.lane1i o fun a b => iBin .div o.ty false a.even b.even
def execIremImm (o : V1i) (s : State) : Out := s.lane1i o fun a b => iBin .rem o.ty false a.even b.even
def execIminImm (o : V1i) (s : State) : Out := s.lane1i o fun a b => iBin .min o.ty false a.even b.even
def execImaxImm (o : V1i) (s : State) : Out := s.lane1i o fun a b => iBin .max o.ty false a.even b.even
def execLandImm (o : V1i) (s : State) : Out := s.lane1i o fun a b => bBin .and o.ty a.even b.even
def execLorImm (o : V1i) (s : State) : Out := s.lane1i o fun a b => bBin .or o.ty a.even b.even
def execLxorImm (o : V1i) (s : State) : Out := s.lane1i o fun a b => bBin .xor o.ty a.even b.even
def execAndnImm (o : V1i) (s : State) : Out := s.lane1i o fun a b => bBin .andn o.ty a.even b.even
def execShlImm (o : V1i) (s : State) : Out := s.lane1i o fun a b => bBin .shl o.ty a.even b.even
def execShrImm (o : V1i) (s : State) : Out := s.lane1i o fun a b => bBin .shr o.ty a.even b.even
def execSarImm (o : V1i) (s : State) : Out := s.lane1i o fun a b => bBin .sar o.ty a.even b.even
def execRotImm (o : V1i) (s : State) : Out := s.lane1i o fun a b => bBin .rot o.ty a.even b.even
def execBfxImm (o : V1i) (s : State) : Out := s.lane1i o fun a f => iBfx o.ty a.even f.even
def execBfiImm (o : V2i) (s : State) : Out := s.lane2i o fun a b f => iBfi a.even b.even f.even
def execIcmpImm (o : C1i) (c : Cond) (es : HSel) (s : State) : Out := s.laneCi o fun a b => iCmp c o.ty es a.even b.even
def execIselImm (o : QSi) (s : State) : Out := s.laneSi o iSel
def execMovi (o : V0i) (s : State) : Out := s.lane0i o fun a => (a, 0)

end Sys2Proof.Machine
end

