-- ==== Sys2Proof/Machine/Matrix.lean ====
section
/-!
DEFINITION. The matrix engine (R180, R199 to R212, R214).
-/
namespace Sys2Proof.Machine

/-! ### MFMT (R200) -/

def execMfmt (g : Guard) (a : BitVec 7) (imm : Half) (s : State) : Out :=
  s.withLane fun T slot =>
    let regs := if fmtBK imm = 3 then (List.range 4).map (a.toNat + ·) else []
    if regs.any fun r => decide (T.sbud ≤ r) then s.laneTrap T slot 0x09
    else if T.execMask (T.frag slot) g == 0 then .next (s.setTeam (T.nextL slot))
    else .next (s.setTeam ({ T with
      mfmt := imm, codebook := if regs.isEmpty then T.codebook else regs.map T.sreg }.nextL slot))

/-! ### Issue of a tile (R205, R207, R208) -/

/-- Columns of a tile. -/
def tileN (ns : BitVec 2) : Nat := 16 * 2 ^ ns.toNat
/-- The accumulator registers in the mode mfmt selects. -/
def accRegs (m : BitVec 32) (d n : Nat) : List Nat := (List.range (if fmtIM m then n else n / 2)).map (d + ·)

/-- An accumulator is empty on behalf of a producer that is not a tile of the team. -/
def Team.accEmpty (T : Team) (regs : List Nat) (rows : LaneMask) : Bool :=
  T.marks.any fun m => !m.tile && regs.contains m.reg && maskWord rows m.word != 0

/-- A vector register is marked live-in for the region (R75). -/
def Team.liveV (T : Team) (r : Nat) : Bool := (T.livein.getD (r / 64) 0).getLsbD (r % 64)

/-- MMA and MMAQ; `c` is the column table of MMAQ. -/
def State.mmaOp (s : State) (g : Guard) (d : BitVec 9) (a b : Src) (c : Option Src) (ns : BitVec 2) (z : Bool)
    (ks : BitVec 12) : Out :=
  s.withLane fun T slot =>
    let exec := T.execMask (T.frag slot) g
    let n := tileN ns
    let regs := accRegs T.mfmt d.toNat n
    let l := (lowest exec T.lanes).getD 0
    let off := fun (x : Src) => (T.srcW x l).toNat
    let odd := fun (x : Src) (k : Nat) => (x, if exec != 0 && off x % k != 0 then (T.frag slot).mask else 0)
    if regs.any fun r => decide (T.vbud ≤ r) then s.laneTrap T slot 0x09
    else s.laneChecks T slot exec { srcs := [(a, 1), (b, 1)] ++ (c.toList.map fun x => (x, 1)) }
        ([odd a 32, odd b 32] ++ (c.toList.map fun x => odd x 4)) fun _ =>
      let t : Tile := {
        id := s.evId, d := d.toNat, n := n, k := ks.toNat, z := z, q := c.isSome, oa := off a, ob := off b
        oc := (c.map off).getD 0, rows := exec, mfmt := T.mfmt, codebook := T.codebook, preds := s.liveHist (T.frag slot).hist }
      if exec == 0 then .next (s.setTeam (T.nextL slot))
      else if fmtPA T.mfmt = 0 then s.laneTrap T slot 0x06
      else if exec &&& ~~~(fullMask 128) != 0 then s.laneTrap T slot 0x06
      else if (t.ranges T).any fun r => !s.padOk T (BitVec.ofNat 64 r.1) r.2 then s.laneTrap T slot 0x07
      else if T.accEmpty regs exec || decide (2 ≤ T.tiles.length) then .next s
      else
        let T1 := T.mark regs exec s.evId true
        let commits := !z && regs.any T.liveV
        let T2 := T1.setFrag slot { T1.frag slot with hist := t.preds ++ [t.id] }
        .next (s.fresh.setTeam ({ T2 with tiles := T.tiles ++ [t], committed := T.committed || commits }.nextL slot))

def execMma (g : Guard) (d : BitVec 9) (a b : Src) (ns : BitVec 2) (z : Bool) (ks : BitVec 12) (s : State) : Out :=
  s.mmaOp g d a b none ns z ks
def execMmaq (g : Guard) (d : BitVec 9) (a b c : Src) (ns : BitVec 2) (z : Bool) (ks : BitVec 12) (s : State) : Out :=
  s.mmaOp g d a b (some c) ns z ks

/-! ### Images (R201, R202) -/

/-- A line of one slice: whether it held a special value, and the midpoint and radius of each element. -/
structure Blk where
  spec : Bool
  mids : List Dy
  rads : List Dy
deriving DecidableEq, Repr

/-- The codes of a line in planes `first` to `first + planes − 1`. -/
def planeCodes (rd : Nat → Byte) (base lines first planes r : Nat) : List Nat :=
  let ps := (List.range planes).map fun p => leNat ((List.range 32).map fun b => rd (base + 32 * (lines * (first + p) + r) + b))
  (List.range 256).map fun k => joinElems 1 (ps.map fun n => if n.testBit k then 1 else 0)

/-- A codebook entry by its low bits. -/
def cbEntry (cb : List Word) (bits j : Nat) : Int :=
  asInt true bits (bitsAt (cb.getD (j / 4) 0).toNat (16 * (j % 4)) bits)

/-- Line r of the slice at `base`. `p` is the operand's plane count; the image of kind 3 has four planes. -/
def blockOf (rd : Nat → Byte) (cb : List Word) (base lines p kind : Nat) (im : Bool) (r : Nat) : Blk :=
  let planes := if kind = 3 then 4 else p
  let codes := planeCodes rd base lines 0 planes r
  let zero := codes.map fun _ => (⟨0, 0⟩ : Dy)
  if kind = 0 then ⟨false, codes.map fun (n : Nat) => ⟨n, 0⟩, zero⟩
  else if kind = 1 then ⟨false, codes.map fun n => ⟨asInt true p n, 0⟩, zero⟩
  else if kind = 3 then ⟨false, codes.map fun n => ⟨cbEntry cb p n, 0⟩, zero⟩
  else
    let h := leNat ((List.range (if im then 4 else 2)).map fun b =>
      rd (base + 32 * lines * p * (if im then 2 else 1) + (if im then 4 else 2) * r + b))
    let mids := codes.map fun n => (⟨asInt true p n, asInt true 9 (bitsAt h 0 9)⟩ : Dy)
    let rads := if im then (planeCodes rd base lines p p r).map fun (n : Nat) => (⟨n, asInt true 9 (bitsAt h 16 9)⟩ : Dy) else zero
    ⟨h.testBit 9, mids, rads⟩

/-- A line over every slice of a tile. -/
def lineOf (rd : Nat → Byte) (cb : List Word) (base slice k lines p kind : Nat) (im : Bool) (r : Nat) : Blk :=
  let bs := (List.range k).map fun i => blockOf rd cb (base + i * slice) lines p kind im r
  ⟨bs.any (·.spec), bs.flatMap (·.mids), bs.flatMap (·.rads)⟩

def sumDy (ds : List Dy) : Dy := ds.foldl Dy.add ⟨0, 0⟩
/-- The sum of products. -/
def dotDy (xs ys : List Dy) : Dy := sumDy ((xs.zip ys).map fun p => p.1.mul p.2)

/-! ### Accumulation (R209 to R211) -/

/-- A column's scale and zero point; none when either is no number. -/
abbrev Column := Option (Dy × Dy)

def columnOf (rd : Nat → Byte) (oc n j : Nat) : Column :=
  let f := fun (o : Nat) => f32.read (leNat ((List.range 4).map fun b => rd (o + b)))
  match f (oc + 4 * j), f (oc + 4 * n + 4 * j) with
  | .fin a b c, .fin x y z => some (FV.dy (.fin a b c), FV.dy (.fin x y z))
  | _, _ => none

/-- The exact term of one accumulator in point mode; none stands for a special value. -/
def pointTerm (a b : Blk) (q : Option Column) : Option Dy :=
  if a.spec || b.spec then none
  else
    let s := dotDy a.mids b.mids
    match q with
    | none => some s
    | some none => none
    | some (some (sc, zp)) => some (sc.mul (s.sub (zp.mul (sumDy a.mids))))

/-- Midpoint and radius of the term in interval mode. -/
def intervalTerm (a b : Blk) (q : Option Column) : Option (Dy × Dy) :=
  if a.spec || b.spec then none
  else
    let m := dotDy a.mids b.mids
    let r := (dotDy (a.mids.map Dy.abs) b.rads).add ((dotDy a.rads (b.mids.map Dy.abs)).add (dotDy a.rads b.rads))
    match q with
    | none => some (m, r)
    | some none => none
    | some (some (sc, zp)) => some (sc.mul (m.sub (zp.mul (sumDy a.mids))), sc.abs.mul (r.add (zp.abs.mul (sumDy a.rads))))

/-- A point accumulator takes its term (R209). -/
def accPoint (acc : Nat) (term : Option Dy) : Nat × FFlags :=
  match term with
  | none => (f32.nanBits, fNV)
  | some t => (match f32.read acc with
    | .nan _ => (f32.nanBits, fNV)
    | .inf n => (f32.inf n, 0)
    | v => f32.round .rne (v.dy.add t))

/-- UF of a bound of an accumulator, which R210 sets as R93 gives. -/
def boundUnderflow (lower : Bool) : Bd → FFlags
  | .fin d => (f32.round (if lower then .rd else .ru) d).2 &&& fUF
  | _ => 0

/-- An interval accumulator takes its term; OF only where a finite bound rounds to an infinity (R210). DEDUCED, log 76. -/
def accInterval (lo hi : Nat) (term : Option (Dy × Dy)) : IvOut :=
  let x := f32.readIv lo hi
  match x.iv, term with
  | none, _ => f32.emptyIv.flag x.fl
  | some _, none => f32.entire.flag (x.fl ||| fWD)
  | some (a, b), some (m, r) =>
    let lo := a.add (.fin (m.sub r))
    let hi := b.add (.fin (m.add r))
    let l := f32.bound true lo
    let h := f32.bound false hi
    let past := (lo.isFin && l.1 == f32.inf true) || (hi.isFin && h.1 == f32.inf false)
    ⟨l.1, h.1, ((l.2 ||| h.2) &&& fNX) ||| flagIf past fOF ||| f32.un (allFinite [x.iv]) l.1 h.1 ||| x.fl |||
      boundUnderflow true lo ||| boundUnderflow false hi⟩

/-- Row m of a tile: every accumulator of the row. -/
def Team.tileRow (T : Team) (t : Tile) (row : Blk) (cols : List (Blk × Option Column)) (m : Nat) : Team :=
  (cols.zipIdx).foldl (fun q x =>
    let ((b, c), j) := x
    if fmtIM t.mfmt then
      let r := t.d + j
      let w := if t.z then 0 else (q.v r m).toNat
      let o := accInterval (w % 2 ^ 32) (w / 2 ^ 32) (intervalTerm row b c)
      (q.setV r m (BitVec.ofNat 64 (o.lo + o.hi * 2 ^ 32))).orFlags m o.fl
    else
      let r := t.d + j / 2
      let w := (q.v r m).toNat
      let acc := if t.z then 0 else bitsAt w (32 * (j % 2)) 32
      let o := accPoint acc (pointTerm row b c)
      let w' := if j % 2 = 0 then w / 2 ^ 32 * 2 ^ 32 + o.1 else w % 2 ^ 32 + o.1 * 2 ^ 32
      (q.setV r m (BitVec.ofNat 64 w')).orFlags m o.2) T

/-- A byte as a tile reads it at some moment of its run: what the pad holds now, or, where other teams have stored over it since the
tile started, any value it had in that time (R207). DESIGN CHOICE, log 70. -/
def State.tileByte (s : State) (t : Tile) (key : Nat) : Byte :=
  match s.padOld.filter fun x => x.2.1 == key && decide (t.began ≤ x.1) with
  | [] => s.byte key
  | olds => (s.byte key :: olds.map (·.2.2)).getD (Config.tilePick s.tick key % (olds.length + 1)) 0

/-- A tile writes back: it reads its images, adds to its accumulators and marks them full together (R180, R207).
DESIGN CHOICE, log 70. -/
def State.writeTile (s : State) (T : Team) (t : Tile) : State :=
  let rd := fun (o : Nat) => s.tileByte t (s.padKeyOf T o)
  let im := fmtIM t.mfmt
  let cols := (List.range t.n).map fun j =>
    (lineOf rd t.codebook t.ob (bSlice t.n t.mfmt) t.k t.n (fmtPB t.mfmt) (fmtBK t.mfmt) im j,
     if t.q then some (columnOf rd t.oc t.n j) else none)
  let T1 := (lanesOf t.rows T.lanes).foldl (fun q m =>
    q.tileRow t (lineOf rd t.codebook t.oa (aSlice T t.mfmt) t.k T.aLines (fmtPA t.mfmt) (fmtAK t.mfmt) im m) cols m) T
  let s1 := s.setTeam { T1 with
    marks := T.marks.filter fun m => m.grp != t.id
    tiles := T.tiles.filter fun x => x.id != t.id
    tilesDone := T.tilesDone + 1 }
  { s1 with padOld := if s1.tilesRun then s1.padOld else [] }

/-! ### The engine (R205) -/

/-- A team's place in the slot order of its cluster. -/
def Team.enginePos (T : Team) : Nat := T.core % 2 * 96 + T.part * 8 + T.slot

/-- The teams of a cluster with a tile pending. -/
def State.tileTeams (s : State) (cluster : Nat) : List Team :=
  s.teams.filter fun T => clusterOf T.core == cluster && !T.tiles.isEmpty

/-- The next team in slot order after the one whose tile ran last. -/
def State.nextTileTeam (s : State) (cluster : Nat) : Option Team :=
  let last := SMap.rd 0 s.lastTile cluster
  let dist := fun (T : Team) => (T.enginePos + 192 - last) % 192
  (s.tileTeams cluster).foldl (fun (r : Option Team) T => match r with
    | none => some T
    | some q => if dist T < dist q then some T else some q) none

/-- An older pad access of the tile's fragment, or an older copy out of the pad, is not done (R180, R258). -/
def State.tileBusy (s : State) (t : Tile) : Bool :=
  let o := s.older t.preds
  heldBack o || o.any (fun e => e.isPadEv) || (s.olderCopies t.preds).any fun c => c.dir == .padToMem

/-- The free engine takes the head tile of the next team, and starts it once it may read (R180). DESIGN CHOICE, log 70. -/
def execTileStart (cluster : Nat) (s : State) : Out :=
  if (s.tileTeams cluster).any fun T => T.tiles.any (·.running) then .next s
  else match s.nextTileTeam cluster with
    | none => .next s
    | some T =>
      if T.tiles.head?.any s.tileBusy then .next s
      else
        let tiles := match T.tiles with | t :: r => { t with running := true, began := s.tick } :: r | [] => []
        .next { s.setTeam { T with tiles := tiles } with lastTile := SMap.wr 0 s.lastTile cluster ((T.enginePos + 1) % 192) }

/-- The running tile writes back. -/
def execTileWriteback (cluster : Nat) (s : State) : Out :=
  match (s.tileTeams cluster).find? fun T => T.tiles.any (·.running) with
  | none => .next s
  | some T =>
    match T.tiles.find? (·.running) with
    | none => .next s
    | some t => .next (s.writeTile T t)

/-! ### MSTAT (R214) -/

def State.tileStatus (s : State) (T : Team) : Word :=
  BitVec.ofNat 64 (T.tiles.length % 4 + (if T.tiles.any (·.running) then 4 else 0) +
    (s.tileTeams (clusterOf T.core)).length % 256 * 2 ^ 8 + T.tilesDone.toNat * 2 ^ 32)

def State.mstatValue (s : State) (T : Team) (sel : Nat) : Word :=
  if sel = 0 then s.tileStatus T else if sel = 1 then T.mfmt.setWidth 64 else T.codebook.getD (sel - 4) 0

def execMstat (g : Guard) (d : BitVec 9) (sel : BitVec 3) (s : State) : Out :=
  s.laneOp g { dst := [d.toNat] } fun T q l => q.setV d.toNat l (s.mstatValue T sel.toNat)

end Sys2Proof.Machine
end

