-- ==== Sys2Proof/Machine/System.lean ====
section
/-!
DEFINITION. System registers, traps by instruction, regions, critical marking, code barriers and retirement (R33, R74 to R79,
R330, R331, R334, R335).
-/
namespace Sys2Proof.Machine

/-! ### System registers (R75) -/

/-- The OR of every lane's flags (R95). -/
def Team.allFlags (T : Team) : BitVec 16 := T.fflags.foldl (fun f p => f ||| p.2) 0
/-- Flags that exist; the others read as zero and ignore writes (R95). -/
def flagMask : BitVec 16 := 0x1FF

/-- The records of the capability list from x.cap on, header and payload of each (R359), for the dies present as a mask. -/
def capabilityList (dies : BitVec 4) : List Word := [
  0x0000001010010001, 0x0000000000200C20, 0x0000002010010002, 0x0000000000100080, 0x0000003010010003,
  0x0000000000002000 ||| dies.setWidth 64, 0x0000004010010004, 0x0008000000300000, 0x0000000010010005, 0x0000000000000078]

/-- The dies that booted with their memory (R359, R383). -/
def State.presentMask (s : State) : BitVec 4 := (List.range 4).foldl (fun m d => if (s.die d).present then m ||| (1 <<< d) else m) 0

/-- x.cap in a context of a die: 0 where firmware has mapped no list (R358). -/
def State.capOf (s : State) (die ctx : Nat) : Word := SMap.rd 0 s.caps (4096 * die + ctx)

/-- Put the bytes stored into memory outside a step. -/
def State.commitStaged (s : State) : State := { s with mem := commitCells s.mem s.staged, staged := [] }

/-- Firmware's part of boot: where its tables map an address of the context read-only, it stores the list for the dies present there;
x.cap then holds that address (R358, R359, R383). Elsewhere it does nothing. It is a loader, as a program's is. DESIGN CHOICE,
log 5. -/
def State.loadCaps (s : State) (die ctx : Nat) (va : Word) : State :=
  match s.dispKey die ctx va with
  | some (key, false) =>
    { ((capabilityList s.presentMask).zipIdx.foldl (fun (q : State) x => q.setWord (key + 8 * x.2) x.1) s).commitStaged with
      caps := SMap.wr 0 s.caps (4096 * die + ctx) va }
  | _ => s

/-- The registers that read alike in both streams; waves and message handlers have no clock (R309). -/
def Team.sysReg (T : Team) (cap : Word) (x : Nat) : Word :=
  if x = 0x002 then BitVec.ofNat 64 T.teamid
  else if x = 0x004 then T.hdr.args
  else if x = 0x006 then (if T.inCohort then BitVec.ofNat 64 T.clock else 0)
  else if x = 0x008 then cap
  else if x = 0x009 then T.waitlimit.setWidth 64
  else if x = 0x00C then T.tvec.setWidth 64
  else if x = 0x010 then T.trapcause.setWidth 64
  else if x = 0x011 then T.trappc.setWidth 64
  else if x = 0x012 then T.regionpc.setWidth 64
  else 0

/-- A register as MFX reads it in the scalar stream; `cap` is x.cap (R75). -/
def Team.readScalar (T : Team) (cap : Word) (x : Nat) : Word :=
  if x = 0x000 then T.wid 0
  else if x = 0x003 then T.cohortIdx 0
  else if x = 0x005 then (summary T.mask).setWidth 64
  else if x = 0x007 then (T.allFlags &&& flagMask).setWidth 64
  else if x = 0x00A then T.kflags.setWidth 64
  else if x = 0x013 then T.splitsel.setWidth 64
  else if 0x020 ≤ x && x < 0x040 then (maskWord T.faultmask (x - 0x020)).setWidth 64
  else if 0x040 ≤ x && x < 0x048 then T.livein.getD (x - 0x040) 0
  else if 0x100 ≤ x && x < 0x140 then T.split.readWindow T.splitsel.toNat (x - 0x100)
  else T.sysReg cap x

/-- A register as MFX reads it in a lane; `cap` is x.cap (R75). -/
def Team.readLane (T : Team) (cap : Word) (f : Frag) (x l : Nat) : Word :=
  if x = 0x000 then T.wid l
  else if x = 0x001 then BitVec.ofNat 64 l
  else if x = 0x003 then T.cohortIdx l
  else if x = 0x005 then (maskWord f.mask (l / 32)).setWidth 64
  else if x = 0x007 then (T.flags l &&& flagMask).setWidth 64
  else if x = 0x00B then (if T.isWave then T.wid l else 0)
  else T.sysReg cap x

/-- Flag fields written as 10 are stored as 11 (R75). -/
def fixK (w : BitVec 16) : BitVec 16 := w ||| ((w &&& 0xAAAA) >>> 1)

/-- Registers the scalar stream may write; x.trappc and x.split in a handler only. -/
def scalarWritable (handler : Bool) (x : Nat) : Bool :=
  x = 0x007 || x = 0x009 || x = 0x00A || x = 0x00C || x = 0x013 ||
  (handler && (x = 0x011 || (0x100 ≤ x && x < 0x140)))

def Team.writeScalar (T : Team) (x : Nat) (w : Word) : Team :=
  if x = 0x007 then
    (List.range T.lanes).foldl (fun q l => q.setFlags l (w.setWidth 16 &&& flagMask)) T
  else if x = 0x009 then { T with waitlimit := w.setWidth 32 }
  else if x = 0x00A then { T with kflags := fixK (w.setWidth 16) }
  else if x = 0x00C then { T with tvec := w.setWidth 32 }
  else if x = 0x013 then { T with splitsel := w.setWidth 8 }
  else if x = 0x011 then { T with trappc := w.setWidth 32 &&& 0xFFFFFFFC }
  else if 0x100 ≤ x && x < 0x140 then { T with split := T.split.writeWindow T.splitsel.toNat (x - 0x100) w }
  else T

/-- Events that may still set flags in a lane. DEDUCED, log 65. -/
def flagsPending (es : List Ev) : Bool := es.any fun e => (match e.dst with | .lane .. => true | _ => false)

/-- Every flag-setting instruction of the team has completed (R96): its loads and atomics, tiles, and the conversions of
copies that run. DEDUCED, log 65. -/
def State.flagsQuiet (s : State) (T : Team) : Bool :=
  T.laneIdle && T.tiles.isEmpty && !flagsPending (s.evs.filter fun e => e.team == T.id) &&
  s.copies.all fun c => c.team != some T.id || c.stopped || c.ended || decide (c.lay.mode < 3)

def execMfxScalar (d : BitVec 7) (x : BitVec 12) (s : State) : Out :=
  s.scalarIssue [d.toNat] [] fun T =>
    if x = 0x007 && !s.flagsQuiet T then .next s
    else .next (s.setTeam (T.setS d.toNat (T.readScalar (s.capOf (dieOf T.core) T.ctx) x.toNat)).nextS)

def execMtxScalar (d : BitVec 7) (x : BitVec 12) (s : State) : Out :=
  s.withScalar fun T0 =>
    if !scalarWritable T0.trapLevel x.toNat then s.scalarTrap T0 0x02
    else s.scalarIssue [d.toNat] [d.toNat] fun T =>
      if x = 0x007 && !s.flagsQuiet T then .next s
      else .next (s.setTeam (T.writeScalar x.toNat (T.sreg d.toNat)).nextS)

/-- Every earlier flag-setting instruction of the fragment has completed (R96), the conversions of its copies among them (R222). -/
def State.laneFlagsQuiet (s : State) (T : Team) (slot : Nat) : Bool :=
  T.tiles.isEmpty && !flagsPending (s.older (T.frag slot).hist) &&
  (s.olderCopies (T.frag slot).hist).all fun c => decide (c.lay.mode < 3)

def execMfxLane (g : Guard) (d : BitVec 9) (x : BitVec 12) (s : State) : Out :=
  s.withLane fun T slot =>
    let f := T.frag slot
    let exec := T.execMask f g
    s.laneChecks T slot exec { dst := [d.toNat] } [] fun _ =>
      if x = 0x007 && exec != 0 && !s.laneFlagsQuiet T slot then .next s
      else .next (s.setTeam (((lanesOf exec T.lanes).foldl (fun q l => q.setV d.toNat l (T.readLane (s.capOf (dieOf T.core) T.ctx) f x.toNat l)) T).nextL slot))

/-- Only x.fflags is writable from lanes (R334). -/
def execMtxLane (g : Guard) (a : Src) (x : BitVec 12) (s : State) : Out :=
  s.withLane fun T slot =>
    let exec := T.execMask (T.frag slot) g
    if x != 0x007 then s.laneTrap T slot 0x02
    else s.laneChecks T slot exec { srcs := [(a, 1)] } [] fun _ =>
      if exec != 0 && !s.laneFlagsQuiet T slot then .next s
      else .next (s.setTeam (((lanesOf exec T.lanes).foldl (fun q l =>
        q.setFlags l ((T.srcW a l).setWidth 16 &&& flagMask)) T).nextL slot))

/-! ### TRAP and BKPT (R76, R334) -/

/-- A trap by scalar instruction resumes at the following word. DEDUCED, log 74. -/
def State.scalarBreak (s : State) (code : BitVec 18) (ti : Bool) : Out :=
  s.scalarIssue [] [] fun T => .next (s.raise T.nextS { cause := 0x0C, code := code, ti := ti, resume := T.spc + 4 })

def execTrapScalar (code : BitVec 18) (s : State) : Out := s.scalarBreak code true
def execBkptScalar (s : State) : Out := s.scalarBreak 0 false

/-- A trap by lane instruction: the fragment's counter moves to the following word first. DEDUCED, log 74. -/
def State.laneBreak (s : State) (g : Guard) (code : BitVec 18) (ti : Bool) : Out :=
  s.withLane fun T slot =>
    let f := T.frag slot
    if T.execMask f g == 0 then .next (s.setTeam (T.nextL slot))
    else .next (s.raise (T.nextL slot)
      { cause := 0x0C, code := code, ti := ti, ln := true, slot := slot, mask := f.mask, resume := T.spc })

def execTrapLane (g : Guard) (code : BitVec 18) (s : State) : Out := s.laneBreak g code true
def execBkptLane (g : Guard) (s : State) : Out := s.laneBreak g 0 false

/-! ### ERET (R77, R151, R152, R331) -/

/-- What a fragment that stands waiting at the word waits for, where others count it there: BAR, and the instructions written with
`.all` (R154, R155). -/
def standing : Instr → Option WaitFor
  | .bar _ _ => some (.bar false)
  | .vote _ _ _ _ all => if all then some (.all false) else none
  | .voteScalar _ _ _ _ all => if all then some (.all false) else none
  | .shfl _ _ all => if all then some (.all false) else none
  | .shflImm _ _ _ all => if all then some (.all false) else none
  | .scan _ _ _ all => if all then some (.all false) else none
  | .red _ _ all => if all then some (.all false) else none
  | .redScalar _ _ _ _ _ all => if all then some (.all false) else none
  | .ballot _ _ _ _ all => if all then some (.all false) else none
  | _ => none

/-- The wait of a fragment that a handler left waiting at a word (R151): the one it was in, or, at BAR and `.all`, the same begun anew;
what else waits reads again when its word issues. DEDUCED, log 68. -/
def State.waitAgain (s : State) (T : Team) (f : Frag) : Option LaneWait :=
  match f.wait, s.fetchLane T f.pc false with
  | some w, _ => some w
  | none, .bytes bs => (match decodeBytes bs with
    | .ok i => (standing i).map fun w => ⟨i, f.mask, w, s.cycle⟩
    | .error _ => none)
  | none, _ => none

/-- A fragment as it goes on after a handler (R151): one that waits resumes its wait, a parked one that no pending record holds issues
its word again, and no other has a wait. -/
def Frag.thaw (f : Frag) (held : Bool) (again : Option LaneWait) : Frag :=
  if f.state == 2 then { f with wait := again }
  else if f.state == 3 && !held then { f with state := 0, wait := none, again := true }
  else { f with wait := none }

/-- The block and split table as the team finds them when it leaves a handler: fragments behave as their states give, and
a table without fragments is that of no running block. `held` names the slots whose fragments a pending record holds. -/
def Team.resumeBlock (T : Team) (held : Nat → Bool) (again : Frag → Option LaneWait) : Team :=
  if T.split.live.isEmpty then { T with run := none, split := {} }
  else
    let fs := T.split.frags.map fun (p : Nat × Frag) => (p.1, p.2.thaw (held p.1) (again p.2))
    let T1 := { T with split := Split.settle { T.split with frags := fs } }
    (if T1.run.isNone then { T1 with run := some { entry := 0 } } else T1).endBlock

/-- A read of a wait that no fragment of the team is at any more. -/
def Ev.stray (e : Ev) (T : Team) : Bool :=
  e.team == T.id && (match e.dst with | .wait h slot _ => h || (T.split.frag slot).wait.isNone | _ => false)

/-- DEDUCED, log 68. -/
def execEret (s : State) : Out :=
  s.scalarIssue [] [] fun T =>
    if !T.trapLevel then s.scalarTrap T 0x02
    else if !T.hqueue.isEmpty || T.hrun.isSome then .next s
    else if !T.split.check T.mask then s.scalarTrap T 0x0E
    else
      let T1 := T.leave.resumeBlock (fun slot => s.records.any fun r => r.who.contains (.lanes T.id false slot)) (s.waitAgain T.leave)
      s.afterBlock { s with
        copies := s.copies.map fun (c : Copy) => if c.team == some T.id then { c with stopped := false, stopping := false } else c
        evs := s.evs.filter fun e => !e.stray T1 } { T1 with clock := T.clock + 1 }

/-! ### Regions (R79, R330, R335) -/

/-- The eight words of a region-table entry; only bits that name registers are kept. -/
def liveinOf (bs : List Byte) : List Word :=
  (List.range 8).map fun j =>
    let w := BitVec.ofNat 64 (leNat ((bs.drop (8 * j)).take 8))
    if j = 7 then w &&& 0xFFFFFF else w

/-- The current region ends and a new one begins at the RGN word. -/
def Team.newRegion (T : Team) (live : List Word) : Team :=
  { T with regionpc := BitVec.ofInt 32 T.spc, livein := live, regionNo := T.regionNo + 1, committed := false }

def execRgn (i : BitVec 18) (s : State) : Out :=
  s.scalarIssue [] [] fun T =>
    if !T.laneIdle then .next s
    else if T.hdr.regions = 0 then s.scalarTrap T 0x05
    else if T.trapLevel then .next (s.setTeam T.nextS)
    else if heldBack (s.older T.shist) then .next s
    else s.scalarAsk T (BitVec.ofNat 64 (T.hdr.regions / 64 * 64 + 64 * i.toNat)) 64 false false fun s1 key a =>
      if !s1.mayPeek T.core T.shist (spanOf key 64 a) then .next s
      else .next ((s1.afterPeek T.core (spanOf key 64 a)).setTeam (T.newRegion (liveinOf (s1.peek T.id T.core T.shist key 64 a))).nextS)

/-! ### Critical marking, code barrier (R74, R78) -/

def execCrit (s : State) : Out := s.scalarOp [] [] fun T => if T.hdr.maint then { T with crit := true } else T
def execCritx (s : State) : Out := s.scalarOp [] [] fun T => if T.hdr.maint then { T with crit := false } else T

/-- FBAR: a fetch of this model reads the instruction store when the word issues, so nothing stale is held. -/
def execFbar (s : State) : Out :=
  s.scalarIssue [] [] fun T =>
    if T.laneIdle && s.cinvs.all (fun c => c.team != T.id) then .next (s.setTeam T.nextS) else .next s

/-! ### SEND (R33, R324) -/

/-- The team's stopped copies are discarded (R226, R324). -/
def State.discardStopped (s : State) (T : Team) : State :=
  { s with copies := s.copies.filter fun c => c.team != some T.id || !c.stopped }

/-- SEND retires the team: stopped copies are discarded first; held items are dropped, and in a DET launch held atomics drain at its
turn (R315). -/
def execSend (s : State) : Out :=
  s.scalarIssue [] [] fun T =>
    if !T.laneIdle || !s.quiet T then .next s
    else (s.discardStopped T).scalarTurn T fun T1 =>
      let s1 := (s.discardStopped T).setTeam T1
      if T.counted && !s1.drainReady T.launch (some (s.keyOf T)) then .next s
      else
      let s2 := if T.counted then s1.drain T.launch (some (s.keyOf T)) else s1
      let s3 := s2.dropItems T1
      .next (s3.removeTeam ((s3.team? T.id).getD T1))

end Sys2Proof.Machine
end

