-- ==== Sys2Proof/Machine/Tasks.lean ====
section
/-!
DEFINITION. The dependency tables (R69, R227, R228): pending tasks issue when their tokens are there.
-/
namespace Sys2Proof.Machine

/-- How often a token appears among a task's inputs. -/
def Task.needs (t : Task) (k : Nat) : Nat := t.inputs.count k
/-- The counts left once a task has taken its own; none when it is not ready. DEDUCED, log 54. -/
def Task.take (t : Task) (tokens : SMap (BitVec 16)) : Option (SMap (BitVec 16)) :=
  if t.inputs.all fun k => decide (t.needs k ≤ (SMap.rd 0 tokens k).toNat) then
    some (t.inputs.foldl (fun m k => SMap.wr 0 m k (SMap.rd 0 m k - 1)) tokens)
  else none

/-- The counts left for a task once the ready tasks entered before it have taken theirs. -/
def leftFor (tokens : SMap (BitVec 16)) : List Task → SMap (BitVec 16)
  | [] => tokens
  | t :: r => leftFor ((t.take tokens).getD tokens) r

/-- The task is ready: earlier ready tasks leave it its counts. -/
def State.taskReady (s : State) (t : Task) : Bool :=
  (t.take (leftFor (s.die t.die).tokens ((s.tasks.takeWhile fun x => x.id != t.id).filter fun x => x.die == t.die))).isSome

/-- The copy a descriptor asks for (R227), and whether the descriptor breaks the rules of CPY. -/
def taskCopy (t : Task) (id : Nat) (bs : List Byte) : Copy × Bool :=
  let n := leNat bs
  let w := fun (o : Nat) => bitsAt n (8 * o) 64
  let c : Copy := {
    id := id, team := none, core := t.core, ctx := t.ctx, dir := .memToMem, coord := BitVec.ofNat 64 (w 8), dst := w 0x10
    stamp := if w 0x18 = 0 then none else some (w 0x18, BitVec.ofNat 64 (w 0x20)), token := t.token
    launch := match t.det with | some d => d.1 | none => 0
    det := t.det.map (·.2) }
  (c, w 0 % 64 != 0 || w 0x10 % 8 != 0 || w 0x18 % 8 != 0 || decide (2 ^ 63 ≤ w 0x20) || bitsAt n (8 * 0x28) 192 != 0)

/-- A task leaves the table and takes its counts; its issue acquires at device scope. DEDUCED, log 54. -/
def State.issueTask (s : State) (t : Task) : State :=
  let s1 := s.modDie t.die fun D => { D with tokens := (t.take D.tokens).getD D.tokens }
  State.acquire { s1 with tasks := s1.tasks.filter fun x => x.id != t.id } t.core .device

/-- The copy of a kind 2 task starts, or fails at once. -/
def State.startTaskCopy (s : State) (t : Task) (bs : List Byte) : Out :=
  let who := Requester.copy t.id
  let (c0, bad) := taskCopy t s.evId bs
  let enter := fun (q : State) (c : Copy) => { (q.forget who).issueTask t with evId := s.evId + 1, copies := s.copies ++ [c] }
  let failed := fun (c : Copy) (w : Word) => .next ((enter s c).copyFail c w)
  if bad then failed c0 copyInvalid
  else match s.ask who t.core t.ctx (BitVec.ofNat 64 (bitsAt (leNat bs) 0 64)) false 2 with
    | .wait s' => .next s'
    | .refused => failed c0 copyRefused
    | .ok key _ _ =>
      if s.poisoned key 64 then failed c0 copyRefused
      else
        let c1 := { c0 with lay := layoutOf (s.bytes key 64) }
        if !c1.lay.valid || !c1.lay.allows .memToMem then failed c0 copyInvalid
        else .next (enter s { c1 with total := c1.bytes })

/-- TASK_ISSUE. The payload is read when the task issues; one whose mapping is refused, or that is misaligned, posts or
copies nothing. -/
def execTaskIssue (die task : Nat) (s : State) : Out :=
  match s.tasks.find? fun t => t.id == task && t.die == die with
  | none => .next s
  | some t =>
    let who := Requester.copy t.id
    let launch := t.kind == 1
    let size := if launch then 128 else 64
    if !s.taskReady t then .next s
    else if launch && maxPosts ≤ (s.posts.filter fun p => p.die == die).length then .next s
    else if t.payload % size != 0 then .next (s.issueTask t)
    else match s.ask who t.core t.ctx (BitVec.ofNat 64 t.payload) false (if launch then 3 else 2) with
      | .wait s' => .next s'
      | .refused => .next ((s.forget who).issueTask t)
      | .ok key _ _ =>
        if s.poisoned key size then .next ((s.forget who).issueTask t)
        else if launch then
          let s1 := (s.forget who).issueTask t
          .next { s1 with posts := s1.posts ++ [{ die := die, ctx := t.ctx, hdr := headerOf (s.bytes key 128), token := t.token }] }
        else s.startTaskCopy t (s.bytes key 64)

end Sys2Proof.Machine
end

