-- ==== Sys2Proof/Machine/Teams.lean ====
section
/-!
DEFINITION. What happens to a team outside its instructions: blocks that start, scalar fills, trap entry, pre-emption
(R29, R31, R327, R339), and the turns and ends of waits (R60, R312).
-/
namespace Sys2Proof.Machine

/-! ### Blocks and fills (R29, R31) -/


/-- LANE_BLOCK_START: the idle lane stream takes the oldest block; one that starts with no lanes ends at once. -/
def execLaneBlockStart (team : Nat) (s : State) : Out :=
  match s.team? team with
  | none => .next s
  | some T =>
    match T.block, T.lq with
    | none, b :: rest =>
      if T.raised.isSome || T.dying || !T.fills.isEmpty then .next s
      else if T.mask == 0 then .next (s.setTeam (T.setLq rest))
      else
        let h := s.liveHist (unionNat (s.laneEvs T) b.after)
        .next (s.setTeam (((T.setLq rest).setBlock (some { b with born := s.evId })).setSp (Split.start b.entry T.mask h)))
    | _, _ => .next s

/-- The register write of a fill completes. -/
def Team.fillDone (T : Team) (x : SFill) : Team :=
  { T.setS x.reg x.value with fills := T.fills.filter fun y => y.id != x.id, sfill := SMap.wr [] T.sfill x.reg x.hist }

/-- SCALAR_REGISTER_FILL. -/
def execScalarRegisterFill (fill : Nat) (s : State) : Out :=
  match s.teams.find? fun T => T.fills.any fun x => x.id == fill with
  | none => .next s
  | some T => match T.fills.find? fun x => x.id == fill with
    | some x => .next (s.setTeam (T.fillDone x))
    | none => .next s

/-! ### Trap entry (R327, R332) -/

/-- TRAP_ENTRY: a raised trap is taken once the team's register writes in flight are complete; a team hit by an uncorrectable error
halts once it may (R387). What halts gives up its loads and waits first. -/
def execTrapEntry (team : Nat) (s : State) : Out :=
  match s.team? team with
  | none => .next s
  | some T =>
    if T.dying then
      let q := s.abandon T
      if q.mayHalt T then .next (q.haltTeam T 0xFC 0 false T.spc) else .next q
    else match T.raised with
      | some r =>
        let q := if T.halts && !T.isWave then s.abandon T else s
        if T.isWave || q.mustWait T then .next q else .next (q.takeTrap { T with raised := none } r)
      | none => .next s

/-! ### Pre-emption (R322, R338 to R340) -/

/-- The request a team takes now. A team without a handler takes it in any state but the critical one (R78, R338).
DEDUCED, log 37. -/
def Team.taken (T : Team) : Option PReq :=
  if !T.crit && (T.tvec == noHandler || !(T.trapLevel || T.raised.isSome || T.committed)) then T.preq else none

/-- An access that the discard drops: its value has nowhere to go, or it has yet to find its tags. DEDUCED, log 36. -/
def Ev.dropped (e : Ev) (team region : Nat) : Bool :=
  e.team == team && e.region == region && (e.op.isLoad || (match e.op with | .stfe _ => true | _ => false))

/-- The registers a dropped access would have written hold undefined contents. DESIGN CHOICE, log 8. -/
def State.undefine (s : State) (T : Team) (e : Ev) : State × Team :=
  match e.dst with
  | .lane r l _ =>
    let pair : Bool := match e.op with | .hull _ ty _ => ty == .iv64 | _ => false
    if pair then (s.nextFree.nextFree, (T.setV r l s.freeWord).setV (r + 1) l s.nextFree.freeWord)
    else (s.nextFree, T.setV r l s.freeWord)
  | .scalar r => (s.nextFree, T.setS r s.freeWord)
  | _ => (s, T)

/-- A running copy of the team stops, or finishes the sector it is writing first. DESIGN CHOICE, log 11. -/
def State.stopCopy (s : State) (c : Copy) : Copy :=
  if c.stopped then c
  else if s.sectorReady c && Config.midSector (s.tick * 2 ^ 32 + c.id) then { c with stopping := true }
  else { c with stopped := true }

/-- The current region is discarded: its register writes in flight are dropped, its blocks and fragments go, and the
team's copies stop. DEDUCED, log 38. -/
def State.discard (s : State) (T : Team) : State × Team :=
  let dead := s.evs.filter fun e => e.dropped T.id T.regionTag
  let (s1, T1) := dead.foldl (fun (p : State × Team) e => p.1.undefine p.2 e) (s, T)
  let (s2, T2) := (T.fills.filter fun x => x.region == T.regionTag).foldl
    (fun (p : State × Team) x => (p.1.nextFree, p.2.setS x.reg p.1.freeWord)) (s1, T1)
  let mine := fun (w : Requester) => match w with | .lanes t _ _ => t == T.id | .scalar t => t == T.id | _ => false
  let T3 := { T2 with
    fills := T.fills.filter fun x => x.region != T.regionTag
    marks := T.marks.filter fun m => m.tile || !(dead.any fun e => e.grp == m.grp)
    queue := [], run := none, split := {}, splitsel := 0x80, spc := T.regionpc.toNat
    lqAt := none, swait := none, swaited := [], sfailed := 0, tried := 0, preq := none }
  ({ s2 with
    evs := s2.evs.filter fun e => !(e.dropped T.id T.regionTag)
    reqs := s2.reqs.map fun (r : Req) => if r.team == T.id && r.region == T.regionTag then { r with dropped := true } else r
    records := s2.records.map fun r => { r with who := r.who.filter fun w => !mine w }
    walks := s2.walks.map fun w => { w with who := w.who.filter fun x => !mine x }
    verdicts := s2.verdicts.filter fun v => !mine v.who
    copies := s2.copies.map fun c => if c.team == some T.id && !c.ended then s2.stopCopy c else c
    cohorts := s2.cohorts.map fun C => match C.cistern.refill with
      | some ⟨ks, some w⟩ => if mine w then { C with cistern := { C.cistern with refill := some ⟨ks, none⟩ } } else C
      | _ => C }, T3)

/-- PREEMPTION: a removal, and a request to a team without a handler, halts the team once it may be halted; any other discards
the region and enters the handler with cause 0x0D, once writes of ended regions and tiles are complete. DEDUCED, log 37, 38. -/
def execPreemption (team : Nat) (s : State) : Out :=
  match s.team? team with
  | none => .next s
  | some T =>
    match T.taken with
    | none => .next s
    | some p =>
      if p == .remove || T.tvec == noHandler then
        let q := s.abandon T
        if !q.mayHalt T then .next q
        else if p == .remove then .next (q.haltTeam T 0xFD 0 false T.spc)
        else .next (q.haltTeam T (if T.trapLevel then T.trapcause.toNat % 256 else 0xFF) 0x0D false T.spc)
      else
        let (s1, T1) := s.discard T
        .next (s1.raise T1 { cause := 0x0D, resume := T1.regionpc.toNat })

/-! ### Turns (R309, R312, R313) -/

/-- The fragment keeps the lane stream of a DET launch: its turn is under way, or has failed and is not yet counted.
DEDUCED, log 39. -/
def WaitFor.holds : WaitFor → Bool
  | .turn .. => false
  | .bar tried => tried
  | .tickets _ tried => tried
  | .all _ => false
  | _ => true

/-- The fragment of a DET launch that moves next: none while one is parked, since fragments never interleave; one in the midst
of a turn; else the first ready one; else the waiting ones in rotation by their positions, but for those whose `.all` has not gathered,
which nothing of their own can move (R155). DEDUCED, log 39. -/
def Team.detPick (T : Team) : Option Nat :=
  let c := (T.sp.atLevel T.sp.deepest).filter fun p => !p.2.atAll || T.gathered p.2
  if (T.sp.atLevel T.sp.deepest).any fun p => p.2.state == 3 then none
  else match c.find? fun p => p.2.state == 2 && (match p.2.wait with | some w => w.what.holds | none => false) with
  | some p => some p.1
  | none => match T.sp.first fun f => f.state == 0 with
    | some k => some k
    | none =>
      let from0 := (T.frag T.tried).order + 1
      let dist := fun (f : Frag) => (f.order + 4096 - from0) % 4096
      ((c.filter fun p => p.2.state == 2).foldl (fun (r : Option (Nat × Frag)) p => match r with
        | none => some p
        | some q => if dist p.2 < dist q.2 then some p else some q) none).map (·.1)

/-- Nothing but its condition holds a wait's access back: apart from others of its group, everything before it is done. -/
def State.mayTry (s : State) (e : Ev) : Bool :=
  let o := (s.older e.preds).filter fun p => p.grp != e.grp
  e.st == .issued && !heldBack o && !(e.isPadEv && o.any fun p => p.isPadEv) && (!e.rel || s.releaseOk e.team e.core (o.map (·.id)) e.scope)

/-- The read or try of a lane has failed at this turn, or waits for a lane of its instruction that has. -/
def State.stuck (s : State) (e : Ev) : Bool :=
  s.mayTry e &&
  ((s.older e.preds).any (fun p => p.grp == e.grp) ||
    match e.op with
    | .waitRead _ _ failed => failed
    | .pbwait g n => !(s.bar e.key).reached g n
    | .ldfe n => (List.range n).any fun i => !s.tagFull (e.key + 4 * i)
    | .stfe d => (List.range (d.length / 4)).any fun i => s.tagFull (e.key + 4 * i)
    | _ => false)

/-- The reads that a waiting fragment has under way. -/
def State.waitEvs (s : State) (T : Team) (h : Bool) (slot : Nat) : List Ev :=
  s.evs.filter fun e => e.team == T.id && (match e.dst with | .wait h' k _ => h' == h && k == slot | _ => false)

/-- The turn of a waiting fragment has failed: one on the clock, and it waits for its next turn. -/
def Team.retry (T : Team) (slot : Nat) (w : WaitFor) : Team :=
  let f := T.frag slot
  let f' := { f with wait := f.wait.map fun x => { x with what := w } }
  { T.setFrag slot f' with clock := T.clock + 1, tried := slot, committed := true }

/-- A failed turn of the fragment that moves next. -/
def State.laneRetry (s : State) (T : Team) (slot : Nat) : State :=
  let drop := fun (es : List Ev) => { s with evs := s.evs.filter fun e => !(es.any fun x => x.id == e.id) }
  match (T.frag slot).wait with
  | some ⟨_, _, .reads p b n, _⟩ =>
    let es := s.waitEvs T T.trapLevel slot
    if es.all s.stuck then (drop es).setTeam (T.retry slot (.turn 0 (n + 1) p b)) else s
  | some ⟨_, _, .tries grp n, _⟩ =>
    let es := s.evs.filter fun e => e.team == T.id && e.grp == grp
    if !es.isEmpty && es.all s.stuck then (drop es).setTeam (T.retry slot (.turn grp (n + 1) (maskOf (es.map (·.lane))) false)) else s
  | some ⟨.bar _ c, _, .bar true, _⟩ =>
    if (s.barGroup T c).all fun X => X.arrived c then s else s.setTeam (T.retry slot (.bar false))
  | some ⟨_, _, .tickets p true, _⟩ => s.setTeam (T.retry slot (.tickets p false))
  | _ => s

/-- TURN_RETRY: at its team's turn, a synchronising operation that cannot complete adds 1 to the clock. -/
def execTurnRetry (team : Nat) (s : State) : Out :=
  match s.team? team with
  | none => .next s
  | some T =>
    if !T.counted || !s.turn T || T.raised.isSome then .next s
    else match s.swaitEv T with
      | some e =>
        if s.stuck e && e.start == T.sfailed then
          .next (s.setTeam { T with clock := T.clock + 1, sfailed := T.sfailed + 1, committed := true })
        else .next s
      | none => match T.detPick with
        | some slot => .next (s.laneRetry T slot)
        | none => .next s

/-! ### Reading again and wait limits (R60, R230, R273) -/

/-- The reads of a wait meet poisoned bytes: the stream that waits takes cause 0x06, a fragment at its word, with the lanes of the reads
(R387). A wait that a handler interrupted stays as it is. DEDUCED, log 30. -/
def State.waitPoisoned (s : State) (T : Team) (e : Ev) : Out :=
  match e.dst with
  | .scalar r => .next (s.swaitPoisoned T e r)
  | .wait h slot _ =>
    if s.frozen e || T.raised.isSome then .next s
    else
      let es := s.waitEvs T h slot
      State.laneTrapMask { s with evs := s.evs.filter fun x => !(es.any fun y => y.id == x.id) } T slot 0x06
        (maskOf ((es.filter s.evBad).map (·.lane)))
  | _ => .next s

/-- WAIT_REREAD: a wait that read in vain may read again; the waits of a DET launch read at their turns alone. -/
def execWaitReread (ev : Nat) (s : State) : Out :=
  match s.ev? ev with
  | none => .next s
  | some e => match e.op, s.team? e.team with
    | .waitRead c x true, some T =>
      if T.counted then .next s
      else if s.evBad e then s.waitPoisoned T e
      else .next (s.setEv { e with op := .waitRead c x false })
    | _, _ => .next s

/-- A wait that began at a cycle has lasted its team's limit, as x.waitlimit now stands (R60). DESIGN CHOICE, log 82. -/
def State.limitPast (s : State) (T : Team) (start : Nat) : Bool := T.waitlimit != 0 && decide (start + T.waitlimit.toNat ≤ s.cycle)
/-- A DET wait has failed as often as its team's limit says. -/
def Team.limitFailed (T : Team) (failed : Nat) : Bool := T.waitlimit != 0 && decide (T.waitlimit.toNat ≤ failed)

/-- The lines that reads at the home have seen are dropped from the core copy (step D), so that no later load reads an older byte than
those reads did (R256). DEDUCED, log 40. -/
def State.dropSeen (s : State) (es : List Ev) : State :=
  (es.filter fun e => e.atHome && !isPad e.key).foldl (fun (q : State) e => q.dropLine e.core (e.key / lineBytes)) s

/-- SWAITA completes with the last value read, and acquires nothing. DEDUCED, log 40. -/
def State.expireScalar (s : State) (T : Team) (e : Ev) (r : Nat) : State :=
  ((s.endEv e.id).dropSeen [e]).setTeam (T.setS r e.value.even)

/-- The reads of a waiting fragment end unsatisfied, made or not. -/
def State.expireLanes (s : State) (T : Team) (slot : Nat) (w : LaneWait) (es : List Ev) : State :=
  (State.dropSeen { s with evs := s.evs.filter fun e => !(es.any fun x => x.id == e.id) } es).setTeam
    ((T.pbStatus w .f).waitOver T.trapLevel slot)

/-- WAIT_LIMIT_EXPIRY of the scalar stream: the oldest SWAITA that has lasted its limit and read at least once. -/
def State.scalarExpiry (s : State) (T : Team) : Out :=
  if T.counted then
    match s.swaitEv T with
    | some e => (match e.op, e.dst with
      | .waitRead _ _ true, .scalar r =>
        if T.limitFailed T.sfailed && decide (e.start < T.sfailed) then
          s.scalarTurn T fun T1 => .next ((s.expireScalar T1 e r).modTeam T.id fun T => T.nextS)
        else .next s
      | _, _ => .next s)
    | none => .next s
  else
    match s.evs.find? fun e => e.team == T.id && e.st == .issued && s.limitPast T e.start &&
        (match e.op, e.dst with | .waitRead _ _ true, .scalar _ => true | _, _ => false) with
    | some e => (match e.op, e.dst with
      | .waitRead _ _ _, .scalar r => .next (s.expireScalar T e r)
      | _, _ => .next s)
    | none => .next s

/-- WAIT_LIMIT_EXPIRY of a fragment. -/
def State.laneExpiry (s : State) (T : Team) (slot : Nat) : Out :=
  match (T.frag slot).wait with
  | some w =>
    (match w.what with
    | .reads .. =>
      let es := s.waitEvs T T.trapLevel slot
      if !T.counted && s.limitPast T w.start then .next (s.expireLanes T slot w es) else .next s
    | .turn _ failed _ _ =>
      let limited := match w.instr with | .waita .. | .pbwait .. => true | _ => false
      if T.counted && limited && T.limitFailed failed && T.detPick == some slot then
        s.laneTurn T fun T1 => .next (s.expireLanes T1 slot w [])
      else .next s
    | _ => .next s)
  | none => .next s

/-- A trap that is raised waits for SWAITA, whose limit goes on counting (R60, R327); the waits of fragments stay as they are.
DEDUCED, log 40. -/
def execWaitLimitExpiry (team : Nat) (of : WaitOf) (s : State) : Out :=
  match s.team? team with
  | none => .next s
  | some T =>
    match of with
    | .scalar => s.scalarExpiry T
    | .fragment slot => if T.raised.isSome then .next s else s.laneExpiry T slot

end Sys2Proof.Machine
end

