-- ==== Sys2Proof/Machine/Dispatch.lean ====
section
/-!
DEFINITION. Dispatch: one arm per instruction, one direct call of its meaning.
-/
namespace Sys2Proof.Machine

def exec (i : Instr) (s : State) : Host.Outcome State Fault Refusal :=
  match i with
  | .nop => Sys2Proof.Machine.execNop s
  | .send => Sys2Proof.Machine.execSend s
  | .lsync => Sys2Proof.Machine.execLsync s
  | .fbar => Sys2Proof.Machine.execFbar s
  | .eret => Sys2Proof.Machine.execEret s
  | .bkptScalar => Sys2Proof.Machine.execBkptScalar s
  | .crit => Sys2Proof.Machine.execCrit s
  | .critx => Sys2Proof.Machine.execCritx s
  | .sadd d a b => Sys2Proof.Machine.execSadd d a b s
  | .ssub d a b => Sys2Proof.Machine.execSsub d a b s
  | .smul d a b => Sys2Proof.Machine.execSmul d a b s
  | .smulh d a b => Sys2Proof.Machine.execSmulh d a b s
  | .sdiv d a b => Sys2Proof.Machine.execSdiv d a b s
  | .srem d a b => Sys2Proof.Machine.execSrem d a b s
  | .sand d a b => Sys2Proof.Machine.execSand d a b s
  | .sor d a b => Sys2Proof.Machine.execSor d a b s
  | .sxor d a b => Sys2Proof.Machine.execSxor d a b s
  | .sandn d a b => Sys2Proof.Machine.execSandn d a b s
  | .sshl d a b => Sys2Proof.Machine.execSshl d a b s
  | .sshr d a b => Sys2Proof.Machine.execSshr d a b s
  | .ssar d a b => Sys2Proof.Machine.execSsar d a b s
  | .smin d a b => Sys2Proof.Machine.execSmin d a b s
  | .smax d a b => Sys2Proof.Machine.execSmax d a b s
  | .smov d a => Sys2Proof.Machine.execSmov d a s
  | .sclz d a => Sys2Proof.Machine.execSclz d a s
  | .spop d a => Sys2Proof.Machine.execSpop d a s
  | .ssel d a b k => Sys2Proof.Machine.execSsel d a b k s
  | .scmp k a b c => Sys2Proof.Machine.execScmp k a b c s
  | .skop d a b op => Sys2Proof.Machine.execSkop d a b op s
  | .sfence sc => Sys2Proof.Machine.execSfence sc s
  | .sempty d n => Sys2Proof.Machine.execSempty d n s
  | .swaita d a c => Sys2Proof.Machine.execSwaita d a c s
  | .launch a => Sys2Proof.Machine.execLaunch a s
  | .task a => Sys2Proof.Machine.execTask a s
  | .signal a => Sys2Proof.Machine.execSignal a s
  | .cfetch a b => Sys2Proof.Machine.execCfetch a b s
  | .cinv a b => Sys2Proof.Machine.execCinv a b s
  | .sret a => Sys2Proof.Machine.execSret a s
  | .sjf a => Sys2Proof.Machine.execSjf a s
  | .trapScalar code => Sys2Proof.Machine.execTrapScalar code s
  | .rgn im => Sys2Proof.Machine.execRgn im s
  | .mfxScalar d x => Sys2Proof.Machine.execMfxScalar d x s
  | .mtxScalar d x => Sys2Proof.Machine.execMtxScalar d x s
  | .sli d im => Sys2Proof.Machine.execSli d im s
  | .slih d im => Sys2Proof.Machine.execSlih d im s
  | .scall d im => Sys2Proof.Machine.execScall d im s
  | .sbr k m im => Sys2Proof.Machine.execSbr k m im s
  | .sj im => Sys2Proof.Machine.execSj im s
  | .saddImm d a im => Sys2Proof.Machine.execSaddImm d a im s
  | .smulImm d a im => Sys2Proof.Machine.execSmulImm d a im s
  | .sandImm d a im => Sys2Proof.Machine.execSandImm d a im s
  | .sorImm d a im => Sys2Proof.Machine.execSorImm d a im s
  | .sxorImm d a im => Sys2Proof.Machine.execSxorImm d a im s
  | .sshlImm d a im => Sys2Proof.Machine.execSshlImm d a im s
  | .sshrImm d a im => Sys2Proof.Machine.execSshrImm d a im s
  | .ssarImm d a im => Sys2Proof.Machine.execSsarImm d a im s
  | .sminImm d a im => Sys2Proof.Machine.execSminImm d a im s
  | .smaxImm d a im => Sys2Proof.Machine.execSmaxImm d a im s
  | .sld d a im => Sys2Proof.Machine.execSld d a im s
  | .sst d a im => Sys2Proof.Machine.execSst d a im s
  | .lq a n e => Sys2Proof.Machine.execLq a n e s
  | .iadd o sat => Sys2Proof.Machine.execIadd o sat s
  | .isub o sat => Sys2Proof.Machine.execIsub o sat s
  | .imul o sat => Sys2Proof.Machine.execImul o sat s
  | .imulh o => Sys2Proof.Machine.execImulh o s
  | .imad o => Sys2Proof.Machine.execImad o s
  | .idiv o => Sys2Proof.Machine.execIdiv o s
  | .irem o => Sys2Proof.Machine.execIrem o s
  | .imin o => Sys2Proof.Machine.execImin o s
  | .imax o => Sys2Proof.Machine.execImax o s
  | .iabs o sat => Sys2Proof.Machine.execIabs o sat s
  | .land o => Sys2Proof.Machine.execLand o s
  | .lor o => Sys2Proof.Machine.execLor o s
  | .lxor o => Sys2Proof.Machine.execLxor o s
  | .andn o => Sys2Proof.Machine.execAndn o s
  | .shl o => Sys2Proof.Machine.execShl o s
  | .shr o => Sys2Proof.Machine.execShr o s
  | .sar o => Sys2Proof.Machine.execSar o s
  | .rot o => Sys2Proof.Machine.execRot o s
  | .popc o => Sys2Proof.Machine.execPopc o s
  | .clz o => Sys2Proof.Machine.execClz o s
  | .bfx o => Sys2Proof.Machine.execBfx o s
  | .bfi o => Sys2Proof.Machine.execBfi o s
  | .icmp o c es => Sys2Proof.Machine.execIcmp o c es s
  | .isel o => Sys2Proof.Machine.execIsel o s
  | .mov o => Sys2Proof.Machine.execMov o s
  | .iaddImm o sat => Sys2Proof.Machine.execIaddImm o sat s
  | .isubImm o sat => Sys2Proof.Machine.execIsubImm o sat s
  | .imulImm o sat => Sys2Proof.Machine.execImulImm o sat s
  | .imulhImm o => Sys2Proof.Machine.execImulhImm o s
  | .imadImm o => Sys2Proof.Machine.execImadImm o s
  | .idivImm o => Sys2Proof.Machine.execIdivImm o s
  | .iremImm o => Sys2Proof.Machine.execIremImm o s
  | .iminImm o => Sys2Proof.Machine.execIminImm o s
  | .imaxImm o => Sys2Proof.Machine.execImaxImm o s
  | .landImm o => Sys2Proof.Machine.execLandImm o s
  | .lorImm o => Sys2Proof.Machine.execLorImm o s
  | .lxorImm o => Sys2Proof.Machine.execLxorImm o s
  | .andnImm o => Sys2Proof.Machine.execAndnImm o s
  | .shlImm o => Sys2Proof.Machine.execShlImm o s
  | .shrImm o => Sys2Proof.Machine.execShrImm o s
  | .sarImm o => Sys2Proof.Machine.execSarImm o s
  | .rotImm o => Sys2Proof.Machine.execRotImm o s
  | .bfxImm o => Sys2Proof.Machine.execBfxImm o s
  | .bfiImm o => Sys2Proof.Machine.execBfiImm o s
  | .icmpImm o c es => Sys2Proof.Machine.execIcmpImm o c es s
  | .iselImm o => Sys2Proof.Machine.execIselImm o s
  | .movi o => Sys2Proof.Machine.execMovi o s
  | .fadd o rm => Sys2Proof.Machine.execFadd o rm s
  | .fsub o rm => Sys2Proof.Machine.execFsub o rm s
  | .fmul o rm => Sys2Proof.Machine.execFmul o rm s
  | .fdiv o rm => Sys2Proof.Machine.execFdiv o rm s
  | .ffma o rm => Sys2Proof.Machine.execFfma o rm s
  | .fsqrt o rm => Sys2Proof.Machine.execFsqrt o rm s
  | .frcp o rm => Sys2Proof.Machine.execFrcp o rm s
  | .frsq o rm => Sys2Proof.Machine.execFrsq o rm s
  | .fexp2 o rm => Sys2Proof.Machine.execFexp2 o rm s
  | .flog2 o rm => Sys2Proof.Machine.execFlog2 o rm s
  | .fmin o => Sys2Proof.Machine.execFmin o s
  | .fmax o => Sys2Proof.Machine.execFmax o s
  | .fabs o => Sys2Proof.Machine.execFabs o s
  | .fneg o => Sys2Proof.Machine.execFneg o s
  | .fhull o => Sys2Proof.Machine.execFhull o s
  | .fcap o => Sys2Proof.Machine.execFcap o s
  | .fmid o => Sys2Proof.Machine.execFmid o s
  | .frad o => Sys2Proof.Machine.execFrad o s
  | .fwid o => Sys2Proof.Machine.execFwid o s
  | .flo o => Sys2Proof.Machine.execFlo o s
  | .fhi o => Sys2Proof.Machine.execFhi o s
  | .fmk o => Sys2Proof.Machine.execFmk o s
  | .fcmp o c es => Sys2Proof.Machine.execFcmp o c es s
  | .fclass o => Sys2Proof.Machine.execFclass o s
  | .fsel o => Sys2Proof.Machine.execFsel o s
  | .faddImm o rm => Sys2Proof.Machine.execFaddImm o rm s
  | .fsubImm o rm => Sys2Proof.Machine.execFsubImm o rm s
  | .fmulImm o rm => Sys2Proof.Machine.execFmulImm o rm s
  | .fdivImm o rm => Sys2Proof.Machine.execFdivImm o rm s
  | .ffmaImm o rm => Sys2Proof.Machine.execFfmaImm o rm s
  | .fminImm o => Sys2Proof.Machine.execFminImm o s
  | .fmaxImm o => Sys2Proof.Machine.execFmaxImm o s
  | .fhullImm o => Sys2Proof.Machine.execFhullImm o s
  | .fcapImm o => Sys2Proof.Machine.execFcapImm o s
  | .fcmpImm o c es => Sys2Proof.Machine.execFcmpImm o c es s
  | .fselImm o => Sys2Proof.Machine.execFselImm o s
  | .cvt o sty es rm => Sys2Proof.Machine.execCvt o sty es rm s
  | .pack o rm => Sys2Proof.Machine.execPack o rm s
  | .unpk o es => Sys2Proof.Machine.execUnpk o es s
  | .qnt o nib pos rm => Sys2Proof.Machine.execQnt o nib pos rm s
  | .qntScale o => Sys2Proof.Machine.execQntScale o s
  | .dqn o nib pos rm => Sys2Proof.Machine.execDqn o nib pos rm s
  | .qand g d a b => Sys2Proof.Machine.execQand g d a b s
  | .qor g d a b => Sys2Proof.Machine.execQor g d a b s
  | .qnot g d a => Sys2Proof.Machine.execQnot g d a s
  | .qforce g d a op => Sys2Proof.Machine.execQforce g d a op s
  | .qset g d v => Sys2Proof.Machine.execQset g d v s
  | .vote g d a or all => Sys2Proof.Machine.execVote g d a or all s
  | .voteScalar g d a or all => Sys2Proof.Machine.execVoteScalar g d a or all s
  | .lead g d => Sys2Proof.Machine.execLead g d s
  | .bq q tt ut jt => Sys2Proof.Machine.execBq q tt ut jt s
  | .bc q tt jt => Sys2Proof.Machine.execBc q tt jt s
  | .jmp tt => Sys2Proof.Machine.execJmp tt s
  | .call tt => Sys2Proof.Machine.execCall tt s
  | .calli a => Sys2Proof.Machine.execCalli a s
  | .ret => Sys2Proof.Machine.execRet s
  | .brk n tt => Sys2Proof.Machine.execBrk n tt s
  | .exit g => Sys2Proof.Machine.execExit g s
  | .lend => Sys2Proof.Machine.execLend s
  | .sput g d a => Sys2Proof.Machine.execSput g d a s
  | .ld g ty d p acc => Sys2Proof.Machine.execLd g ty d p acc s
  | .st g ty p b acc => Sys2Proof.Machine.execSt g ty p b acc s
  | .lds g d p pad n => Sys2Proof.Machine.execLds g d p pad n s
  | .sts g p b pad n => Sys2Proof.Machine.execSts g p b pad n s
  | .ldfe g ty d p w1 => Sys2Proof.Machine.execLdfe g ty d p w1 s
  | .stfe g ty p b w1 => Sys2Proof.Machine.execStfe g ty p b w1 s
  | .pfetch g p l2 => Sys2Proof.Machine.execPfetch g p l2 s
  | .atom g ty d p b op pad nr sc o => Sys2Proof.Machine.execAtom g ty d p b op pad nr sc o s
  | .atomc g ty d a b c pad sc o => Sys2Proof.Machine.execAtomc g ty d a b c pad sc o s
  | .waita g ty p b c pad sc => Sys2Proof.Machine.execWaita g ty p b c pad sc s
  | .fence g sc => Sys2Proof.Machine.execFence g sc s
  | .tkwait g d p lv => Sys2Proof.Machine.execTkwait g d p lv s
  | .tkpass g p lv => Sys2Proof.Machine.execTkpass g p lv s
  | .cpy o => Sys2Proof.Machine.execCpy o s
  | .cpys g d a => Sys2Proof.Machine.execCpys g d a s
  | .pbinit g a b c => Sys2Proof.Machine.execPbinit g a b c s
  | .pbexp g a b => Sys2Proof.Machine.execPbexp g a b s
  | .pbarv g a b => Sys2Proof.Machine.execPbarv g a b s
  | .pbwait g d a gen n => Sys2Proof.Machine.execPbwait g d a gen n s
  | .bar g cohort => Sys2Proof.Machine.execBar g cohort s
  | .comb g d p b qs meth => Sys2Proof.Machine.execComb g d p b qs meth s
  | .cret g a => Sys2Proof.Machine.execCret g a s
  | .objreg g p b => Sys2Proof.Machine.execObjreg g p b s
  | .objclr g p => Sys2Proof.Machine.execObjclr g p s
  | .amsg g p b core h n => Sys2Proof.Machine.execAmsg g p b core h n s
  | .coll o op => Sys2Proof.Machine.execColl o op s
  | .flush g => Sys2Proof.Machine.execFlush g s
  | .mfmt g a imm => Sys2Proof.Machine.execMfmt g a imm s
  | .mma g d a b ns z ks => Sys2Proof.Machine.execMma g d a b ns z ks s
  | .mmaq g d a b c ns z ks => Sys2Proof.Machine.execMmaq g d a b c ns z ks s
  | .plane g d a nib => Sys2Proof.Machine.execPlane g d a nib s
  | .mstat g d sel => Sys2Proof.Machine.execMstat g d sel s
  | .split g ty a b c axis nw => Sys2Proof.Machine.execSplit g ty a b c axis nw s
  | .fork g a b c kind nw hdr => Sys2Proof.Machine.execFork g a b c kind nw hdr s
  | .draw q d steal nw hdr => Sys2Proof.Machine.execDraw q d steal nw hdr s
  | .drop g => Sys2Proof.Machine.execDrop g s
  | .ldh g ty d p b => Sys2Proof.Machine.execLdh g ty d p b s
  | .stb g ty p b => Sys2Proof.Machine.execStb g ty p b s
  | .quart g => Sys2Proof.Machine.execQuart g s
  | .elem tt => Sys2Proof.Machine.execElem tt s
  | .shfl o md all => Sys2Proof.Machine.execShfl o md all s
  | .shflImm o n md all => Sys2Proof.Machine.execShflImm o n md all s
  | .scan o op excl all => Sys2Proof.Machine.execScan o op excl all s
  | .red o op all => Sys2Proof.Machine.execRed o op all s
  | .redScalar g ty d a op all => Sys2Proof.Machine.execRedScalar g ty d a op all s
  | .ballot g d a sel all => Sys2Proof.Machine.execBallot g d a sel all s
  | .xbld g a b => Sys2Proof.Machine.execXbld g a b s
  | .xbar g d a b => Sys2Proof.Machine.execXbar g d a b s
  | .mfxLane g d x => Sys2Proof.Machine.execMfxLane g d x s
  | .mtxLane g a x => Sys2Proof.Machine.execMtxLane g a x s
  | .trapLane g code => Sys2Proof.Machine.execTrapLane g code s
  | .bkptLane g => Sys2Proof.Machine.execBkptLane g s
  | .headerCheck die => Sys2Proof.Machine.execHeaderCheck die s
  | .cohortPlacement launch cohort => Sys2Proof.Machine.execCohortPlacement launch cohort s
  | .preloadLand launch core => Sys2Proof.Machine.execPreloadLand launch core s
  | .laneBlockStart team => Sys2Proof.Machine.execLaneBlockStart team s
  | .scalarRegisterFill fill => Sys2Proof.Machine.execScalarRegisterFill fill s
  | .trapEntry team => Sys2Proof.Machine.execTrapEntry team s
  | .waveHalt team => Sys2Proof.Machine.execWaveHalt team s
  | .preemption team => Sys2Proof.Machine.execPreemption team s
  | .dispatcherPreempt launch cohort => Sys2Proof.Machine.execDispatcherPreempt launch cohort s
  | .priorityAging team => Sys2Proof.Machine.execPriorityAging team s
  | .tileStart cluster => Sys2Proof.Machine.execTileStart cluster s
  | .tileWriteback cluster => Sys2Proof.Machine.execTileWriteback cluster s
  | .copySector copy => Sys2Proof.Machine.execCopySector copy s
  | .taskIssue die task => Sys2Proof.Machine.execTaskIssue die task s
  | .refillLand launch cohort => Sys2Proof.Machine.execRefillLand launch cohort s
  | .stealRequest team => Sys2Proof.Machine.execStealRequest team s
  | .elementTeamStart team lane => Sys2Proof.Machine.execElementTeamStart team lane s
  | .requestArrival req => Sys2Proof.Machine.execRequestArrival req s
  | .registrationArrival req => Sys2Proof.Machine.execRegistrationArrival req s
  | .objclrArrival req => Sys2Proof.Machine.execObjclrArrival req s
  | .windowClose obj => Sys2Proof.Machine.execWindowClose obj s
  | .windowCloseDet obj => Sys2Proof.Machine.execWindowCloseDet obj s
  | .waveStart obj => Sys2Proof.Machine.execWaveStart obj s
  | .replyArrival reply => Sys2Proof.Machine.execReplyArrival reply s
  | .handlerStart core => Sys2Proof.Machine.execHandlerStart core s
  | .ticketAutoPass ticket => Sys2Proof.Machine.execTicketAutoPass ticket s
  | .nodeCombine inst node => Sys2Proof.Machine.execNodeCombine inst node s
  | .collTimeout inst => Sys2Proof.Machine.execCollTimeout inst s
  | .turnRetry team => Sys2Proof.Machine.execTurnRetry team s
  | .pendingEventAct ev => Sys2Proof.Machine.execPendingEventAct ev s
  | .segmentLand core slot => Sys2Proof.Machine.execSegmentLand core slot s
  | .cinvEffect cinv => Sys2Proof.Machine.execCinvEffect cinv s
  | .waitReread ev => Sys2Proof.Machine.execWaitReread ev s
  | .waitLimitExpiry team of => Sys2Proof.Machine.execWaitLimitExpiry team of s
  | .fill core line tag => Sys2Proof.Machine.execFill core line tag s
  | .dropLine core line => Sys2Proof.Machine.execDropLine core line s
  | .writeBack core line => Sys2Proof.Machine.execWriteBack core line s
  | .leave ev => Sys2Proof.Machine.execLeave ev s
  | .performLoad ev => Sys2Proof.Machine.execPerformLoad ev s
  | .apply msg => Sys2Proof.Machine.execApply msg s
  | .ringMove die asc => Sys2Proof.Machine.execRingMove die asc s
  | .acknowledge ack => Sys2Proof.Machine.execAcknowledge ack s
  | .pageWalk walk => Sys2Proof.Machine.execPageWalk walk s
  | .resolveResolved die seq => Sys2Proof.Machine.execResolveResolved die seq s
  | .resolveRefused die seq => Sys2Proof.Machine.execResolveRefused die seq s
  | .invalPage die ctx vpage => Sys2Proof.Machine.execInvalPage die ctx vpage s
  | .invalContext die ctx => Sys2Proof.Machine.execInvalContext die ctx s
  | .invalAll die => Sys2Proof.Machine.execInvalAll die s
  | .invalComplete die => Sys2Proof.Machine.execInvalComplete die s
  | .preemptRequest die ctx => Sys2Proof.Machine.execPreemptRequest die ctx s
  | .preemptRemove die ctx => Sys2Proof.Machine.execPreemptRemove die ctx s
  | .hlaunch die value => Sys2Proof.Machine.execHlaunch die value s
  | .rtgen die value => Sys2Proof.Machine.execRtgen die value s
  | .routeSwitch die => Sys2Proof.Machine.execRouteSwitch die s
  | .pinwin core value => Sys2Proof.Machine.execPinwin core value s
  | .pinwinApply core => Sys2Proof.Machine.execPinwinApply core s
  | .controlRegisterWrite die off value => Sys2Proof.Machine.execControlRegisterWrite die off value s
  | .hostMemoryAccess addr acc => Sys2Proof.Machine.execHostMemoryAccess addr acc s
  | .peerAccess addr acc => Sys2Proof.Machine.execPeerAccess addr acc s
  | .reset die romOk dramOk linkOk => Sys2Proof.Machine.execReset die romOk dramOk linkOk s
  | .linkFailure die link => Sys2Proof.Machine.execLinkFailure die link s
  | .thermalTrip die => Sys2Proof.Machine.execThermalTrip die s
  | .eccCorrected die => Sys2Proof.Machine.execEccCorrected die s
  | .eccUncorrectable die hit => Sys2Proof.Machine.execEccUncorrectable die hit s
  | .contributionArrival contrib => Sys2Proof.Machine.execContributionArrival contrib s
  | .contributionLeavesCore contrib => Sys2Proof.Machine.execContributionLeavesCore contrib s
  | .registrationAnswer req => Sys2Proof.Machine.execRegistrationAnswer req s
  | .spdmMeasurementRequest die nonce => Sys2Proof.Machine.execSpdmMeasurementRequest die nonce s
  | .powerLimitCrossing skip => Sys2Proof.Machine.execPowerLimitCrossing skip s

end Sys2Proof.Machine
end

