-- ==== Sys2Proof/Machine/Streams.lean ====
section
/-!
DEFINITION. How the agents move: what a stream fetches and issues (R35, R36, R51, R141), and what a move leaves.
-/
namespace Sys2Proof.Machine

/-- The row is an event of the part, not a word of either stream. -/
def isEvent (i : Instr) : Bool := match encode i with | .none => true | _ => false

/-- Neither stream of the team issues: a trap, a pre-emption or a halt is being taken, or the thermal trip holds the part. -/
def State.stopped (s : State) (T : Team) : Bool := T.raised.isSome || T.taken.isSome || T.dying || s.tripped

/-- The scalar stream issues the word at its counter: spawned teams have one in a handler only (R176, R242, R284). -/
def State.issueScalarWord (s : State) (T : Team) : Out :=
  if s.stopped T || !(T.isOrdinary || T.trapLevel) then .next s
  else match s.fetchScalar T with
    | .bytes bs => (match decodeBytes bs with
      | .ok i => exec i { s with cur := some ⟨T.id, none⟩ }
      | .error _ => s.scalarTrap T 0x01)
    | .wait => .next s
    | .missing => s.scalarTrap T 0x04
    | .bounds => s.scalarTrap T 0x03
    | .poisoned => s.scalarTrap T 0x06

/-- The fragment may move: it is eligible, and in a DET launch it is the one whose move it is (R141, R309). -/
def Team.mayMove (T : Team) (slot : Nat) : Bool :=
  T.block.isSome && T.sp.eligible slot && (!T.counted || T.detPick == some slot)

/-- The team stands where it stood: its stream waits, and has at most noted the empty registers it waits for. -/
def Team.heldUp (T X : Team) : Bool := X == { T with swaited := X.swaited }

/-- The move leaves the team waiting. -/
def Out.stalls (o : Out) (T : Team) : Bool :=
  match o with
  | .next q => (match q.team? T.id with | some X => T.heldUp X | none => false)
  | _ => false

/-- A fragment issues the word at its counter. -/
def State.issueLane (s : State) (T : Team) (slot : Nat) : Out :=
  let f := T.frag slot
  match s.fetchLane T f.pc f.seq with
  | .bytes bs => (match decodeBytes bs with
    | .ok i => exec i { s with cur := some ⟨T.id, some slot⟩ }
    | .error _ => s.laneTrap T slot 0x01)
  | .wait => .next s
  | .missing => s.laneTrap T slot 0x04
  | .bounds => s.laneTrap T slot 0x03
  | .poisoned => s.laneTrap T slot 0x06

/-- The ready fragments of the deepest level that run before `slot`: LAST, then those of lower positions (R141, R151). -/
def Split.before (sp : Split) (slot : Nat) : List Nat :=
  if slot == sp.last then []
  else ((sp.atLevel sp.deepest).filter fun p =>
    p.2.state == 0 && p.1 != slot && (p.1 == sp.last || decide (p.2.order < (sp.frag slot).order))).map (·.1)

/-- The fragment's word may issue. Outside DET a ready fragment runs until it stops, so that a later one issues only while each ready
one before it is stalled; what stalls it is any wait of its word, and a waiting fragment goes on with its wait at any time: R7 lets
hardware interleave to hide latency and does not say how far. DESIGN CHOICE, log 28. -/
def State.mayIssue (s : State) (T : Team) (slot : Nat) : Bool :=
  T.counted || (T.sp.before slot).all fun k => Out.stalls (s.issueLane T k) T

/-- A fragment of the running block: a ready one issues, a waiting one goes on with its wait (R151). -/
def State.runLane (s : State) (T : Team) (slot : Nat) : Out :=
  let f := T.frag slot
  if s.stopped T || !T.mayMove slot then .next s
  else match f.state, f.wait with
    | 2, some w => exec w.instr { s with cur := some ⟨T.id, some slot⟩ }
    | 0, _ | 2, none => if s.mayIssue T slot then s.issueLane T slot else .next s
    | _, _ => .next s

/-- The team has something to issue: a move of one of its streams would not leave it waiting (R347, R348). -/
def State.candidate (s : State) (T : Team) : Bool :=
  !Out.stalls (s.issueScalarWord T) T || T.sp.live.any fun p => !Out.stalls (s.runLane T p.1) T

/-- A critical team of the same partition has something to issue in this cycle and goes first (R78). -/
def State.critHolds (s : State) (T : Team) : Bool :=
  !T.crit && s.teams.any fun X => X.crit && X.core == T.core && X.part == T.part && X.issued != s.cycle && s.candidate X

/-- The scalar stream of a team moves. -/
def State.moveScalar (s : State) (T : Team) : Out := if s.critHolds T then .next s else s.issueScalarWord T

/-- The move raises a trap of the team, or halts it for one. -/
def State.traps (s : State) (T : Team) (o : Out) : Bool :=
  match o with
  | .next q => (match q.team? T.id with
    | some X => X.raised.isSome || (X.trapLevel && !T.trapLevel)
    | none => (q.die (dieOf T.core)).fqseq != (s.die (dieOf T.core)).fqseq)
  | _ => false

/-- The lane stream of a team moves. Where both streams stand at words that trap, the trap of the scalar stream is taken and the lane
word has not issued (R51). DEDUCED, log 67. -/
def State.moveLane (s : State) (T : Team) (slot : Nat) : Out :=
  if s.critHolds T then .next s
  else
    let o := s.runLane T slot
    if s.traps T o then (let p := s.issueScalarWord T; if s.traps T p then p else o) else o

/-- One agent moves; an agent that is not there leaves everything as it is. -/
def State.act (s : State) : Act → Out
  | .scalar t => match s.team? t with | some T => s.moveScalar T | none => .next s
  | .lane t slot => match s.team? t with | some T => s.moveLane T slot | none => .next s
  | .event i => if isEvent i then exec i s else .next s

/-- The team of an act. -/
def Act.team : Act → Option Nat
  | .scalar t => some t
  | .lane t _ => some t
  | .event _ => none

/-- The next move: the head of the agenda, or the part's own choice. DESIGN CHOICE, log 6, 28. -/
def State.choice (s : State) : Choice :=
  match s.agenda with
  | c :: _ => c
  | [] =>
    let m := Config.nextMove s.tick
    { dt := m.1, act := if m.2.1 then .event m.2.2.2.2 else if m.2.2.2.1 = 0 then .scalar m.2.2.1 else .lane m.2.2.1 (m.2.2.2.1 - 1) }

/-- Cycles pass without a move: a team with something to issue has waited in each of them but the one in which it issued last, and for
any other the count starts again, whole levels it has earned apart (R348). -/
def State.age (s : State) (dt : Nat) (T : Team) : Team :=
  { T with waited :=
      if s.candidate T then T.waited + (if T.issued = s.cycle then dt - 1 else dt) else T.waited / 256 * 256 }

/-- The state in which the move is made: its cycles have passed. DESIGN CHOICE, log 6. -/
def State.begin (s : State) (dt : Nat) : State :=
  { s with
    agenda := s.agenda.tail, cycle := s.cycle + dt, cur := none, staged := []
    teams := if dt = 0 then s.teams else s.teams.map (s.age dt) }

/-- A team that was at `T0` and has issued ranks by its own priority again (R348). -/
def Team.noteIssue (T : Team) (T0 : Option Team) (cycle : Nat) : Team :=
  if T0.any fun X => X.heldUp T then T else { T with issued := cycle, gain := 0, waited := 0 }

/-- The end of a move from `s0`: the bytes stored go to memory. -/
def State.finish (s0 s : State) (a : Act) : State :=
  let s1 := { s with mem := commitCells s0.mem s.staged, staged := [], cur := none, tick := s.tick + 1 }
  match a.team with
  | some t => s1.modTeam t fun T => T.noteIssue (s0.team? t) s1.cycle
  | none => s1

/-! ### A bench for one word -/

/-- The header of the bench launch: one lane word and the largest budgets. -/
def benchHeader : Header := { vbud := 40, sbud := 8, pad := 2 ^ 16, tvec := 0x800 }

/-- A state in which a team stands at a word of an image that is landed on core 0, and moves next. DESIGN CHOICE, log 7. -/
def State.bench (s : State) (bytes : List Byte) (lane : Bool) : State :=
  let L : Launch := { id := s.evId, num := 0, die := 0, ctx := 0, hdr := benchHeader, placed := [0], cores := [0] }
  let T := startTeam (s.evId + 1) L 0 0 0 (0, 0)
  let x : CodeSlot := { core := 0, slot := 0, landed := true, ctx := 0, image := 0, page := 0, bytes := bytes ++ List.replicate (4096 - bytes.length) 0 }
  { s with
    evId := s.evId + 2
    agenda := [⟨0, if lane then .lane T.id 0 else .scalar T.id⟩]
    launches := s.launches ++ [L]
    cohorts := s.cohorts ++ [{ launch := L.id, idx := 0, cores := [0], bases := [0] }]
    teams := (if lane then T.runBlock { entry := 0 } else T) :: s.teams
    slots := x :: s.slots.filter fun y => !(y.core == 0 && y.slot == 0) }

end Sys2Proof.Machine
end

