-- ==== Sys2Proof/Machine/Step.lean ====
section
/-!
DEFINITION. One step of the machine, and the placing of a word where the next step fetches it.
-/
namespace Sys2Proof.Machine

/-- One agent makes one move. -/
def step (s : State) : Host.Outcome State Fault Refusal :=
  let c := s.choice
  let s0 := s.begin c.dt
  match s0.act c.act with
  | .next s' => .next (s0.finish s' c.act)
  | .fault r => .fault r
  | .refused r => .refused r

/-- The state with a word of nbits bits where the next step fetches: in the image of a bench team that moves next.
DESIGN CHOICE, log 7. -/
def State.withFetchWord (s : State) (nbits w : Nat) : State :=
  if nbits ≤ 32 then s.bench (leBytes 4 w) false else s.bench (leBytes 12 w) true

end Sys2Proof.Machine
end

