-- ==== Sys2Proof/Laws/Formats.lean ====
section
/-!
SUPPORT. Laws of the word formats: what each field reader finds in a word of its format, and that a word laid out as bytes
is read back whole.
-/
namespace Sys2Proof

/-! ### Codings -/

@[simp] theorem GMode.ofBits_bits (m : GMode) : GMode.ofBits m.bits = some m := by cases m <;> rfl
@[simp] theorem LTy.ofBits_bits (t : LTy) : LTy.ofBits t.bits = some t := by cases t <;> rfl
@[simp] theorem Cond.ofBits_bits (c : Cond) : Cond.ofBits c.bits = some c := by cases c <;> rfl
@[simp] theorem KOp.ofBits_bits (o : KOp) : KOp.ofBits o.bits = some o := by cases o <;> rfl
@[simp] theorem FCond.ofBits_bits (c : FCond) : FCond.ofBits c.bits = some c := by cases c <;> rfl
@[simp] theorem RM.ofBits_bits (r : RM) : RM.ofBits r.bits = r := by cases r <;> rfl
@[simp] theorem HSel.ofBits_bits (x : HSel) : HSel.ofBits x.bits = some x := by cases x <;> rfl
@[simp] theorem QForce.ofBits_bits (o : QForce) : QForce.ofBits o.bits = some o := by cases o <;> rfl
@[simp] theorem Ord.ofBits_bits (o : Ord) : Ord.ofBits o.bits = o := by cases o <;> rfl
@[simp] theorem AtomOp.ofBits_bits (o : AtomOp) : AtomOp.ofBits o.bits = some o := by cases o <;> rfl
@[simp] theorem RedOp.ofBits_bits (o : RedOp) : RedOp.ofBits o.bits = some o := by cases o <;> rfl
@[simp] theorem ShMode.ofBits_bits (m : ShMode) : ShMode.ofBits m.bits = m := by cases m <;> rfl
@[simp] theorem Dir.ofBits_bits (d : Dir) : Dir.ofBits d.bits = some d := by cases d <;> rfl
@[simp] theorem Tri.ofBits_bits (v : Tri) : Tri.ofBits v.bits = v := by cases v <;> rfl
@[simp] theorem Tri.ofBallot_bits (v : Tri) : Tri.ofBallot v.ballotBits = some v := by cases v <;> rfl
@[simp] theorem Scope.ofBits_bits (x : Scope) : Scope.ofBits x.bits = some x := by cases x <;> rfl

/-! ### A field of a concatenation -/

theorem extract_append_hi {m n : Nat} (a : BitVec m) (b : BitVec n) (k w : Nat) (h : n ≤ k) :
    (a ++ b).extractLsb' k w = a.extractLsb' (k - n) w := by
  ext i hi
  simp [BitVec.getLsbD_append, show ¬ k + i < n by omega, show k + i - n = k - n + i by omega]

theorem extract_append_lo {m n : Nat} (a : BitVec m) (b : BitVec n) (k w : Nat) (h : k + w ≤ n) :
    (a ++ b).extractLsb' k w = b.extractLsb' k w := by
  ext i hi
  simp [BitVec.getLsbD_append, show k + i < n by omega]

@[simp] theorem extract_all {n : Nat} (a : BitVec n) : a.extractLsb' 0 n = a := by
  ext i hi; simp

theorem bit_append_hi {m n : Nat} (a : BitVec m) (b : BitVec n) (k : Nat) (h : n ≤ k) :
    (a ++ b).getLsbD k = a.getLsbD (k - n) := by
  simp [BitVec.getLsbD_append, show ¬ k < n by omega]

theorem bit_append_lo {m n : Nat} (a : BitVec m) (b : BitVec n) (k : Nat) (h : k < n) :
    (a ++ b).getLsbD k = b.getLsbD k := by
  simp [BitVec.getLsbD_append, h]

@[simp] theorem bit_ofBool (b : Bool) : (BitVec.ofBool b).getLsbD 0 = b := by cases b <;> rfl

/-! ### The lane formats (R40, R43) -/

theorem extract_laneHead (op : BitVec 10) (g : Guard) (ty : LTy) (d : BitVec 9) (k w : Nat) :
    (laneHead op g ty d).extractLsb' k w = (op ++ g.q ++ g.m.bits ++ ty.bits ++ d).extractLsb' k w := rfl

theorem extract_lr (op : BitVec 10) (g : Guard) (ty : LTy) (d : BitVec 9) (a b c : Src) (md : BitVec 13) (x : BitVec 19) (k w : Nat) :
    (lr op g ty d a b c md x).extractLsb' k w =
      (laneHead op g ty d ++ a.n ++ b.n ++ c.n ++ BitVec.ofBool a.fe ++ BitVec.ofBool b.fe ++ BitVec.ofBool c.fe ++
        BitVec.ofBool a.u ++ BitVec.ofBool b.u ++ BitVec.ofBool c.u ++ md ++ x).extractLsb' k w := rfl

theorem bit_lr (op : BitVec 10) (g : Guard) (ty : LTy) (d : BitVec 9) (a b c : Src) (md : BitVec 13) (x : BitVec 19) (k : Nat) :
    (lr op g ty d a b c md x).getLsbD k =
      (laneHead op g ty d ++ a.n ++ b.n ++ c.n ++ BitVec.ofBool a.fe ++ BitVec.ofBool b.fe ++ BitVec.ofBool c.fe ++
        BitVec.ofBool a.u ++ BitVec.ofBool b.u ++ BitVec.ofBool c.u ++ md ++ x).getLsbD k := rfl

theorem headOf_lr (op : BitVec 10) (g : Guard) (ty : LTy) (d : BitVec 9) (a b c : Src) (md : BitVec 13) (x : BitVec 19) :
    headOf (lr op g ty d a b c md x) = some ⟨g, ty, d⟩ := by
  simp (disch := decide) only [headOf, extract_lr, extract_laneHead, ↓extract_append_hi, ↓extract_append_lo, -Nat.reduceAdd]
  simp

theorem op_lr (op : BitVec 10) (g : Guard) (ty : LTy) (d : BitVec 9) (a b c : Src) (md : BitVec 13) (x : BitVec 19) :
    (lr op g ty d a b c md x).extractLsb' 86 10 = op := by
  simp (disch := decide) only [extract_lr, extract_laneHead, ↓extract_append_hi, -Nat.reduceAdd]
  simp

theorem lrOf_lr (op : BitVec 10) (g : Guard) (ty : LTy) (d : BitVec 9) (a b c : Src) (md : BitVec 13) (x : BitVec 19) :
    lrOf (lr op g ty d a b c md x) = ⟨a, b, c, md, x⟩ := by
  simp (disch := decide) only [lrOf, extract_lr, bit_lr, ↓extract_append_hi, ↓extract_append_lo, ↓bit_append_hi, ↓bit_append_lo,
    -Nat.reduceAdd]
  simp

theorem extract_li (op : BitVec 10) (g : Guard) (ty : LTy) (d : BitVec 9) (a b : Src) (imm : Half) (md : BitVec 11) (k w : Nat) :
    (li op g ty d a b imm md).extractLsb' k w =
      (laneHead op g ty d ++ a.n ++ b.n ++ imm ++ BitVec.ofBool a.fe ++ BitVec.ofBool b.fe ++ BitVec.ofBool a.u ++
        BitVec.ofBool b.u ++ md).extractLsb' k w := rfl

theorem bit_li (op : BitVec 10) (g : Guard) (ty : LTy) (d : BitVec 9) (a b : Src) (imm : Half) (md : BitVec 11) (k : Nat) :
    (li op g ty d a b imm md).getLsbD k =
      (laneHead op g ty d ++ a.n ++ b.n ++ imm ++ BitVec.ofBool a.fe ++ BitVec.ofBool b.fe ++ BitVec.ofBool a.u ++
        BitVec.ofBool b.u ++ md).getLsbD k := rfl

theorem headOf_li (op : BitVec 10) (g : Guard) (ty : LTy) (d : BitVec 9) (a b : Src) (imm : Half) (md : BitVec 11) :
    headOf (li op g ty d a b imm md) = some ⟨g, ty, d⟩ := by
  simp (disch := decide) only [headOf, extract_li, extract_laneHead, ↓extract_append_hi, ↓extract_append_lo, -Nat.reduceAdd]
  simp

theorem op_li (op : BitVec 10) (g : Guard) (ty : LTy) (d : BitVec 9) (a b : Src) (imm : Half) (md : BitVec 11) :
    (li op g ty d a b imm md).extractLsb' 86 10 = op := by
  simp (disch := decide) only [extract_li, extract_laneHead, ↓extract_append_hi, -Nat.reduceAdd]
  simp

theorem liOf_li (op : BitVec 10) (g : Guard) (ty : LTy) (d : BitVec 9) (a b : Src) (imm : Half) (md : BitVec 11) :
    liOf (li op g ty d a b imm md) = ⟨a, b, imm, md⟩ := by
  simp (disch := decide) only [liOf, extract_li, bit_li, ↓extract_append_hi, ↓extract_append_lo, ↓bit_append_hi, ↓bit_append_lo,
    -Nat.reduceAdd]
  simp

theorem extract_lm (op : BitVec 10) (g : Guard) (ty : LTy) (d : BitVec 9) (a b : Src) (off : BitVec 24) (md : BitVec 19) (k w : Nat) :
    (lm op g ty d a b off md).extractLsb' k w =
      (laneHead op g ty d ++ a.n ++ b.n ++ off ++ BitVec.ofBool a.fe ++ BitVec.ofBool b.fe ++ BitVec.ofBool a.u ++
        BitVec.ofBool b.u ++ md).extractLsb' k w := rfl

theorem bit_lm (op : BitVec 10) (g : Guard) (ty : LTy) (d : BitVec 9) (a b : Src) (off : BitVec 24) (md : BitVec 19) (k : Nat) :
    (lm op g ty d a b off md).getLsbD k =
      (laneHead op g ty d ++ a.n ++ b.n ++ off ++ BitVec.ofBool a.fe ++ BitVec.ofBool b.fe ++ BitVec.ofBool a.u ++
        BitVec.ofBool b.u ++ md).getLsbD k := rfl

theorem headOf_lm (op : BitVec 10) (g : Guard) (ty : LTy) (d : BitVec 9) (a b : Src) (off : BitVec 24) (md : BitVec 19) :
    headOf (lm op g ty d a b off md) = some ⟨g, ty, d⟩ := by
  simp (disch := decide) only [headOf, extract_lm, extract_laneHead, ↓extract_append_hi, ↓extract_append_lo, -Nat.reduceAdd]
  simp

theorem op_lm (op : BitVec 10) (g : Guard) (ty : LTy) (d : BitVec 9) (a b : Src) (off : BitVec 24) (md : BitVec 19) :
    (lm op g ty d a b off md).extractLsb' 86 10 = op := by
  simp (disch := decide) only [extract_lm, extract_laneHead, ↓extract_append_hi, -Nat.reduceAdd]
  simp

theorem lmOf_lm (op : BitVec 10) (g : Guard) (ty : LTy) (d : BitVec 9) (a b : Src) (off : BitVec 24) (md : BitVec 19) :
    lmOf (lm op g ty d a b off md) = ⟨a, b, off, md⟩ := by
  simp (disch := decide) only [lmOf, extract_lm, bit_lm, ↓extract_append_hi, ↓extract_append_lo, ↓bit_append_hi, ↓bit_append_lo,
    -Nat.reduceAdd]
  simp

theorem extract_lc (op : BitVec 10) (q : BitVec 4) (tt ut jt : BitVec 20) (k w : Nat) :
    (lc op q tt ut jt).extractLsb' k w =
      (laneHead op Guard.none .iv32 0 ++ q ++ tt ++ ut ++ jt ++ (0 : BitVec 1)).extractLsb' k w := rfl

theorem headOf_lc (op : BitVec 10) (q : BitVec 4) (tt ut jt : BitVec 20) :
    headOf (lc op q tt ut jt) = some ⟨Guard.none, .iv32, 0⟩ := by
  simp (disch := decide) only [headOf, extract_lc, extract_laneHead, ↓extract_append_hi, ↓extract_append_lo, -Nat.reduceAdd]
  simp [Guard.none]

theorem op_lc (op : BitVec 10) (q : BitVec 4) (tt ut jt : BitVec 20) :
    (lc op q tt ut jt).extractLsb' 86 10 = op := by
  simp (disch := decide) only [extract_lc, extract_laneHead, ↓extract_append_hi, -Nat.reduceAdd]
  simp

theorem lcOf_lc (op : BitVec 10) (q : BitVec 4) (tt ut jt : BitVec 20) :
    lcOf (lc op q tt ut jt) = ⟨q, tt, ut, jt⟩ := by
  simp (disch := decide) only [lcOf, extract_lc, ↓extract_append_hi, ↓extract_append_lo, -Nat.reduceAdd]
  simp

/-! ### The scalar formats (R37) -/

theorem extract_sr (op d a b : BitVec 7) (f : BitVec 4) (k w : Nat) :
    (sr op d a b f).extractLsb' k w = (op ++ d ++ a ++ b ++ f).extractLsb' k w := rfl

theorem op_sr (op d a b : BitVec 7) (f : BitVec 4) : (sr op d a b f).extractLsb' 25 7 = op := by
  simp (disch := decide) only [extract_sr, ↓extract_append_hi, -Nat.reduceAdd]
  simp

theorem sD_sr (op d a b : BitVec 7) (f : BitVec 4) : sD (sr op d a b f) = d := by
  simp (disch := decide) only [sD, extract_sr, ↓extract_append_hi, ↓extract_append_lo, -Nat.reduceAdd]
  simp

theorem sA_sr (op d a b : BitVec 7) (f : BitVec 4) : sA (sr op d a b f) = a := by
  simp (disch := decide) only [sA, extract_sr, ↓extract_append_hi, ↓extract_append_lo, -Nat.reduceAdd]
  simp

theorem sB_sr (op d a b : BitVec 7) (f : BitVec 4) : sB (sr op d a b f) = b := by
  simp (disch := decide) only [sB, extract_sr, ↓extract_append_hi, ↓extract_append_lo, -Nat.reduceAdd]
  simp

theorem sF_sr (op d a b : BitVec 7) (f : BitVec 4) : sF (sr op d a b f) = f := by
  simp (disch := decide) only [sF, extract_sr, ↓extract_append_lo, -Nat.reduceAdd]
  simp

theorem f_sr (op d a b : BitVec 7) (f : BitVec 4) : (sr op d a b f).extractLsb' 0 4 = f := sF_sr op d a b f

theorem extract_si (op d a : BitVec 7) (i : BitVec 11) (k w : Nat) :
    (si op d a i).extractLsb' k w = (op ++ d ++ a ++ i).extractLsb' k w := rfl

theorem op_si (op d a : BitVec 7) (i : BitVec 11) : (si op d a i).extractLsb' 25 7 = op := by
  simp (disch := decide) only [extract_si, ↓extract_append_hi, -Nat.reduceAdd]
  simp

theorem sD_si (op d a : BitVec 7) (i : BitVec 11) : sD (si op d a i) = d := by
  simp (disch := decide) only [sD, extract_si, ↓extract_append_hi, ↓extract_append_lo, -Nat.reduceAdd]
  simp

theorem sA_si (op d a : BitVec 7) (i : BitVec 11) : sA (si op d a i) = a := by
  simp (disch := decide) only [sA, extract_si, ↓extract_append_hi, ↓extract_append_lo, -Nat.reduceAdd]
  simp

theorem sI11_si (op d a : BitVec 7) (i : BitVec 11) : sI11 (si op d a i) = i := by
  simp (disch := decide) only [sI11, extract_si, ↓extract_append_lo, -Nat.reduceAdd]
  simp

theorem extract_sl (op d : BitVec 7) (i : BitVec 18) (k w : Nat) :
    (sl op d i).extractLsb' k w = (op ++ d ++ i).extractLsb' k w := rfl

theorem op_sl (op d : BitVec 7) (i : BitVec 18) : (sl op d i).extractLsb' 25 7 = op := by
  simp (disch := decide) only [extract_sl, ↓extract_append_hi, -Nat.reduceAdd]
  simp

theorem sD_sl (op d : BitVec 7) (i : BitVec 18) : sD (sl op d i) = d := by
  simp (disch := decide) only [sD, extract_sl, ↓extract_append_hi, ↓extract_append_lo, -Nat.reduceAdd]
  simp

theorem sI18_sl (op d : BitVec 7) (i : BitVec 18) : sI18 (sl op d i) = i := by
  simp (disch := decide) only [sI18, extract_sl, ↓extract_append_lo, -Nat.reduceAdd]
  simp

theorem extract_sb (op : BitVec 7) (k c : BitVec 3) (i : BitVec 19) (p w : Nat) :
    (sb op k c i).extractLsb' p w = (op ++ k ++ c ++ i).extractLsb' p w := rfl

theorem op_sb (op : BitVec 7) (k c : BitVec 3) (i : BitVec 19) : (sb op k c i).extractLsb' 25 7 = op := by
  simp (disch := decide) only [extract_sb, ↓extract_append_hi, -Nat.reduceAdd]
  simp

theorem k_sb (op : BitVec 7) (k c : BitVec 3) (i : BitVec 19) : (sb op k c i).extractLsb' 22 3 = k := by
  simp (disch := decide) only [extract_sb, ↓extract_append_hi, ↓extract_append_lo, -Nat.reduceAdd]
  simp

theorem c_sb (op : BitVec 7) (k c : BitVec 3) (i : BitVec 19) : (sb op k c i).extractLsb' 19 3 = c := by
  simp (disch := decide) only [extract_sb, ↓extract_append_hi, ↓extract_append_lo, -Nat.reduceAdd]
  simp

theorem i_sb (op : BitVec 7) (k c : BitVec 3) (i : BitVec 19) : (sb op k c i).extractLsb' 0 19 = i := by
  simp (disch := decide) only [extract_sb, ↓extract_append_lo, -Nat.reduceAdd]
  simp

theorem extract_sq (op a : BitVec 7) (n : BitVec 4) (e : BitVec 14) (k w : Nat) :
    (sq op a n e).extractLsb' k w = (op ++ a ++ n ++ e).extractLsb' k w := rfl

theorem op_sq (op a : BitVec 7) (n : BitVec 4) (e : BitVec 14) : (sq op a n e).extractLsb' 25 7 = op := by
  simp (disch := decide) only [extract_sq, ↓extract_append_hi, -Nat.reduceAdd]
  simp

theorem sD_sq (op a : BitVec 7) (n : BitVec 4) (e : BitVec 14) : sD (sq op a n e) = a := by
  simp (disch := decide) only [sD, extract_sq, ↓extract_append_hi, ↓extract_append_lo, -Nat.reduceAdd]
  simp

theorem n_sq (op a : BitVec 7) (n : BitVec 4) (e : BitVec 14) : (sq op a n e).extractLsb' 14 4 = n := by
  simp (disch := decide) only [extract_sq, ↓extract_append_hi, ↓extract_append_lo, -Nat.reduceAdd]
  simp

theorem e_sq (op a : BitVec 7) (n : BitVec 4) (e : BitVec 14) : (sq op a n e).extractLsb' 0 14 = e := by
  simp (disch := decide) only [extract_sq, ↓extract_append_lo, -Nat.reduceAdd]
  simp

/-! ### Modifier fields -/

theorem field_same {n N : Nat} (v : BitVec n) (k : Nat) (h : k + n ≤ N) :
    (v.setWidth N <<< k).extractLsb' k n = v := by
  ext i hi
  simp [show k + i < N by omega, show ¬ k + i < k by omega, BitVec.getLsbD_eq_getElem hi]

theorem field_off {n N : Nat} (v : BitVec n) (s k w : Nat) (h : s + n ≤ k ∨ k + w ≤ s) :
    (v.setWidth N <<< s).extractLsb' k w = 0 := by
  ext i hi
  simp
  intro _ h2
  rcases h with h | h
  · intro _; exact BitVec.getLsbD_of_ge v _ (by omega)
  · omega

theorem extract_or {N : Nat} (a b : BitVec N) (k w : Nat) :
    (a ||| b).extractLsb' k w = a.extractLsb' k w ||| b.extractLsb' k w := by
  ext i hi; simp

theorem setWidth_setWidth_self {n N : Nat} (v : BitVec n) (h : n ≤ N) : (v.setWidth N).setWidth n = v := by
  ext i hi; simp [show i < N by omega, BitVec.getLsbD_eq_getElem hi]

theorem field_low {n N : Nat} (v : BitVec n) (h : n ≤ N) : (v.setWidth N).extractLsb' 0 n = v := by
  ext i hi
  simp [show i < N by omega, BitVec.getLsbD_eq_getElem hi]

theorem field_bit {n N : Nat} (v : BitVec n) (s k : Nat) (h : s + n ≤ k ∨ k < s) : (v.setWidth N <<< s).getLsbD k = false := by
  simp
  intro _ h2 _
  rcases h with h | h
  · exact BitVec.getLsbD_of_ge v _ (by omega)
  · omega

theorem mb_same (b : Bool) (k : Nat) (h : k < 13) : (mb b k).getLsbD k = b := by
  cases b
  · simp [mb]
  · show (BitVec.ofNat 13 (1 <<< k)).getLsbD k = true
    rw [BitVec.getLsbD_ofNat, Nat.testBit_shiftLeft, Nat.sub_self]
    simp [h]

theorem mb_bit (b : Bool) (s k : Nat) (h : s ≠ k) : (mb b s).getLsbD k = false := by
  cases b
  · simp [mb]
  · show (BitVec.ofNat 13 (1 <<< s)).getLsbD k = false
    rw [BitVec.getLsbD_ofNat, Nat.testBit_shiftLeft]
    by_cases hk : s ≤ k
    · obtain ⟨j, hj⟩ : ∃ j, k - s = j + 1 := ⟨k - s - 1, by omega⟩
      simp [hj, Nat.testBit_succ]
    · simp [hk]

theorem mb_off (b : Bool) (s k w : Nat) (h : s < k ∨ k + w ≤ s) : (mb b s).extractLsb' k w = 0 := by
  ext i hi
  simp [mb_bit b s (k + i) (by omega)]

theorem mb11_same (b : Bool) (k : Nat) (h : k < 11) : (mb11 b k).getLsbD k = b := by
  cases b
  · simp [mb11]
  · show (BitVec.ofNat 11 (1 <<< k)).getLsbD k = true
    rw [BitVec.getLsbD_ofNat, Nat.testBit_shiftLeft, Nat.sub_self]
    simp [h]

theorem mb11_bit (b : Bool) (s k : Nat) (h : s ≠ k) : (mb11 b s).getLsbD k = false := by
  cases b
  · simp [mb11]
  · show (BitVec.ofNat 11 (1 <<< s)).getLsbD k = false
    rw [BitVec.getLsbD_ofNat, Nat.testBit_shiftLeft]
    by_cases hk : s ≤ k
    · obtain ⟨j, hj⟩ : ∃ j, k - s = j + 1 := ⟨k - s - 1, by omega⟩
      simp [hj, Nat.testBit_succ]
    · simp [hk]

theorem mb11_off (b : Bool) (s k w : Nat) (h : s < k ∨ k + w ≤ s) : (mb11 b s).extractLsb' k w = 0 := by
  ext i hi
  simp [mb11_bit b s (k + i) (by omega)]

theorem mb19_same (b : Bool) (k : Nat) (h : k < 19) : (mb19 b k).getLsbD k = b := by
  cases b
  · simp [mb19]
  · show (BitVec.ofNat 19 (1 <<< k)).getLsbD k = true
    rw [BitVec.getLsbD_ofNat, Nat.testBit_shiftLeft, Nat.sub_self]
    simp [h]

theorem mb19_bit (b : Bool) (s k : Nat) (h : s ≠ k) : (mb19 b s).getLsbD k = false := by
  cases b
  · simp [mb19]
  · show (BitVec.ofNat 19 (1 <<< s)).getLsbD k = false
    rw [BitVec.getLsbD_ofNat, Nat.testBit_shiftLeft]
    by_cases hk : s ≤ k
    · obtain ⟨j, hj⟩ : ∃ j, k - s = j + 1 := ⟨k - s - 1, by omega⟩
      simp [hj, Nat.testBit_succ]
    · simp [hk]

theorem mb19_off (b : Bool) (s k w : Nat) (h : s < k ∨ k + w ≤ s) : (mb19 b s).extractLsb' k w = 0 := by
  ext i hi
  simp [mb19_bit b s (k + i) (by omega)]

theorem mb_get (b : Bool) (s k : Nat) (h : k < 13) : (mb b s)[k] = (b && decide (k = s)) := by
  rw [← BitVec.getLsbD_eq_getElem]
  by_cases e : k = s
  · subst e; simp [-BitVec.getLsbD_eq_getElem, mb_same b k h]
  · simp [-BitVec.getLsbD_eq_getElem, mb_bit b s k (Ne.symm e), e]

theorem mb11_get (b : Bool) (s k : Nat) (h : k < 11) : (mb11 b s)[k] = (b && decide (k = s)) := by
  rw [← BitVec.getLsbD_eq_getElem]
  by_cases e : k = s
  · subst e; simp [-BitVec.getLsbD_eq_getElem, mb11_same b k h]
  · simp [-BitVec.getLsbD_eq_getElem, mb11_bit b s k (Ne.symm e), e]

theorem mb19_get (b : Bool) (s k : Nat) (h : k < 19) : (mb19 b s)[k] = (b && decide (k = s)) := by
  rw [← BitVec.getLsbD_eq_getElem]
  by_cases e : k = s
  · subst e; simp [-BitVec.getLsbD_eq_getElem, mb19_same b k h]
  · simp [-BitVec.getLsbD_eq_getElem, mb19_bit b s k (Ne.symm e), e]

theorem Access.ofBits_bits (n : Nat) (hn : n = 1 ∨ n = 2) (x : Access) : Access.ofBits (x.bits n) = some x := by
  rcases hn with rfl | rfl <;> rcases x with _ | _ | s | s <;> first | rfl | (cases s <;> rfl)

theorem d3_sr (op a b : BitVec 7) (f : BitVec 4) (v : BitVec 3) : (sr op (v.setWidth 7) a b f).extractLsb' 18 3 = v := by
  simp (disch := decide) only [extract_sr, ↓extract_append_hi, ↓extract_append_lo, -Nat.reduceAdd]
  exact field_low v (by decide)

theorem a3_sr (op d b : BitVec 7) (f : BitVec 4) (v : BitVec 3) : (sr op d (v.setWidth 7) b f).extractLsb' 11 3 = v := by
  simp (disch := decide) only [extract_sr, ↓extract_append_hi, ↓extract_append_lo, -Nat.reduceAdd]
  exact field_low v (by decide)

theorem b3_sr (op d a : BitVec 7) (f : BitVec 4) (v : BitVec 3) : (sr op d a (v.setWidth 7) f).extractLsb' 4 3 = v := by
  simp (disch := decide) only [extract_sr, ↓extract_append_hi, ↓extract_append_lo, -Nat.reduceAdd]
  exact field_low v (by decide)

/-! ### Bytes -/

theorem leNat_leBytes (n v : Nat) : leNat (leBytes n v) = v % 256 ^ n := by
  induction n generalizing v with
  | zero => simp [leBytes, leNat, Nat.mod_one]
  | succ n ih =>
    rw [leBytes, leNat, ih, BitVec.toNat_ofNat, show (256 : Nat) ^ (n + 1) = 256 * 256 ^ n by rw [Nat.pow_succ, Nat.mul_comm], Nat.mod_mul]

@[simp] theorem length_leBytes (n v : Nat) : (leBytes n v).length = n := by
  induction n generalizing v with
  | zero => rfl
  | succ n ih => simp [leBytes, ih]

theorem decodeBytes_scalar (w : Half) : decodeBytes (leBytes 4 w.toNat) = decodeScalar w := by
  simp only [decodeBytes, length_leBytes, leNat_leBytes]
  rw [show (256 : Nat) ^ 4 = 2 ^ 32 by decide, Nat.mod_eq_of_lt w.isLt, BitVec.ofNat_toNat, BitVec.setWidth_eq]

theorem decodeBytes_lane (w : LaneWord) : decodeBytes (leBytes 12 w.toNat) = decodeLane w := by
  simp only [decodeBytes, length_leBytes, leNat_leBytes]
  rw [show (256 : Nat) ^ 12 = 2 ^ 96 by decide, Nat.mod_eq_of_lt w.isLt, BitVec.ofNat_toNat, BitVec.setWidth_eq]

end Sys2Proof
end

