-- ==== Sys2Proof/Laws/PerInstr.lean ====
section
/-!
SUPPORT. Statements made instruction by instruction: the word of a well-formed instruction decodes to it.
-/
set_option linter.unusedSimpArgs false
set_option Elab.async false

namespace Sys2Proof

/-- The lane word's candidate by its opcode, from the fields that each format reads. -/
def candOp (op : BitVec 10) (h : Head) (r : LR) (i : LI) (m : LM) (c : LC) : Option Instr :=
  match op.toNat / 128 with
  | 0 => candGroup0 op.toNat h r i m c
  | 1 => candGroup1 op.toNat h r i m c
  | 2 => candGroup2 op.toNat h r i m c
  | 3 => candGroup3 op.toNat h r i m c
  | 4 => candGroup4 op.toNat h r i m c
  | 5 => candGroup5 op.toNat h r i m c
  | 6 => candGroup6 op.toNat h r i m c
  | _ => candGroup7 op.toNat h r i m c

theorem candLane_eq (h : Head) (w : LaneWord) :
    candLane h w = candOp (w.extractLsb' 86 10) h (lrOf w) (liOf w) (lmOf w) (lcOf w) := rfl

theorem accept_self (i : Instr) (hw : i.wf = true) : accept (some i) (encode i) = .ok i := by simp [accept, hw]

/-- A scalar word is read back when its candidate is the instruction it encodes. -/
theorem decode_scalar {i : Instr} {w : Half} (he : encode i = .scalar w) (hc : candScalar w = some i) (hw : i.wf = true) :
    decodeBytes (encodeBytes i) = .ok i := by
  rw [encodeBytes, he, decodeBytes_scalar, decodeScalar, hc, ← he, accept_self i hw]

theorem decode_lane {i : Instr} {w : LaneWord} {h : Head} (he : encode i = .lane w) (hh : headOf w = some h)
    (hc : candLane h w = some i) (hw : i.wf = true) : decodeBytes (encodeBytes i) = .ok i := by
  rw [encodeBytes, he, decodeBytes_lane, decodeLane, hh]
  show accept (candLane h w) (.lane w) = .ok i
  rw [hc, ← he, accept_self i hw]

theorem decode_lr {i : Instr} {op : BitVec 10} {g : Guard} {ty : LTy} {d : BitVec 9} {a b c : Src} {md : BitVec 13}
    {x : BitVec 19} (he : encode i = .lane (lr op g ty d a b c md x))
    (hc : ∀ y m z, candOp op ⟨g, ty, d⟩ ⟨a, b, c, md, x⟩ y m z = some i) (hw : i.wf = true) :
    decodeBytes (encodeBytes i) = .ok i :=
  decode_lane he (headOf_lr ..) (by rw [candLane_eq, op_lr, lrOf_lr]; exact hc _ _ _) hw

theorem decode_li {i : Instr} {op : BitVec 10} {g : Guard} {ty : LTy} {d : BitVec 9} {a b : Src} {imm : Half}
    {md : BitVec 11} (he : encode i = .lane (li op g ty d a b imm md))
    (hc : ∀ y m z, candOp op ⟨g, ty, d⟩ y ⟨a, b, imm, md⟩ m z = some i) (hw : i.wf = true) :
    decodeBytes (encodeBytes i) = .ok i :=
  decode_lane he (headOf_li ..) (by rw [candLane_eq, op_li, liOf_li]; exact hc _ _ _) hw

theorem decode_lm {i : Instr} {op : BitVec 10} {g : Guard} {ty : LTy} {d : BitVec 9} {a b : Src} {off : BitVec 24}
    {md : BitVec 19} (he : encode i = .lane (lm op g ty d a b off md))
    (hc : ∀ y m z, candOp op ⟨g, ty, d⟩ y m ⟨a, b, off, md⟩ z = some i) (hw : i.wf = true) :
    decodeBytes (encodeBytes i) = .ok i :=
  decode_lane he (headOf_lm ..) (by rw [candLane_eq, op_lm, lmOf_lm]; exact hc _ _ _) hw

theorem decode_lc {i : Instr} {op : BitVec 10} {q : BitVec 4} {tt ut jt : BitVec 20}
    (he : encode i = .lane (lc op q tt ut jt))
    (hc : ∀ y m z, candOp op ⟨Guard.none, .iv32, 0⟩ y m z ⟨q, tt, ut, jt⟩ = some i) (hw : i.wf = true) :
    decodeBytes (encodeBytes i) = .ok i :=
  decode_lane he (headOf_lc ..) (by rw [candLane_eq, op_lc, lcOf_lc]; exact hc _ _ _) hw

end Sys2Proof

namespace Sys2Proof.Laws.RoundTrip

/-- The bytes of a well-formed instruction that has a word decode to that instruction, with every operand. -/
def Statement (i : Instr) : Prop := i.wf = true → encode i ≠ .none → decodeBytes (encodeBytes i) = .ok i

theorem nop : Statement (.nop) := fun hw _ =>
  decode_scalar rfl (by simp (disch := decide) only [candScalar, op_sr, f_sr, d3_sr, a3_sr, b3_sr, sF_sr, sD_sr, sA_sr, sB_sr, Cond.ofBits_bits, KOp.ofBits_bits, Scope.ofBits_bits, GMode.ofBits_bits] <;> rfl) hw

theorem send : Statement (.send) := fun hw _ =>
  decode_scalar rfl (by simp (disch := decide) only [candScalar, op_sr, f_sr, d3_sr, a3_sr, b3_sr, sF_sr, sD_sr, sA_sr, sB_sr, Cond.ofBits_bits, KOp.ofBits_bits, Scope.ofBits_bits, GMode.ofBits_bits] <;> rfl) hw

theorem lsync : Statement (.lsync) := fun hw _ =>
  decode_scalar rfl (by simp (disch := decide) only [candScalar, op_sr, f_sr, d3_sr, a3_sr, b3_sr, sF_sr, sD_sr, sA_sr, sB_sr, Cond.ofBits_bits, KOp.ofBits_bits, Scope.ofBits_bits, GMode.ofBits_bits] <;> rfl) hw

theorem fbar : Statement (.fbar) := fun hw _ =>
  decode_scalar rfl (by simp (disch := decide) only [candScalar, op_sr, f_sr, d3_sr, a3_sr, b3_sr, sF_sr, sD_sr, sA_sr, sB_sr, Cond.ofBits_bits, KOp.ofBits_bits, Scope.ofBits_bits, GMode.ofBits_bits] <;> rfl) hw

theorem eret : Statement (.eret) := fun hw _ =>
  decode_scalar rfl (by simp (disch := decide) only [candScalar, op_sr, f_sr, d3_sr, a3_sr, b3_sr, sF_sr, sD_sr, sA_sr, sB_sr, Cond.ofBits_bits, KOp.ofBits_bits, Scope.ofBits_bits, GMode.ofBits_bits] <;> rfl) hw

theorem bkptScalar : Statement (.bkptScalar) := fun hw _ =>
  decode_scalar rfl (by simp (disch := decide) only [candScalar, op_sr, f_sr, d3_sr, a3_sr, b3_sr, sF_sr, sD_sr, sA_sr, sB_sr, Cond.ofBits_bits, KOp.ofBits_bits, Scope.ofBits_bits, GMode.ofBits_bits] <;> rfl) hw

theorem crit : Statement (.crit) := fun hw _ =>
  decode_scalar rfl (by simp (disch := decide) only [candScalar, op_sr, f_sr, d3_sr, a3_sr, b3_sr, sF_sr, sD_sr, sA_sr, sB_sr, Cond.ofBits_bits, KOp.ofBits_bits, Scope.ofBits_bits, GMode.ofBits_bits] <;> rfl) hw

theorem critx : Statement (.critx) := fun hw _ =>
  decode_scalar rfl (by simp (disch := decide) only [candScalar, op_sr, f_sr, d3_sr, a3_sr, b3_sr, sF_sr, sD_sr, sA_sr, sB_sr, Cond.ofBits_bits, KOp.ofBits_bits, Scope.ofBits_bits, GMode.ofBits_bits] <;> rfl) hw

theorem sadd (d a b : BitVec 7) : Statement (.sadd d a b) := fun hw _ =>
  decode_scalar rfl (by simp (disch := decide) only [candScalar, op_sr, f_sr, d3_sr, a3_sr, b3_sr, sF_sr, sD_sr, sA_sr, sB_sr, Cond.ofBits_bits, KOp.ofBits_bits, Scope.ofBits_bits, GMode.ofBits_bits] <;> rfl) hw

theorem ssub (d a b : BitVec 7) : Statement (.ssub d a b) := fun hw _ =>
  decode_scalar rfl (by simp (disch := decide) only [candScalar, op_sr, f_sr, d3_sr, a3_sr, b3_sr, sF_sr, sD_sr, sA_sr, sB_sr, Cond.ofBits_bits, KOp.ofBits_bits, Scope.ofBits_bits, GMode.ofBits_bits] <;> rfl) hw

theorem smul (d a b : BitVec 7) : Statement (.smul d a b) := fun hw _ =>
  decode_scalar rfl (by simp (disch := decide) only [candScalar, op_sr, f_sr, d3_sr, a3_sr, b3_sr, sF_sr, sD_sr, sA_sr, sB_sr, Cond.ofBits_bits, KOp.ofBits_bits, Scope.ofBits_bits, GMode.ofBits_bits] <;> rfl) hw

theorem smulh (d a b : BitVec 7) : Statement (.smulh d a b) := fun hw _ =>
  decode_scalar rfl (by simp (disch := decide) only [candScalar, op_sr, f_sr, d3_sr, a3_sr, b3_sr, sF_sr, sD_sr, sA_sr, sB_sr, Cond.ofBits_bits, KOp.ofBits_bits, Scope.ofBits_bits, GMode.ofBits_bits] <;> rfl) hw

theorem sdiv (d a b : BitVec 7) : Statement (.sdiv d a b) := fun hw _ =>
  decode_scalar rfl (by simp (disch := decide) only [candScalar, op_sr, f_sr, d3_sr, a3_sr, b3_sr, sF_sr, sD_sr, sA_sr, sB_sr, Cond.ofBits_bits, KOp.ofBits_bits, Scope.ofBits_bits, GMode.ofBits_bits] <;> rfl) hw

theorem srem (d a b : BitVec 7) : Statement (.srem d a b) := fun hw _ =>
  decode_scalar rfl (by simp (disch := decide) only [candScalar, op_sr, f_sr, d3_sr, a3_sr, b3_sr, sF_sr, sD_sr, sA_sr, sB_sr, Cond.ofBits_bits, KOp.ofBits_bits, Scope.ofBits_bits, GMode.ofBits_bits] <;> rfl) hw

theorem sand (d a b : BitVec 7) : Statement (.sand d a b) := fun hw _ =>
  decode_scalar rfl (by simp (disch := decide) only [candScalar, op_sr, f_sr, d3_sr, a3_sr, b3_sr, sF_sr, sD_sr, sA_sr, sB_sr, Cond.ofBits_bits, KOp.ofBits_bits, Scope.ofBits_bits, GMode.ofBits_bits] <;> rfl) hw

theorem sor (d a b : BitVec 7) : Statement (.sor d a b) := fun hw _ =>
  decode_scalar rfl (by simp (disch := decide) only [candScalar, op_sr, f_sr, d3_sr, a3_sr, b3_sr, sF_sr, sD_sr, sA_sr, sB_sr, Cond.ofBits_bits, KOp.ofBits_bits, Scope.ofBits_bits, GMode.ofBits_bits] <;> rfl) hw

theorem sxor (d a b : BitVec 7) : Statement (.sxor d a b) := fun hw _ =>
  decode_scalar rfl (by simp (disch := decide) only [candScalar, op_sr, f_sr, d3_sr, a3_sr, b3_sr, sF_sr, sD_sr, sA_sr, sB_sr, Cond.ofBits_bits, KOp.ofBits_bits, Scope.ofBits_bits, GMode.ofBits_bits] <;> rfl) hw

theorem sandn (d a b : BitVec 7) : Statement (.sandn d a b) := fun hw _ =>
  decode_scalar rfl (by simp (disch := decide) only [candScalar, op_sr, f_sr, d3_sr, a3_sr, b3_sr, sF_sr, sD_sr, sA_sr, sB_sr, Cond.ofBits_bits, KOp.ofBits_bits, Scope.ofBits_bits, GMode.ofBits_bits] <;> rfl) hw

theorem sshl (d a b : BitVec 7) : Statement (.sshl d a b) := fun hw _ =>
  decode_scalar rfl (by simp (disch := decide) only [candScalar, op_sr, f_sr, d3_sr, a3_sr, b3_sr, sF_sr, sD_sr, sA_sr, sB_sr, Cond.ofBits_bits, KOp.ofBits_bits, Scope.ofBits_bits, GMode.ofBits_bits] <;> rfl) hw

theorem sshr (d a b : BitVec 7) : Statement (.sshr d a b) := fun hw _ =>
  decode_scalar rfl (by simp (disch := decide) only [candScalar, op_sr, f_sr, d3_sr, a3_sr, b3_sr, sF_sr, sD_sr, sA_sr, sB_sr, Cond.ofBits_bits, KOp.ofBits_bits, Scope.ofBits_bits, GMode.ofBits_bits] <;> rfl) hw

theorem ssar (d a b : BitVec 7) : Statement (.ssar d a b) := fun hw _ =>
  decode_scalar rfl (by simp (disch := decide) only [candScalar, op_sr, f_sr, d3_sr, a3_sr, b3_sr, sF_sr, sD_sr, sA_sr, sB_sr, Cond.ofBits_bits, KOp.ofBits_bits, Scope.ofBits_bits, GMode.ofBits_bits] <;> rfl) hw

theorem smin (d a b : BitVec 7) : Statement (.smin d a b) := fun hw _ =>
  decode_scalar rfl (by simp (disch := decide) only [candScalar, op_sr, f_sr, d3_sr, a3_sr, b3_sr, sF_sr, sD_sr, sA_sr, sB_sr, Cond.ofBits_bits, KOp.ofBits_bits, Scope.ofBits_bits, GMode.ofBits_bits] <;> rfl) hw

theorem smax (d a b : BitVec 7) : Statement (.smax d a b) := fun hw _ =>
  decode_scalar rfl (by simp (disch := decide) only [candScalar, op_sr, f_sr, d3_sr, a3_sr, b3_sr, sF_sr, sD_sr, sA_sr, sB_sr, Cond.ofBits_bits, KOp.ofBits_bits, Scope.ofBits_bits, GMode.ofBits_bits] <;> rfl) hw

theorem smov (d a : BitVec 7) : Statement (.smov d a) := fun hw _ =>
  decode_scalar rfl (by simp (disch := decide) only [candScalar, op_sr, f_sr, d3_sr, a3_sr, b3_sr, sF_sr, sD_sr, sA_sr, sB_sr, Cond.ofBits_bits, KOp.ofBits_bits, Scope.ofBits_bits, GMode.ofBits_bits] <;> rfl) hw

theorem sclz (d a : BitVec 7) : Statement (.sclz d a) := fun hw _ =>
  decode_scalar rfl (by simp (disch := decide) only [candScalar, op_sr, f_sr, d3_sr, a3_sr, b3_sr, sF_sr, sD_sr, sA_sr, sB_sr, Cond.ofBits_bits, KOp.ofBits_bits, Scope.ofBits_bits, GMode.ofBits_bits] <;> rfl) hw

theorem spop (d a : BitVec 7) : Statement (.spop d a) := fun hw _ =>
  decode_scalar rfl (by simp (disch := decide) only [candScalar, op_sr, f_sr, d3_sr, a3_sr, b3_sr, sF_sr, sD_sr, sA_sr, sB_sr, Cond.ofBits_bits, KOp.ofBits_bits, Scope.ofBits_bits, GMode.ofBits_bits] <;> rfl) hw

theorem ssel (d a b : BitVec 7) (k : BitVec 3) : Statement (.ssel d a b k) := fun hw _ =>
  decode_scalar rfl (by 
    simp (disch := decide) only [candScalar, op_sr, f_sr, d3_sr, a3_sr, b3_sr, sF_sr, sD_sr, sA_sr, sB_sr, extract_sr, ↓extract_append_hi, ↓extract_append_lo, field_low, extract_all,
      Cond.ofBits_bits, KOp.ofBits_bits, Scope.ofBits_bits, -Nat.reduceAdd] <;> rfl) hw

theorem scmp (k : BitVec 3) (a b : BitVec 7) (c : Cond) : Statement (.scmp k a b c) := fun hw _ =>
  decode_scalar rfl (by simp (disch := decide) only [candScalar, op_sr, f_sr, d3_sr, a3_sr, b3_sr, sF_sr, sD_sr, sA_sr, sB_sr, Cond.ofBits_bits, KOp.ofBits_bits, Scope.ofBits_bits, GMode.ofBits_bits] <;> rfl) hw

theorem skop (d a b : BitVec 3) (op : KOp) : Statement (.skop d a b op) := fun hw _ =>
  decode_scalar rfl (by simp (disch := decide) only [candScalar, op_sr, f_sr, d3_sr, a3_sr, b3_sr, sF_sr, sD_sr, sA_sr, sB_sr, Cond.ofBits_bits, KOp.ofBits_bits, Scope.ofBits_bits, GMode.ofBits_bits] <;> rfl) hw

theorem sfence (s : Scope) : Statement (.sfence s) := fun hw _ =>
  decode_scalar rfl (by 
    simp (disch := decide) only [candScalar, op_sr, f_sr, d3_sr, a3_sr, b3_sr, sF_sr, sD_sr, sA_sr, sB_sr, extract_sr, ↓extract_append_hi, ↓extract_append_lo, field_low, extract_all,
      Cond.ofBits_bits, KOp.ofBits_bits, Scope.ofBits_bits, -Nat.reduceAdd] <;> rfl) hw

theorem sempty (d : BitVec 7) (n : BitVec 4) : Statement (.sempty d n) := fun hw _ =>
  decode_scalar rfl (by simp (disch := decide) only [candScalar, op_sr, f_sr, d3_sr, a3_sr, b3_sr, sF_sr, sD_sr, sA_sr, sB_sr, Cond.ofBits_bits, KOp.ofBits_bits, Scope.ofBits_bits, GMode.ofBits_bits] <;> rfl) hw

theorem swaita (d a : BitVec 7) (c : Cond) : Statement (.swaita d a c) := fun hw _ =>
  decode_scalar rfl (by simp (disch := decide) only [candScalar, op_sr, f_sr, d3_sr, a3_sr, b3_sr, sF_sr, sD_sr, sA_sr, sB_sr, Cond.ofBits_bits, KOp.ofBits_bits, Scope.ofBits_bits, GMode.ofBits_bits] <;> rfl) hw

theorem launch (a : BitVec 7) : Statement (.launch a) := fun hw _ =>
  decode_scalar rfl (by simp (disch := decide) only [candScalar, op_sr, f_sr, d3_sr, a3_sr, b3_sr, sF_sr, sD_sr, sA_sr, sB_sr, Cond.ofBits_bits, KOp.ofBits_bits, Scope.ofBits_bits, GMode.ofBits_bits] <;> rfl) hw

theorem task (a : BitVec 7) : Statement (.task a) := fun hw _ =>
  decode_scalar rfl (by simp (disch := decide) only [candScalar, op_sr, f_sr, d3_sr, a3_sr, b3_sr, sF_sr, sD_sr, sA_sr, sB_sr, Cond.ofBits_bits, KOp.ofBits_bits, Scope.ofBits_bits, GMode.ofBits_bits] <;> rfl) hw

theorem signal (a : BitVec 7) : Statement (.signal a) := fun hw _ =>
  decode_scalar rfl (by simp (disch := decide) only [candScalar, op_sr, f_sr, d3_sr, a3_sr, b3_sr, sF_sr, sD_sr, sA_sr, sB_sr, Cond.ofBits_bits, KOp.ofBits_bits, Scope.ofBits_bits, GMode.ofBits_bits] <;> rfl) hw

theorem cfetch (a b : BitVec 7) : Statement (.cfetch a b) := fun hw _ =>
  decode_scalar rfl (by simp (disch := decide) only [candScalar, op_sr, f_sr, d3_sr, a3_sr, b3_sr, sF_sr, sD_sr, sA_sr, sB_sr, Cond.ofBits_bits, KOp.ofBits_bits, Scope.ofBits_bits, GMode.ofBits_bits] <;> rfl) hw

theorem cinv (a b : BitVec 7) : Statement (.cinv a b) := fun hw _ =>
  decode_scalar rfl (by simp (disch := decide) only [candScalar, op_sr, f_sr, d3_sr, a3_sr, b3_sr, sF_sr, sD_sr, sA_sr, sB_sr, Cond.ofBits_bits, KOp.ofBits_bits, Scope.ofBits_bits, GMode.ofBits_bits] <;> rfl) hw

theorem sret (a : BitVec 7) : Statement (.sret a) := fun hw _ =>
  decode_scalar rfl (by simp (disch := decide) only [candScalar, op_sr, f_sr, d3_sr, a3_sr, b3_sr, sF_sr, sD_sr, sA_sr, sB_sr, Cond.ofBits_bits, KOp.ofBits_bits, Scope.ofBits_bits, GMode.ofBits_bits] <;> rfl) hw

theorem sjf (a : BitVec 7) : Statement (.sjf a) := fun hw _ =>
  decode_scalar rfl (by simp (disch := decide) only [candScalar, op_sr, f_sr, d3_sr, a3_sr, b3_sr, sF_sr, sD_sr, sA_sr, sB_sr, Cond.ofBits_bits, KOp.ofBits_bits, Scope.ofBits_bits, GMode.ofBits_bits] <;> rfl) hw

theorem trapScalar (code : BitVec 18) : Statement (.trapScalar code) := fun hw _ =>
  decode_scalar rfl (by simp (disch := decide) only [candScalar, op_sl, sD_sl, sI18_sl, Cond.ofBits_bits, KOp.ofBits_bits, Scope.ofBits_bits, GMode.ofBits_bits] <;> rfl) hw

theorem rgn (i : BitVec 18) : Statement (.rgn i) := fun hw _ =>
  decode_scalar rfl (by simp (disch := decide) only [candScalar, op_sl, sD_sl, sI18_sl, Cond.ofBits_bits, KOp.ofBits_bits, Scope.ofBits_bits, GMode.ofBits_bits] <;> rfl) hw

theorem mfxScalar (d : BitVec 7) (x : BitVec 12) : Statement (.mfxScalar d x) := fun hw _ =>
  decode_scalar rfl (by 
    simp (disch := decide) only [candScalar, op_sl, sD_sl, sI18_sl, extract_sl, ↓extract_append_hi, ↓extract_append_lo, field_low, extract_all,
      Cond.ofBits_bits, KOp.ofBits_bits, Scope.ofBits_bits, -Nat.reduceAdd] <;> rfl) hw

theorem mtxScalar (d : BitVec 7) (x : BitVec 12) : Statement (.mtxScalar d x) := fun hw _ =>
  decode_scalar rfl (by 
    simp (disch := decide) only [candScalar, op_sl, sD_sl, sI18_sl, extract_sl, ↓extract_append_hi, ↓extract_append_lo, field_low, extract_all,
      Cond.ofBits_bits, KOp.ofBits_bits, Scope.ofBits_bits, -Nat.reduceAdd] <;> rfl) hw

theorem sli (d : BitVec 7) (i : BitVec 18) : Statement (.sli d i) := fun hw _ =>
  decode_scalar rfl (by simp (disch := decide) only [candScalar, op_sl, sD_sl, sI18_sl, Cond.ofBits_bits, KOp.ofBits_bits, Scope.ofBits_bits, GMode.ofBits_bits] <;> rfl) hw

theorem slih (d : BitVec 7) (i : BitVec 18) : Statement (.slih d i) := fun hw _ =>
  decode_scalar rfl (by simp (disch := decide) only [candScalar, op_sl, sD_sl, sI18_sl, Cond.ofBits_bits, KOp.ofBits_bits, Scope.ofBits_bits, GMode.ofBits_bits] <;> rfl) hw

theorem scall (d : BitVec 7) (i : BitVec 18) : Statement (.scall d i) := fun hw _ =>
  decode_scalar rfl (by simp (disch := decide) only [candScalar, op_sl, sD_sl, sI18_sl, Cond.ofBits_bits, KOp.ofBits_bits, Scope.ofBits_bits, GMode.ofBits_bits] <;> rfl) hw

theorem sbr (k : BitVec 3) (m : GMode) (i : BitVec 19) : Statement (.sbr k m i) := fun hw _ =>
  decode_scalar rfl (by simp (disch := decide) only [candScalar, op_sb, k_sb, c_sb, i_sb, Cond.ofBits_bits, KOp.ofBits_bits, Scope.ofBits_bits, GMode.ofBits_bits] <;> rfl) hw

theorem sj (i : BitVec 19) : Statement (.sj i) := fun hw _ =>
  decode_scalar rfl (by simp (disch := decide) only [candScalar, op_sb, k_sb, c_sb, i_sb, Cond.ofBits_bits, KOp.ofBits_bits, Scope.ofBits_bits, GMode.ofBits_bits] <;> rfl) hw

theorem saddImm (d a : BitVec 7) (i : BitVec 11) : Statement (.saddImm d a i) := fun hw _ =>
  decode_scalar rfl (by simp (disch := decide) only [candScalar, op_si, sD_si, sA_si, sI11_si, Cond.ofBits_bits, KOp.ofBits_bits, Scope.ofBits_bits, GMode.ofBits_bits] <;> rfl) hw

theorem smulImm (d a : BitVec 7) (i : BitVec 11) : Statement (.smulImm d a i) := fun hw _ =>
  decode_scalar rfl (by simp (disch := decide) only [candScalar, op_si, sD_si, sA_si, sI11_si, Cond.ofBits_bits, KOp.ofBits_bits, Scope.ofBits_bits, GMode.ofBits_bits] <;> rfl) hw

theorem sandImm (d a : BitVec 7) (i : BitVec 11) : Statement (.sandImm d a i) := fun hw _ =>
  decode_scalar rfl (by simp (disch := decide) only [candScalar, op_si, sD_si, sA_si, sI11_si, Cond.ofBits_bits, KOp.ofBits_bits, Scope.ofBits_bits, GMode.ofBits_bits] <;> rfl) hw

theorem sorImm (d a : BitVec 7) (i : BitVec 11) : Statement (.sorImm d a i) := fun hw _ =>
  decode_scalar rfl (by simp (disch := decide) only [candScalar, op_si, sD_si, sA_si, sI11_si, Cond.ofBits_bits, KOp.ofBits_bits, Scope.ofBits_bits, GMode.ofBits_bits] <;> rfl) hw

theorem sxorImm (d a : BitVec 7) (i : BitVec 11) : Statement (.sxorImm d a i) := fun hw _ =>
  decode_scalar rfl (by simp (disch := decide) only [candScalar, op_si, sD_si, sA_si, sI11_si, Cond.ofBits_bits, KOp.ofBits_bits, Scope.ofBits_bits, GMode.ofBits_bits] <;> rfl) hw

theorem sshlImm (d a : BitVec 7) (i : BitVec 6) : Statement (.sshlImm d a i) := fun hw _ =>
  decode_scalar rfl (by 
    simp (disch := decide) only [candScalar, op_si, sD_si, sA_si, sI11_si, extract_si, ↓extract_append_hi, ↓extract_append_lo, field_low, extract_all,
      Cond.ofBits_bits, KOp.ofBits_bits, Scope.ofBits_bits, -Nat.reduceAdd] <;> rfl) hw

theorem sshrImm (d a : BitVec 7) (i : BitVec 6) : Statement (.sshrImm d a i) := fun hw _ =>
  decode_scalar rfl (by 
    simp (disch := decide) only [candScalar, op_si, sD_si, sA_si, sI11_si, extract_si, ↓extract_append_hi, ↓extract_append_lo, field_low, extract_all,
      Cond.ofBits_bits, KOp.ofBits_bits, Scope.ofBits_bits, -Nat.reduceAdd] <;> rfl) hw

theorem ssarImm (d a : BitVec 7) (i : BitVec 6) : Statement (.ssarImm d a i) := fun hw _ =>
  decode_scalar rfl (by 
    simp (disch := decide) only [candScalar, op_si, sD_si, sA_si, sI11_si, extract_si, ↓extract_append_hi, ↓extract_append_lo, field_low, extract_all,
      Cond.ofBits_bits, KOp.ofBits_bits, Scope.ofBits_bits, -Nat.reduceAdd] <;> rfl) hw

theorem sminImm (d a : BitVec 7) (i : BitVec 11) : Statement (.sminImm d a i) := fun hw _ =>
  decode_scalar rfl (by simp (disch := decide) only [candScalar, op_si, sD_si, sA_si, sI11_si, Cond.ofBits_bits, KOp.ofBits_bits, Scope.ofBits_bits, GMode.ofBits_bits] <;> rfl) hw

theorem smaxImm (d a : BitVec 7) (i : BitVec 11) : Statement (.smaxImm d a i) := fun hw _ =>
  decode_scalar rfl (by simp (disch := decide) only [candScalar, op_si, sD_si, sA_si, sI11_si, Cond.ofBits_bits, KOp.ofBits_bits, Scope.ofBits_bits, GMode.ofBits_bits] <;> rfl) hw

theorem sld (d a : BitVec 7) (i : BitVec 11) : Statement (.sld d a i) := fun hw _ =>
  decode_scalar rfl (by simp (disch := decide) only [candScalar, op_si, sD_si, sA_si, sI11_si, Cond.ofBits_bits, KOp.ofBits_bits, Scope.ofBits_bits, GMode.ofBits_bits] <;> rfl) hw

theorem sst (d a : BitVec 7) (i : BitVec 11) : Statement (.sst d a i) := fun hw _ =>
  decode_scalar rfl (by simp (disch := decide) only [candScalar, op_si, sD_si, sA_si, sI11_si, Cond.ofBits_bits, KOp.ofBits_bits, Scope.ofBits_bits, GMode.ofBits_bits] <;> rfl) hw

theorem lq (a : BitVec 7) (n : BitVec 4) (e : BitVec 14) : Statement (.lq a n e) := fun hw _ =>
  decode_scalar rfl (by simp (disch := decide) only [candScalar, op_sq, sD_sq, n_sq, e_sq, Cond.ofBits_bits, KOp.ofBits_bits, Scope.ofBits_bits, GMode.ofBits_bits] <;> rfl) hw

theorem iadd (o : V2) (sat : Bool) : Statement (.iadd o sat) := fun hw _ =>
  decode_lr rfl (fun _ _ _ => by
    simp (disch := decide) [candOp, candGroup0, field_same, field_off, field_low, field_bit, extract_or, mb_same, mb_bit, mb_off, mb11_same, mb11_bit, mb11_off,
    mb19_same, mb19_bit, mb19_off, mb_get, mb11_get, mb19_get, Access.ofBits_bits, BitVec.getLsbD_or, setWidth_setWidth_self, LR.v1, LR.v2, LR.v3, LR.c2, LR.qs,
    LI.v0i, LI.v1, LI.v1i, LI.v2i, LI.c1i, LI.qsi, LM.adr, Head.dq, Head.ds, Src.q, Src.s, Src.lowq]) hw

theorem iaddImm (o : V1i) (sat : Bool) : Statement (.iaddImm o sat) := fun hw _ =>
  decode_li rfl (fun _ _ _ => by
    simp (disch := decide) [candOp, candGroup0, field_same, field_off, field_low, field_bit, extract_or, mb_same, mb_bit, mb_off, mb11_same, mb11_bit, mb11_off,
    mb19_same, mb19_bit, mb19_off, mb_get, mb11_get, mb19_get, Access.ofBits_bits, BitVec.getLsbD_or, setWidth_setWidth_self, LR.v1, LR.v2, LR.v3, LR.c2, LR.qs,
    LI.v0i, LI.v1, LI.v1i, LI.v2i, LI.c1i, LI.qsi, LM.adr, Head.dq, Head.ds, Src.q, Src.s, Src.lowq]) hw

theorem isub (o : V2) (sat : Bool) : Statement (.isub o sat) := fun hw _ =>
  decode_lr rfl (fun _ _ _ => by
    simp (disch := decide) [candOp, candGroup0, field_same, field_off, field_low, field_bit, extract_or, mb_same, mb_bit, mb_off, mb11_same, mb11_bit, mb11_off,
    mb19_same, mb19_bit, mb19_off, mb_get, mb11_get, mb19_get, Access.ofBits_bits, BitVec.getLsbD_or, setWidth_setWidth_self, LR.v1, LR.v2, LR.v3, LR.c2, LR.qs,
    LI.v0i, LI.v1, LI.v1i, LI.v2i, LI.c1i, LI.qsi, LM.adr, Head.dq, Head.ds, Src.q, Src.s, Src.lowq]) hw

theorem isubImm (o : V1i) (sat : Bool) : Statement (.isubImm o sat) := fun hw _ =>
  decode_li rfl (fun _ _ _ => by
    simp (disch := decide) [candOp, candGroup0, field_same, field_off, field_low, field_bit, extract_or, mb_same, mb_bit, mb_off, mb11_same, mb11_bit, mb11_off,
    mb19_same, mb19_bit, mb19_off, mb_get, mb11_get, mb19_get, Access.ofBits_bits, BitVec.getLsbD_or, setWidth_setWidth_self, LR.v1, LR.v2, LR.v3, LR.c2, LR.qs,
    LI.v0i, LI.v1, LI.v1i, LI.v2i, LI.c1i, LI.qsi, LM.adr, Head.dq, Head.ds, Src.q, Src.s, Src.lowq]) hw

theorem imul (o : V2) (sat : Bool) : Statement (.imul o sat) := fun hw _ =>
  decode_lr rfl (fun _ _ _ => by
    simp (disch := decide) [candOp, candGroup0, field_same, field_off, field_low, field_bit, extract_or, mb_same, mb_bit, mb_off, mb11_same, mb11_bit, mb11_off,
    mb19_same, mb19_bit, mb19_off, mb_get, mb11_get, mb19_get, Access.ofBits_bits, BitVec.getLsbD_or, setWidth_setWidth_self, LR.v1, LR.v2, LR.v3, LR.c2, LR.qs,
    LI.v0i, LI.v1, LI.v1i, LI.v2i, LI.c1i, LI.qsi, LM.adr, Head.dq, Head.ds, Src.q, Src.s, Src.lowq]) hw

theorem imulImm (o : V1i) (sat : Bool) : Statement (.imulImm o sat) := fun hw _ =>
  decode_li rfl (fun _ _ _ => by
    simp (disch := decide) [candOp, candGroup0, field_same, field_off, field_low, field_bit, extract_or, mb_same, mb_bit, mb_off, mb11_same, mb11_bit, mb11_off,
    mb19_same, mb19_bit, mb19_off, mb_get, mb11_get, mb19_get, Access.ofBits_bits, BitVec.getLsbD_or, setWidth_setWidth_self, LR.v1, LR.v2, LR.v3, LR.c2, LR.qs,
    LI.v0i, LI.v1, LI.v1i, LI.v2i, LI.c1i, LI.qsi, LM.adr, Head.dq, Head.ds, Src.q, Src.s, Src.lowq]) hw

theorem imulh (o : V2) : Statement (.imulh o) := fun hw _ =>
  decode_lr rfl (fun _ _ _ => rfl) hw

theorem imulhImm (o : V1i) : Statement (.imulhImm o) := fun hw _ =>
  decode_li rfl (fun _ _ _ => rfl) hw

theorem imad (o : V3) : Statement (.imad o) := fun hw _ =>
  decode_lr rfl (fun _ _ _ => rfl) hw

theorem imadImm (o : V2i) : Statement (.imadImm o) := fun hw _ =>
  decode_li rfl (fun _ _ _ => rfl) hw

theorem idiv (o : V2) : Statement (.idiv o) := fun hw _ =>
  decode_lr rfl (fun _ _ _ => rfl) hw

theorem idivImm (o : V1i) : Statement (.idivImm o) := fun hw _ =>
  decode_li rfl (fun _ _ _ => rfl) hw

theorem irem (o : V2) : Statement (.irem o) := fun hw _ =>
  decode_lr rfl (fun _ _ _ => rfl) hw

theorem iremImm (o : V1i) : Statement (.iremImm o) := fun hw _ =>
  decode_li rfl (fun _ _ _ => rfl) hw

theorem imin (o : V2) : Statement (.imin o) := fun hw _ =>
  decode_lr rfl (fun _ _ _ => rfl) hw

theorem iminImm (o : V1i) : Statement (.iminImm o) := fun hw _ =>
  decode_li rfl (fun _ _ _ => rfl) hw

theorem imax (o : V2) : Statement (.imax o) := fun hw _ =>
  decode_lr rfl (fun _ _ _ => rfl) hw

theorem imaxImm (o : V1i) : Statement (.imaxImm o) := fun hw _ =>
  decode_li rfl (fun _ _ _ => rfl) hw

theorem iabs (o : V1) (sat : Bool) : Statement (.iabs o sat) := fun hw _ =>
  decode_lr rfl (fun _ _ _ => by
    simp (disch := decide) [candOp, candGroup0, field_same, field_off, field_low, field_bit, extract_or, mb_same, mb_bit, mb_off, mb11_same, mb11_bit, mb11_off,
    mb19_same, mb19_bit, mb19_off, mb_get, mb11_get, mb19_get, Access.ofBits_bits, BitVec.getLsbD_or, setWidth_setWidth_self, LR.v1, LR.v2, LR.v3, LR.c2, LR.qs,
    LI.v0i, LI.v1, LI.v1i, LI.v2i, LI.c1i, LI.qsi, LM.adr, Head.dq, Head.ds, Src.q, Src.s, Src.lowq]) hw

theorem land (o : V2) : Statement (.land o) := fun hw _ =>
  decode_lr rfl (fun _ _ _ => rfl) hw

theorem landImm (o : V1i) : Statement (.landImm o) := fun hw _ =>
  decode_li rfl (fun _ _ _ => rfl) hw

theorem lor (o : V2) : Statement (.lor o) := fun hw _ =>
  decode_lr rfl (fun _ _ _ => rfl) hw

theorem lorImm (o : V1i) : Statement (.lorImm o) := fun hw _ =>
  decode_li rfl (fun _ _ _ => rfl) hw

theorem lxor (o : V2) : Statement (.lxor o) := fun hw _ =>
  decode_lr rfl (fun _ _ _ => rfl) hw

theorem lxorImm (o : V1i) : Statement (.lxorImm o) := fun hw _ =>
  decode_li rfl (fun _ _ _ => rfl) hw

theorem andn (o : V2) : Statement (.andn o) := fun hw _ =>
  decode_lr rfl (fun _ _ _ => rfl) hw

theorem andnImm (o : V1i) : Statement (.andnImm o) := fun hw _ =>
  decode_li rfl (fun _ _ _ => rfl) hw

theorem shl (o : V2) : Statement (.shl o) := fun hw _ =>
  decode_lr rfl (fun _ _ _ => rfl) hw

theorem shlImm (o : V1i) : Statement (.shlImm o) := fun hw _ =>
  decode_li rfl (fun _ _ _ => rfl) hw

theorem shr (o : V2) : Statement (.shr o) := fun hw _ =>
  decode_lr rfl (fun _ _ _ => rfl) hw

theorem shrImm (o : V1i) : Statement (.shrImm o) := fun hw _ =>
  decode_li rfl (fun _ _ _ => rfl) hw

theorem sar (o : V2) : Statement (.sar o) := fun hw _ =>
  decode_lr rfl (fun _ _ _ => rfl) hw

theorem sarImm (o : V1i) : Statement (.sarImm o) := fun hw _ =>
  decode_li rfl (fun _ _ _ => rfl) hw

theorem rot (o : V2) : Statement (.rot o) := fun hw _ =>
  decode_lr rfl (fun _ _ _ => rfl) hw

theorem rotImm (o : V1i) : Statement (.rotImm o) := fun hw _ =>
  decode_li rfl (fun _ _ _ => rfl) hw

theorem popc (o : V1) : Statement (.popc o) := fun hw _ =>
  decode_lr rfl (fun _ _ _ => rfl) hw

theorem clz (o : V1) : Statement (.clz o) := fun hw _ =>
  decode_lr rfl (fun _ _ _ => rfl) hw

theorem bfx (o : V2) : Statement (.bfx o) := fun hw _ =>
  decode_lr rfl (fun _ _ _ => rfl) hw

theorem bfxImm (o : V1i) : Statement (.bfxImm o) := fun hw _ =>
  decode_li rfl (fun _ _ _ => rfl) hw

theorem bfi (o : V3) : Statement (.bfi o) := fun hw _ =>
  decode_lr rfl (fun _ _ _ => rfl) hw

theorem bfiImm (o : V2i) : Statement (.bfiImm o) := fun hw _ =>
  decode_li rfl (fun _ _ _ => rfl) hw

theorem icmp (o : C2) (c : Cond) (es : HSel) : Statement (.icmp o c es) := fun hw _ =>
  decode_lr rfl (fun _ _ _ => by
    simp (disch := decide) [candOp, candGroup0, field_same, field_off, field_low, field_bit, extract_or, mb_same, mb_bit, mb_off, mb11_same, mb11_bit, mb11_off,
    mb19_same, mb19_bit, mb19_off, mb_get, mb11_get, mb19_get, Access.ofBits_bits, BitVec.getLsbD_or, setWidth_setWidth_self, LR.v1, LR.v2, LR.v3, LR.c2, LR.qs,
    LI.v0i, LI.v1, LI.v1i, LI.v2i, LI.c1i, LI.qsi, LM.adr, Head.dq, Head.ds, Src.q, Src.s, Src.lowq]) hw

theorem icmpImm (o : C1i) (c : Cond) (es : HSel) : Statement (.icmpImm o c es) := fun hw _ =>
  decode_li rfl (fun _ _ _ => by
    simp (disch := decide) [candOp, candGroup0, field_same, field_off, field_low, field_bit, extract_or, mb_same, mb_bit, mb_off, mb11_same, mb11_bit, mb11_off,
    mb19_same, mb19_bit, mb19_off, mb_get, mb11_get, mb19_get, Access.ofBits_bits, BitVec.getLsbD_or, setWidth_setWidth_self, LR.v1, LR.v2, LR.v3, LR.c2, LR.qs,
    LI.v0i, LI.v1, LI.v1i, LI.v2i, LI.c1i, LI.qsi, LM.adr, Head.dq, Head.ds, Src.q, Src.s, Src.lowq]) hw

theorem isel (o : QS) : Statement (.isel o) := fun hw _ =>
  decode_lr rfl (fun _ _ _ => by
    simp (disch := decide) [candOp, candGroup0, field_same, field_off, field_low, field_bit, extract_or, mb_same, mb_bit, mb_off, mb11_same, mb11_bit, mb11_off,
    mb19_same, mb19_bit, mb19_off, mb_get, mb11_get, mb19_get, Access.ofBits_bits, BitVec.getLsbD_or, setWidth_setWidth_self, LR.v1, LR.v2, LR.v3, LR.c2, LR.qs,
    LI.v0i, LI.v1, LI.v1i, LI.v2i, LI.c1i, LI.qsi, LM.adr, Head.dq, Head.ds, Src.q, Src.s, Src.lowq]) hw

theorem iselImm (o : QSi) : Statement (.iselImm o) := fun hw _ =>
  decode_li rfl (fun _ _ _ => by
    simp (disch := decide) [candOp, candGroup0, field_same, field_off, field_low, field_bit, extract_or, mb_same, mb_bit, mb_off, mb11_same, mb11_bit, mb11_off,
    mb19_same, mb19_bit, mb19_off, mb_get, mb11_get, mb19_get, Access.ofBits_bits, BitVec.getLsbD_or, setWidth_setWidth_self, LR.v1, LR.v2, LR.v3, LR.c2, LR.qs,
    LI.v0i, LI.v1, LI.v1i, LI.v2i, LI.c1i, LI.qsi, LM.adr, Head.dq, Head.ds, Src.q, Src.s, Src.lowq]) hw

theorem mov (o : V1) : Statement (.mov o) := fun hw _ =>
  decode_lr rfl (fun _ _ _ => rfl) hw

theorem movi (o : V0i) : Statement (.movi o) := fun hw _ =>
  decode_li rfl (fun _ _ _ => rfl) hw

theorem fadd (o : V2) (rm : RM) : Statement (.fadd o rm) := fun hw _ =>
  decode_lr rfl (fun _ _ _ => by
    simp (disch := decide) [candOp, candGroup1, field_same, field_off, field_low, field_bit, extract_or, mb_same, mb_bit, mb_off, mb11_same, mb11_bit, mb11_off,
    mb19_same, mb19_bit, mb19_off, mb_get, mb11_get, mb19_get, Access.ofBits_bits, BitVec.getLsbD_or, setWidth_setWidth_self, LR.v1, LR.v2, LR.v3, LR.c2, LR.qs,
    LI.v0i, LI.v1, LI.v1i, LI.v2i, LI.c1i, LI.qsi, LM.adr, Head.dq, Head.ds, Src.q, Src.s, Src.lowq]) hw

theorem faddImm (o : V1i) (rm : RM) : Statement (.faddImm o rm) := fun hw _ =>
  decode_li rfl (fun _ _ _ => by
    simp (disch := decide) [candOp, candGroup1, field_same, field_off, field_low, field_bit, extract_or, mb_same, mb_bit, mb_off, mb11_same, mb11_bit, mb11_off,
    mb19_same, mb19_bit, mb19_off, mb_get, mb11_get, mb19_get, Access.ofBits_bits, BitVec.getLsbD_or, setWidth_setWidth_self, LR.v1, LR.v2, LR.v3, LR.c2, LR.qs,
    LI.v0i, LI.v1, LI.v1i, LI.v2i, LI.c1i, LI.qsi, LM.adr, Head.dq, Head.ds, Src.q, Src.s, Src.lowq]) hw

theorem fsub (o : V2) (rm : RM) : Statement (.fsub o rm) := fun hw _ =>
  decode_lr rfl (fun _ _ _ => by
    simp (disch := decide) [candOp, candGroup1, field_same, field_off, field_low, field_bit, extract_or, mb_same, mb_bit, mb_off, mb11_same, mb11_bit, mb11_off,
    mb19_same, mb19_bit, mb19_off, mb_get, mb11_get, mb19_get, Access.ofBits_bits, BitVec.getLsbD_or, setWidth_setWidth_self, LR.v1, LR.v2, LR.v3, LR.c2, LR.qs,
    LI.v0i, LI.v1, LI.v1i, LI.v2i, LI.c1i, LI.qsi, LM.adr, Head.dq, Head.ds, Src.q, Src.s, Src.lowq]) hw

theorem fsubImm (o : V1i) (rm : RM) : Statement (.fsubImm o rm) := fun hw _ =>
  decode_li rfl (fun _ _ _ => by
    simp (disch := decide) [candOp, candGroup1, field_same, field_off, field_low, field_bit, extract_or, mb_same, mb_bit, mb_off, mb11_same, mb11_bit, mb11_off,
    mb19_same, mb19_bit, mb19_off, mb_get, mb11_get, mb19_get, Access.ofBits_bits, BitVec.getLsbD_or, setWidth_setWidth_self, LR.v1, LR.v2, LR.v3, LR.c2, LR.qs,
    LI.v0i, LI.v1, LI.v1i, LI.v2i, LI.c1i, LI.qsi, LM.adr, Head.dq, Head.ds, Src.q, Src.s, Src.lowq]) hw

theorem fmul (o : V2) (rm : RM) : Statement (.fmul o rm) := fun hw _ =>
  decode_lr rfl (fun _ _ _ => by
    simp (disch := decide) [candOp, candGroup1, field_same, field_off, field_low, field_bit, extract_or, mb_same, mb_bit, mb_off, mb11_same, mb11_bit, mb11_off,
    mb19_same, mb19_bit, mb19_off, mb_get, mb11_get, mb19_get, Access.ofBits_bits, BitVec.getLsbD_or, setWidth_setWidth_self, LR.v1, LR.v2, LR.v3, LR.c2, LR.qs,
    LI.v0i, LI.v1, LI.v1i, LI.v2i, LI.c1i, LI.qsi, LM.adr, Head.dq, Head.ds, Src.q, Src.s, Src.lowq]) hw

theorem fmulImm (o : V1i) (rm : RM) : Statement (.fmulImm o rm) := fun hw _ =>
  decode_li rfl (fun _ _ _ => by
    simp (disch := decide) [candOp, candGroup1, field_same, field_off, field_low, field_bit, extract_or, mb_same, mb_bit, mb_off, mb11_same, mb11_bit, mb11_off,
    mb19_same, mb19_bit, mb19_off, mb_get, mb11_get, mb19_get, Access.ofBits_bits, BitVec.getLsbD_or, setWidth_setWidth_self, LR.v1, LR.v2, LR.v3, LR.c2, LR.qs,
    LI.v0i, LI.v1, LI.v1i, LI.v2i, LI.c1i, LI.qsi, LM.adr, Head.dq, Head.ds, Src.q, Src.s, Src.lowq]) hw

theorem fdiv (o : V2) (rm : RM) : Statement (.fdiv o rm) := fun hw _ =>
  decode_lr rfl (fun _ _ _ => by
    simp (disch := decide) [candOp, candGroup1, field_same, field_off, field_low, field_bit, extract_or, mb_same, mb_bit, mb_off, mb11_same, mb11_bit, mb11_off,
    mb19_same, mb19_bit, mb19_off, mb_get, mb11_get, mb19_get, Access.ofBits_bits, BitVec.getLsbD_or, setWidth_setWidth_self, LR.v1, LR.v2, LR.v3, LR.c2, LR.qs,
    LI.v0i, LI.v1, LI.v1i, LI.v2i, LI.c1i, LI.qsi, LM.adr, Head.dq, Head.ds, Src.q, Src.s, Src.lowq]) hw

theorem fdivImm (o : V1i) (rm : RM) : Statement (.fdivImm o rm) := fun hw _ =>
  decode_li rfl (fun _ _ _ => by
    simp (disch := decide) [candOp, candGroup1, field_same, field_off, field_low, field_bit, extract_or, mb_same, mb_bit, mb_off, mb11_same, mb11_bit, mb11_off,
    mb19_same, mb19_bit, mb19_off, mb_get, mb11_get, mb19_get, Access.ofBits_bits, BitVec.getLsbD_or, setWidth_setWidth_self, LR.v1, LR.v2, LR.v3, LR.c2, LR.qs,
    LI.v0i, LI.v1, LI.v1i, LI.v2i, LI.c1i, LI.qsi, LM.adr, Head.dq, Head.ds, Src.q, Src.s, Src.lowq]) hw

theorem ffma (o : V3) (rm : RM) : Statement (.ffma o rm) := fun hw _ =>
  decode_lr rfl (fun _ _ _ => by
    simp (disch := decide) [candOp, candGroup1, field_same, field_off, field_low, field_bit, extract_or, mb_same, mb_bit, mb_off, mb11_same, mb11_bit, mb11_off,
    mb19_same, mb19_bit, mb19_off, mb_get, mb11_get, mb19_get, Access.ofBits_bits, BitVec.getLsbD_or, setWidth_setWidth_self, LR.v1, LR.v2, LR.v3, LR.c2, LR.qs,
    LI.v0i, LI.v1, LI.v1i, LI.v2i, LI.c1i, LI.qsi, LM.adr, Head.dq, Head.ds, Src.q, Src.s, Src.lowq]) hw

theorem ffmaImm (o : V2i) (rm : RM) : Statement (.ffmaImm o rm) := fun hw _ =>
  decode_li rfl (fun _ _ _ => by
    simp (disch := decide) [candOp, candGroup1, field_same, field_off, field_low, field_bit, extract_or, mb_same, mb_bit, mb_off, mb11_same, mb11_bit, mb11_off,
    mb19_same, mb19_bit, mb19_off, mb_get, mb11_get, mb19_get, Access.ofBits_bits, BitVec.getLsbD_or, setWidth_setWidth_self, LR.v1, LR.v2, LR.v3, LR.c2, LR.qs,
    LI.v0i, LI.v1, LI.v1i, LI.v2i, LI.c1i, LI.qsi, LM.adr, Head.dq, Head.ds, Src.q, Src.s, Src.lowq]) hw

theorem fsqrt (o : V1) (rm : RM) : Statement (.fsqrt o rm) := fun hw _ =>
  decode_lr rfl (fun _ _ _ => by
    simp (disch := decide) [candOp, candGroup1, field_same, field_off, field_low, field_bit, extract_or, mb_same, mb_bit, mb_off, mb11_same, mb11_bit, mb11_off,
    mb19_same, mb19_bit, mb19_off, mb_get, mb11_get, mb19_get, Access.ofBits_bits, BitVec.getLsbD_or, setWidth_setWidth_self, LR.v1, LR.v2, LR.v3, LR.c2, LR.qs,
    LI.v0i, LI.v1, LI.v1i, LI.v2i, LI.c1i, LI.qsi, LM.adr, Head.dq, Head.ds, Src.q, Src.s, Src.lowq]) hw

theorem frcp (o : V1) (rm : RM) : Statement (.frcp o rm) := fun hw _ =>
  decode_lr rfl (fun _ _ _ => by
    simp (disch := decide) [candOp, candGroup1, field_same, field_off, field_low, field_bit, extract_or, mb_same, mb_bit, mb_off, mb11_same, mb11_bit, mb11_off,
    mb19_same, mb19_bit, mb19_off, mb_get, mb11_get, mb19_get, Access.ofBits_bits, BitVec.getLsbD_or, setWidth_setWidth_self, LR.v1, LR.v2, LR.v3, LR.c2, LR.qs,
    LI.v0i, LI.v1, LI.v1i, LI.v2i, LI.c1i, LI.qsi, LM.adr, Head.dq, Head.ds, Src.q, Src.s, Src.lowq]) hw

theorem frsq (o : V1) (rm : RM) : Statement (.frsq o rm) := fun hw _ =>
  decode_lr rfl (fun _ _ _ => by
    simp (disch := decide) [candOp, candGroup1, field_same, field_off, field_low, field_bit, extract_or, mb_same, mb_bit, mb_off, mb11_same, mb11_bit, mb11_off,
    mb19_same, mb19_bit, mb19_off, mb_get, mb11_get, mb19_get, Access.ofBits_bits, BitVec.getLsbD_or, setWidth_setWidth_self, LR.v1, LR.v2, LR.v3, LR.c2, LR.qs,
    LI.v0i, LI.v1, LI.v1i, LI.v2i, LI.c1i, LI.qsi, LM.adr, Head.dq, Head.ds, Src.q, Src.s, Src.lowq]) hw

theorem fexp2 (o : V1) (rm : RM) : Statement (.fexp2 o rm) := fun hw _ =>
  decode_lr rfl (fun _ _ _ => by
    simp (disch := decide) [candOp, candGroup1, field_same, field_off, field_low, field_bit, extract_or, mb_same, mb_bit, mb_off, mb11_same, mb11_bit, mb11_off,
    mb19_same, mb19_bit, mb19_off, mb_get, mb11_get, mb19_get, Access.ofBits_bits, BitVec.getLsbD_or, setWidth_setWidth_self, LR.v1, LR.v2, LR.v3, LR.c2, LR.qs,
    LI.v0i, LI.v1, LI.v1i, LI.v2i, LI.c1i, LI.qsi, LM.adr, Head.dq, Head.ds, Src.q, Src.s, Src.lowq]) hw

theorem flog2 (o : V1) (rm : RM) : Statement (.flog2 o rm) := fun hw _ =>
  decode_lr rfl (fun _ _ _ => by
    simp (disch := decide) [candOp, candGroup1, field_same, field_off, field_low, field_bit, extract_or, mb_same, mb_bit, mb_off, mb11_same, mb11_bit, mb11_off,
    mb19_same, mb19_bit, mb19_off, mb_get, mb11_get, mb19_get, Access.ofBits_bits, BitVec.getLsbD_or, setWidth_setWidth_self, LR.v1, LR.v2, LR.v3, LR.c2, LR.qs,
    LI.v0i, LI.v1, LI.v1i, LI.v2i, LI.c1i, LI.qsi, LM.adr, Head.dq, Head.ds, Src.q, Src.s, Src.lowq]) hw

theorem fmin (o : V2) : Statement (.fmin o) := fun hw _ =>
  decode_lr rfl (fun _ _ _ => rfl) hw

theorem fminImm (o : V1i) : Statement (.fminImm o) := fun hw _ =>
  decode_li rfl (fun _ _ _ => rfl) hw

theorem fmax (o : V2) : Statement (.fmax o) := fun hw _ =>
  decode_lr rfl (fun _ _ _ => rfl) hw

theorem fmaxImm (o : V1i) : Statement (.fmaxImm o) := fun hw _ =>
  decode_li rfl (fun _ _ _ => rfl) hw

theorem fabs (o : V1) : Statement (.fabs o) := fun hw _ =>
  decode_lr rfl (fun _ _ _ => rfl) hw

theorem fneg (o : V1) : Statement (.fneg o) := fun hw _ =>
  decode_lr rfl (fun _ _ _ => rfl) hw

theorem fhull (o : V2) : Statement (.fhull o) := fun hw _ =>
  decode_lr rfl (fun _ _ _ => rfl) hw

theorem fhullImm (o : V1i) : Statement (.fhullImm o) := fun hw _ =>
  decode_li rfl (fun _ _ _ => rfl) hw

theorem fcap (o : V2) : Statement (.fcap o) := fun hw _ =>
  decode_lr rfl (fun _ _ _ => rfl) hw

theorem fcapImm (o : V1i) : Statement (.fcapImm o) := fun hw _ =>
  decode_li rfl (fun _ _ _ => rfl) hw

theorem fmid (o : V1) : Statement (.fmid o) := fun hw _ =>
  decode_lr rfl (fun _ _ _ => rfl) hw

theorem frad (o : V1) : Statement (.frad o) := fun hw _ =>
  decode_lr rfl (fun _ _ _ => rfl) hw

theorem fwid (o : V1) : Statement (.fwid o) := fun hw _ =>
  decode_lr rfl (fun _ _ _ => rfl) hw

theorem flo (o : V1) : Statement (.flo o) := fun hw _ =>
  decode_lr rfl (fun _ _ _ => rfl) hw

theorem fhi (o : V1) : Statement (.fhi o) := fun hw _ =>
  decode_lr rfl (fun _ _ _ => rfl) hw

theorem fmk (o : V2) : Statement (.fmk o) := fun hw _ =>
  decode_lr rfl (fun _ _ _ => rfl) hw

theorem fcmp (o : C2) (c : FCond) (es : BitVec 3) : Statement (.fcmp o c es) := fun hw _ =>
  decode_lr rfl (fun _ _ _ => by
    simp (disch := decide) [candOp, candGroup1, field_same, field_off, field_low, field_bit, extract_or, mb_same, mb_bit, mb_off, mb11_same, mb11_bit, mb11_off,
    mb19_same, mb19_bit, mb19_off, mb_get, mb11_get, mb19_get, Access.ofBits_bits, BitVec.getLsbD_or, setWidth_setWidth_self, LR.v1, LR.v2, LR.v3, LR.c2, LR.qs,
    LI.v0i, LI.v1, LI.v1i, LI.v2i, LI.c1i, LI.qsi, LM.adr, Head.dq, Head.ds, Src.q, Src.s, Src.lowq]) hw

theorem fcmpImm (o : C1i) (c : FCond) (es : BitVec 3) : Statement (.fcmpImm o c es) := fun hw _ =>
  decode_li rfl (fun _ _ _ => by
    simp (disch := decide) [candOp, candGroup1, field_same, field_off, field_low, field_bit, extract_or, mb_same, mb_bit, mb_off, mb11_same, mb11_bit, mb11_off,
    mb19_same, mb19_bit, mb19_off, mb_get, mb11_get, mb19_get, Access.ofBits_bits, BitVec.getLsbD_or, setWidth_setWidth_self, LR.v1, LR.v2, LR.v3, LR.c2, LR.qs,
    LI.v0i, LI.v1, LI.v1i, LI.v2i, LI.c1i, LI.qsi, LM.adr, Head.dq, Head.ds, Src.q, Src.s, Src.lowq]) hw

theorem fclass (o : V1) : Statement (.fclass o) := fun hw _ =>
  decode_lr rfl (fun _ _ _ => rfl) hw

theorem fsel (o : QS) : Statement (.fsel o) := fun hw _ =>
  decode_lr rfl (fun _ _ _ => by
    simp (disch := decide) [candOp, candGroup1, field_same, field_off, field_low, field_bit, extract_or, mb_same, mb_bit, mb_off, mb11_same, mb11_bit, mb11_off,
    mb19_same, mb19_bit, mb19_off, mb_get, mb11_get, mb19_get, Access.ofBits_bits, BitVec.getLsbD_or, setWidth_setWidth_self, LR.v1, LR.v2, LR.v3, LR.c2, LR.qs,
    LI.v0i, LI.v1, LI.v1i, LI.v2i, LI.c1i, LI.qsi, LM.adr, Head.dq, Head.ds, Src.q, Src.s, Src.lowq]) hw

theorem fselImm (o : QSi) : Statement (.fselImm o) := fun hw _ =>
  decode_li rfl (fun _ _ _ => by
    simp (disch := decide) [candOp, candGroup1, field_same, field_off, field_low, field_bit, extract_or, mb_same, mb_bit, mb_off, mb11_same, mb11_bit, mb11_off,
    mb19_same, mb19_bit, mb19_off, mb_get, mb11_get, mb19_get, Access.ofBits_bits, BitVec.getLsbD_or, setWidth_setWidth_self, LR.v1, LR.v2, LR.v3, LR.c2, LR.qs,
    LI.v0i, LI.v1, LI.v1i, LI.v2i, LI.c1i, LI.qsi, LM.adr, Head.dq, Head.ds, Src.q, Src.s, Src.lowq]) hw

theorem cvt (o : V1) (sty : LTy) (es : HSel) (rm : RM) : Statement (.cvt o sty es rm) := fun hw _ =>
  decode_lr rfl (fun _ _ _ => by
    simp (disch := decide) [candOp, candGroup2, field_same, field_off, field_low, field_bit, extract_or, mb_same, mb_bit, mb_off, mb11_same, mb11_bit, mb11_off,
    mb19_same, mb19_bit, mb19_off, mb_get, mb11_get, mb19_get, Access.ofBits_bits, BitVec.getLsbD_or, setWidth_setWidth_self, LR.v1, LR.v2, LR.v3, LR.c2, LR.qs,
    LI.v0i, LI.v1, LI.v1i, LI.v2i, LI.c1i, LI.qsi, LM.adr, Head.dq, Head.ds, Src.q, Src.s, Src.lowq]) hw

theorem pack (o : V2) (rm : RM) : Statement (.pack o rm) := fun hw _ =>
  decode_lr rfl (fun _ _ _ => by
    simp (disch := decide) [candOp, candGroup2, field_same, field_off, field_low, field_bit, extract_or, mb_same, mb_bit, mb_off, mb11_same, mb11_bit, mb11_off,
    mb19_same, mb19_bit, mb19_off, mb_get, mb11_get, mb19_get, Access.ofBits_bits, BitVec.getLsbD_or, setWidth_setWidth_self, LR.v1, LR.v2, LR.v3, LR.c2, LR.qs,
    LI.v0i, LI.v1, LI.v1i, LI.v2i, LI.c1i, LI.qsi, LM.adr, Head.dq, Head.ds, Src.q, Src.s, Src.lowq]) hw

theorem unpk (o : V1) (es : HSel) : Statement (.unpk o es) := fun hw _ =>
  decode_lr rfl (fun _ _ _ => by
    simp (disch := decide) [candOp, candGroup2, field_same, field_off, field_low, field_bit, extract_or, mb_same, mb_bit, mb_off, mb11_same, mb11_bit, mb11_off,
    mb19_same, mb19_bit, mb19_off, mb_get, mb11_get, mb19_get, Access.ofBits_bits, BitVec.getLsbD_or, setWidth_setWidth_self, LR.v1, LR.v2, LR.v3, LR.c2, LR.qs,
    LI.v0i, LI.v1, LI.v1i, LI.v2i, LI.c1i, LI.qsi, LM.adr, Head.dq, Head.ds, Src.q, Src.s, Src.lowq]) hw

theorem qnt (o : V2) (nib : Bool) (pos : BitVec 4) (rm : RM) : Statement (.qnt o nib pos rm) := fun hw _ =>
  decode_lr rfl (fun _ _ _ => by
    simp (disch := decide) [candOp, candGroup2, field_same, field_off, field_low, field_bit, extract_or, mb_same, mb_bit, mb_off, mb11_same, mb11_bit, mb11_off,
    mb19_same, mb19_bit, mb19_off, mb_get, mb11_get, mb19_get, Access.ofBits_bits, BitVec.getLsbD_or, setWidth_setWidth_self, LR.v1, LR.v2, LR.v3, LR.c2, LR.qs,
    LI.v0i, LI.v1, LI.v1i, LI.v2i, LI.c1i, LI.qsi, LM.adr, Head.dq, Head.ds, Src.q, Src.s, Src.lowq]) hw

theorem qntScale (o : V2) : Statement (.qntScale o) := fun hw _ =>
  decode_lr rfl (fun _ _ _ => by
    simp (disch := decide) [candOp, candGroup2, field_same, field_off, field_low, field_bit, extract_or, mb_same, mb_bit, mb_off, mb11_same, mb11_bit, mb11_off,
    mb19_same, mb19_bit, mb19_off, mb_get, mb11_get, mb19_get, Access.ofBits_bits, BitVec.getLsbD_or, setWidth_setWidth_self, LR.v1, LR.v2, LR.v3, LR.c2, LR.qs,
    LI.v0i, LI.v1, LI.v1i, LI.v2i, LI.c1i, LI.qsi, LM.adr, Head.dq, Head.ds, Src.q, Src.s, Src.lowq]) hw

theorem dqn (o : V2) (nib : Bool) (pos : BitVec 4) (rm : RM) : Statement (.dqn o nib pos rm) := fun hw _ =>
  decode_lr rfl (fun _ _ _ => by
    simp (disch := decide) [candOp, candGroup2, field_same, field_off, field_low, field_bit, extract_or, mb_same, mb_bit, mb_off, mb11_same, mb11_bit, mb11_off,
    mb19_same, mb19_bit, mb19_off, mb_get, mb11_get, mb19_get, Access.ofBits_bits, BitVec.getLsbD_or, setWidth_setWidth_self, LR.v1, LR.v2, LR.v3, LR.c2, LR.qs,
    LI.v0i, LI.v1, LI.v1i, LI.v2i, LI.c1i, LI.qsi, LM.adr, Head.dq, Head.ds, Src.q, Src.s, Src.lowq]) hw

theorem qand (g : Guard) (d a b : BitVec 4) : Statement (.qand g d a b) := fun hw _ =>
  decode_lr rfl (fun _ _ _ => by
    simp (disch := decide) [candOp, candGroup3, field_same, field_off, field_low, field_bit, extract_or, mb_same, mb_bit, mb_off, mb11_same, mb11_bit, mb11_off,
    mb19_same, mb19_bit, mb19_off, mb_get, mb11_get, mb19_get, Access.ofBits_bits, BitVec.getLsbD_or, setWidth_setWidth_self, LR.v1, LR.v2, LR.v3, LR.c2, LR.qs,
    LI.v0i, LI.v1, LI.v1i, LI.v2i, LI.c1i, LI.qsi, LM.adr, Head.dq, Head.ds, Src.q, Src.s, Src.lowq]) hw

theorem qor (g : Guard) (d a b : BitVec 4) : Statement (.qor g d a b) := fun hw _ =>
  decode_lr rfl (fun _ _ _ => by
    simp (disch := decide) [candOp, candGroup3, field_same, field_off, field_low, field_bit, extract_or, mb_same, mb_bit, mb_off, mb11_same, mb11_bit, mb11_off,
    mb19_same, mb19_bit, mb19_off, mb_get, mb11_get, mb19_get, Access.ofBits_bits, BitVec.getLsbD_or, setWidth_setWidth_self, LR.v1, LR.v2, LR.v3, LR.c2, LR.qs,
    LI.v0i, LI.v1, LI.v1i, LI.v2i, LI.c1i, LI.qsi, LM.adr, Head.dq, Head.ds, Src.q, Src.s, Src.lowq]) hw

theorem qnot (g : Guard) (d a : BitVec 4) : Statement (.qnot g d a) := fun hw _ =>
  decode_lr rfl (fun _ _ _ => by
    simp (disch := decide) [candOp, candGroup3, field_same, field_off, field_low, field_bit, extract_or, mb_same, mb_bit, mb_off, mb11_same, mb11_bit, mb11_off,
    mb19_same, mb19_bit, mb19_off, mb_get, mb11_get, mb19_get, Access.ofBits_bits, BitVec.getLsbD_or, setWidth_setWidth_self, LR.v1, LR.v2, LR.v3, LR.c2, LR.qs,
    LI.v0i, LI.v1, LI.v1i, LI.v2i, LI.c1i, LI.qsi, LM.adr, Head.dq, Head.ds, Src.q, Src.s, Src.lowq]) hw

theorem qforce (g : Guard) (d a : BitVec 4) (op : QForce) : Statement (.qforce g d a op) := fun hw _ =>
  decode_lr rfl (fun _ _ _ => by
    simp (disch := decide) [candOp, candGroup3, field_same, field_off, field_low, field_bit, extract_or, mb_same, mb_bit, mb_off, mb11_same, mb11_bit, mb11_off,
    mb19_same, mb19_bit, mb19_off, mb_get, mb11_get, mb19_get, Access.ofBits_bits, BitVec.getLsbD_or, setWidth_setWidth_self, LR.v1, LR.v2, LR.v3, LR.c2, LR.qs,
    LI.v0i, LI.v1, LI.v1i, LI.v2i, LI.c1i, LI.qsi, LM.adr, Head.dq, Head.ds, Src.q, Src.s, Src.lowq]) hw

theorem qset (g : Guard) (d : BitVec 4) (v : Tri) : Statement (.qset g d v) := fun hw _ =>
  decode_li rfl (fun _ _ _ => by
    simp (disch := decide) [candOp, candGroup3, field_same, field_off, field_low, field_bit, extract_or, mb_same, mb_bit, mb_off, mb11_same, mb11_bit, mb11_off,
    mb19_same, mb19_bit, mb19_off, mb_get, mb11_get, mb19_get, Access.ofBits_bits, BitVec.getLsbD_or, setWidth_setWidth_self, LR.v1, LR.v2, LR.v3, LR.c2, LR.qs,
    LI.v0i, LI.v1, LI.v1i, LI.v2i, LI.c1i, LI.qsi, LM.adr, Head.dq, Head.ds, Src.q, Src.s, Src.lowq]) hw

theorem vote (g : Guard) (d a : BitVec 4) (or all : Bool) : Statement (.vote g d a or all) := fun hw _ =>
  decode_lr rfl (fun _ _ _ => by
    simp (disch := decide) [candOp, candGroup3, field_same, field_off, field_low, field_bit, extract_or, mb_same, mb_bit, mb_off, mb11_same, mb11_bit, mb11_off,
    mb19_same, mb19_bit, mb19_off, mb_get, mb11_get, mb19_get, Access.ofBits_bits, BitVec.getLsbD_or, setWidth_setWidth_self, LR.v1, LR.v2, LR.v3, LR.c2, LR.qs,
    LI.v0i, LI.v1, LI.v1i, LI.v2i, LI.c1i, LI.qsi, LM.adr, Head.dq, Head.ds, Src.q, Src.s, Src.lowq]) hw

theorem voteScalar (g : Guard) (d : BitVec 7) (a : BitVec 4) (or all : Bool) : Statement (.voteScalar g d a or all) := fun hw _ =>
  decode_lr rfl (fun _ _ _ => by
    simp (disch := decide) [candOp, candGroup3, field_same, field_off, field_low, field_bit, extract_or, mb_same, mb_bit, mb_off, mb11_same, mb11_bit, mb11_off,
    mb19_same, mb19_bit, mb19_off, mb_get, mb11_get, mb19_get, Access.ofBits_bits, BitVec.getLsbD_or, setWidth_setWidth_self, LR.v1, LR.v2, LR.v3, LR.c2, LR.qs,
    LI.v0i, LI.v1, LI.v1i, LI.v2i, LI.c1i, LI.qsi, LM.adr, Head.dq, Head.ds, Src.q, Src.s, Src.lowq]) hw

theorem lead (g : Guard) (d : BitVec 4) : Statement (.lead g d) := fun hw _ =>
  decode_lr rfl (fun _ _ _ => by
    simp (disch := decide) [candOp, candGroup3, field_same, field_off, field_low, field_bit, extract_or, mb_same, mb_bit, mb_off, mb11_same, mb11_bit, mb11_off,
    mb19_same, mb19_bit, mb19_off, mb_get, mb11_get, mb19_get, Access.ofBits_bits, BitVec.getLsbD_or, setWidth_setWidth_self, LR.v1, LR.v2, LR.v3, LR.c2, LR.qs,
    LI.v0i, LI.v1, LI.v1i, LI.v2i, LI.c1i, LI.qsi, LM.adr, Head.dq, Head.ds, Src.q, Src.s, Src.lowq]) hw

theorem bq (q : BitVec 4) (tt ut jt : BitVec 20) : Statement (.bq q tt ut jt) := fun hw _ =>
  decode_lc rfl (fun _ _ _ => rfl) hw

theorem bc (q : BitVec 4) (tt jt : BitVec 20) : Statement (.bc q tt jt) := fun hw _ =>
  decode_lc rfl (fun _ _ _ => rfl) hw

theorem jmp (tt : BitVec 20) : Statement (.jmp tt) := fun hw _ =>
  decode_lc rfl (fun _ _ _ => rfl) hw

theorem call (tt : BitVec 20) : Statement (.call tt) := fun hw _ =>
  decode_lc rfl (fun _ _ _ => rfl) hw

theorem calli (a : Src) : Statement (.calli a) := fun hw _ =>
  decode_lr rfl (fun _ _ _ => rfl) hw

theorem ret : Statement (.ret) := fun hw _ =>
  decode_lr rfl (fun _ _ _ => rfl) hw

theorem brk (n tt : BitVec 20) : Statement (.brk n tt) := fun hw _ =>
  decode_lc rfl (fun _ _ _ => rfl) hw

theorem exit (g : Guard) : Statement (.exit g) := fun hw _ =>
  decode_lr rfl (fun _ _ _ => rfl) hw

theorem lend : Statement (.lend) := fun hw _ =>
  decode_lr rfl (fun _ _ _ => rfl) hw

theorem sput (g : Guard) (d : BitVec 7) (a : Src) : Statement (.sput g d a) := fun hw _ =>
  decode_lr rfl (fun _ _ _ => by
    simp (disch := decide) [candOp, candGroup3, field_same, field_off, field_low, field_bit, extract_or, mb_same, mb_bit, mb_off, mb11_same, mb11_bit, mb11_off,
    mb19_same, mb19_bit, mb19_off, mb_get, mb11_get, mb19_get, Access.ofBits_bits, BitVec.getLsbD_or, setWidth_setWidth_self, LR.v1, LR.v2, LR.v3, LR.c2, LR.qs,
    LI.v0i, LI.v1, LI.v1i, LI.v2i, LI.c1i, LI.qsi, LM.adr, Head.dq, Head.ds, Src.q, Src.s, Src.lowq]) hw

theorem ld (g : Guard) (ty : LTy) (d : BitVec 9) (p : Adr) (acc : Access) : Statement (.ld g ty d p acc) := fun hw _ =>
  decode_lm rfl (fun _ _ _ => by
    simp (disch := decide) [candOp, candGroup4, field_same, field_off, field_low, field_bit, extract_or, mb_same, mb_bit, mb_off, mb11_same, mb11_bit, mb11_off,
    mb19_same, mb19_bit, mb19_off, mb_get, mb11_get, mb19_get, Access.ofBits_bits, BitVec.getLsbD_or, setWidth_setWidth_self, LR.v1, LR.v2, LR.v3, LR.c2, LR.qs,
    LI.v0i, LI.v1, LI.v1i, LI.v2i, LI.c1i, LI.qsi, LM.adr, Head.dq, Head.ds, Src.q, Src.s, Src.lowq]) hw

theorem st (g : Guard) (ty : LTy) (p : Adr) (b : Src) (acc : Access) : Statement (.st g ty p b acc) := fun hw _ =>
  decode_lm rfl (fun _ _ _ => by
    simp (disch := decide) [candOp, candGroup4, field_same, field_off, field_low, field_bit, extract_or, mb_same, mb_bit, mb_off, mb11_same, mb11_bit, mb11_off,
    mb19_same, mb19_bit, mb19_off, mb_get, mb11_get, mb19_get, Access.ofBits_bits, BitVec.getLsbD_or, setWidth_setWidth_self, LR.v1, LR.v2, LR.v3, LR.c2, LR.qs,
    LI.v0i, LI.v1, LI.v1i, LI.v2i, LI.c1i, LI.qsi, LM.adr, Head.dq, Head.ds, Src.q, Src.s, Src.lowq]) hw

theorem lds (g : Guard) (d : BitVec 9) (p : Adr) (pad : Bool) (n : BitVec 3) : Statement (.lds g d p pad n) := fun hw _ =>
  decode_lm rfl (fun _ _ _ => by
    simp (disch := decide) [candOp, candGroup4, field_same, field_off, field_low, field_bit, extract_or, mb_same, mb_bit, mb_off, mb11_same, mb11_bit, mb11_off,
    mb19_same, mb19_bit, mb19_off, mb_get, mb11_get, mb19_get, Access.ofBits_bits, BitVec.getLsbD_or, setWidth_setWidth_self, LR.v1, LR.v2, LR.v3, LR.c2, LR.qs,
    LI.v0i, LI.v1, LI.v1i, LI.v2i, LI.c1i, LI.qsi, LM.adr, Head.dq, Head.ds, Src.q, Src.s, Src.lowq]) hw

theorem sts (g : Guard) (p : Adr) (b : Src) (pad : Bool) (n : BitVec 3) : Statement (.sts g p b pad n) := fun hw _ =>
  decode_lm rfl (fun _ _ _ => by
    simp (disch := decide) [candOp, candGroup4, field_same, field_off, field_low, field_bit, extract_or, mb_same, mb_bit, mb_off, mb11_same, mb11_bit, mb11_off,
    mb19_same, mb19_bit, mb19_off, mb_get, mb11_get, mb19_get, Access.ofBits_bits, BitVec.getLsbD_or, setWidth_setWidth_self, LR.v1, LR.v2, LR.v3, LR.c2, LR.qs,
    LI.v0i, LI.v1, LI.v1i, LI.v2i, LI.c1i, LI.qsi, LM.adr, Head.dq, Head.ds, Src.q, Src.s, Src.lowq]) hw

theorem ldfe (g : Guard) (ty : LTy) (d : BitVec 9) (p : Adr) (w1 : Bool) : Statement (.ldfe g ty d p w1) := fun hw _ =>
  decode_lm rfl (fun _ _ _ => by
    simp (disch := decide) [candOp, candGroup4, field_same, field_off, field_low, field_bit, extract_or, mb_same, mb_bit, mb_off, mb11_same, mb11_bit, mb11_off,
    mb19_same, mb19_bit, mb19_off, mb_get, mb11_get, mb19_get, Access.ofBits_bits, BitVec.getLsbD_or, setWidth_setWidth_self, LR.v1, LR.v2, LR.v3, LR.c2, LR.qs,
    LI.v0i, LI.v1, LI.v1i, LI.v2i, LI.c1i, LI.qsi, LM.adr, Head.dq, Head.ds, Src.q, Src.s, Src.lowq]) hw

theorem stfe (g : Guard) (ty : LTy) (p : Adr) (b : Src) (w1 : Bool) : Statement (.stfe g ty p b w1) := fun hw _ =>
  decode_lm rfl (fun _ _ _ => by
    simp (disch := decide) [candOp, candGroup4, field_same, field_off, field_low, field_bit, extract_or, mb_same, mb_bit, mb_off, mb11_same, mb11_bit, mb11_off,
    mb19_same, mb19_bit, mb19_off, mb_get, mb11_get, mb19_get, Access.ofBits_bits, BitVec.getLsbD_or, setWidth_setWidth_self, LR.v1, LR.v2, LR.v3, LR.c2, LR.qs,
    LI.v0i, LI.v1, LI.v1i, LI.v2i, LI.c1i, LI.qsi, LM.adr, Head.dq, Head.ds, Src.q, Src.s, Src.lowq]) hw

theorem pfetch (g : Guard) (p : Adr) (l2 : Bool) : Statement (.pfetch g p l2) := fun hw _ =>
  decode_lm rfl (fun _ _ _ => by
    simp (disch := decide) [candOp, candGroup4, field_same, field_off, field_low, field_bit, extract_or, mb_same, mb_bit, mb_off, mb11_same, mb11_bit, mb11_off,
    mb19_same, mb19_bit, mb19_off, mb_get, mb11_get, mb19_get, Access.ofBits_bits, BitVec.getLsbD_or, setWidth_setWidth_self, LR.v1, LR.v2, LR.v3, LR.c2, LR.qs,
    LI.v0i, LI.v1, LI.v1i, LI.v2i, LI.c1i, LI.qsi, LM.adr, Head.dq, Head.ds, Src.q, Src.s, Src.lowq]) hw

theorem atom (g : Guard) (ty : LTy) (d : BitVec 9) (p : Adr) (b : Src) (op : AtomOp) (pad nr : Bool) (s : Scope) (o : Ord) : Statement (.atom g ty d p b op pad nr s o) := fun hw _ =>
  decode_lm rfl (fun _ _ _ => by
    simp (disch := decide) [candOp, candGroup4, field_same, field_off, field_low, field_bit, extract_or, mb_same, mb_bit, mb_off, mb11_same, mb11_bit, mb11_off,
    mb19_same, mb19_bit, mb19_off, mb_get, mb11_get, mb19_get, Access.ofBits_bits, BitVec.getLsbD_or, setWidth_setWidth_self, LR.v1, LR.v2, LR.v3, LR.c2, LR.qs,
    LI.v0i, LI.v1, LI.v1i, LI.v2i, LI.c1i, LI.qsi, LM.adr, Head.dq, Head.ds, Src.q, Src.s, Src.lowq]) hw

theorem atomc (g : Guard) (ty : LTy) (d : BitVec 9) (a b c : Src) (pad : Bool) (s : Scope) (o : Ord) : Statement (.atomc g ty d a b c pad s o) := fun hw _ =>
  decode_lr rfl (fun _ _ _ => by
    simp (disch := decide) [candOp, candGroup4, field_same, field_off, field_low, field_bit, extract_or, mb_same, mb_bit, mb_off, mb11_same, mb11_bit, mb11_off,
    mb19_same, mb19_bit, mb19_off, mb_get, mb11_get, mb19_get, Access.ofBits_bits, BitVec.getLsbD_or, setWidth_setWidth_self, LR.v1, LR.v2, LR.v3, LR.c2, LR.qs,
    LI.v0i, LI.v1, LI.v1i, LI.v2i, LI.c1i, LI.qsi, LM.adr, Head.dq, Head.ds, Src.q, Src.s, Src.lowq]) hw

theorem waita (g : Guard) (ty : LTy) (p : Adr) (b : Src) (c : Cond) (pad : Bool) (s : Scope) : Statement (.waita g ty p b c pad s) := fun hw _ =>
  decode_lm rfl (fun _ _ _ => by
    simp (disch := decide) [candOp, candGroup4, field_same, field_off, field_low, field_bit, extract_or, mb_same, mb_bit, mb_off, mb11_same, mb11_bit, mb11_off,
    mb19_same, mb19_bit, mb19_off, mb_get, mb11_get, mb19_get, Access.ofBits_bits, BitVec.getLsbD_or, setWidth_setWidth_self, LR.v1, LR.v2, LR.v3, LR.c2, LR.qs,
    LI.v0i, LI.v1, LI.v1i, LI.v2i, LI.c1i, LI.qsi, LM.adr, Head.dq, Head.ds, Src.q, Src.s, Src.lowq]) hw

theorem fence (g : Guard) (s : Scope) : Statement (.fence g s) := fun hw _ =>
  decode_lr rfl (fun _ _ _ => by
    simp (disch := decide) [candOp, candGroup4, field_same, field_off, field_low, field_bit, extract_or, mb_same, mb_bit, mb_off, mb11_same, mb11_bit, mb11_off,
    mb19_same, mb19_bit, mb19_off, mb_get, mb11_get, mb19_get, Access.ofBits_bits, BitVec.getLsbD_or, setWidth_setWidth_self, LR.v1, LR.v2, LR.v3, LR.c2, LR.qs,
    LI.v0i, LI.v1, LI.v1i, LI.v2i, LI.c1i, LI.qsi, LM.adr, Head.dq, Head.ds, Src.q, Src.s, Src.lowq]) hw

theorem tkwait (g : Guard) (d : BitVec 4) (p : Adr) (lv : BitVec 3) : Statement (.tkwait g d p lv) := fun hw _ =>
  decode_lm rfl (fun _ _ _ => by
    simp (disch := decide) [candOp, candGroup4, field_same, field_off, field_low, field_bit, extract_or, mb_same, mb_bit, mb_off, mb11_same, mb11_bit, mb11_off,
    mb19_same, mb19_bit, mb19_off, mb_get, mb11_get, mb19_get, Access.ofBits_bits, BitVec.getLsbD_or, setWidth_setWidth_self, LR.v1, LR.v2, LR.v3, LR.c2, LR.qs,
    LI.v0i, LI.v1, LI.v1i, LI.v2i, LI.c1i, LI.qsi, LM.adr, Head.dq, Head.ds, Src.q, Src.s, Src.lowq]) hw

theorem tkpass (g : Guard) (p : Adr) (lv : BitVec 3) : Statement (.tkpass g p lv) := fun hw _ =>
  decode_lm rfl (fun _ _ _ => by
    simp (disch := decide) [candOp, candGroup4, field_same, field_off, field_low, field_bit, extract_or, mb_same, mb_bit, mb_off, mb11_same, mb11_bit, mb11_off,
    mb19_same, mb19_bit, mb19_off, mb_get, mb11_get, mb19_get, Access.ofBits_bits, BitVec.getLsbD_or, setWidth_setWidth_self, LR.v1, LR.v2, LR.v3, LR.c2, LR.qs,
    LI.v0i, LI.v1, LI.v1i, LI.v2i, LI.c1i, LI.qsi, LM.adr, Head.dq, Head.ds, Src.q, Src.s, Src.lowq]) hw

theorem cpy (o : CpyOps) : Statement (.cpy o) := fun hw _ =>
  decode_lr rfl (fun _ _ _ => by
    simp (disch := decide) [candOp, candGroup5, field_same, field_off, field_low, field_bit, extract_or, mb_same, mb_bit, mb_off, mb11_same, mb11_bit, mb11_off,
    mb19_same, mb19_bit, mb19_off, mb_get, mb11_get, mb19_get, Access.ofBits_bits, BitVec.getLsbD_or, setWidth_setWidth_self, LR.v1, LR.v2, LR.v3, LR.c2, LR.qs,
    LI.v0i, LI.v1, LI.v1i, LI.v2i, LI.c1i, LI.qsi, LM.adr, Head.dq, Head.ds, Src.q, Src.s, Src.lowq]) hw

theorem cpys (g : Guard) (d : BitVec 9) (a : Src) : Statement (.cpys g d a) := fun hw _ =>
  decode_lr rfl (fun _ _ _ => rfl) hw

theorem pbinit (g : Guard) (a b c : Src) : Statement (.pbinit g a b c) := fun hw _ =>
  decode_lr rfl (fun _ _ _ => rfl) hw

theorem pbexp (g : Guard) (a b : Src) : Statement (.pbexp g a b) := fun hw _ =>
  decode_lr rfl (fun _ _ _ => rfl) hw

theorem pbarv (g : Guard) (a b : Src) : Statement (.pbarv g a b) := fun hw _ =>
  decode_lr rfl (fun _ _ _ => rfl) hw

theorem pbwait (g : Guard) (d : BitVec 4) (a : Src) (gen : Bool) (n : BitVec 8) : Statement (.pbwait g d a gen n) := fun hw _ =>
  decode_li rfl (fun _ _ _ => by
    simp (disch := decide) [candOp, candGroup5, field_same, field_off, field_low, field_bit, extract_or, mb_same, mb_bit, mb_off, mb11_same, mb11_bit, mb11_off,
    mb19_same, mb19_bit, mb19_off, mb_get, mb11_get, mb19_get, Access.ofBits_bits, BitVec.getLsbD_or, setWidth_setWidth_self, LR.v1, LR.v2, LR.v3, LR.c2, LR.qs,
    LI.v0i, LI.v1, LI.v1i, LI.v2i, LI.c1i, LI.qsi, LM.adr, Head.dq, Head.ds, Src.q, Src.s, Src.lowq]) hw

theorem bar (g : Guard) (cohort : Bool) : Statement (.bar g cohort) := fun hw _ =>
  decode_lr rfl (fun _ _ _ => by
    simp (disch := decide) [candOp, candGroup5, field_same, field_off, field_low, field_bit, extract_or, mb_same, mb_bit, mb_off, mb11_same, mb11_bit, mb11_off,
    mb19_same, mb19_bit, mb19_off, mb_get, mb11_get, mb19_get, Access.ofBits_bits, BitVec.getLsbD_or, setWidth_setWidth_self, LR.v1, LR.v2, LR.v3, LR.c2, LR.qs,
    LI.v0i, LI.v1, LI.v1i, LI.v2i, LI.c1i, LI.qsi, LM.adr, Head.dq, Head.ds, Src.q, Src.s, Src.lowq]) hw

theorem comb (g : Guard) (d : BitVec 9) (p : Adr) (b : Src) (qs : BitVec 4) (meth : BitVec 8) : Statement (.comb g d p b qs meth) := fun hw _ =>
  decode_lm rfl (fun _ _ _ => by
    simp (disch := decide) [candOp, candGroup5, field_same, field_off, field_low, field_bit, extract_or, mb_same, mb_bit, mb_off, mb11_same, mb11_bit, mb11_off,
    mb19_same, mb19_bit, mb19_off, mb_get, mb11_get, mb19_get, Access.ofBits_bits, BitVec.getLsbD_or, setWidth_setWidth_self, LR.v1, LR.v2, LR.v3, LR.c2, LR.qs,
    LI.v0i, LI.v1, LI.v1i, LI.v2i, LI.c1i, LI.qsi, LM.adr, Head.dq, Head.ds, Src.q, Src.s, Src.lowq]) hw

theorem cret (g : Guard) (a : BitVec 4) : Statement (.cret g a) := fun hw _ =>
  decode_lr rfl (fun _ _ _ => by
    simp (disch := decide) [candOp, candGroup5, field_same, field_off, field_low, field_bit, extract_or, mb_same, mb_bit, mb_off, mb11_same, mb11_bit, mb11_off,
    mb19_same, mb19_bit, mb19_off, mb_get, mb11_get, mb19_get, Access.ofBits_bits, BitVec.getLsbD_or, setWidth_setWidth_self, LR.v1, LR.v2, LR.v3, LR.c2, LR.qs,
    LI.v0i, LI.v1, LI.v1i, LI.v2i, LI.c1i, LI.qsi, LM.adr, Head.dq, Head.ds, Src.q, Src.s, Src.lowq]) hw

theorem objreg (g : Guard) (p : Adr) (b : Src) : Statement (.objreg g p b) := fun hw _ =>
  decode_lm rfl (fun _ _ _ => rfl) hw

theorem objclr (g : Guard) (p : Adr) : Statement (.objclr g p) := fun hw _ =>
  decode_lm rfl (fun _ _ _ => rfl) hw

theorem amsg (g : Guard) (p : Adr) (b : Src) (core : Bool) (h : BitVec 12) (n : BitVec 3) : Statement (.amsg g p b core h n) := fun hw _ =>
  decode_lm rfl (fun _ _ _ => by
    simp (disch := decide) [candOp, candGroup5, field_same, field_off, field_low, field_bit, extract_or, mb_same, mb_bit, mb_off, mb11_same, mb11_bit, mb11_off,
    mb19_same, mb19_bit, mb19_off, mb_get, mb11_get, mb19_get, Access.ofBits_bits, BitVec.getLsbD_or, setWidth_setWidth_self, LR.v1, LR.v2, LR.v3, LR.c2, LR.qs,
    LI.v0i, LI.v1, LI.v1i, LI.v2i, LI.c1i, LI.qsi, LM.adr, Head.dq, Head.ds, Src.q, Src.s, Src.lowq]) hw

theorem coll (o : V2) (op : RedOp) : Statement (.coll o op) := fun hw _ =>
  decode_lr rfl (fun _ _ _ => by
    simp (disch := decide) [candOp, candGroup5, field_same, field_off, field_low, field_bit, extract_or, mb_same, mb_bit, mb_off, mb11_same, mb11_bit, mb11_off,
    mb19_same, mb19_bit, mb19_off, mb_get, mb11_get, mb19_get, Access.ofBits_bits, BitVec.getLsbD_or, setWidth_setWidth_self, LR.v1, LR.v2, LR.v3, LR.c2, LR.qs,
    LI.v0i, LI.v1, LI.v1i, LI.v2i, LI.c1i, LI.qsi, LM.adr, Head.dq, Head.ds, Src.q, Src.s, Src.lowq]) hw

theorem flush (g : Guard) : Statement (.flush g) := fun hw _ =>
  decode_lr rfl (fun _ _ _ => rfl) hw

theorem mfmt (g : Guard) (a : BitVec 7) (imm : Half) : Statement (.mfmt g a imm) := fun hw _ =>
  decode_li rfl (fun _ _ _ => by
    simp (disch := decide) [candOp, candGroup6, field_same, field_off, field_low, field_bit, extract_or, mb_same, mb_bit, mb_off, mb11_same, mb11_bit, mb11_off,
    mb19_same, mb19_bit, mb19_off, mb_get, mb11_get, mb19_get, Access.ofBits_bits, BitVec.getLsbD_or, setWidth_setWidth_self, LR.v1, LR.v2, LR.v3, LR.c2, LR.qs,
    LI.v0i, LI.v1, LI.v1i, LI.v2i, LI.c1i, LI.qsi, LM.adr, Head.dq, Head.ds, Src.q, Src.s, Src.lowq]) hw

theorem mma (g : Guard) (d : BitVec 9) (a b : Src) (ns : BitVec 2) (z : Bool) (ks : BitVec 12) : Statement (.mma g d a b ns z ks) := fun hw _ =>
  decode_lr rfl (fun _ _ _ => by
    simp (disch := decide) [candOp, candGroup6, field_same, field_off, field_low, field_bit, extract_or, mb_same, mb_bit, mb_off, mb11_same, mb11_bit, mb11_off,
    mb19_same, mb19_bit, mb19_off, mb_get, mb11_get, mb19_get, Access.ofBits_bits, BitVec.getLsbD_or, setWidth_setWidth_self, LR.v1, LR.v2, LR.v3, LR.c2, LR.qs,
    LI.v0i, LI.v1, LI.v1i, LI.v2i, LI.c1i, LI.qsi, LM.adr, Head.dq, Head.ds, Src.q, Src.s, Src.lowq]) hw

theorem mmaq (g : Guard) (d : BitVec 9) (a b c : Src) (ns : BitVec 2) (z : Bool) (ks : BitVec 12) : Statement (.mmaq g d a b c ns z ks) := fun hw _ =>
  decode_lr rfl (fun _ _ _ => by
    simp (disch := decide) [candOp, candGroup6, field_same, field_off, field_low, field_bit, extract_or, mb_same, mb_bit, mb_off, mb11_same, mb11_bit, mb11_off,
    mb19_same, mb19_bit, mb19_off, mb_get, mb11_get, mb19_get, Access.ofBits_bits, BitVec.getLsbD_or, setWidth_setWidth_self, LR.v1, LR.v2, LR.v3, LR.c2, LR.qs,
    LI.v0i, LI.v1, LI.v1i, LI.v2i, LI.c1i, LI.qsi, LM.adr, Head.dq, Head.ds, Src.q, Src.s, Src.lowq]) hw

theorem plane (g : Guard) (d : BitVec 9) (a : Src) (nib : Bool) : Statement (.plane g d a nib) := fun hw _ =>
  decode_lr rfl (fun _ _ _ => by
    simp (disch := decide) [candOp, candGroup6, field_same, field_off, field_low, field_bit, extract_or, mb_same, mb_bit, mb_off, mb11_same, mb11_bit, mb11_off,
    mb19_same, mb19_bit, mb19_off, mb_get, mb11_get, mb19_get, Access.ofBits_bits, BitVec.getLsbD_or, setWidth_setWidth_self, LR.v1, LR.v2, LR.v3, LR.c2, LR.qs,
    LI.v0i, LI.v1, LI.v1i, LI.v2i, LI.c1i, LI.qsi, LM.adr, Head.dq, Head.ds, Src.q, Src.s, Src.lowq]) hw

theorem mstat (g : Guard) (d : BitVec 9) (sel : BitVec 3) : Statement (.mstat g d sel) := fun hw _ =>
  decode_lr rfl (fun _ _ _ => by
    simp (disch := decide) [candOp, candGroup6, field_same, field_off, field_low, field_bit, extract_or, mb_same, mb_bit, mb_off, mb11_same, mb11_bit, mb11_off,
    mb19_same, mb19_bit, mb19_off, mb_get, mb11_get, mb19_get, Access.ofBits_bits, BitVec.getLsbD_or, setWidth_setWidth_self, LR.v1, LR.v2, LR.v3, LR.c2, LR.qs,
    LI.v0i, LI.v1, LI.v1i, LI.v2i, LI.c1i, LI.qsi, LM.adr, Head.dq, Head.ds, Src.q, Src.s, Src.lowq]) hw

theorem split (g : Guard) (ty : LTy) (a b c : Src) (axis : BitVec 4) (nw : BitVec 2) : Statement (.split g ty a b c axis nw) := fun hw _ =>
  decode_lr rfl (fun _ _ _ => by
    simp (disch := decide) [candOp, candGroup6, field_same, field_off, field_low, field_bit, extract_or, mb_same, mb_bit, mb_off, mb11_same, mb11_bit, mb11_off,
    mb19_same, mb19_bit, mb19_off, mb_get, mb11_get, mb19_get, Access.ofBits_bits, BitVec.getLsbD_or, setWidth_setWidth_self, LR.v1, LR.v2, LR.v3, LR.c2, LR.qs,
    LI.v0i, LI.v1, LI.v1i, LI.v2i, LI.c1i, LI.qsi, LM.adr, Head.dq, Head.ds, Src.q, Src.s, Src.lowq]) hw

theorem fork (g : Guard) (a b c : Src) (kind : BitVec 4) (nw : BitVec 2) (hdr : Bool) : Statement (.fork g a b c kind nw hdr) := fun hw _ =>
  decode_lr rfl (fun _ _ _ => by
    simp (disch := decide) [candOp, candGroup6, field_same, field_off, field_low, field_bit, extract_or, mb_same, mb_bit, mb_off, mb11_same, mb11_bit, mb11_off,
    mb19_same, mb19_bit, mb19_off, mb_get, mb11_get, mb19_get, Access.ofBits_bits, BitVec.getLsbD_or, setWidth_setWidth_self, LR.v1, LR.v2, LR.v3, LR.c2, LR.qs,
    LI.v0i, LI.v1, LI.v1i, LI.v2i, LI.c1i, LI.qsi, LM.adr, Head.dq, Head.ds, Src.q, Src.s, Src.lowq]) hw

theorem draw (q : BitVec 4) (d : BitVec 9) (steal : Bool) (nw : BitVec 2) (hdr : Bool) : Statement (.draw q d steal nw hdr) := fun hw _ =>
  decode_lr rfl (fun _ _ _ => by
    simp (disch := decide) [candOp, candGroup6, field_same, field_off, field_low, field_bit, extract_or, mb_same, mb_bit, mb_off, mb11_same, mb11_bit, mb11_off,
    mb19_same, mb19_bit, mb19_off, mb_get, mb11_get, mb19_get, Access.ofBits_bits, BitVec.getLsbD_or, setWidth_setWidth_self, LR.v1, LR.v2, LR.v3, LR.c2, LR.qs,
    LI.v0i, LI.v1, LI.v1i, LI.v2i, LI.c1i, LI.qsi, LM.adr, Head.dq, Head.ds, Src.q, Src.s, Src.lowq]) hw

theorem drop (g : Guard) : Statement (.drop g) := fun hw _ =>
  decode_lr rfl (fun _ _ _ => rfl) hw

theorem ldh (g : Guard) (ty : LTy) (d : BitVec 9) (p : Adr) (b : Src) : Statement (.ldh g ty d p b) := fun hw _ =>
  decode_lm rfl (fun _ _ _ => rfl) hw

theorem stb (g : Guard) (ty : LTy) (p : Adr) (b : Src) : Statement (.stb g ty p b) := fun hw _ =>
  decode_lm rfl (fun _ _ _ => rfl) hw

theorem quart (g : Guard) : Statement (.quart g) := fun hw _ =>
  decode_lr rfl (fun _ _ _ => rfl) hw

theorem elem (tt : BitVec 20) : Statement (.elem tt) := fun hw _ =>
  decode_lc rfl (fun _ _ _ => rfl) hw

theorem shfl (o : V2) (md : ShMode) (all : Bool) : Statement (.shfl o md all) := fun hw _ =>
  decode_lr rfl (fun _ _ _ => by
    simp (disch := decide) [candOp, candGroup7, field_same, field_off, field_low, field_bit, extract_or, mb_same, mb_bit, mb_off, mb11_same, mb11_bit, mb11_off,
    mb19_same, mb19_bit, mb19_off, mb_get, mb11_get, mb19_get, Access.ofBits_bits, BitVec.getLsbD_or, setWidth_setWidth_self, LR.v1, LR.v2, LR.v3, LR.c2, LR.qs,
    LI.v0i, LI.v1, LI.v1i, LI.v2i, LI.c1i, LI.qsi, LM.adr, Head.dq, Head.ds, Src.q, Src.s, Src.lowq]) hw

theorem shflImm (o : V1) (n : BitVec 10) (md : ShMode) (all : Bool) : Statement (.shflImm o n md all) := fun hw _ =>
  decode_li rfl (fun _ _ _ => by
    simp (disch := decide) [candOp, candGroup7, field_same, field_off, field_low, field_bit, extract_or, mb_same, mb_bit, mb_off, mb11_same, mb11_bit, mb11_off,
    mb19_same, mb19_bit, mb19_off, mb_get, mb11_get, mb19_get, Access.ofBits_bits, BitVec.getLsbD_or, setWidth_setWidth_self, LR.v1, LR.v2, LR.v3, LR.c2, LR.qs,
    LI.v0i, LI.v1, LI.v1i, LI.v2i, LI.c1i, LI.qsi, LM.adr, Head.dq, Head.ds, Src.q, Src.s, Src.lowq]) hw

theorem scan (o : V1) (op : RedOp) (excl all : Bool) : Statement (.scan o op excl all) := fun hw _ =>
  decode_lr rfl (fun _ _ _ => by
    simp (disch := decide) [candOp, candGroup7, field_same, field_off, field_low, field_bit, extract_or, mb_same, mb_bit, mb_off, mb11_same, mb11_bit, mb11_off,
    mb19_same, mb19_bit, mb19_off, mb_get, mb11_get, mb19_get, Access.ofBits_bits, BitVec.getLsbD_or, setWidth_setWidth_self, LR.v1, LR.v2, LR.v3, LR.c2, LR.qs,
    LI.v0i, LI.v1, LI.v1i, LI.v2i, LI.c1i, LI.qsi, LM.adr, Head.dq, Head.ds, Src.q, Src.s, Src.lowq]) hw

theorem red (o : V1) (op : RedOp) (all : Bool) : Statement (.red o op all) := fun hw _ =>
  decode_lr rfl (fun _ _ _ => by
    simp (disch := decide) [candOp, candGroup7, field_same, field_off, field_low, field_bit, extract_or, mb_same, mb_bit, mb_off, mb11_same, mb11_bit, mb11_off,
    mb19_same, mb19_bit, mb19_off, mb_get, mb11_get, mb19_get, Access.ofBits_bits, BitVec.getLsbD_or, setWidth_setWidth_self, LR.v1, LR.v2, LR.v3, LR.c2, LR.qs,
    LI.v0i, LI.v1, LI.v1i, LI.v2i, LI.c1i, LI.qsi, LM.adr, Head.dq, Head.ds, Src.q, Src.s, Src.lowq]) hw

theorem redScalar (g : Guard) (ty : LTy) (d : BitVec 7) (a : Src) (op : RedOp) (all : Bool) : Statement (.redScalar g ty d a op all) := fun hw _ =>
  decode_lr rfl (fun _ _ _ => by
    simp (disch := decide) [candOp, candGroup7, field_same, field_off, field_low, field_bit, extract_or, mb_same, mb_bit, mb_off, mb11_same, mb11_bit, mb11_off,
    mb19_same, mb19_bit, mb19_off, mb_get, mb11_get, mb19_get, Access.ofBits_bits, BitVec.getLsbD_or, setWidth_setWidth_self, LR.v1, LR.v2, LR.v3, LR.c2, LR.qs,
    LI.v0i, LI.v1, LI.v1i, LI.v2i, LI.c1i, LI.qsi, LM.adr, Head.dq, Head.ds, Src.q, Src.s, Src.lowq]) hw

theorem ballot (g : Guard) (d : BitVec 9) (a : BitVec 4) (sel : Tri) (all : Bool) : Statement (.ballot g d a sel all) := fun hw _ =>
  decode_lr rfl (fun _ _ _ => by
    simp (disch := decide) [candOp, candGroup7, field_same, field_off, field_low, field_bit, extract_or, mb_same, mb_bit, mb_off, mb11_same, mb11_bit, mb11_off,
    mb19_same, mb19_bit, mb19_off, mb_get, mb11_get, mb19_get, Access.ofBits_bits, BitVec.getLsbD_or, setWidth_setWidth_self, LR.v1, LR.v2, LR.v3, LR.c2, LR.qs,
    LI.v0i, LI.v1, LI.v1i, LI.v2i, LI.c1i, LI.qsi, LM.adr, Head.dq, Head.ds, Src.q, Src.s, Src.lowq]) hw

theorem xbld (g : Guard) (a b : Src) : Statement (.xbld g a b) := fun hw _ =>
  decode_lr rfl (fun _ _ _ => rfl) hw

theorem xbar (g : Guard) (d : BitVec 9) (a b : Src) : Statement (.xbar g d a b) := fun hw _ =>
  decode_lr rfl (fun _ _ _ => rfl) hw

theorem mfxLane (g : Guard) (d : BitVec 9) (x : BitVec 12) : Statement (.mfxLane g d x) := fun hw _ =>
  decode_li rfl (fun _ _ _ => by
    simp (disch := decide) [candOp, candGroup7, field_same, field_off, field_low, field_bit, extract_or, mb_same, mb_bit, mb_off, mb11_same, mb11_bit, mb11_off,
    mb19_same, mb19_bit, mb19_off, mb_get, mb11_get, mb19_get, Access.ofBits_bits, BitVec.getLsbD_or, setWidth_setWidth_self, LR.v1, LR.v2, LR.v3, LR.c2, LR.qs,
    LI.v0i, LI.v1, LI.v1i, LI.v2i, LI.c1i, LI.qsi, LM.adr, Head.dq, Head.ds, Src.q, Src.s, Src.lowq]) hw

theorem mtxLane (g : Guard) (a : Src) (x : BitVec 12) : Statement (.mtxLane g a x) := fun hw _ =>
  decode_li rfl (fun _ _ _ => by
    simp (disch := decide) [candOp, candGroup7, field_same, field_off, field_low, field_bit, extract_or, mb_same, mb_bit, mb_off, mb11_same, mb11_bit, mb11_off,
    mb19_same, mb19_bit, mb19_off, mb_get, mb11_get, mb19_get, Access.ofBits_bits, BitVec.getLsbD_or, setWidth_setWidth_self, LR.v1, LR.v2, LR.v3, LR.c2, LR.qs,
    LI.v0i, LI.v1, LI.v1i, LI.v2i, LI.c1i, LI.qsi, LM.adr, Head.dq, Head.ds, Src.q, Src.s, Src.lowq]) hw

theorem trapLane (g : Guard) (code : BitVec 18) : Statement (.trapLane g code) := fun hw _ =>
  decode_li rfl (fun _ _ _ => by
    simp (disch := decide) [candOp, candGroup7, field_same, field_off, field_low, field_bit, extract_or, mb_same, mb_bit, mb_off, mb11_same, mb11_bit, mb11_off,
    mb19_same, mb19_bit, mb19_off, mb_get, mb11_get, mb19_get, Access.ofBits_bits, BitVec.getLsbD_or, setWidth_setWidth_self, LR.v1, LR.v2, LR.v3, LR.c2, LR.qs,
    LI.v0i, LI.v1, LI.v1i, LI.v2i, LI.c1i, LI.qsi, LM.adr, Head.dq, Head.ds, Src.q, Src.s, Src.lowq]) hw

theorem bkptLane (g : Guard) : Statement (.bkptLane g) := fun hw _ =>
  decode_lr rfl (fun _ _ _ => rfl) hw

theorem headerCheck (die : Nat) : Statement (.headerCheck die) := fun _ h => absurd rfl h

theorem cohortPlacement (launch cohort : Nat) : Statement (.cohortPlacement launch cohort) := fun _ h => absurd rfl h

theorem preloadLand (launch core : Nat) : Statement (.preloadLand launch core) := fun _ h => absurd rfl h

theorem laneBlockStart (team : Nat) : Statement (.laneBlockStart team) := fun _ h => absurd rfl h

theorem scalarRegisterFill (fill : Nat) : Statement (.scalarRegisterFill fill) := fun _ h => absurd rfl h

theorem trapEntry (team : Nat) : Statement (.trapEntry team) := fun _ h => absurd rfl h

theorem waveHalt (team : Nat) : Statement (.waveHalt team) := fun _ h => absurd rfl h

theorem preemption (team : Nat) : Statement (.preemption team) := fun _ h => absurd rfl h

theorem dispatcherPreempt (launch cohort : Nat) : Statement (.dispatcherPreempt launch cohort) := fun _ h => absurd rfl h

theorem priorityAging (team : Nat) : Statement (.priorityAging team) := fun _ h => absurd rfl h

theorem tileStart (cluster : Nat) : Statement (.tileStart cluster) := fun _ h => absurd rfl h

theorem tileWriteback (cluster : Nat) : Statement (.tileWriteback cluster) := fun _ h => absurd rfl h

theorem copySector (copy : Nat) : Statement (.copySector copy) := fun _ h => absurd rfl h

theorem taskIssue (die task : Nat) : Statement (.taskIssue die task) := fun _ h => absurd rfl h

theorem refillLand (launch cohort : Nat) : Statement (.refillLand launch cohort) := fun _ h => absurd rfl h

theorem stealRequest (team : Nat) : Statement (.stealRequest team) := fun _ h => absurd rfl h

theorem elementTeamStart (team lane : Nat) : Statement (.elementTeamStart team lane) := fun _ h => absurd rfl h

theorem requestArrival (req : Nat) : Statement (.requestArrival req) := fun _ h => absurd rfl h

theorem registrationArrival (req : Nat) : Statement (.registrationArrival req) := fun _ h => absurd rfl h

theorem objclrArrival (req : Nat) : Statement (.objclrArrival req) := fun _ h => absurd rfl h

theorem windowClose (obj : Nat) : Statement (.windowClose obj) := fun _ h => absurd rfl h

theorem windowCloseDet (obj : Nat) : Statement (.windowCloseDet obj) := fun _ h => absurd rfl h

theorem waveStart (obj : Nat) : Statement (.waveStart obj) := fun _ h => absurd rfl h

theorem replyArrival (reply : Nat) : Statement (.replyArrival reply) := fun _ h => absurd rfl h

theorem handlerStart (core : Nat) : Statement (.handlerStart core) := fun _ h => absurd rfl h

theorem ticketAutoPass (ticket : Nat) : Statement (.ticketAutoPass ticket) := fun _ h => absurd rfl h

theorem nodeCombine (inst node : Nat) : Statement (.nodeCombine inst node) := fun _ h => absurd rfl h

theorem collTimeout (inst : Nat) : Statement (.collTimeout inst) := fun _ h => absurd rfl h

theorem turnRetry (team : Nat) : Statement (.turnRetry team) := fun _ h => absurd rfl h

theorem pendingEventAct (ev : Nat) : Statement (.pendingEventAct ev) := fun _ h => absurd rfl h

theorem segmentLand (core slot : Nat) : Statement (.segmentLand core slot) := fun _ h => absurd rfl h

theorem cinvEffect (cinv : Nat) : Statement (.cinvEffect cinv) := fun _ h => absurd rfl h

theorem waitReread (ev : Nat) : Statement (.waitReread ev) := fun _ h => absurd rfl h

theorem waitLimitExpiry (team : Nat) (of : WaitOf) : Statement (.waitLimitExpiry team of) := fun _ h => absurd rfl h

theorem fill (core line : Nat) (tag : Scope) : Statement (.fill core line tag) := fun _ h => absurd rfl h

theorem dropLine (core line : Nat) : Statement (.dropLine core line) := fun _ h => absurd rfl h

theorem writeBack (core line : Nat) : Statement (.writeBack core line) := fun _ h => absurd rfl h

theorem leave (ev : Nat) : Statement (.leave ev) := fun _ h => absurd rfl h

theorem performLoad (ev : Nat) : Statement (.performLoad ev) := fun _ h => absurd rfl h

theorem apply (msg : Nat) : Statement (.apply msg) := fun _ h => absurd rfl h

theorem ringMove (die : Nat) (asc : Bool) : Statement (.ringMove die asc) := fun _ h => absurd rfl h

theorem acknowledge (ack : Nat) : Statement (.acknowledge ack) := fun _ h => absurd rfl h

theorem pageWalk (walk : Nat) : Statement (.pageWalk walk) := fun _ h => absurd rfl h

theorem resolveResolved (die seq : Nat) : Statement (.resolveResolved die seq) := fun _ h => absurd rfl h

theorem resolveRefused (die seq : Nat) : Statement (.resolveRefused die seq) := fun _ h => absurd rfl h

theorem invalPage (die ctx vpage : Nat) : Statement (.invalPage die ctx vpage) := fun _ h => absurd rfl h

theorem invalContext (die ctx : Nat) : Statement (.invalContext die ctx) := fun _ h => absurd rfl h

theorem invalAll (die : Nat) : Statement (.invalAll die) := fun _ h => absurd rfl h

theorem invalComplete (die : Nat) : Statement (.invalComplete die) := fun _ h => absurd rfl h

theorem preemptRequest (die ctx : Nat) : Statement (.preemptRequest die ctx) := fun _ h => absurd rfl h

theorem preemptRemove (die ctx : Nat) : Statement (.preemptRemove die ctx) := fun _ h => absurd rfl h

theorem hlaunch (die : Nat) (value : Word) : Statement (.hlaunch die value) := fun _ h => absurd rfl h

theorem rtgen (die : Nat) (value : Word) : Statement (.rtgen die value) := fun _ h => absurd rfl h

theorem routeSwitch (die : Nat) : Statement (.routeSwitch die) := fun _ h => absurd rfl h

theorem pinwin (core : Nat) (value : Word) : Statement (.pinwin core value) := fun _ h => absurd rfl h

theorem pinwinApply (core : Nat) : Statement (.pinwinApply core) := fun _ h => absurd rfl h

theorem controlRegisterWrite (die off : Nat) (value : Word) : Statement (.controlRegisterWrite die off value) := fun _ h => absurd rfl h

theorem hostMemoryAccess (addr : Nat) (acc : ExtAccess) : Statement (.hostMemoryAccess addr acc) := fun _ h => absurd rfl h

theorem peerAccess (addr : Nat) (acc : ExtAccess) : Statement (.peerAccess addr acc) := fun _ h => absurd rfl h

theorem reset (die : Nat) (romOk dramOk linkOk : Bool) : Statement (.reset die romOk dramOk linkOk) := fun _ h => absurd rfl h

theorem linkFailure (die : Nat) (link : Link) : Statement (.linkFailure die link) := fun _ h => absurd rfl h

theorem thermalTrip (die : Nat) : Statement (.thermalTrip die) := fun _ h => absurd rfl h

theorem eccCorrected (die : Nat) : Statement (.eccCorrected die) := fun _ h => absurd rfl h

theorem eccUncorrectable (die : Nat) (hit : EccTarget) : Statement (.eccUncorrectable die hit) := fun _ h => absurd rfl h

theorem contributionArrival (contrib : Nat) : Statement (.contributionArrival contrib) := fun _ h => absurd rfl h

theorem contributionLeavesCore (contrib : Nat) : Statement (.contributionLeavesCore contrib) := fun _ h => absurd rfl h

theorem registrationAnswer (req : Nat) : Statement (.registrationAnswer req) := fun _ h => absurd rfl h

theorem spdmMeasurementRequest (die : Nat) (nonce : Word) : Statement (.spdmMeasurementRequest die nonce) := fun _ h => absurd rfl h

theorem powerLimitCrossing (skip : Bool) : Statement (.powerLimitCrossing skip) := fun _ h => absurd rfl h

end Sys2Proof.Laws.RoundTrip
end

