-- ==== Sys2Proof/Safety.lean ====
section
/-!
DEFINITION. What counts as a safe run, the invariant that every step keeps, and the conditions under which a stream
executes the instruction at its word.
-/
namespace Sys2Proof

/-- No run of up to k steps from a state stops. -/
def Safe (s : Machine.State) (k : Nat) : Prop := ∃ s', core.run k s = .next s'

/-- Between steps memory is in canonical form, no stored byte waits to be committed, and no stream is current. -/
structure Inv (s : Machine.State) : Prop where
  mem : Machine.Memory.wf s.mem = true
  staged : s.staged = []
  cur : s.cur = none

/-- What the operand forms name (R43 to R46, R103). -/
def V1.names (o : V1) : Machine.Names := { srcs := Machine.srcsOf o.ty [o.a], dst := Machine.dstOf o.ty o.d }
def V2.names (o : V2) : Machine.Names := { srcs := Machine.srcsOf o.ty [o.a, o.b], dst := Machine.dstOf o.ty o.d }
def V3.names (o : V3) : Machine.Names := { srcs := Machine.srcsOf o.ty [o.a, o.b, o.c], dst := Machine.dstOf o.ty o.d }
def V0i.names (o : V0i) : Machine.Names := { dst := Machine.dstOf o.ty o.d }
def V1i.names (o : V1i) : Machine.Names := { srcs := Machine.srcsOf o.ty [o.a], dst := Machine.dstOf o.ty o.d }
def V2i.names (o : V2i) : Machine.Names := { srcs := Machine.srcsOf o.ty [o.a, o.b], dst := Machine.dstOf o.ty o.d }
def C2.names (o : C2) : Machine.Names := { srcs := Machine.srcsOf o.ty [o.a, o.b] }
def C1i.names (o : C1i) : Machine.Names := { srcs := Machine.srcsOf o.ty [o.a] }
def QS.names (o : QS) : Machine.Names := { srcs := Machine.srcsOf o.ty [o.b, o.c], dst := Machine.dstOf o.ty o.d }
def QSi.names (o : QSi) : Machine.Names := { srcs := Machine.srcsOf o.ty [o.b], dst := Machine.dstOf o.ty o.d }

/-- The registers that a scalar word names, and those among them that it reads, for the words that have register operands (R52 to R75). -/
def Instr.scalarRegs : Instr → Option (List Nat × List Nat)
  | .sadd d a b | .ssub d a b | .smul d a b | .smulh d a b | .sdiv d a b | .srem d a b | .sand d a b | .sor d a b | .sxor d a b
    | .sandn d a b | .sshl d a b | .sshr d a b | .ssar d a b | .smin d a b | .smax d a b | .ssel d a b _ =>
    some ([d.toNat, a.toNat, b.toNat], [a.toNat, b.toNat])
  | .smov d a | .sclz d a | .spop d a | .saddImm d a _ | .smulImm d a _ | .sandImm d a _ | .sorImm d a _ | .sxorImm d a _
    | .sshlImm d a _ | .sshrImm d a _ | .ssarImm d a _ | .sminImm d a _ | .smaxImm d a _ | .sld d a _ =>
    some ([d.toNat, a.toNat], [a.toNat])
  | .scmp _ a b _ | .cfetch a b | .cinv a b => some ([a.toNat, b.toNat], [a.toNat, b.toNat])
  | .sst d a _ | .swaita d a _ => some ([d.toNat, a.toNat], [d.toNat, a.toNat])
  | .launch a | .task a | .signal a | .sret a | .sjf a => some ([a.toNat], [a.toNat])
  | .sli d _ | .scall d _ | .mfxScalar d _ => some ([d.toNat], [])
  | .slih d _ | .mtxScalar d _ => some ([d.toNat], [d.toNat])
  | .sempty d n => some ((List.range (n.toNat + 1)).map (d.toNat + ·), [])
  | .lq a n _ => some ((List.range n.toNat).map (a.toNat + ·), (List.range n.toNat).map (a.toNat + ·))
  | _ => none

/-- The guard and the registers of a lane word, for the words that run as soon as these are ready; and whether a check of a source's
value stands between (R41 to R45, R51, R103). -/
def Instr.laneRegs : Instr → Option (Guard × Machine.Names × Bool)
  | .iadd o _ | .isub o _ | .imul o _ | .imulh o | .idiv o | .irem o | .imin o | .imax o | .land o | .lor o | .lxor o |
    .andn o | .shl o | .shr o | .sar o | .rot o | .bfx o | .fadd o _ | .fsub o _ | .fmul o _ | .fdiv o _ | .fmin o |
    .fmax o | .fhull o | .fcap o | .fmk o | .pack o _ | .qntScale o | .dqn o _ _ _ => some (o.g, o.names, false)
  | .imad o | .bfi o | .ffma o _ => some (o.g, o.names, false)
  | .iabs o _ | .popc o | .clz o | .mov o | .fsqrt o _ | .frcp o _ | .frsq o _ | .fexp2 o _ | .flog2 o _ | .fabs o |
    .fneg o | .fmid o | .frad o | .fwid o | .flo o | .fhi o | .fclass o | .unpk o _ => some (o.g, o.names, false)
  | .icmp o _ _ | .fcmp o _ _ => some (o.g, o.names, false)
  | .isel o | .fsel o => some (o.g, o.names, false)
  | .iaddImm o _ | .isubImm o _ | .imulImm o _ | .imulhImm o | .idivImm o | .iremImm o | .iminImm o | .imaxImm o |
    .landImm o | .lorImm o | .lxorImm o | .andnImm o | .shlImm o | .shrImm o | .sarImm o | .rotImm o | .bfxImm o |
    .faddImm o _ | .fsubImm o _ | .fmulImm o _ | .fdivImm o _ | .fminImm o | .fmaxImm o | .fhullImm o | .fcapImm o => some
    (o.g, o.names, false)
  | .imadImm o | .bfiImm o | .ffmaImm o _ => some (o.g, o.names, false)
  | .icmpImm o _ _ | .fcmpImm o _ _ => some (o.g, o.names, false)
  | .iselImm o | .fselImm o => some (o.g, o.names, false)
  | .movi o => some (o.g, o.names, false)
  | .cvt o sty _ _ => some (o.g, { srcs := Machine.srcsOf sty [o.a], dst := Machine.dstOf o.ty o.d }, false)
  | .qnt o _ _ _ => some (o.g, { srcs := Machine.srcsOf .b64 [o.a, o.b], dst := Machine.dstOf .b64 o.d }, false)
  | .plane g d a _ => some (g, { srcs := Machine.srcsOf .b64 [a], dst := Machine.dstOf .b64 d }, false)
  | .qand g _ _ _ | .qor g _ _ _ | .qnot g _ _ | .qforce g _ _ _ | .qset g _ _ | .lead g _ | .vote g _ _ _ false =>
    some (g, {}, false)
  | .voteScalar g d _ _ false => some (g, { scalar := [d.toNat] }, false)
  | .sput g d a => some (g, { srcs := [(a, 1)], scalar := [d.toNat] }, false)
  | .shfl o _ false => some (o.g, { srcs := Machine.srcsOf o.ty [o.a] ++ [(o.b, 1)], dst := Machine.dstOf o.ty o.d }, false)
  | .shflImm o _ _ false | .scan o _ _ false | .red o _ false => some (o.g, o.names, false)
  | .redScalar g ty d a _ false => some (g, { srcs := Machine.srcsOf ty [a], scalar := Machine.scalarRun ty d }, false)
  | .ballot g d _ _ false | .mfxLane g d _ => some (g, { dst := [d.toNat] }, false)
  | .xbar g d a b => some (g, { srcs := [(a, 1), (b, 1)], dst := [d.toNat] }, false)
  | .ld g ty d p _ => some (g, { srcs := [(p.a, 1)], dst := Machine.dstOf ty d }, true)
  | .lds g d p _ n => some (g, { srcs := [(p.a, 1)], dst := (List.range (n.toNat + 1)).map (d.toNat + ·) }, true)
  | .st g ty p b _ => some (g, { srcs := [(p.a, 1), (b, Machine.pairLen (isPair ty))] }, true)
  | .sts g p b _ n => some (g, { srcs := [(p.a, 1), (b, n.toNat + 1)] }, true)
  | .ldfe g _ d p _ => some (g, { srcs := [(p.a, 1)], dst := [d.toNat] }, true)
  | .stfe g _ p b _ | .waita g _ p b _ _ _ => some (g, { srcs := [(p.a, 1), (b, 1)] }, true)
  | .pfetch g p _ => some (g, { srcs := [(p.a, 1)] }, false)
  | .atom g _ d p b _ _ nr _ _ => some (g, { srcs := [(p.a, 1), (b, 1)], dst := if nr then [] else [d.toNat] }, true)
  | .atomc g _ d a b c _ _ _ => some (g, { srcs := [(a, 1), (b, 1), (c, 1)], dst := [d.toNat] }, true)
  | .xbld g a b => some (g, { srcs := [(a, 1), (b, 1)] }, true)
  | _ => none

namespace Machine

/-- The scalar stream of a team executes an instruction: it is the current stream, every scalar register that the
instruction names is below the budget, and every one it reads is full (R27, R31, R52). -/
structure ScalarReady (s : State) (T : Team) (named reads : List Nat) : Prop where
  cur : s.cur = some ⟨T.id, none⟩
  team : s.team? T.id = some T
  budget : ∀ r ∈ named, r < T.sbud
  full : ∀ r ∈ reads, T.sIsEmpty r = false

/-- A fragment is the current stream. -/
structure LaneCurrent (s : State) (T : Team) (slot : Nat) : Prop where
  cur : s.cur = some ⟨T.id, some slot⟩
  team : s.team? T.id = some T

/-- A fragment executes an instruction: it is the current stream, every register that the instruction names is below its
budget, and every vector register that it names is full in the executing lanes (R27, R41, R103). -/
structure LaneReady (s : State) (T : Team) (slot : Nat) (g : Guard) (n : Names) : Prop extends LaneCurrent s T slot where
  budget : T.overBudget n = false
  full : T.anyEmpty n.regs (T.execMask (T.frag slot) g) = false

/-- A lane of the team executes a guarded instruction of the fragment (R41). -/
def Team.executes (T : Team) (slot : Nat) (g : Guard) (l : Nat) : Bool :=
  decide (l < T.lanes) && (T.execMask (T.frag slot) g).getLsbD l

/-! ### What an instruction leaves -/

/-- A scalar instruction answers the next state: its register d holds v and is full, every other scalar register keeps its
value and its state, the counter stands at pc, and nothing else of the state has changed but what issue counts (s0 discards
the write, R52). -/
def ScalarWritesTo (s : State) (T : Team) (i : Instr) (d : Nat) (v : Word) (pc : Int) : Prop :=
  ∃ T', exec i s = .next (s.setTeam T') ∧
    (∀ r, T'.sreg r = if r = d ∧ r ≠ 0 then v else T.sreg r) ∧
    (∀ r, T'.sIsEmpty r = (T.sIsEmpty r && r != d)) ∧
    T' = { T with
      sregs := T'.sregs, sempty := T'.sempty, spc := pc, clock := T.clock + 1, shist := T.linkFills.shist
      swaited := [], swait := none, sfailed := 0 }

/-- The same, going on to the next word. -/
def ScalarWrites (s : State) (T : Team) (i : Instr) (d : Nat) (v : Word) : Prop := ScalarWritesTo s T i d v (T.spc + 4)

/-- A scalar instruction answers the next state in which one flag holds v and nothing else has changed but what issue
counts. -/
def ScalarSetsFlag (s : State) (T : Team) (i : Instr) (k : BitVec 3) (v : Tri) : Prop :=
  ∃ T', exec i s = .next (s.setTeam T') ∧
    (∀ j : BitVec 3, T'.kf j.toNat = if j = k then v else T.kf j.toNat) ∧
    T' = { T with
      kflags := T'.kflags, spc := T.spc + 4, clock := T.clock + 1, shist := T.linkFills.shist
      swaited := [], swait := none, sfailed := 0 }

/-- A scalar instruction answers the next state in which only the counter and what issue counts have changed. -/
def ScalarGoesTo (s : State) (T : Team) (i : Instr) (pc : Int) : Prop :=
  exec i s = .next (s.setTeam { T with
    spc := pc, clock := T.clock + 1, shist := T.linkFills.shist, swaited := [], swait := none, sfailed := 0 })

/-- The signed comparison and unsigned comparison of R39. -/
def condOf (c : Cond) (x y : Word) : Prop :=
  match c with
  | .eq => x = y | .ne => x ≠ y
  | .lt => x.toInt < y.toInt | .le => x.toInt ≤ y.toInt | .gt => y.toInt < x.toInt | .ge => y.toInt ≤ x.toInt
  | .ltu => x.toNat < y.toNat | .leu => x.toNat ≤ y.toNat | .gtu => y.toNat < x.toNat | .geu => y.toNat ≤ x.toNat

/-- A scalar access before `State.issueScalar` gives it its names and its place in the order. -/
def scalarEv (key : Nat) (attr : Attr) (op : EvOp) (dst : Dst) : Ev :=
  { id := 0, team := 0, core := 0, grp := 0, preds := [], key := key, attr := attr, op := op, dst := dst }

/-! ### What a lane instruction leaves -/

/-- A lane instruction answers the next state: each executing lane holds its value in register d (and d + 1, for a pair)
and has gained its flags, every other register and lane keeps what it held, and nothing else of the state has changed but
that the fragment stands at the next word (`Team.nextL`). -/
def LaneWrites (s : State) (T : Team) (slot : Nat) (i : Instr) (g : Guard) (pair : Bool) (d : BitVec 9)
    (val : Nat → Pair) (fl : Nat → FFlags) : Prop :=
  ∃ T', exec i s = .next (s.setTeam T') ∧
    (∀ r l, l < 1024 → T'.v r l =
      if T.executes slot g l ∧ r = d.toNat then (val l).even
      else if T.executes slot g l ∧ pair ∧ r = d.toNat + 1 then (val l).odd else T.v r l) ∧
    (∀ l, T'.flags l = if T.executes slot g l then T.flags l ||| fl l else T.flags l) ∧
    T' = { T.nextL slot with vregs := T'.vregs, fflags := T'.fflags }

/-- The same with the result given by elements: element e of lane l is f l e, and no flag is set. -/
def LaneElems (s : State) (T : Team) (slot : Nat) (i : Instr) (g : Guard) (ty : LTy) (d : BitVec 9)
    (f : Nat → Nat → Nat) : Prop :=
  ∃ val : Nat → Word, LaneWrites s T slot i g false d (fun l => (val l).toPair) (fun _ => 0) ∧
    ∀ l e, e < elemCount ty → elemOf ty (val l) e = f l e

/-- The OR of the flags of a register's elements (R110). -/
def orElems (ty : LTy) (f : Nat → FFlags) : FFlags := (List.range (elemCount ty)).foldl (fun r e => r ||| f e) 0

/-- The same with flags: each element gives a value and flags. -/
def LaneFloats (s : State) (T : Team) (slot : Nat) (i : Instr) (g : Guard) (ty : LTy) (d : BitVec 9)
    (f : Nat → Nat → Nat × FFlags) : Prop :=
  ∃ val : Nat → Word,
    LaneWrites s T slot i g false d (fun l => (val l).toPair) (fun l => orElems ty fun e => (f l e).2) ∧
    ∀ l e, e < elemCount ty → elemOf ty (val l) e = (f l e).1 % 2 ^ elemW ty

/-- A lane instruction writes a predicate: each executing lane holds v l in predicate d (q0 discards it) and has gained its
flags, and nothing else has changed. -/
def LaneSetsPred (s : State) (T : Team) (slot : Nat) (i : Instr) (g : Guard) (d : BitVec 4) (v : Nat → Tri)
    (fl : Nat → FFlags) : Prop :=
  ∃ T', exec i s = .next (s.setTeam T') ∧
    (∀ r l, l < 1024 → T'.qv r l = if T.executes slot g l ∧ r = d.toNat ∧ r ≠ 0 then v l else T.qv r l) ∧
    (∀ l, T'.flags l = if T.executes slot g l then T.flags l ||| fl l else T.flags l) ∧
    T' = { T.nextL slot with q := T'.q, fflags := T'.fflags }

/-- A cross-lane instruction runs at this move: it has no `.all`, or its team has gathered at the word (R155). -/
def CrossReady (T : Team) (slot : Nat) (all : Bool) : Prop :=
  all = true → (T.frag slot).wait.map (·.what) = some (.all true)

/-- A lane instruction issues the write of a scalar register (R31): the register is empty from now on (s0 discards the
write) and the value waits for its SCALAR_REGISTER_FILL, while the fragment goes on. -/
def LaneFills (s : State) (T : Team) (slot : Nat) (i : Instr) (d : Nat) (w : Word) (flags : SMap (BitVec 16)) : Prop :=
  ∃ T' : Team, exec i s = .next (s.fresh.setTeam (T'.nextL slot)) ∧
    (∀ r, T'.sIsEmpty r = (T.sIsEmpty r || (r == d && d != 0))) ∧
    T' = { T with
      fflags := flags, sempty := T'.sempty, sfill := if d = 0 then T.sfill else SMap.wr [] T.sfill d []
      fills := if d = 0 then T.fills else T.fills ++ [⟨s.evId, d, w, (T.frag slot).hist, T.regionTag⟩] }

/-! ### Where lane accesses lie, and what issuing them leaves -/

/-- An instruction reaches the moment of its effect: at once, or, where it synchronises in a DET launch, at its turn, which commits its
region; before its turn it stays at its word (R312, R313, R336). -/
def AtTurn (s : State) (T : Team) (i : Instr) (sync : Bool) (acts : Team → Prop) : Prop :=
  ((T.counted = false ∨ sync = false) → acts T) ∧
  (T.counted = true → sync = true →
    (s.turn T = true → acts { T with committed := true }) ∧ (s.turn T = false → exec i s = .next s))

/-- The same for an instruction that commits its region when it issues, and so while it waits for its turn (R336). -/
def Commits (s : State) (T : Team) (i : Instr) (acts : Team → Prop) : Prop :=
  (T.counted = false → acts T) ∧
  (T.counted = true →
    (s.turn T = true → acts { T with committed := true }) ∧
    (s.turn T = false → exec i s = .next (s.setTeam { T with committed := true })))

/-- A misaligned address raises cause 0x0A, which names the fragment's lanes (R51, R264, R329). -/
def LaneAligned (s : State) (T : Team) (slot : Nat) (i : Instr) (ls : List Nat) (adr : Nat → Word) (width : Nat) (acts : Prop) :
    Prop :=
  ((∀ l ∈ ls, (adr l).toNat % width = 0) → acts) ∧
  ((∃ l ∈ ls, (adr l).toNat % width ≠ 0) → exec i s = s.laneTrapMask T slot 0x0A (T.frag slot).mask)

/-- A pad access at or above the cohort's limit raises cause 0x07, which names the fragment's lanes (R26, R51, R329). -/
def PadAccess (s : State) (T : Team) (slot : Nat) (i : Instr) (ps : List Piece) (goes : List Placed → Prop) : Prop :=
  ((∀ p ∈ ps, s.padOk T p.va p.len = true) → goes (ps.map fun p => ⟨p, s.padKeyOf T p.va.toNat, .cached⟩)) ∧
  ((∃ p ∈ ps, s.padOk T p.va p.len = false) → exec i s = s.laneTrapMask T slot 0x07 (T.frag slot).mask)

/-- A memory access of lanes (R153, R263, R298 to R300, R387). Pages without a cached translation ask for walks, and the fragment stays. A
refused mapping raises cause 0x05, a write without permission or a read of poisoned bytes 0x06, each with its lanes (0x05 with the
fragment that was parked for the page). Lanes with a page fault part from the fragment and park; when no lane is left to go
on, no slot is free, or the launch is DET, the whole fragment parks. Else, or for the other lanes, it goes on from the state and team
given, at the places given. `wide` says that the bytes are read at their homes: what a read would find poisoned is judged there
(`State.readsBad`). -/
def MemAccess (s : State) (T : Team) (slot : Nat) (i : Instr) (lanes : LaneMask) (wide rd wr : Bool) (ps : List Piece)
    (goes : State → Team → List Placed → Prop) : Prop :=
  let who := Requester.lanes T.id T.trapLevel slot
  let tr := fun (p : Piece) => s.translate who T.core T.ctx p.va
  let bad := fun (p : Piece) => ∃ key attr w, tr p = .ok key attr w ∧
    (wr = true ∧ w = false ∨ rd = true ∧ s.readsBad T.id T.core (T.frag slot).hist wide key p.len attr = true)
  -- the pager refused a page for which the fragment was parked
  let parked := ∃ p ∈ ps, tr p = .refused ∧
    ∃ v ∈ s.verdicts, v.who = who ∧ v.ctx = T.ctx ∧ v.vpage = pageNo p.va ∧ v.parked = true
  let faulty := maskOf ((ps.filter fun p => tr p == .fault).map (·.lane))
  let vas := (ps.filter fun p => tr p == .fault).map (·.va)
  let pl := ps.filterMap fun p => match tr p with
    | .ok key a _ => if faulty.getLsbD p.lane then none else some (⟨p, key, a⟩ : Placed)
    | _ => none
  ((∃ p ∈ ps, tr p = .miss) →
    exec i s = .next (ps.foldl (fun q p => if tr p = .miss then q.askWalk who T.core T.ctx p.va wr 0 else q) s)) ∧
  ((∀ p ∈ ps, tr p ≠ .miss) →
    ((∃ p ∈ ps, tr p = .refused) → ∃ m : LaneMask, exec i s = (s.forget who).laneTrapMask T slot 0x05 m ∧
      (parked → m = (T.frag slot).mask) ∧
      (¬ parked → ∀ l < 1024, (m.getLsbD l = true ↔ ∃ p ∈ ps, p.lane = l ∧ tr p = .refused))) ∧
    ((∀ p ∈ ps, tr p ≠ .refused) →
      ((∃ p ∈ ps, bad p) → ∃ m : LaneMask, exec i s = (s.forget who).laneTrapMask T slot 0x06 m ∧
        ∀ l < 1024, (m.getLsbD l = true ↔ ∃ p ∈ ps, p.lane = l ∧ bad p)) ∧
      ((∀ p ∈ ps, ¬ bad p) →
        (faulty = 0 → goes (s.forget who) T pl) ∧
        (faulty ≠ 0 → (faulty = lanes ∨ T.counted = true ∨ T.sp.freeSlots = []) →
          exec i s = .next ((s.attachAll T who who vas).setTeam (T.parkWhole slot))) ∧
        (faulty ≠ 0 → faulty ≠ lanes → T.counted = false → ∀ k ks, T.sp.freeSlots = k :: ks →
          goes ((s.attachAll T who (.lanes T.id T.trapLevel k) vas).forget who) (T.setSp (T.sp.part slot faulty 3)) pl))))

/-- A lane access by its address space (R263). -/
def LaneAccess (s : State) (T : Team) (slot : Nat) (i : Instr) (lanes : LaneMask) (pad wide rd wr : Bool) (ps : List Piece)
    (goes : State → Team → List Placed → Prop) : Prop :=
  if pad then PadAccess s T slot i ps (goes s T) else MemAccess s T slot i lanes wide rd wr ps goes

/-- From a state s0 and team T a lane instruction answers the next state: its accesses are issued after everything in the fragment's
issue history (`State.emit`), its destination registers are empty in the lane words of its lanes, its lanes have gained flags, and
the fragment stands at the next word, or, where it synchronises in a DET launch, finishes the accesses first. -/
def LaneIssues (s s0 : State) (T : Team) (slot : Nat) (i : Instr) (lanes : LaneMask) (sync : Bool) (dst : List Nat)
    (pl : List Placed) (ev : Placed → Ev) (fl : Placed → FFlags) : Prop :=
  let r := s0.fresh.emit T slot s0.evId (pl.map ev)
  let T1 := (pl.foldl (fun q x => q.orFlags x.p.lane (fl x)) r.2).mark dst (maskOf (pl.map (·.p.lane))) s0.evId
  exec i s = .next (r.1.setTeam (if T.counted = true ∧ sync = true then
    T1.setSp (T1.sp.waits slot ⟨i, lanes, .finish s0.evId, s0.cycle⟩) else T1.nextL slot))

/-- A synchronising instruction of a DET launch goes on once its accesses are done (R312). -/
def LaneFinishes (s : State) (T : Team) (slot : Nat) (i : Instr) : Prop :=
  ∀ w grp, LaneCurrent s T slot → (T.frag slot).wait = some w → w.what = .finish grp →
    (s.unfinished T grp = true → exec i s = .next s) ∧ (s.unfinished T grp = false → exec i s = .next (s.setTeam (T.nextL slot)))

/-- A memory access of the scalar stream (R59, R298 to R300, R387): a page without a cached translation asks for a walk, and a page fault
leaves the stream at its word; a refused mapping raises cause 0x05; a write without permission or a read of poisoned bytes 0x06 (at the
home, where `wide`). -/
def ScalarAccess (s : State) (T : Team) (i : Instr) (va : Word) (n : Nat) (wide wr : Bool) (goes : State → Nat → Attr → Prop) : Prop :=
  let who := Requester.scalar T.id
  match s.translate who T.core T.ctx va with
  | .miss => exec i s = .next (s.askWalk who T.core T.ctx va wr 1)
  | .fault => exec i s = .next s
  | .refused => exec i s = (s.forget who).scalarTrap T 0x05
  | .ok key a w =>
    let bad := wr = true ∧ w = false ∨ wr = false ∧ s.readsBad T.id T.core T.shist wide key n a = true
    (bad → exec i s = (s.forget who).scalarTrap T 0x06) ∧ (¬ bad → goes (s.forget who) key a)

/-- Lanes of a fragment may push n entries (R12, R14, R162, R163): the cistern is not faulted and no retried refill is under
way for it, the quota and the free slots of the ring hold what the pushes spill, those slots are mapped writable and can be reached, and what the
fragment did before is released at device scope. -/
structure PushReady (s : State) (T : Team) (slot : Nat) (C : Cohort) (n : Nat) : Prop where
  sound : n ≠ 0 → C.cistern.faulted = false
  free : n ≠ 0 → C.cistern.heldBy (.lanes T.id T.trapLevel slot) = false
  quota : C.cistern.spilled.length + spillsOf T.hdr.cap C.cistern.pad.length n ≤ 16 * T.hdr.cap
  room : spillsOf T.hdr.cap C.cistern.pad.length n ≤ (C.cistern.freeFrom (16 * T.hdr.cap)).length
  mapped : ∀ k ∈ (C.cistern.freeFrom (16 * T.hdr.cap)).take (spillsOf T.hdr.cap C.cistern.pad.length n), (∃ key attr,
    s.translate (.lanes T.id T.trapLevel slot) T.core T.ctx (BitVec.ofNat 64 (slotVa T.hdr T.cohort k)) = .ok key attr true) ∧
    s.reachable T.core (s.spillKey T.core T.ctx (slotVa T.hdr T.cohort k)) = true
  released : s.releaseOk T.id T.core (T.frag slot).hist .device = true

end Machine
end Sys2Proof
end

