-- ==== Sys2Proof/Certificates/Slice0/Obligations.lean ====
section
/-!
DEFINITION. The statements about the machine, family by family: what an instruction or an event leaves and what it leaves alone, for
every state and operands that its premises admit; then what one step runs, the decoder and the invariant.
-/
open Sys2Proof Sys2Proof.Machine

/-- R53: the register forms of the scalar arithmetic instructions write the value of the table, wrapping modulo 2^64, and change
nothing else. R53: SDIV and SREM, with their corners: a divisor of zero, and the quotient that does not fit. R53: SMOV, SCLZ (as
the number of leading zero bits) and SPOP. R53, R54: the immediate forms, whose b is IMM11 sign-extended; a shift takes 0 to 63.
R55: SLI writes its sign-extended immediate; SLIH reads its destination and shifts the immediate in. -/
def Obligations.ScalarArithmetic : Prop :=
  (∀ (s : State) (T : Team) (d a b : BitVec 7), ScalarReady s T [d.toNat, a.toNat, b.toNat] [a.toNat, b.toNat] →
     let x := T.sreg a.toNat
     let y := T.sreg b.toNat
     ScalarWrites s T (.sadd d a b) d.toNat (x + y) ∧
     ScalarWrites s T (.ssub d a b) d.toNat (x - y) ∧
     ScalarWrites s T (.smul d a b) d.toNat (x * y) ∧
     ScalarWrites s T (.smulh d a b) d.toNat (((x.signExtend 128 * y.signExtend 128).extractLsb' 64 64)) ∧
     ScalarWrites s T (.sand d a b) d.toNat (x &&& y) ∧
     ScalarWrites s T (.sor d a b) d.toNat (x ||| y) ∧
     ScalarWrites s T (.sxor d a b) d.toNat (x ^^^ y) ∧
     ScalarWrites s T (.sandn d a b) d.toNat (x &&& ~~~y) ∧
     ScalarWrites s T (.sshl d a b) d.toNat (x <<< (y.toNat % 64)) ∧
     ScalarWrites s T (.sshr d a b) d.toNat (x >>> (y.toNat % 64)) ∧
     ScalarWrites s T (.ssar d a b) d.toNat (x.sshiftRight (y.toNat % 64)) ∧
     ScalarWrites s T (.smin d a b) d.toNat (BitVec.ofInt 64 (min x.toInt y.toInt)) ∧
     ScalarWrites s T (.smax d a b) d.toNat (BitVec.ofInt 64 (max x.toInt y.toInt))) ∧
  (∀ (s : State) (T : Team) (d a b : BitVec 7), ScalarReady s T [d.toNat, a.toNat, b.toNat] [a.toNat, b.toNat] →
     let x := T.sreg a.toNat
     let y := T.sreg b.toNat
     ∃ q r : Word, ScalarWrites s T (.sdiv d a b) d.toNat q ∧ ScalarWrites s T (.srem d a b) d.toNat r ∧
       (y = 0 → q = 0xFFFFFFFFFFFFFFFF ∧ r = x) ∧
       (x = 0x8000000000000000 → y = 0xFFFFFFFFFFFFFFFF → q = 0x8000000000000000 ∧ r = 0) ∧
       (y ≠ 0 → (x = 0x8000000000000000 → y ≠ 0xFFFFFFFFFFFFFFFF) →
         q.toInt = x.toInt.tdiv y.toInt ∧ r.toInt = x.toInt - q.toInt * y.toInt)) ∧
  (∀ (s : State) (T : Team) (d a : BitVec 7), ScalarReady s T [d.toNat, a.toNat] [a.toNat] →
     let x := T.sreg a.toNat
     ScalarWrites s T (.smov d a) d.toNat x ∧
     (∃ n : Nat, n ≤ 64 ∧ ScalarWrites s T (.sclz d a) d.toNat (BitVec.ofNat 64 n) ∧
       (∀ k, 64 - n ≤ k → x.getLsbD k = false) ∧ (n < 64 → x.getLsbD (63 - n) = true)) ∧
     ScalarWrites s T (.spop d a) d.toNat (BitVec.ofNat 64 ((List.range 64).countP fun k => x.getLsbD k))) ∧
  (∀ (s : State) (T : Team) (d a : BitVec 7) (m : BitVec 11) (n : BitVec 6), ScalarReady s T [d.toNat, a.toNat] [a.toNat] →
     let x := T.sreg a.toNat
     let y : Word := m.signExtend 64
     ScalarWrites s T (.saddImm d a m) d.toNat (x + y) ∧
     ScalarWrites s T (.smulImm d a m) d.toNat (x * y) ∧
     ScalarWrites s T (.sandImm d a m) d.toNat (x &&& y) ∧
     ScalarWrites s T (.sorImm d a m) d.toNat (x ||| y) ∧
     ScalarWrites s T (.sxorImm d a m) d.toNat (x ^^^ y) ∧
     ScalarWrites s T (.sshlImm d a n) d.toNat (x <<< n.toNat) ∧
     ScalarWrites s T (.sshrImm d a n) d.toNat (x >>> n.toNat) ∧
     ScalarWrites s T (.ssarImm d a n) d.toNat (x.sshiftRight n.toNat) ∧
     ScalarWrites s T (.sminImm d a m) d.toNat (BitVec.ofInt 64 (min x.toInt y.toInt)) ∧
     ScalarWrites s T (.smaxImm d a m) d.toNat (BitVec.ofInt 64 (max x.toInt y.toInt))) ∧
  (∀ (s : State) (T : Team) (d : BitVec 7) (m : BitVec 18),
     (ScalarReady s T [d.toNat] [] → ScalarWrites s T (.sli d m) d.toNat (m.signExtend 64)) ∧
     (ScalarReady s T [d.toNat] [d.toNat] →
       ScalarWrites s T (.slih d m) d.toNat ((T.sreg d.toNat <<< 18) ||| m.setWidth 64)))

/-- R92, R93: a result of FADD, FSUB, FMUL, FDIV, FFMA and FSQRT on finite operands is the exact one rounded as the mode says:
under rdn the greatest value of the format not above it, under rup the least not below it, under rz the one on the side of zero,
under rne the nearest, a tie to the even pattern and an infinity from half an ulp past the largest number. NX says that it is
not exact, OF that it lies past the largest number, UF that a tiny one is not exact. FRCP and FRSQ give a neighbour of the exact
result, under rdn and rup the one on that side: which of them is the model's free choice within the ulp of R92 (log 9). R83,
R85, R88: an interval result is well formed and encloses the exact result of its operation on every choice of points of the
operands; no numbers of the format lie closer around those results than its bounds do, but for FRCP and FRSQ, where one may. -/
def Obligations.RoundingAndEnclosure : Prop :=
  let num : Dy → ℝ := fun d => d.m * (2 : ℝ) ^ d.e
  let val : FV → EReal := fun v => match v with
    | .inf n => if n then ⊥ else ⊤
    | v => (num v.dy : EReal)
  ∀ f ∈ [f32, f64, fb16],
    let best := fun (rm : RM) (x : ℝ) (r : Nat) =>
      let v := val (f.read r)
      let below := v ≤ (x : EReal) ∧
        ∀ b < 2 ^ f.width, (f.read b).isNan = false → val (f.read b) ≤ (x : EReal) → val (f.read b) ≤ v
      let above := (x : EReal) ≤ v ∧
        ∀ b < 2 ^ f.width, (f.read b).isNan = false → (x : EReal) ≤ val (f.read b) → v ≤ val (f.read b)
      r < 2 ^ f.width ∧ (f.read r).isNan = false ∧ ((f.read r).neg = true ↔ x < 0) ∧
      match rm with
      | .rd => below
      | .ru => above
      | .rz => (0 < x → below) ∧ (x < 0 → above)
      | .rne =>
        let past := (2 : ℝ) ^ (f.bias + 1) - (2 : ℝ) ^ (f.bias - f.mb - 1) ≤ |x|
        (past → ∃ n, f.read r = .inf n) ∧
        (¬ past → ∃ n m e, f.read r = .fin n m e ∧
          ∀ b < 2 ^ f.width, ∀ n' m' e', f.read b = .fin n' m' e' →
            let y := num (f.read r).dy
            let z := num (f.read b).dy
            |x - y| ≤ |x - z| ∧ (|x - y| = |x - z| → z ≠ y → r % 2 = 0))
    (∀ (rm : RM) (d : Dy) (zn : Bool), d.m ≠ 0 →
      let r := f.round rm d zn
      let v := val (f.read r.1)
      best rm (num d) r.1 ∧
      (r.2 &&& fNX ≠ 0 ↔ v ≠ (num d : EReal)) ∧
      (r.2 &&& fOF ≠ 0 → num (f.read f.maxBits).dy < |num d|) ∧ ((2 : ℝ) ^ (f.bias + 1) ≤ |num d| → r.2 &&& fOF ≠ 0) ∧
      (r.1 % f.signBit = f.infBits → r.2 &&& fOF ≠ 0) ∧
      (r.2 &&& fUF ≠ 0 → r.2 &&& fNX ≠ 0 ∧ |num (f.read r.1).dy| ≤ (2 : ℝ) ^ f.emin) ∧
      (r.2 &&& fNX ≠ 0 → r.1 % f.signBit < 2 ^ f.mb → r.2 &&& fUF ≠ 0)) ∧
    (∀ (rm : RM) (na nb nc : Bool) (ma mb mc : Nat) (ea eb ec : Int) (key : Nat),
      let a := FV.fin na ma ea
      let b := FV.fin nb mb eb
      let c := FV.fin nc mc ec
      let x := num a.dy
      let y := num b.dy
      let z := num c.dy
      (x + y ≠ 0 → best rm (x + y) (fpAdd f rm a b).1) ∧ (x - y ≠ 0 → best rm (x - y) (fpSub f rm a b).1) ∧
      (x + y = 0 → (fpAdd f rm a b).1 = f.withSign (if na = nb then na else rm == .rd) 0) ∧
      (x * y ≠ 0 → best rm (x * y) (fpMul f rm a b).1) ∧ (x * y = 0 → (fpMul f rm a b).1 = f.withSign (na != nb) 0) ∧
      (x * y + z ≠ 0 → best rm (x * y + z) (fpFma f rm a b c).1) ∧
      (x ≠ 0 → y ≠ 0 → best rm (x / y) (fpDiv f rm a b).1) ∧ (0 < x → best rm (√x) (fpSqrt f rm a).1) ∧
      (x ≠ 0 → (best .rd (1 / x) (fpRcp f rm key a).1 ∨ best .ru (1 / x) (fpRcp f rm key a).1) ∧
        (rm = .rd ∨ rm = .ru → best rm (1 / x) (fpRcp f rm key a).1)) ∧
      (0 < x → (best .rd (1 / √x) (fpRsq f rm key a).1 ∨ best .ru (1 / √x) (fpRsq f rm key a).1) ∧
        (rm = .rd ∨ rm = .ru → best rm (1 / √x) (fpRsq f rm key a).1))) ∧
    (∀ (X Y Z : IvIn) (x y z : ℝ) (key : Nat),
      let bd : Bd → EReal := fun b => match b with
        | .ninf => ⊥
        | .pinf => ⊤
        | .fin d => (num d : EReal)
      let mem := fun (x : ℝ) (i : Iv) => ∃ a b, i = some (a, b) ∧ bd a ≤ (x : EReal) ∧ (x : EReal) ≤ bd b
      let holds := fun (x : ℝ) (r : IvOut) => (f.readIv r.lo r.hi).fl = 0 ∧ mem x (f.readIv r.lo r.hi).iv
      (mem x X.iv → mem y Y.iv →
        holds (x + y) (ivArith f ivAdd X Y) ∧ holds (x - y) (ivArith f ivSub X Y) ∧ holds (x * y) (ivArith f ivMul X Y) ∧
        (y ≠ 0 → holds (x / y) (ivDivOp f X Y)) ∧ holds (min x y) (ivArith f ivMin X Y) ∧
        holds (max x y) (ivArith f ivMax X Y) ∧ holds x (ivArith f ivHull X Y) ∧ holds y (ivArith f ivHull X Y) ∧
        (x = y → holds x (ivArith f ivCap X Y)) ∧ (mem z Z.iv → holds (x * y + z) (ivFmaOp f X Y Z))) ∧
      (mem x X.iv →
        (0 ≤ x → holds (√x) (ivSqrtOp f X)) ∧ (x ≠ 0 → holds (1 / x) (ivRcpOp f key X)) ∧
        (0 < x → holds (1 / √x) (ivRsqOp f key X)) ∧ holds |x| (f.tight (allFinite [X.iv]) (ivAbs X.iv)) ∧
        holds (-x) (f.tight (allFinite [X.iv]) (ivNeg X.iv)))) ∧
    -- R85: the bounds are the nearest numbers of the format outside the exact results, or, for FRCP and FRSQ, those or the next
    (∀ (X Y Z : IvIn) (key : Nat),
      let bd : Bd → EReal := fun b => match b with
        | .ninf => ⊥
        | .pinf => ⊤
        | .fin d => (num d : EReal)
      let mem := fun (x : ℝ) (i : Iv) => ∃ a b, i = some (a, b) ∧ bd a ≤ (x : EReal) ∧ (x : EReal) ≤ bd b
      let lower := fun (S : ℝ → Prop) (q : Nat) => q < 2 ^ f.width ∧ (f.read q).isNan = false ∧ ∀ z, S z → val (f.read q) ≤ (z : EReal)
      let upper := fun (S : ℝ → Prop) (q : Nat) => q < 2 ^ f.width ∧ (f.read q).isNan = false ∧ ∀ z, S z → (z : EReal) ≤ val (f.read q)
      let tight := fun (S : ℝ → Prop) (r : IvOut) => lower S r.lo ∧ upper S r.hi ∧
        (∀ q, lower S q → val (f.read q) ≤ val (f.read r.lo)) ∧ ∀ q, upper S q → val (f.read r.hi) ≤ val (f.read q)
      let near := fun (S : ℝ → Prop) (r : IvOut) => lower S r.lo ∧ upper S r.hi ∧
        (∀ q q', lower S q → lower S q' → val (f.read r.lo) < val (f.read q) → val (f.read r.lo) < val (f.read q') →
          val (f.read q) = val (f.read q')) ∧
        ∀ q q', upper S q → upper S q' → val (f.read q) < val (f.read r.hi) → val (f.read q') < val (f.read r.hi) →
          val (f.read q) = val (f.read q')
      let both := fun (g : ℝ → ℝ → ℝ) (z : ℝ) => ∃ x y, mem x X.iv ∧ mem y Y.iv ∧ z = g x y
      let each := fun (g : ℝ → ℝ) (z : ℝ) => ∃ x, mem x X.iv ∧ z = g x
      ((∃ x, mem x X.iv) → (∃ y, mem y Y.iv) →
        tight (both (· + ·)) (ivArith f ivAdd X Y) ∧ tight (both (· - ·)) (ivArith f ivSub X Y) ∧
        tight (both (· * ·)) (ivArith f ivMul X Y) ∧ (¬ mem 0 Y.iv → tight (both (· / ·)) (ivDivOp f X Y)) ∧
        (mem 0 Y.iv → (ivDivOp f X Y).lo = f.inf true ∧ (ivDivOp f X Y).hi = f.inf false) ∧
        tight (both min) (ivArith f ivMin X Y) ∧ tight (both max) (ivArith f ivMax X Y) ∧
        tight (fun z => mem z X.iv ∨ mem z Y.iv) (ivArith f ivHull X Y) ∧
        ((∃ z, mem z X.iv ∧ mem z Y.iv) → tight (fun z => mem z X.iv ∧ mem z Y.iv) (ivArith f ivCap X Y)) ∧
        ((¬ ∃ z, mem z X.iv ∧ mem z Y.iv) → ivArith f ivCap X Y = ⟨f.inf false, f.inf true, X.fl ||| Y.fl⟩) ∧
        ((∃ z, mem z Z.iv) → tight (fun w => ∃ x y z, mem x X.iv ∧ mem y Y.iv ∧ mem z Z.iv ∧ w = x * y + z) (ivFmaOp f X Y Z))) ∧
      ((∃ x, mem x X.iv) →
        ((∃ x, mem x X.iv ∧ 0 ≤ x) → tight (fun z => ∃ x, mem x X.iv ∧ 0 ≤ x ∧ z = √x) (ivSqrtOp f X)) ∧
        tight (each fun x => |x|) (f.tight (allFinite [X.iv]) (ivAbs X.iv)) ∧
        tight (each fun x => -x) (f.tight (allFinite [X.iv]) (ivNeg X.iv)) ∧
        (¬ mem 0 X.iv → near (each fun x => 1 / x) (ivRcpOp f key X)) ∧
        ((∃ x, mem x X.iv ∧ 0 < x) → near (fun z => ∃ x, mem x X.iv ∧ 0 < x ∧ z = 1 / √x) (ivRsqOp f key X))))

/-- R56 to R58: SCMP decides, SKOP combines three-valued flags, SSEL takes b for a flag that is false or undecided. -/
def Obligations.ScalarFlags : Prop :=
  ∀ (s : State) (T : Team),
    (∀ (k : BitVec 3) (a b : BitVec 7) (c : Cond), ScalarReady s T [a.toNat, b.toNat] [a.toNat, b.toNat] →
      (condOf c (T.sreg a.toNat) (T.sreg b.toNat) → ScalarSetsFlag s T (.scmp k a b c) k .t) ∧
      (¬ condOf c (T.sreg a.toNat) (T.sreg b.toNat) → ScalarSetsFlag s T (.scmp k a b c) k .f)) ∧
    (∀ d a b : BitVec 3, ScalarReady s T [] [] →
      let x := T.kf a.toNat
      let y := T.kf b.toNat
      ScalarSetsFlag s T (.skop d a b .and) d (if x = .f ∨ y = .f then .f else if x = .t ∧ y = .t then .t else .u) ∧
      ScalarSetsFlag s T (.skop d a b .or) d (if x = .t ∨ y = .t then .t else if x = .f ∧ y = .f then .f else .u) ∧
      ScalarSetsFlag s T (.skop d a b .not) d (match x with | .t => .f | .f => .t | .u => .u) ∧
      ScalarSetsFlag s T (.skop d a b .ff) d (if x = .u then .f else x) ∧
      ScalarSetsFlag s T (.skop d a b .ft) d (if x = .u then .t else x) ∧
      ScalarSetsFlag s T (.skop d a b .isu) d (if x = .u then .t else .f) ∧
      ScalarSetsFlag s T (.skop d a b .mov) d x ∧
      ScalarSetsFlag s T (.skop d a b .setu) d .u) ∧
    (∀ (d a b : BitVec 7) (k : BitVec 3), ScalarReady s T [d.toNat, a.toNat, b.toNat] [a.toNat, b.toNat] →
      ScalarWrites s T (.ssel d a b k) d.toNat (if T.kf k.toNat = .t then T.sreg a.toNat else T.sreg b.toNat))

/-- R62, R63: the scalar branches. SRET and SJF take a register: misaligned, cause 0x0A; past 32 bits, cause 0x03; SJF to a
segment that has not landed, cause 0x04; else they jump. -/
def Obligations.ScalarBranches : Prop :=
  ∀ (s : State) (T : Team),
    (∀ (k : BitVec 3) (m : GMode) (i : BitVec 19), ScalarReady s T [] [] →
      (guardPasses m (T.kf k.toNat) = true → ScalarGoesTo s T (.sbr k m i) (T.spc + 4 * i.toInt)) ∧
      (guardPasses m (T.kf k.toNat) = false → ScalarGoesTo s T (.sbr k m i) (T.spc + 4)) ∧
      ScalarGoesTo s T (.sj i) (T.spc + 4 * i.toInt)) ∧
    (∀ (d : BitVec 7) (i : BitVec 18), ScalarReady s T [d.toNat] [] →
      ScalarWritesTo s T (.scall d i) d.toNat (BitVec.ofInt 64 (T.spc + 4)) (T.spc + 4 * i.toInt)) ∧
    (∀ a : BitVec 7, ScalarReady s T [a.toNat] [a.toNat] →
      let v := (T.sreg a.toNat).toNat
      (v % 4 ≠ 0 → exec (.sret a) s = s.scalarTrap T.linkFills 0x0A ∧ exec (.sjf a) s = s.scalarTrap T.linkFills 0x0A) ∧
      (v % 4 = 0 → 2 ^ 32 ≤ v →
        exec (.sret a) s = s.scalarTrap T.linkFills 0x03 ∧ exec (.sjf a) s = s.scalarTrap T.linkFills 0x03) ∧
      (v % 4 = 0 → v < 2 ^ 32 → ScalarGoesTo s T (.sret a) v) ∧
      (v % 4 = 0 → v < 2 ^ 32 → s.pageLanded T (v / 4096) = true → ScalarGoesTo s T (.sjf a) v) ∧
      (v % 4 = 0 → v < 2 ^ 32 → s.pageLanded T (v / 4096) = false → exec (.sjf a) s = s.scalarTrap T.linkFills 0x04))

/-- R27, R52: a scalar word that names a register at or above the budget raises cause 0x09, and one that reads an empty register
stays at its word and changes nothing but the note of what it waits for: every scalar word with register operands, the runs of
SEMPTY and LQ among them. R27, R45, R103, R265: the lane counterpart. A word that names a register past a budget raises 0x09.
Where no check of a value stands between, an empty register of a source that traps raises 0x08, and any other empty register,
the destination among them, leaves the fragment at its word. -/
def Obligations.ScalarBudgetAndWait : Prop :=
  (∀ (s : State) (T : Team) (i : Instr) (named reads : List Nat), i.scalarRegs = some (named, reads) →
    s.cur = some ⟨T.id, none⟩ → s.team? T.id = some T →
    (∀ d x, i = .mtxScalar d x → scalarWritable T.trapLevel x.toNat = true) →
    (∀ d a c, i = .swaita d a c → T.swait = none) → (∀ a n e, i = .lq a n e → T.lqOpen = false) →
    ((∃ r ∈ named, T.sbud ≤ r) → exec i s = s.scalarTrap T 0x09) ∧
    ((∀ r ∈ named, r < T.sbud) → (∃ r ∈ reads, T.sIsEmpty r = true) →
      ∃ w, exec i s = .next (s.setTeam { T with swaited := w }) ∧
        ∀ r, r ∈ w ↔ r ∈ T.swaited ∨ r ∈ reads ∧ T.sIsEmpty r = true)) ∧
  (∀ (s : State) (T : Team) (slot : Nat) (i : Instr) (g : Guard) (n : Names) (judged : Bool), LaneCurrent s T slot →
    i.laneRegs = some (g, n, judged) → (T.frag slot).wait = none →
    let m := T.execMask (T.frag slot) g
    (T.overBudget n = true → exec i s = s.laneTrap T slot 0x09) ∧
    (judged = false → T.overBudget n = false →
      ((∃ p ∈ n.srcs, p.1.fe = true ∧ T.anyEmpty (srcRegs p.1 p.2) m = true) → exec i s = s.laneTrap T slot 0x08) ∧
      ((∀ p ∈ n.srcs, p.1.fe = true → T.anyEmpty (srcRegs p.1 p.2) m = false) → T.anyEmpty n.regs m = true →
        exec i s = .next s)))

/-- R119, R120, R122: on the non-interval types IADD, ISUB, IMUL, IMULH, IMIN and IMAX act on each element, signed for .i and
unsigned for .n types; the exact result is clamped under SAT and else wraps. The immediate forms read R46's operand. R120 to
R122: IMAD wraps and never saturates; IABS gives the magnitude, clamped under SAT; IDIV and IREM truncate toward zero, with
R121's results for a divisor of zero. -/
def Obligations.LaneIntegers : Prop :=
  (∀ (s : State) (T : Team) (slot : Nat) (sat : Bool),
     let table := fun (ty : LTy) (a b : Nat → Pair) (is : Instr → (Nat → Nat → Nat) → Prop)
         (iadd isub imul imulh imin imax : Instr) =>
       let n := elemW ty
       let x := fun l e => asInt (isSigned ty) n (elemOf ty (a l).even e)
       let y := fun l e => asInt (isSigned ty) n (elemOf ty (b l).even e)
       let out := fun p => wrapTo n (if sat then clampInt (isSigned ty) n p else p)
       is iadd (fun l e => out (x l e + y l e)) ∧ is isub (fun l e => out (x l e - y l e)) ∧
       is imul (fun l e => out (x l e * y l e)) ∧ is imulh (fun l e => wrapTo n (x l e * y l e / 2 ^ n)) ∧
       is imin (fun l e => wrapTo n (min (x l e) (y l e))) ∧ is imax (fun l e => wrapTo n (max (x l e) (y l e)))
     (∀ o : V2, o.ty ∈ [LTy.i32, .n32, .i64, .n64] → LaneReady s T slot o.g o.names →
       table o.ty (T.in o.ty o.a) (T.in o.ty o.b) (fun i f => LaneElems s T slot i o.g o.ty o.d f)
         (.iadd o sat) (.isub o sat) (.imul o sat) (.imulh o) (.imin o) (.imax o)) ∧
     (∀ o : V1i, o.ty ∈ [LTy.i32, .n32, .i64, .n64] → LaneReady s T slot o.g o.names →
       table o.ty (T.in o.ty o.a) (fun _ => immOf o.ty o.imm) (fun i f => LaneElems s T slot i o.g o.ty o.d f)
         (.iaddImm o sat) (.isubImm o sat) (.imulImm o sat) (.imulhImm o) (.iminImm o) (.imaxImm o))) ∧
  (∀ (s : State) (T : Team) (slot : Nat),
     let num := fun (ty : LTy) (a : Nat → Pair) (l e : Nat) => asInt (isSigned ty) (elemW ty) (elemOf ty (a l).even e)
     let quo := fun (ty : LTy) (x y : Int) => if y = 0 then 2 ^ elemW ty - 1 else wrapTo (elemW ty) (x.tdiv y)
     let rem := fun (ty : LTy) (a : Nat) (x y : Int) => if y = 0 then a else wrapTo (elemW ty) (x - x.tdiv y * y)
     (∀ o : V3, o.ty ∈ [LTy.i32, .n32, .i64, .n64] → LaneReady s T slot o.g o.names →
       LaneElems s T slot (.imad o) o.g o.ty o.d fun l e =>
         wrapTo (elemW o.ty) (num o.ty (T.in o.ty o.a) l e * num o.ty (T.in o.ty o.b) l e + num o.ty (T.in o.ty o.c) l e)) ∧
     (∀ o : V2i, o.ty ∈ [LTy.i32, .n32, .i64, .n64] → LaneReady s T slot o.g o.names →
       LaneElems s T slot (.imadImm o) o.g o.ty o.d fun l e =>
         wrapTo (elemW o.ty) (num o.ty (T.in o.ty o.a) l e * num o.ty (T.in o.ty o.b) l e +
           num o.ty (fun _ => immOf o.ty o.imm) l e)) ∧
     (∀ (o : V1) (sat : Bool), o.ty ∈ [LTy.i32, .i64] → LaneReady s T slot o.g o.names →
       LaneElems s T slot (.iabs o sat) o.g o.ty o.d fun l e =>
         let n := elemW o.ty
         let x := num o.ty (T.in o.ty o.a) l e
         if x = -2 ^ (n - 1) then (if sat then 2 ^ (n - 1) - 1 else 2 ^ (n - 1)) else x.natAbs) ∧
     (∀ o : V2, o.ty ∈ [LTy.i32, .n32, .i64, .n64] → LaneReady s T slot o.g o.names →
       let x := num o.ty (T.in o.ty o.a)
       let y := num o.ty (T.in o.ty o.b)
       LaneElems s T slot (.idiv o) o.g o.ty o.d (fun l e => quo o.ty (x l e) (y l e)) ∧
       LaneElems s T slot (.irem o) o.g o.ty o.d
         (fun l e => rem o.ty (elemOf o.ty (T.in o.ty o.a l).even e) (x l e) (y l e))) ∧
     (∀ o : V1i, o.ty ∈ [LTy.i32, .n32, .i64, .n64] → LaneReady s T slot o.g o.names →
       let x := num o.ty (T.in o.ty o.a)
       let y := num o.ty (fun _ => immOf o.ty o.imm)
       LaneElems s T slot (.idivImm o) o.g o.ty o.d (fun l e => quo o.ty (x l e) (y l e)) ∧
       LaneElems s T slot (.iremImm o) o.g o.ty o.d
         (fun l e => rem o.ty (elemOf o.ty (T.in o.ty o.a l).even e) (x l e) (y l e))))

/-- R124: AND, OR, XOR and ANDN act on all 64 bits; SHL, SHR, SAR and ROT act on each element, by the low bits of the same
element of b. R125, R126: POPC and CLZ count per element; BFX extracts the field of b, BFI replaces the field of the third
operand. -/
def Obligations.LaneBits : Prop :=
  (∀ (s : State) (T : Team) (slot : Nat),
     let table := fun (ty : LTy) (a b : Nat → Pair) (word : Instr → (Nat → Word) → Prop)
         (is : Instr → (Nat → Nat → Nat) → Prop) (and or xor andn shl shr sar rot : Instr) =>
       let n := elemW ty
       let x := fun l e => BitVec.ofNat n (elemOf ty (a l).even e)
       let k := fun l e => elemOf ty (b l).even e % n
       word and (fun l => (a l).even &&& (b l).even) ∧ word or (fun l => (a l).even ||| (b l).even) ∧
       word xor (fun l => (a l).even ^^^ (b l).even) ∧ word andn (fun l => (a l).even &&& ~~~(b l).even) ∧
       is shl (fun l e => (x l e <<< k l e).toNat) ∧ is shr (fun l e => (x l e >>> k l e).toNat) ∧
       is sar (fun l e => ((x l e).sshiftRight (k l e)).toNat) ∧ is rot (fun l e => ((x l e).rotateLeft (k l e)).toNat)
     (∀ o : V2, o.ty ∈ [LTy.i32, .n32, .i64, .n64, .b64] → LaneReady s T slot o.g o.names →
       table o.ty (T.in o.ty o.a) (T.in o.ty o.b)
         (fun i f => LaneWrites s T slot i o.g false o.d (fun l => (f l).toPair) fun _ => 0)
         (fun i f => LaneElems s T slot i o.g o.ty o.d f)
         (.land o) (.lor o) (.lxor o) (.andn o) (.shl o) (.shr o) (.sar o) (.rot o)) ∧
     (∀ o : V1i, o.ty ∈ [LTy.i32, .n32, .i64, .n64, .b64] → LaneReady s T slot o.g o.names →
       table o.ty (T.in o.ty o.a) (fun _ => immOf o.ty o.imm)
         (fun i f => LaneWrites s T slot i o.g false o.d (fun l => (f l).toPair) fun _ => 0)
         (fun i f => LaneElems s T slot i o.g o.ty o.d f)
         (.landImm o) (.lorImm o) (.lxorImm o) (.andnImm o) (.shlImm o) (.shrImm o) (.sarImm o) (.rotImm o))) ∧
  (∀ (s : State) (T : Team) (slot : Nat),
     let pos := fun (f : Word) => f.toNat % 64
     let wid := fun (f : Word) => min (min (f.toNat / 256 % 128) 64) (64 - pos f)
     let bfx : LTy → Word → Word → Word := fun ty a f => if ty = .i64 then (a.extractLsb' (pos f) (wid f)).signExtend 64
       else (a.extractLsb' (pos f) (wid f)).setWidth 64
     let bfi := fun (a b f r : Word) => ∀ k < 64,
       r.getLsbD k = if pos f ≤ k ∧ k < pos f + wid f then b.getLsbD (k - pos f) else a.getLsbD k
     (∀ o : V1, o.ty ∈ [LTy.i32, .n32, .i64, .n64, .b64] → LaneReady s T slot o.g o.names →
       let x := fun l e => elemOf o.ty (T.in o.ty o.a l).even e
       LaneElems s T slot (.popc o) o.g o.ty o.d
         (fun l e => (List.range (elemW o.ty)).countP fun k => (x l e).testBit k) ∧
       ∃ z : Nat → Nat → Nat, LaneElems s T slot (.clz o) o.g o.ty o.d z ∧
         ∀ l e, e < elemCount o.ty → z l e ≤ elemW o.ty ∧ x l e < 2 ^ (elemW o.ty - z l e) ∧
           (z l e < elemW o.ty → (x l e).testBit (elemW o.ty - 1 - z l e) = true)) ∧
     (∀ o : V2, o.ty ∈ [LTy.i64, .n64, .b64] → LaneReady s T slot o.g o.names →
       LaneWrites s T slot (.bfx o) o.g false o.d
         (fun l => (bfx o.ty (T.in o.ty o.a l).even (T.in o.ty o.b l).even).toPair) fun _ => 0) ∧
     (∀ o : V1i, o.ty ∈ [LTy.i64, .n64, .b64] → LaneReady s T slot o.g o.names →
       LaneWrites s T slot (.bfxImm o) o.g false o.d
         (fun l => (bfx o.ty (T.in o.ty o.a l).even (immOf o.ty o.imm).even).toPair) fun _ => 0) ∧
     (∀ o : V3, o.ty ∈ [LTy.i64, .n64, .b64] → LaneReady s T slot o.g o.names →
       ∃ r : Nat → Word, LaneWrites s T slot (.bfi o) o.g false o.d (fun l => (r l).toPair) (fun _ => 0) ∧
         ∀ l, bfi (T.in o.ty o.a l).even (T.in o.ty o.b l).even (T.in o.ty o.c l).even (r l)) ∧
     (∀ o : V2i, o.ty ∈ [LTy.i64, .n64, .b64] → LaneReady s T slot o.g o.names →
       ∃ r : Nat → Word, LaneWrites s T slot (.bfiImm o) o.g false o.d (fun l => (r l).toPair) (fun _ => 0) ∧
         ∀ l, bfi (T.in o.ty o.a l).even (T.in o.ty o.b l).even (immOf o.ty o.imm).even (r l)))

/-- R46, R128: MOV, MOVI and ISEL move bits unchanged; ISEL takes b only for a predicate that is true. -/
def Obligations.LaneMoves : Prop :=
  ∀ (s : State) (T : Team) (slot : Nat),
    (∀ o : V1, LaneReady s T slot o.g o.names →
      LaneWrites s T slot (.mov o) o.g (isPair o.ty) o.d (T.in o.ty o.a) fun _ => 0) ∧
    (∀ o : V0i, LaneReady s T slot o.g o.names →
      LaneWrites s T slot (.movi o) o.g (isPair o.ty) o.d (fun _ => immOf o.ty o.imm) fun _ => 0) ∧
    (∀ o : QS, LaneReady s T slot o.g o.names →
      LaneWrites s T slot (.isel o) o.g (isPair o.ty) o.d
        (fun l => if T.qv o.q.toNat l = .t then T.in o.ty o.b l else T.in o.ty o.c l) fun _ => 0) ∧
    (∀ o : QSi, LaneReady s T slot o.g o.names →
      LaneWrites s T slot (.iselImm o) o.g (isPair o.ty) o.d
        (fun l => if T.qv o.q.toNat l = .t then T.in o.ty o.b l else immOf o.ty o.imm) fun _ => 0)

/-- R127: on the point types ICMP compares one element, or both under `.all`, and always decides each. -/
def Obligations.LaneIntegerCompare : Prop :=
  ∀ (s : State) (T : Team) (slot : Nat) (c : Cond) (es : HSel),
    let rel := fun (n a b : Nat) =>
      let x := BitVec.ofNat n a
      let y := BitVec.ofNat n b
      match c with
      | .eq => a = b | .ne => a ≠ b
      | .lt => x.toInt < y.toInt | .le => x.toInt ≤ y.toInt | .gt => y.toInt < x.toInt | .ge => y.toInt ≤ x.toInt
      | .ltu => a < b | .leu => a ≤ b | .gtu => b < a | .geu => b ≤ a
    let verdict := fun (ty : LTy) (a b : Nat → Pair) (v : Nat → Tri) => ∀ l,
      let r := fun e => rel (elemW ty) (elemOf ty (a l).even e) (elemOf ty (b l).even e)
      (es = .lo → (v l = .t ↔ r 0) ∧ (v l = .f ↔ ¬ r 0)) ∧
      (es = .hi → elemCount ty = 2 → (v l = .t ↔ r 1) ∧ (v l = .f ↔ ¬ r 1)) ∧
      (es = .all → (v l = .t ↔ ∀ e < elemCount ty, r e) ∧ (v l = .f ↔ ∀ e < elemCount ty, ¬ r e))
    (∀ o : C2, o.ty ∈ [LTy.i32, .n32, .i64, .n64] → LaneReady s T slot o.g o.names →
      ∃ v, LaneSetsPred s T slot (.icmp o c es) o.g o.d v (fun _ => 0) ∧ verdict o.ty (T.in o.ty o.a) (T.in o.ty o.b) v) ∧
    (∀ o : C1i, o.ty ∈ [LTy.i32, .n32, .i64, .n64] → LaneReady s T slot o.g o.names →
      ∃ v, LaneSetsPred s T slot (.icmpImm o c es) o.g o.d v (fun _ => 0) ∧
        verdict o.ty (T.in o.ty o.a) (fun _ => immOf o.ty o.imm) v)

/-- R92, R94, R109 to R112: on the point types each element is read in its format, the operation gives its value and flags, and
the lane gains the OR of the flags. The immediate forms read R46's operand. R94: an operand that is a NaN makes the result of
FADD, FSUB, FMUL, FDIV, FFMA, FSQRT, FRCP, FRSQ, FEXP2 and FLOG2 the canonical quiet NaN, with NV for a signalling one; and
every invalid operation of the list gives it with NV whatever else the operands hold. An approximated result is one of the two
neighbours of the exact value, by a free function of the operand (log 9). -/
def Obligations.LanePoints : Prop :=
  (∀ (s : State) (T : Team) (slot : Nat) (rm : RM),
     let num := fun (ty : LTy) (a : Nat → Pair) (l e : Nat) => (fmtOf ty).read (elemOf ty (a l).even e)
     let raw := fun (ty : LTy) (a : Nat → Pair) (l e : Nat) => elemOf ty (a l).even e
     let table := fun (ty : LTy) (a b : Nat → Pair) (is : Instr → (Nat → Nat → Nat × FFlags) → Prop)
         (fadd fsub fmul fdiv fmin fmax : Instr) =>
       let f := fmtOf ty
       is fadd (fun l e => fpAdd f rm (num ty a l e) (num ty b l e)) ∧
       is fsub (fun l e => fpSub f rm (num ty a l e) (num ty b l e)) ∧
       is fmul (fun l e => fpMul f rm (num ty a l e) (num ty b l e)) ∧
       is fdiv (fun l e => fpDiv f rm (num ty a l e) (num ty b l e)) ∧
       is fmin (fun l e => fpMinMax f false (raw ty a l e) (raw ty b l e)) ∧
       is fmax (fun l e => fpMinMax f true (raw ty a l e) (raw ty b l e))
     (∀ o : V2, o.ty ∈ [LTy.pt32, .pt64, .bf16] → LaneReady s T slot o.g o.names →
       table o.ty (T.in o.ty o.a) (T.in o.ty o.b) (fun i f => LaneFloats s T slot i o.g o.ty o.d f)
         (.fadd o rm) (.fsub o rm) (.fmul o rm) (.fdiv o rm) (.fmin o) (.fmax o)) ∧
     (∀ o : V1i, o.ty ∈ [LTy.pt32, .pt64, .bf16] → LaneReady s T slot o.g o.names →
       table o.ty (T.in o.ty o.a) (fun _ => immOf o.ty o.imm) (fun i f => LaneFloats s T slot i o.g o.ty o.d f)
         (.faddImm o rm) (.fsubImm o rm) (.fmulImm o rm) (.fdivImm o rm) (.fminImm o) (.fmaxImm o)) ∧
     (∀ o : V3, o.ty ∈ [LTy.pt32, .pt64, .bf16] → LaneReady s T slot o.g o.names →
       LaneFloats s T slot (.ffma o rm) o.g o.ty o.d fun l e => fpFma (fmtOf o.ty) rm
         (num o.ty (T.in o.ty o.a) l e) (num o.ty (T.in o.ty o.b) l e) (num o.ty (T.in o.ty o.c) l e)) ∧
     (∀ o : V2i, o.ty ∈ [LTy.pt32, .pt64, .bf16] → LaneReady s T slot o.g o.names →
       LaneFloats s T slot (.ffmaImm o rm) o.g o.ty o.d fun l e => fpFma (fmtOf o.ty) rm
         (num o.ty (T.in o.ty o.a) l e) (num o.ty (T.in o.ty o.b) l e) (num o.ty (fun _ => immOf o.ty o.imm) l e)) ∧
     (∀ o : V1, o.ty ∈ [LTy.pt32, .pt64, .bf16] → LaneReady s T slot o.g o.names →
       let f := fmtOf o.ty
       let x := num o.ty (T.in o.ty o.a)
       let r := raw o.ty (T.in o.ty o.a)
       let is := fun i f => LaneFloats s T slot i o.g o.ty o.d f
       is (.fsqrt o rm) (fun l e => fpSqrt f rm (x l e)) ∧ is (.frcp o rm) (fun l e => fpRcp f rm (r l e) (x l e)) ∧
       is (.frsq o rm) (fun l e => fpRsq f rm (r l e) (x l e)) ∧ is (.fexp2 o rm) (fun l e => fpExp2 f rm (r l e) (x l e)) ∧
       is (.flog2 o rm) (fun l e => fpLog2 f rm (r l e) (x l e)) ∧
       is (.fabs o) (fun l e => if (x l e).isNan then (f.nanBits, flagIf (x l e).sNan fNV) else (r l e % f.signBit, 0)) ∧
       is (.fneg o) (fun l e => if (x l e).isNan then (f.nanBits, flagIf (x l e).sNan fNV)
         else ((r l e + f.signBit) % 2 ^ f.width, 0)))) ∧
  (∀ (f : Fmt) (rm : RM) (a b c : FV),
     ((a.isNan = true ∨ b.isNan = true) →
       fpAdd f rm a b = (f.nanBits, flagIf (a.sNan || b.sNan) fNV) ∧
       fpSub f rm a b = (f.nanBits, flagIf (a.sNan || b.sNan) fNV) ∧
       fpMul f rm a b = (f.nanBits, flagIf (a.sNan || b.sNan) fNV) ∧
       fpDiv f rm a b = (f.nanBits, flagIf (a.sNan || b.sNan) fNV)) ∧
     (a.isNan = true → fpSqrt f rm a = (f.nanBits, flagIf a.sNan fNV)) ∧
     ((a.isNan = true ∨ b.isNan = true) →
       fpFma f rm a b c = (f.nanBits, flagIf (a.sNan || b.sNan || c.sNan) fNV)) ∧
     (∀ n : Bool, a.isZero = true → b = .inf n →
       fpMul f rm a b = (f.nanBits, fNV) ∧ fpMul f rm b a = (f.nanBits, fNV) ∧
       fpFma f rm a b c = (f.nanBits, fNV) ∧ fpFma f rm b a c = (f.nanBits, fNV)) ∧
     (∀ n : Bool, a = .inf n → b = .inf (!n) → fpAdd f rm a b = (f.nanBits, fNV) ∧ fpSub f rm a a = (f.nanBits, fNV)) ∧
     (a.isZero = true → b.isZero = true → fpDiv f rm a b = (f.nanBits, fNV)) ∧
     (∀ n m : Bool, a = .inf n → b = .inf m → fpDiv f rm a b = (f.nanBits, fNV)) ∧
     (c.isNan = true → (∀ n : Bool, a.isZero = true → b ≠ .inf n) → (∀ n : Bool, b.isZero = true → a ≠ .inf n) →
       fpFma f rm a b c = (f.nanBits, flagIf (a.sNan || b.sNan || c.sNan) fNV)) ∧
     (∀ n : Bool, a = .inf n → b.isNan = false → b.isZero = false → c = .inf (!(n != b.neg)) →
       fpFma f rm a b c = (f.nanBits, fNV) ∧ fpFma f rm b a c = (f.nanBits, fNV)) ∧
     (∀ key : Nat, a.isNan = true →
       fpRcp f rm key a = (f.nanBits, flagIf a.sNan fNV) ∧ fpRsq f rm key a = (f.nanBits, flagIf a.sNan fNV) ∧
       fpExp2 f rm key a = (f.nanBits, flagIf a.sNan fNV) ∧ fpLog2 f rm key a = (f.nanBits, flagIf a.sNan fNV)) ∧
     (∀ key : Nat, a.neg = true → a.isZero = false →
       fpSqrt f rm a = (f.nanBits, fNV) ∧ fpRsq f rm key a = (f.nanBits, fNV) ∧ fpLog2 f rm key a = (f.nanBits, fNV)))

/-- R84 to R87, R109, R111 to R113: on the interval types the operands are read by R82, and each executing lane holds the bounds
of the operation's interval and gains its flags. No interval instruction sets UF: the model's reading (log 76). -/
def Obligations.LaneIntervals : Prop :=
  ∀ (s : State) (T : Team) (slot : Nat) (rm : RM),
    let table := fun (ty : LTy) (a b : Nat → Pair) (is : Instr → (Nat → IvOut) → Prop)
        (fadd fsub fmul fdiv fmin fmax fhull fcap : Instr) =>
      let f := fmtOf ty
      let x := fun l => readIvP ty (a l)
      let y := fun l => readIvP ty (b l)
      is fadd (fun l => ivArith f ivAdd (x l) (y l)) ∧ is fsub (fun l => ivArith f ivSub (x l) (y l)) ∧
      is fmul (fun l => ivArith f ivMul (x l) (y l)) ∧
      is fdiv (fun l => if (x l).iv.isSome ∧ hasZero (y l).iv then
          (f.entire.flag (fDZ ||| fWD ||| flagIf (allFinite [(x l).iv, (y l).iv]) fUN)).flag ((x l).fl ||| (y l).fl)
        else ivArith f ivDiv (x l) (y l)) ∧
      is fmin (fun l => ivArith f ivMin (x l) (y l)) ∧ is fmax (fun l => ivArith f ivMax (x l) (y l)) ∧
      is fhull (fun l => ivArith f ivHull (x l) (y l)) ∧ is fcap (fun l => ivArith f ivCap (x l) (y l))
    (∀ o : V2, isIv o.ty = true → LaneReady s T slot o.g o.names →
      table o.ty (T.in o.ty o.a) (T.in o.ty o.b)
        (fun i r => LaneWrites s T slot i o.g (isPair o.ty) o.d (fun l => ofLoHi o.ty (r l).lo (r l).hi) fun l => (r l).fl)
        (.fadd o rm) (.fsub o rm) (.fmul o rm) (.fdiv o rm) (.fmin o) (.fmax o) (.fhull o) (.fcap o)) ∧
    (∀ o : V1i, isIv o.ty = true → LaneReady s T slot o.g o.names →
      table o.ty (T.in o.ty o.a) (fun _ => immOf o.ty o.imm)
        (fun i r => LaneWrites s T slot i o.g (isPair o.ty) o.d (fun l => ofLoHi o.ty (r l).lo (r l).hi) fun l => (r l).fl)
        (.faddImm o rm) (.fsubImm o rm) (.fmulImm o rm) (.fdivImm o rm) (.fminImm o) (.fmaxImm o) (.fhullImm o) (.fcapImm o)) ∧
    (∀ o : V3, isIv o.ty = true → LaneReady s T slot o.g o.names →
      let r := fun l => ivFmaOp (fmtOf o.ty) (readIvP o.ty (T.in o.ty o.a l)) (readIvP o.ty (T.in o.ty o.b l))
        (readIvP o.ty (T.in o.ty o.c l))
      LaneWrites s T slot (.ffma o rm) o.g (isPair o.ty) o.d (fun l => ofLoHi o.ty (r l).lo (r l).hi) fun l => (r l).fl) ∧
    (∀ o : V2i, isIv o.ty = true → LaneReady s T slot o.g o.names →
      let r := fun l => ivFmaOp (fmtOf o.ty) (readIvP o.ty (T.in o.ty o.a l)) (readIvP o.ty (T.in o.ty o.b l))
        (readIvP o.ty (immOf o.ty o.imm))
      LaneWrites s T slot (.ffmaImm o rm) o.g (isPair o.ty) o.d (fun l => ofLoHi o.ty (r l).lo (r l).hi) fun l => (r l).fl)

/-- R85, R86, R112, R114, R115, R117: the one-operand interval instructions, FMK, and FCLASS, which writes one register and sets
no flag; the one-point results of FLO, FHI, FMID, FRAD and FWID, the interval that FMK makes and the bits of the masks, in
numbers. Approximated bounds rest on log 9. -/
def Obligations.LaneIntervalUnary : Prop :=
  ∀ (s : State) (T : Team) (slot : Nat) (rm : RM),
    (∀ o : V1, isIv o.ty = true → LaneReady s T slot o.g o.names →
      let f := fmtOf o.ty
      let key := fun l => (T.in o.ty o.a l).toNat
      let x := fun l => readIvP o.ty (T.in o.ty o.a l)
      let is := fun i (r : Nat → IvOut) =>
        LaneWrites s T slot i o.g (isPair o.ty) o.d (fun l => ofLoHi o.ty (r l).lo (r l).hi) fun l => (r l).fl
      is (.fsqrt o rm) (fun l => ivSqrtOp f (x l)) ∧ is (.frcp o rm) (fun l => ivRcpOp f (key l) (x l)) ∧
      is (.frsq o rm) (fun l => ivRsqOp f (key l) (x l)) ∧ is (.fexp2 o rm) (fun l => ivExp2Op f (key l) (x l)) ∧
      is (.flog2 o rm) (fun l => ivLog2Op f (key l) (x l)) ∧
      is (.fabs o) (fun l => (f.tight (allFinite [(x l).iv]) (ivAbs (x l).iv)).flag (x l).fl) ∧
      is (.fneg o) (fun l => (f.tight (allFinite [(x l).iv]) (ivNeg (x l).iv)).flag (x l).fl) ∧
      is (.fmid o) (fun l => f.oneOf .mid (x l)) ∧ is (.frad o) (fun l => f.oneOf .rad (x l)) ∧
      is (.fwid o) (fun l => f.oneOf .wid (x l)) ∧ is (.flo o) (fun l => f.oneOf .lo (x l)) ∧
      is (.fhi o) (fun l => f.oneOf .hi (x l))) ∧
    (∀ o : V2, isIv o.ty = true → LaneReady s T slot o.g o.names →
      let r := fun l => (fmtOf o.ty).mk' (loHi o.ty (T.in o.ty o.a l)).1 (loHi o.ty (T.in o.ty o.b l)).1
      LaneWrites s T slot (.fmk o) o.g (isPair o.ty) o.d (fun l => ofLoHi o.ty (r l).lo (r l).hi) fun l => (r l).fl) ∧
    (∀ o : V1, isIv o.ty = true → LaneReady s T slot o.g o.names →
      LaneWrites s T slot (.fclass o) o.g false o.d
        (fun l => Word.toPair (BitVec.ofNat 64
          ((fmtOf o.ty).classIv (loHi o.ty (T.in o.ty o.a l)).1 (loHi o.ty (T.in o.ty o.a l)).2))) fun _ => 0) ∧
    (∀ o : V1, o.ty ∈ [LTy.pt32, .pt64, .bf16] → LaneReady s T slot o.g o.names →
      LaneElems s T slot (.fclass o) o.g o.ty o.d fun l e => fpClass (fmtOf o.ty) (elemOf o.ty (T.in o.ty o.a l).even e)) ∧
    -- what these write, in the numbers that the bounds stand for
    let num : Dy → ℝ := fun d => d.m * (2 : ℝ) ^ d.e
    let val : FV → EReal := fun v => match v with
      | .inf n => if n then ⊥ else ⊤
      | v => (num v.dy : EReal)
    let bd : Bd → EReal := fun b => match b with
      | .ninf => ⊥
      | .pinf => ⊤
      | .fin d => (num d : EReal)
    (∀ f ∈ [f32, f64], ∀ lo < 2 ^ f.width, ∀ hi < 2 ^ f.width,
      let X := f.readIv lo hi
      -- one point: a number twice, +0 for a zero, or an infinity in its half-open form
      let one := fun (v : EReal) (r : IvOut) =>
        (v = ⊤ → r.lo = f.maxBits ∧ r.hi = f.inf false) ∧ (v = ⊥ → r.lo = f.inf true ∧ r.hi = f.signBit + f.maxBits) ∧
        (v ≠ ⊤ → v ≠ ⊥ → r.lo = r.hi ∧ r.lo < 2 ^ f.width ∧ r.lo ≠ f.signBit ∧ (f.read r.lo).isNan = false ∧ val (f.read r.lo) = v)
      let is := fun (v : EReal) (fl : FFlags) (r : IvOut) => one v r ∧ r.fl = fl
      let max := val (f.read f.maxBits)
      -- rounded up to a number of the format, with the flags of the rounding and of a bound that becomes infinite
      let up := fun (d : ℝ) (r : IvOut) => ∃ v : EReal, (d : EReal) ≤ v ∧
        (∃ p < 2 ^ f.width, (f.read p).isNan = false ∧ val (f.read p) = v) ∧
        (∀ q < 2 ^ f.width, (f.read q).isNan = false → (d : EReal) ≤ val (f.read q) → v ≤ val (f.read q)) ∧
        is v ((if v = d then 0 else fNX) ||| if v = ⊤ then fOF ||| fUN else 0) r
      (X.iv = none → ∀ sel, f.oneOf sel X = ⟨f.inf false, f.inf true, X.fl⟩) ∧
      (∀ a b, X.iv = some (a, b) →
        is (bd a) 0 (f.oneOf .lo X) ∧ is (bd b) 0 (f.oneOf .hi X) ∧
        (bd a = ⊥ → bd b = ⊤ → is 0 0 (f.oneOf .mid X)) ∧ (bd a = ⊥ → bd b ≠ ⊤ → is (-max) 0 (f.oneOf .mid X)) ∧
        (bd a ≠ ⊥ → bd b = ⊤ → is max 0 (f.oneOf .mid X)) ∧
        (bd a = ⊥ ∨ bd b = ⊤ → is ⊤ 0 (f.oneOf .rad X) ∧ is ⊤ 0 (f.oneOf .wid X)) ∧
        (∀ x y : ℝ, bd a = x → bd b = y → ∃ m : ℝ, (∃ p < 2 ^ f.width, (f.read p).isNan = false ∧ val (f.read p) = m ∧
            (∀ q < 2 ^ f.width, ∀ z : ℝ, (f.read q).isNan = false → val (f.read q) = z → |(x + y) / 2 - m| ≤ |(x + y) / 2 - z| ∧
              (|(x + y) / 2 - m| = |(x + y) / 2 - z| → z = m ∨ p % 2 = 0))) ∧
          is m (if m = (x + y) / 2 then 0 else fNX) (f.oneOf .mid X) ∧
          up (Max.max (m - x) (y - m)) (f.oneOf .rad X) ∧ up (y - x) (f.oneOf .wid X))) ∧
      -- FMK makes [a, b] of two points, where they bound an interval
      (let x := f.read lo
       let y := f.read hi
       ((x.isNan = true ∨ y.isNan = true ∨ val y < val x ∨ val x = ⊤ ∨ val y = ⊥) →
         f.mk' lo hi = ⟨f.inf false, f.inf true, fNV⟩) ∧
       (x.isNan = false → y.isNan = false → val x ≤ val y → val x ≠ ⊤ → val y ≠ ⊥ →
         f.mk' lo hi = ⟨if lo = f.signBit then 0 else lo, if hi = f.signBit then 0 else hi, 0⟩)) ∧
      -- the class mask of an interval
      (let x := val (f.read lo)
       let y := val (f.read hi)
       let ill := (f.read lo).isNan = true ∨ (f.read hi).isNan = true ∨ y < x ∨ x = ⊤ ∨ y = ⊥
       let mask := f.classIv lo hi
       (lo = f.inf false → hi = f.inf true → mask = 1) ∧ (¬(lo = f.inf false ∧ hi = f.inf true) → ill → mask = 4) ∧
       (¬ ill → (mask.testBit 1 = true ↔ x = ⊥ ∧ y = ⊤) ∧ (mask.testBit 3 = true ↔ x = y) ∧ (mask.testBit 4 = true ↔ x ≤ 0 ∧ 0 ≤ y) ∧
         (mask.testBit 5 = true ↔ x = ⊥) ∧ (mask.testBit 6 = true ↔ y = ⊤) ∧ (mask.testBit 7 = true ↔ 0 ≤ x) ∧
         (mask.testBit 8 = true ↔ y ≤ 0) ∧ mask.testBit 0 = false ∧ mask.testBit 2 = false ∧ mask < 2 ^ 9))) ∧
    -- the class of a point, by the ranges of its bits
    (∀ f ∈ [f32, f64, fb16], ∀ b < 2 ^ f.width,
      let m := b % f.signBit
      let minus := f.signBit ≤ b
      (m = f.infBits → fpClass f b = if minus then 2 ^ 0 else 2 ^ 7) ∧
      (2 ^ f.mb ≤ m → m < f.infBits → fpClass f b = if minus then 2 ^ 1 else 2 ^ 6) ∧
      (0 < m → m < 2 ^ f.mb → fpClass f b = if minus then 2 ^ 2 else 2 ^ 5) ∧
      (m = 0 → fpClass f b = if minus then 2 ^ 3 else 2 ^ 4) ∧
      (f.infBits < m → m < f.nanBits → fpClass f b = 2 ^ 8) ∧ (f.nanBits ≤ m → fpClass f b = 2 ^ 9))

/-- R89, R90, R116, R118: FCMP decides as the type's relation does, over one element or under `.all` over every one; FSEL takes
b or c, and under an undecided predicate the hull of intervals and c of points. -/
def Obligations.LaneFloatPredicates : Prop :=
  ∀ (s : State) (T : Team) (slot : Nat) (c : FCond) (es : BitVec 3),
    let points := fun (ty : LTy) (a b : Nat → Pair) (v : Nat → Tri) (fl : Nat → FFlags) => ∀ l,
      let r := fun e => fpCmp c ((fmtOf ty).read (elemOf ty (a l).even e)) ((fmtOf ty).read (elemOf ty (b l).even e))
      (es.toNat < elemCount ty → es ≠ 4 → v l = (r es.toNat).1 ∧ fl l = (r es.toNat).2) ∧
      (es = 4 → (v l = .t ↔ ∀ e < elemCount ty, (r e).1 = .t) ∧ (v l = .f ↔ ∀ e < elemCount ty, (r e).1 = .f) ∧
        fl l = orElems ty fun e => (r e).2)
    (∀ o : C2, o.ty ∈ [LTy.pt32, .pt64, .bf16] → LaneReady s T slot o.g o.names →
      ∃ v fl, LaneSetsPred s T slot (.fcmp o c es) o.g o.d v fl ∧ points o.ty (T.in o.ty o.a) (T.in o.ty o.b) v fl) ∧
    (∀ o : C1i, o.ty ∈ [LTy.pt32, .pt64, .bf16] → LaneReady s T slot o.g o.names →
      ∃ v fl, LaneSetsPred s T slot (.fcmpImm o c es) o.g o.d v fl ∧
        points o.ty (T.in o.ty o.a) (fun _ => immOf o.ty o.imm) v fl) ∧
    (∀ o : C2, isIv o.ty = true → LaneReady s T slot o.g o.names →
      LaneSetsPred s T slot (.fcmp o c es) o.g o.d
        (fun l => ivCmp c (readIvP o.ty (T.in o.ty o.a l)).iv (readIvP o.ty (T.in o.ty o.b l)).iv)
        fun l => (readIvP o.ty (T.in o.ty o.a l)).fl ||| (readIvP o.ty (T.in o.ty o.b l)).fl) ∧
    (∀ o : C1i, isIv o.ty = true → LaneReady s T slot o.g o.names →
      LaneSetsPred s T slot (.fcmpImm o c es) o.g o.d
        (fun l => ivCmp c (readIvP o.ty (T.in o.ty o.a l)).iv (readIvP o.ty (immOf o.ty o.imm)).iv)
        fun l => (readIvP o.ty (T.in o.ty o.a l)).fl ||| (readIvP o.ty (immOf o.ty o.imm)).fl) ∧
    let pick := fun (ty : LTy) (q : Tri) (x y : Pair) =>
      let h := ivArith (fmtOf ty) ivHull (readIvP ty x) (readIvP ty y)
      match q with
      | .t => (x, 0) | .f => (y, 0) | .u => if isIv ty then (ofLoHi ty h.lo h.hi, h.fl) else (y, 0)
    (∀ o : QS, LaneReady s T slot o.g o.names →
      LaneWrites s T slot (.fsel o) o.g (isPair o.ty) o.d
        (fun l => (pick o.ty (T.qv o.q.toNat l) (T.in o.ty o.b l) (T.in o.ty o.c l)).1)
        fun l => (pick o.ty (T.qv o.q.toNat l) (T.in o.ty o.b l) (T.in o.ty o.c l)).2) ∧
    (∀ o : QSi, LaneReady s T slot o.g o.names →
      LaneWrites s T slot (.fselImm o) o.g (isPair o.ty) o.d
        (fun l => (pick o.ty (T.qv o.q.toNat l) (T.in o.ty o.b l) (immOf o.ty o.imm)).1)
        fun l => (pick o.ty (T.qv o.q.toNat l) (T.in o.ty o.b l) (immOf o.ty o.imm)).2) ∧
    -- the relations, in the numbers that are compared
    let num : Dy → ℝ := fun d => d.m * (2 : ℝ) ^ d.e
    let bd : Bd → EReal := fun b => match b with
      | .ninf => ⊥
      | .pinf => ⊤
      | .fin d => (num d : EReal)
    let val : FV → EReal := fun v => match v with
      | .inf n => if n then ⊥ else ⊤
      | v => (num v.dy : EReal)
    (∀ X Y : Iv, X = none ∨ Y = none → ivCmp c X Y = .f) ∧
    (∀ p q p' q' : Bd, bd p ≤ bd q → bd p' ≤ bd q' →
      let a := bd p
      let b := bd q
      let a' := bd p'
      let b' := bd q'
      let tells := fun (k : FCond) (yes no : Prop) => let r := ivCmp k (some (p, q)) (some (p', q'))
        (r = .t ↔ yes) ∧ (r = .f ↔ no)
      let apart := b < a' ∨ b' < a
      let same := a = b ∧ b = a' ∧ a' = b'
      tells .lt (b < a') (b' ≤ a) ∧ tells .le (b ≤ a') (b' < a) ∧ tells .gt (b' < a) (b ≤ a') ∧ tells .ge (b' ≤ a) (b < a') ∧
      tells .eq same apart ∧ tells .ne apart same ∧ tells .subset (a' ≤ a ∧ b ≤ b') (¬(a' ≤ a ∧ b ≤ b')) ∧
      tells .disjoint apart (¬ apart) ∧ tells .contains (a ≤ a' ∧ b' ≤ b) apart) ∧
    (∀ x y : FV, (x.isNan = true ∨ y.isNan = true → fpCmp c x y = (.u, fNV)) ∧
      (x.isNan = false → y.isNan = false →
        let tells := fun (k : FCond) (yes : Prop) => (yes → fpCmp k x y = (.t, 0)) ∧ (¬ yes → fpCmp k x y = (.f, 0))
        tells .eq (val x = val y) ∧ tells .ne (val x ≠ val y) ∧ tells .lt (val x < val y) ∧ tells .le (val x ≤ val y) ∧
        tells .gt (val y < val x) ∧ tells .ge (val y ≤ val x)))

/-- R82, R91, R123: on .ivi32, the integer instructions read their operands with open ends for infinities, a pattern whose lower
bound is the greater as empty, with NV and IL unless it is the canonical one. An empty operand gives canonical empty; else the
bounds are the exact ones, or the full range with OF and WD where a finite bound lies outside. R89, R127: ICMP decides by the
table of three values, and nothing holds of an empty operand. -/
def Obligations.LaneIntegerIntervals : Prop :=
  ∀ (s : State) (T : Team) (slot : Nat) (sat : Bool) (c : Cond) (es : HSel),
    let low := fun (w : Word) => ((w.toNat % 2 ^ 32 : Nat) : Int).bmod (2 ^ 32)
    let high := fun (w : Word) => ((w.toNat / 2 ^ 32 : Nat) : Int).bmod (2 ^ 32)
    let isEmpty := fun (w : Word) => high w < low w
    let il := fun (w : Word) => if high w < low w ∧ w ≠ 0x800000007FFFFFFF then fNV ||| fIL else (0 : FFlags)
    let lo := fun (w : Word) => if low w = -2 ^ 31 then (⊥ : EReal) else ((low w : ℝ) : EReal)
    let hi := fun (w : Word) => if high w = 2 ^ 31 - 1 then (⊤ : EReal) else ((high w : ℝ) : EReal)
    let put := fun (x y : EReal) (r : Word × FFlags) =>
      let bad := fun (x : EReal) => ∃ z : ℤ, x = ((z : ℝ) : EReal) ∧ (z < -2 ^ 31 ∨ 2 ^ 31 - 1 < z)
      ((bad x ∨ bad y) → r = (0x7FFFFFFF80000000, fOF ||| fWD)) ∧
      (¬ bad x → ¬ bad y → ∃ p q : ℤ, (x = ⊥ ∧ p = -2 ^ 31 ∨ x = ((p : ℝ) : EReal)) ∧
        (y = ⊤ ∧ q = 2 ^ 31 - 1 ∨ y = ((q : ℝ) : EReal)) ∧ r = (packIvi p q, 0))
    let table := fun (a b : Nat → Word) (is : Instr → (Nat → Word × FFlags) → Prop)
        (iadd isub imul imin imax : Instr) =>
      ∃ add sub mul mn mx : Nat → Word × FFlags,
        is iadd add ∧ is isub sub ∧ is imul mul ∧ is imin mn ∧ is imax mx ∧
        ∀ l,
          ((isEmpty (a l) ∨ isEmpty (b l)) → ∀ r ∈ [add l, sub l, mul l, mn l, mx l],
            r = (0x800000007FFFFFFF, il (a l) ||| il (b l))) ∧
          (¬ isEmpty (a l) → ¬ isEmpty (b l) →
            let p := lo (a l)
            let q := hi (a l)
            let u := lo (b l)
            let v := hi (b l)
            put (p + u) (q + v) (add l) ∧ put (p - v) (q - u) (sub l) ∧
            put (min (min (p * u) (p * v)) (min (q * u) (q * v))) (max (max (p * u) (p * v)) (max (q * u) (q * v))) (mul l) ∧
            put (min p u) (min q v) (mn l) ∧ put (max p u) (max q v) (mx l))
    let verdict := fun (a b : Word) (v : Tri) (fl : FFlags) =>
      let p := lo a
      let q := hi a
      let u := lo b
      let w := hi b
      let same := p = q ∧ q = u ∧ u = w
      let apart := q < u ∨ w < p
      let is := fun (yes no : Prop) => (v = .t ↔ yes) ∧ (v = .f ↔ no)
      fl = il a ||| il b ∧ ((isEmpty a ∨ isEmpty b) → v = .f) ∧
      (¬ isEmpty a → ¬ isEmpty b →
        (c = .lt → is (q < u) (w ≤ p)) ∧ (c = .le → is (q ≤ u) (w < p)) ∧ (c = .gt → is (w < p) (q ≤ u)) ∧
        (c = .ge → is (w ≤ p) (q < u)) ∧ (c = .eq → is same apart) ∧ (c = .ne → is apart same))
    (∀ o : V2, o.ty = .ivi32 → LaneReady s T slot o.g o.names →
      table (fun l => (T.in o.ty o.a l).even) (fun l => (T.in o.ty o.b l).even)
        (fun i r => LaneWrites s T slot i o.g false o.d (fun l => (r l).1.toPair) fun l => (r l).2)
        (.iadd o sat) (.isub o sat) (.imul o sat) (.imin o) (.imax o)) ∧
    (∀ o : V1i, o.ty = .ivi32 → LaneReady s T slot o.g o.names →
      table (fun l => (T.in o.ty o.a l).even) (fun _ => (immOf o.ty o.imm).even)
        (fun i r => LaneWrites s T slot i o.g false o.d (fun l => (r l).1.toPair) fun l => (r l).2)
        (.iaddImm o sat) (.isubImm o sat) (.imulImm o sat) (.iminImm o) (.imaxImm o)) ∧
    (∀ o : C2, o.ty = .ivi32 → LaneReady s T slot o.g o.names →
      ∃ v fl, LaneSetsPred s T slot (.icmp o c es) o.g o.d v fl ∧
        ∀ l, verdict (T.in o.ty o.a l).even (T.in o.ty o.b l).even (v l) (fl l)) ∧
    (∀ o : C1i, o.ty = .ivi32 → LaneReady s T slot o.g o.names →
      ∃ v fl, LaneSetsPred s T slot (.icmpImm o c es) o.g o.d v fl ∧
        ∀ l, verdict (T.in o.ty o.a l).even (immOf o.ty o.imm).even (v l) (fl l))

/-- R129, R130: CVT, row by row: elements between integers and points, the point widths, and the conversions to and from
intervals, each source read by its own type. R130: a NaN gives 0 with NV, an infinity or a rounded value beyond the range the
nearest end with NV, and any other value its rounded integer with NX when it changed. -/
def Obligations.LaneConversions : Prop :=
  (∀ (s : State) (T : Team) (slot : Nat) (o : V1) (sty : LTy) (es : HSel) (rm : RM),
     LaneReady s T slot o.g { srcs := srcsOf sty [o.a], dst := dstOf o.ty o.d } →
     let i := Instr.cvt o sty es rm
     let x := fun l => (T.in sty o.a l).even
     let half := fun l => elemOf .pt32 (x l) (if es = .hi then 1 else 0)
     let toPoint := LaneFloats s T slot i o.g o.ty o.d fun l e =>
       (fmtOf o.ty).round rm ⟨asInt (isSigned sty) (elemW sty) (elemOf sty (x l) e), 0⟩
     let toInt := LaneFloats s T slot i o.g o.ty o.d fun l e =>
       let r := fpToInt rm (isSigned o.ty) (elemW o.ty) ((fmtOf sty).read (elemOf sty (x l) e))
       (wrapTo (elemW o.ty) r.1, r.2)
     let toIv := fun (r : Nat → IvOut) =>
       LaneWrites s T slot i o.g (isPair o.ty) o.d (fun l => ofLoHi o.ty (r l).lo (r l).hi) fun l => (r l).fl
     (o.ty = .pt32 → sty ∈ [LTy.i32, .n32] → toPoint) ∧ (o.ty = .pt64 → sty ∈ [LTy.i64, .n64] → toPoint) ∧
     (o.ty ∈ [LTy.i32, .n32] → sty = .pt32 → toInt) ∧ (o.ty ∈ [LTy.i64, .n64] → sty = .pt64 → toInt) ∧
     (o.ty = .pt32 → sty = .pt64 → ∃ val : Nat → Word,
       LaneWrites s T slot i o.g false o.d (fun l => (val l).toPair) (fun l => (f32.put rm (f64.read (x l).toNat)).2) ∧
       ∀ l e, e < 2 → elemOf .pt32 (val l) e = (f32.put rm (f64.read (x l).toNat)).1 % 2 ^ 32) ∧
     (o.ty = .pt64 → sty = .pt32 → LaneFloats s T slot i o.g o.ty o.d fun l _ => f64.put rm (f32.read (half l))) ∧
     (o.ty = .iv32 → sty = .pt32 → toIv fun l => f32.ofPoint (half l)) ∧
     (o.ty = .iv64 → sty = .pt64 → toIv fun l => f64.ofPoint (x l).toNat) ∧
     (o.ty = .iv32 → sty = .iv64 → toIv fun l =>
       let r := readIvP .iv64 (T.in sty o.a l)
       (f32.tight (allFinite [r.iv]) r.iv).flag r.fl) ∧
     (o.ty = .iv64 → sty = .iv32 → toIv fun l =>
       let r := readIvP .iv32 (T.in sty o.a l)
       (f64.tight (allFinite [r.iv]) r.iv).flag r.fl) ∧
     (o.ty = .iv32 → sty = .ivi32 → toIv fun l => (f32.tight (allFinite [(readIvi (x l)).iv]) (readIvi (x l)).iv).flag (readIvi (x l)).fl) ∧
     (o.ty = .ivi32 → sty = .iv32 → LaneWrites s T slot i o.g false o.d
       (fun l => (iviOfIv (readIvP .iv32 (T.in sty o.a l))).1.toPair) fun l => (iviOfIv (readIvP .iv32 (T.in sty o.a l))).2)) ∧
  (∀ (rm : RM) (signed : Bool) (n : Nat) (v : FV), (n = 32 ∨ n = 64) →
     let lo : Int := if signed then -(2 ^ (n - 1)) else 0
     let hi : Int := if signed then 2 ^ (n - 1) - 1 else 2 ^ n - 1
     (v.isNan = true → fpToInt rm signed n v = (0, fNV)) ∧
     (∀ b, v = .inf b → fpToInt rm signed n v = (if b then lo else hi, fNV)) ∧
     (∀ b m e, v = .fin b m e →
       ((v.dy.toInt rm).1 < lo → fpToInt rm signed n v = (lo, fNV)) ∧
       (hi < (v.dy.toInt rm).1 → fpToInt rm signed n v = (hi, fNV)) ∧
       (lo ≤ (v.dy.toInt rm).1 → (v.dy.toInt rm).1 ≤ hi →
         fpToInt rm signed n v = ((v.dy.toInt rm).1, flagIf (v.dy.toInt rm).2 fNX))))

/-- R131, R132: PACK rounds or clamps two registers into one, UNPK widens the selected part of one. R194 to R197, R213: QNT
writes its codes into consecutive slots of D and keeps the others; QNT.scale replaces the scale code of its descriptor; DQN
decodes consecutive slots; PLANE transposes bits. -/
def Obligations.LanePackingAndNarrowing : Prop :=
  (∀ (s : State) (T : Team) (slot : Nat) (rm : RM) (es : HSel),
     (∀ o : V2, o.ty ∈ [LTy.bf16, .pt32, .i32, .n32] → LaneReady s T slot o.g o.names →
       let a := fun l => (T.in o.ty o.a l).even
       let b := fun l => (T.in o.ty o.b l).even
       (o.ty = .bf16 → LaneFloats s T slot (.pack o rm) o.g o.ty o.d fun l e =>
         fb16.put rm (f32.read (elemOf .pt32 (if e < 2 then a l else b l) (e % 2)))) ∧
       (o.ty = .pt32 → LaneFloats s T slot (.pack o rm) o.g o.ty o.d fun l e =>
         f32.put rm (f64.read (if e = 0 then a l else b l).toNat)) ∧
       (o.ty = .i32 → LaneElems s T slot (.pack o rm) o.g o.ty o.d fun l e =>
         wrapTo 32 (max (-2 ^ 31) (min (2 ^ 31 - 1) (if e = 0 then a l else b l).toInt))) ∧
       (o.ty = .n32 → LaneElems s T slot (.pack o rm) o.g o.ty o.d fun l e =>
         min (2 ^ 32 - 1) (if e = 0 then a l else b l).toNat)) ∧
     (∀ o : V1, o.ty ∈ [LTy.pt32, .pt64, .i64, .n64] → LaneReady s T slot o.g o.names →
       let h := fun l => elemOf .n32 (T.in o.ty o.a l).even (if es = .hi then 1 else 0)
       (o.ty = .pt32 → LaneFloats s T slot (.unpk o es) o.g o.ty o.d fun l e =>
         f32.put .rne (fb16.read (h l / 2 ^ (16 * e) % 2 ^ 16))) ∧
       (o.ty = .pt64 → LaneFloats s T slot (.unpk o es) o.g o.ty o.d fun l _ => f64.put .rne (f32.read (h l))) ∧
       (o.ty = .i64 → LaneElems s T slot (.unpk o es) o.g o.ty o.d fun l _ =>
         ((BitVec.ofNat 32 (h l)).signExtend 64).toNat) ∧
       (o.ty = .n64 → LaneElems s T slot (.unpk o es) o.g o.ty o.d fun l _ => h l))) ∧
  (∀ (s : State) (T : Team) (slot : Nat) (rm : RM) (nib : Bool) (pos : BitVec 4),
     let n := if nib then 4 else 8
     let code := fun (w : Word) => w.toNat / 2 ^ 56
     let slotOf := fun (w : Word) k => w.toNat / 2 ^ (n * k) % 2 ^ n
     (∀ o : V2, o.ty ∈ [LTy.pt32, .pt64, .bf16] → pos.toNat + elemCount o.ty ≤ 64 / n →
       LaneReady s T slot o.g { srcs := srcsOf .b64 [o.a, o.b], dst := dstOf .b64 o.d } →
       let F := fun l => descOf (T.srcW o.b l)
       let r := fun l e => if (F l).unusable nib then (0, 0)
         else (F l).encode ((fmtOf o.ty).read (elemOf o.ty (T.srcW o.a l) e)) (code (T.srcW o.b l)) rm
       ∃ val : Nat → Word,
         LaneWrites s T slot (.qnt o nib pos rm) o.g false o.d (fun l => (val l).toPair)
           (fun l => if (F l).unusable nib then fNV else orElems o.ty fun e => (r l e).2) ∧
         ∀ l k, k < 64 / n → slotOf (val l) k =
           if pos.toNat ≤ k ∧ k < pos.toNat + elemCount o.ty then (r l (k - pos.toNat)).1 % 2 ^ n
           else slotOf (T.v o.d.toNat l) k) ∧
     (∀ o : V2, o.ty ∈ [LTy.pt32, .pt64, .bf16] → LaneReady s T slot o.g o.names →
       let b := fun l => (T.in o.ty o.b l).even
       let F := fun l => descOf (b l)
       let sc := fun l => (F l).scaleFor (maxAbs (fmtOf o.ty) (elemsOf o.ty (T.in o.ty o.a l).even))
       ∃ val : Nat → Word,
         LaneWrites s T slot (.qntScale o) o.g false o.d (fun l => (val l).toPair)
           (fun l => if (F l).unusable false then fNV else (sc l).2) ∧
         ∀ l, (val l).toNat % 2 ^ 56 = (b l).toNat % 2 ^ 56 ∧
           code (val l) = if (F l).unusable false then code (b l) else (sc l).1) ∧
     (∀ o : V2, o.ty ∈ [LTy.pt32, .pt64, .bf16, .iv32] → LaneReady s T slot o.g o.names →
       let a := fun l => (T.in o.ty o.a l).even
       let b := fun l => (T.in o.ty o.b l).even
       let F := fun l => descOf (b l)
       let val := fun l e => if (F l).unusable nib then FV.nan false
         else (F l).decode ((a l).toNat / 2 ^ (n * (pos.toNat + e)) % 2 ^ (if nib then 4 else (F l).w)) (code (b l))
       let bad := fun l => if (F l).unusable nib then fNV else 0
       (o.ty ≠ .iv32 → ∃ v : Nat → Word,
         LaneWrites s T slot (.dqn o nib pos rm) o.g false o.d (fun l => (v l).toPair)
           (fun l => orElems o.ty (fun e => ((fmtOf o.ty).put rm (val l e)).2) ||| bad l) ∧
         ∀ l e, e < elemCount o.ty → elemOf o.ty (v l) e = ((fmtOf o.ty).put rm (val l e)).1 % 2 ^ elemW o.ty) ∧
       (o.ty = .iv32 → LaneWrites s T slot (.dqn o nib pos rm) o.g false o.d
         (fun l => ofLoHi .iv32 (f32.encloseFV (val l 0)).lo (f32.encloseFV (val l 0)).hi)
         fun l => (f32.encloseFV (val l 0)).fl ||| bad l)) ∧
     (∀ (g : Guard) (d : BitVec 9) (a : Src), LaneReady s T slot g { srcs := srcsOf .b64 [a], dst := dstOf .b64 d } →
       ∃ val : Nat → Word, LaneWrites s T slot (.plane g d a nib) g false d (fun l => (val l).toPair) (fun _ => 0) ∧
         ∀ l p i, p < n → i < 64 / n →
           (val l).getLsbD (64 / n * p + i) = (T.srcW a l).getLsbD (n * i + p)))

/-- R135 to R137: the three-valued predicate instructions, VOTE over the executing lanes, and LEAD, which is true in the lowest
executing lane alone. -/
def Obligations.LanePredicates : Prop :=
  ∀ (s : State) (T : Team) (slot : Nat) (g : Guard) (d a b : BitVec 4), LaneReady s T slot g {} →
    let is := fun i (v : Nat → Tri) => LaneSetsPred s T slot i g d v fun _ => 0
    let x := T.qv a.toNat
    let y := T.qv b.toNat
    is (.qand g d a b) (fun l => if x l = .f ∨ y l = .f then .f else if x l = .t ∧ y l = .t then .t else .u) ∧
    is (.qor g d a b) (fun l => if x l = .t ∨ y l = .t then .t else if x l = .f ∧ y l = .f then .f else .u) ∧
    is (.qnot g d a) (fun l => match x l with | .t => .f | .f => .t | .u => .u) ∧
    is (.qforce g d a .f) (fun l => if x l = .u then .f else x l) ∧
    is (.qforce g d a .t) (fun l => if x l = .u then .t else x l) ∧
    is (.qforce g d a .isu) (fun l => if x l = .u then .t else .f) ∧
    (∀ v, is (.qset g d v) fun _ => v) ∧
    (∀ all, CrossReady T slot all →
      (∃ v : Tri, is (.vote g d a false all) (fun _ => v) ∧
        (v = .t ↔ ∀ l, T.executes slot g l → x l = .t) ∧ (v = .f ↔ ∃ l, T.executes slot g l ∧ x l = .f)) ∧
      (∃ v : Tri, is (.vote g d a true all) (fun _ => v) ∧
        (v = .t ↔ ∃ l, T.executes slot g l ∧ x l = .t) ∧ (v = .f ↔ ∀ l, T.executes slot g l → x l = .f))) ∧
    (∃ v : Nat → Tri, is (.lead g d) v ∧ ∀ l, T.executes slot g l →
      v l = if ∀ k < l, T.executes slot g k = false then .t else .f)

/-- R31, R42, R136, R138, R235: the scalar forms of VOTE and RED and SPUT issue the write of a scalar register, and RED of .iv64
that of a pair; SPUT takes the value of the lowest executing lane and does nothing without one; the fill then writes the
register, which is full. -/
def Obligations.LaneScalarWrites : Prop :=
  ∀ (s : State) (T : Team) (slot : Nat) (g : Guard) (d : BitVec 7),
    (∀ (a : BitVec 4) (or all : Bool), LaneReady s T slot g { scalar := [d.toNat] } → CrossReady T slot all →
      ∃ v : Tri, LaneFills s T slot (.voteScalar g d a or all) d.toNat (v.bits.setWidth 64) T.fflags ∧
        (or = false → (v = .t ↔ ∀ l, T.executes slot g l → T.qv a.toNat l = .t) ∧
          (v = .f ↔ ∃ l, T.executes slot g l ∧ T.qv a.toNat l = .f)) ∧
        (or = true → (v = .t ↔ ∃ l, T.executes slot g l ∧ T.qv a.toNat l = .t) ∧
          (v = .f ↔ ∀ l, T.executes slot g l → T.qv a.toNat l = .f))) ∧
    (∀ a : Src, LaneReady s T slot g { srcs := [(a, 1)], scalar := [d.toNat] } →
      (∀ l, T.executes slot g l → (∀ k < l, T.executes slot g k = false) →
        LaneFills s T slot (.sput g d a) d.toNat (T.srcW a l) T.fflags) ∧
      ((∀ l, T.executes slot g l = false) → exec (.sput g d a) s = .next (s.setTeam (T.nextL slot)))) ∧
    (∀ (ty : LTy) (a : Src) (op : RedOp) (all : Bool), LaneReady s T slot g { srcs := srcsOf ty [a], scalar := scalarRun ty d } →
      CrossReady T slot all →
      let r := redAll op ty ((List.range T.lanes).map fun l => if T.executes slot g l then some (T.in ty a l) else none)
      ∃ F : SMap (BitVec 16), (∀ l, SMap.rd 0 F l = if T.executes slot g l then T.flags l ||| r.2 else T.flags l) ∧
        (isPair ty = false → LaneFills s T slot (.redScalar g ty d a op all) d.toNat r.1.even F) ∧
        (isPair ty = true → d.toNat % 2 = 0 → ∃ T' : Team,
          exec (.redScalar g ty d a op all) s = .next (s.fresh.fresh.setTeam (T'.nextL slot)) ∧
          (∀ k, T'.sIsEmpty k = (T.sIsEmpty k || (k == d.toNat && d != 0) || k == d.toNat + 1)) ∧
          T' = { T with
            fflags := F, sempty := T'.sempty
            sfill := SMap.wr [] (if d = 0 then T.sfill else SMap.wr [] T.sfill d.toNat []) (d.toNat + 1) []
            fills := T.fills ++ (if d = 0 then [] else [⟨s.evId, d.toNat, r.1.even, (T.frag slot).hist, T.regionTag⟩]) ++
              [⟨s.evId + 1, d.toNat + 1, r.1.odd, (T.frag slot).hist, T.regionTag⟩] })) ∧
    (∀ f ∈ T.fills, s.team? T.id = some T → (∀ X ∈ s.teams, X.id ≠ T.id → ∀ y ∈ X.fills, y.id ≠ f.id) →
      (T.fills.filter fun y => y.id == f.id) = [f] →
      ∃ T', exec (.scalarRegisterFill f.id) s = .next (s.setTeam T') ∧
        (∀ r, T'.sreg r = if r = f.reg ∧ r ≠ 0 then f.value else T.sreg r) ∧
        (∀ r, T'.sIsEmpty r = (T.sIsEmpty r && r != f.reg)) ∧ (∀ y, y ∈ T'.fills ↔ y ∈ T.fills ∧ y.id ≠ f.id))

/-- R234 to R236: SHFL gives each executing lane the value of its source lane, or its own when that lane does not execute; SCAN
the running combination in ascending lane order, of values read as R82 and R94 say; RED the root of the tree of R98, whose node
at the next level combines nodes 2j and 2j + 1, or holds the one that is there; BALLOT the lane words' masks. -/
def Obligations.LaneCross : Prop :=
  ∀ (s : State) (T : Team) (slot : Nat) (all : Bool), CrossReady T slot all →
    let from' := fun (md : ShMode) (l e : Nat) =>
      match md with
      | .idx => some e | .up => if e ≤ l then some (l - e) else none | .down => some (l + e) | .xor => some (l ^^^ e)
    let shuffled := fun (ty : LTy) (g : Guard) (a : Src) (md : ShMode) (e : Nat → Nat) (l : Nat) =>
      match from' md l (e l) with
      | some k => if T.executes slot g k then T.in ty a k else T.in ty a l
      | none => T.in ty a l
    (∀ (o : V2) (md : ShMode),
      LaneReady s T slot o.g { srcs := srcsOf o.ty [o.a] ++ [(o.b, 1)], dst := dstOf o.ty o.d } →
      LaneWrites s T slot (.shfl o md all) o.g (isPair o.ty) o.d
        (shuffled o.ty o.g o.a md fun l => (T.srcW o.b l).toNat % 1024) fun _ => 0) ∧
    (∀ (o : V1) (n : BitVec 10) (md : ShMode), LaneReady s T slot o.g o.names →
      LaneWrites s T slot (.shflImm o n md all) o.g (isPair o.ty) o.d
        (shuffled o.ty o.g o.a md fun _ => n.toNat) fun _ => 0) ∧
    (∀ (o : V1) (op : RedOp) (excl : Bool), LaneReady s T slot o.g o.names →
      ∃ (run val : Nat → Pair) (fl : FFlags),
        LaneWrites s T slot (.scan o op excl all) o.g (isPair o.ty) o.d val (fun _ => fl) ∧
        ∀ l, T.executes slot o.g l →
          ((∀ k < l, T.executes slot o.g k = false) →
            run l = (redRead o.ty (T.in o.ty o.a l)).1 ∧ val l = if excl then redUnit op o.ty else run l) ∧
          (∀ k < l, T.executes slot o.g k → (∀ j, k < j → j < l → T.executes slot o.g j = false) →
            run l = (redOp op o.ty (run k) (redRead o.ty (T.in o.ty o.a l)).1).1 ∧
              val l = if excl then run k else run l)) ∧
    (∀ (o : V1) (op : RedOp), LaneReady s T slot o.g o.names →
      ∃ (v : Pair) (fl : FFlags) (node : Nat → Nat → Option Pair) (raised : Nat → Nat → FFlags),
        LaneWrites s T slot (.red o op all) o.g (isPair o.ty) o.d (fun _ => v) (fun _ => fl) ∧
        (v, fl) = redAll op o.ty ((List.range T.lanes).map fun l => if T.executes slot o.g l then some (T.in o.ty o.a l) else none) ∧
        (∀ l, node 0 l = if T.executes slot o.g l then some (redRead o.ty (T.in o.ty o.a l)).1 else none) ∧
        (∀ k j, match node k (2 * j), node k (2 * j + 1) with
          | some x, some y => node (k + 1) j = some (redOp op o.ty x y).1 ∧ raised (k + 1) j = (redOp op o.ty x y).2
          | some x, none => node (k + 1) j = some x ∧ raised (k + 1) j = 0
          | none, y => node (k + 1) j = y ∧ raised (k + 1) j = 0) ∧
        v = (node 10 0).getD (redUnit op o.ty) ∧
        -- the flags of every reading and of every node
        ∀ b < 16, (fl.getLsbD b = true ↔
          (∃ l, T.executes slot o.g l = true ∧ (redRead o.ty (T.in o.ty o.a l)).2.getLsbD b = true) ∨
          ∃ k < 10, ∃ j < 2 ^ (9 - k), (raised (k + 1) j).getLsbD b = true)) ∧
    (∀ (g : Guard) (d : BitVec 9) (a : BitVec 4) (sel : Tri), LaneReady s T slot g { dst := [d.toNat] } →
      ∃ val : Nat → Word, LaneWrites s T slot (.ballot g d a sel all) g false d (fun l => (val l).toPair) (fun _ => 0) ∧
        ∀ l i, l < 1024 → i < 32 →
          ((val l).getLsbD i = decide (T.executes slot g (32 * (l / 32) + i) = true ∧ T.qv a.toNat (32 * (l / 32) + i) = sel)) ∧
          ((val l).getLsbD (32 + i) = true ↔
            ∃ k, k / 32 = i ∧ T.executes slot g k = true ∧ T.qv a.toNat k = sel))

/-- R237 to R239: XBLD loads a table of the core from 512 pad bytes, byte pairs little-endian; XBAR forms each byte of a lane
from the field its entry names in a lane of the same lane word. -/
def Obligations.LaneCrossbar : Prop :=
  ∀ (s : State) (T : Team) (slot : Nat) (g : Guard) (a b : Src),
    (LaneReady s T slot g { srcs := [(a, 1), (b, 1)] } → ∀ l, T.executes slot g l →
      (∀ k < l, T.executes slot g k = false) → (T.srcW b l).toNat % 64 = 0 → s.padOk T (T.srcW b l) 512 = true →
      heldBack (s.older (T.frag slot).hist) = false → s.padPending T.id (T.frag slot).hist = false →
      ∃ P : SMap (BitVec 16), exec (.xbld g a b) s = .next ({ s with patterns := P }.setTeam (T.nextL slot)) ∧
        ∀ core table n, n < 256 → table < 64 → SMap.rd 0 P (patKey core table n) =
          if core = T.core ∧ table = (T.srcW a l).toNat % 64 then
            s.byte (s.padKeyOf T ((T.srcW b l).toNat + 2 * n + 1)) ++ s.byte (s.padKeyOf T ((T.srcW b l).toNat + 2 * n))
          else SMap.rd 0 s.patterns (patKey core table n)) ∧
    (∀ d : BitVec 9, LaneReady s T slot g { srcs := [(a, 1), (b, 1)], dst := [d.toNat] } → ∀ l0, T.executes slot g l0 →
      (∀ k < l0, T.executes slot g k = false) →
      ∃ val : Nat → Word, LaneWrites s T slot (.xbar g d a b) g false d (fun l => (val l).toPair) (fun _ => 0) ∧
        ∀ l j, j < 8 →
          let e := (SMap.rd 0 s.patterns (patKey T.core ((T.srcW b l0).toNat % 64) (8 * (l % 32) + j))).toNat
          let k := 32 * (l / 32) + e % 32
          let w := T.srcW a (if T.executes slot g k then k else l)
          let n := e / 2 ^ 11 % 8 + 1
          let f : Nat := w.toNat / 2 ^ (e / 2 ^ 5 % 64) % 2 ^ n
          (val l).extractLsb' (8 * j) 8 = if e / 2 ^ 15 = 1 then 0
            else if e / 2 ^ 14 % 2 = 1 ∧ 2 ^ (n - 1) ≤ f then BitVec.ofInt 8 ((f : Int) - 2 ^ n) else BitVec.ofNat 8 f)

/-- R139, R140, R144: JMP moves the counter of its fragment. Where the fragment is of the deepest level and the target is not
its join, the fragment is ready at the target and nothing else of the table has changed but what entries record as pending. -/
def Obligations.ControlJump : Prop :=
  ∀ (s : State) (T : Team) (slot : Nat) (tt : BitVec 20), LaneCurrent s T slot →
    let f := T.frag slot
    ∃ T', exec (.jmp tt) s = .next (s.setTeam T') ∧
      T' = { T.setSp T'.sp with clock := if f.again then T.clock else T.clock + 1 } ∧
      (f.valid = true → f.level = T.sp.depth → T.sp.joinAt f.level ≠ some (f.pc + tt.toInt) →
        T'.sp.depth = T.sp.depth ∧ (T.counted = true ∨ f.state ≠ 2 → T'.sp.last = slot) ∧
        (∀ k, T'.frag k = if k = slot then
          { f with pc := f.pc + tt.toInt, state := 0, seq := false, again := false, wait := none } else T.frag k) ∧
        ∀ e, (T'.sp.entry e).join = (T.sp.entry e).join ∧ (T'.sp.entry e).call = (T.sp.entry e).call ∧
          (T'.sp.entry e).valid = (T.sp.entry e).valid)

/-- R144: BQ and BC push an entry and replace their fragment by one piece per non-empty set, in the order true, undecided,
false; without room for the pieces or the level they raise cause 0x11. R139, R140, R144: a push above a fragment of the deepest
level. Piece i stands in the i-th of the fragment's slot and the lowest free slots, at the new level and position i, at join
when its counter is the join; the entry records its join and kind. -/
def Obligations.ControlBranches : Prop :=
  (∀ (s : State) (T : Team) (slot : Nat) (q : BitVec 4) (tt ut jt : BitVec 20), LaneCurrent s T slot →
     let f := T.frag slot
     (∀ t u n : LaneMask,
       (∀ l < 1024, t.getLsbD l = (f.mask.getLsbD l && decide (l < T.lanes) && T.qv q.toNat l == .t)) →
       (∀ l < 1024, u.getLsbD l = (f.mask.getLsbD l && decide (l < T.lanes) && T.qv q.toNat l == .u)) →
       n = f.mask &&& ~~~(t ||| u) →
       let ps := [(t, f.pc + tt.toInt, false), (u, f.pc + ut.toInt, false), (n, f.pc + 1, true)].filter fun p => p.1 != 0
       (f.level ≠ 32 → T.sp.live.length + ps.length ≤ 65 →
         exec (.bq q tt ut jt) s = .next (s.fresh.setTeam ((T.countL slot).setSp
           ((T.countL slot).sp.push slot s.evId false (f.pc + jt.toInt) ps)))) ∧
       ((f.level = 32 ∨ 65 < T.sp.live.length + ps.length) → exec (.bq q tt ut jt) s = s.laneTrap T slot 0x11)) ∧
     (∀ t n : LaneMask,
       (∀ l < 1024, t.getLsbD l = (f.mask.getLsbD l && decide (l < T.lanes) && T.qv q.toNat l == .t)) →
       n = f.mask &&& ~~~t →
       let ps := [(t, f.pc + tt.toInt, false), (n, f.pc + 1, true)].filter fun p => p.1 != 0
       (f.level ≠ 32 → T.sp.live.length + ps.length ≤ 65 →
         exec (.bc q tt jt) s = .next (s.fresh.setTeam ((T.countL slot).setSp
           ((T.countL slot).sp.push slot s.evId false (f.pc + jt.toInt) ps)))) ∧
       ((f.level = 32 ∨ 65 < T.sp.live.length + ps.length) → exec (.bc q tt jt) s = s.laneTrap T slot 0x11))) ∧
  (∀ (sp : Split) (slot uid : Nat) (call : Bool) (join : Int) (ps : List (LaneMask × Int × Bool)),
     let f := sp.frag slot
     let slots := slot :: ((sp.setFrag slot {}).freeSlots.filter (· != slot))
     f.level = sp.depth → (∀ p ∈ ps, p.1 ≠ 0) → (∃ p ∈ ps, p.2.1 ≠ join) → f.valid = true → ps.length ≤ slots.length →
     let sp' := sp.push slot uid call join ps
     sp'.depth = sp.depth + 1 ∧
     (sp'.entry (sp.depth + 1)).valid = true ∧ (sp'.entry (sp.depth + 1)).join = join ∧
     (sp'.entry (sp.depth + 1)).call = call ∧ (sp'.entry (sp.depth + 1)).pos = f.order ∧
     (∀ i (p : LaneMask × Int × Bool) k, ps[i]? = some p → slots[i]? = some k →
       sp'.frag k = { f with
         pc := p.2.1, mask := p.1, level := sp.depth + 1, order := i, state := if p.2.1 = join then 1 else 0, seq := p.2.2
         brk := none, again := false, wait := none }) ∧
     (∀ k, k ∉ slots.take ps.length → k ≠ slot → sp'.frag k = sp.frag k))

/-- R145, R146: CALL and CALLI read the header words of their targets. A callee that fits the budget is entered behind its
header by a call entry that joins at the next word, for CALLI with one piece per distinct target in ascending order. A budget
past the team's raises cause 0x09, a table without room 0x11; a target that cannot be fetched or is no header raises the cause
it has, for CALLI that of the lowest such target with its lanes, and one outside the code 0x03; a target whose page is on its
way is waited for. -/
def Obligations.ControlCalls : Prop :=
  ∀ (s : State) (T : Team) (slot : Nat),
    let f := T.frag slot
    let enter := fun (ps : List (LaneMask × Int × Bool)) => Host.Outcome.next (s.fresh.setTeam ((T.countL slot).setSp
      ((T.countL slot).sp.push slot s.evId true (f.pc + 1) ps)))
    (∀ tt : BitVec 20, LaneCurrent s T slot →
      let t := f.pc + tt.toInt
      (∀ n, s.callee T t = .budget n → T.vbud < n → exec (.call tt) s = s.laneTrap T slot 0x09) ∧
      (∀ n, s.callee T t = .budget n → n ≤ T.vbud → f.level = 32 → exec (.call tt) s = s.laneTrap T slot 0x11) ∧
      (∀ n, s.callee T t = .budget n → n ≤ T.vbud → f.level ≠ 32 → T.sp.live.length ≤ 64 →
        exec (.call tt) s = enter [(f.mask, t + 1, false)]) ∧
      (∀ c, s.callee T t = .trap c → exec (.call tt) s = s.laneTrap T slot c) ∧
      (s.callee T t = .wait → exec (.call tt) s = .next s)) ∧
    (∀ a : Src, LaneReady s T slot ⟨0, .always⟩ { srcs := [(a, 1)] } →
      ∀ ts : List (Nat × LaneMask), ts.Pairwise (fun x y => x.1 < y.1) →
      (∀ t m, (t, m) ∈ ts ↔ (∃ l, l < T.lanes ∧ f.mask.getLsbD l = true ∧ (T.srcW a l).toNat = t) ∧
        ∀ l < 1024, m.getLsbD l = (f.mask.getLsbD l && decide (l < T.lanes) && (T.srcW a l).toNat == t)) →
      let traps := fun (c : Nat) (p : Nat × LaneMask → Prop) => ∃ m : LaneMask, exec (.calli a) s = s.laneTrapMask T slot c m ∧
        ∀ l < 1024, (m.getLsbD l = true ↔ ∃ t ∈ ts, p t ∧ t.2.getLsbD l = true)
      ((∃ t ∈ ts, 2 ^ 24 ≤ t.1) → traps 0x03 fun t => 2 ^ 24 ≤ t.1) ∧
      ((∀ t ∈ ts, t.1 < 2 ^ 24) →
        (∀ (us vs : List (Nat × LaneMask)) t m, ts = us ++ (t, m) :: vs → (∀ u ∈ us, ∃ n, s.callee T u.1 = .budget n) →
          (∀ c, s.callee T t = .trap c → exec (.calli a) s = s.laneTrapMask T slot c m) ∧
          (s.callee T t = .wait → exec (.calli a) s = .next s)) ∧
        ((∀ t ∈ ts, ∃ n, s.callee T t.1 = .budget n) →
          let tooMany := fun (t : Nat × LaneMask) => ∃ n, s.callee T t.1 = .budget n ∧ T.vbud < n
          ((∃ t ∈ ts, tooMany t) → traps 0x09 tooMany) ∧
          ((∀ t ∈ ts, ¬ tooMany t) →
            (f.level ≠ 32 → T.sp.live.length + ts.length ≤ 65 →
              exec (.calli a) s = enter (ts.map fun t => (t.2, (t.1 : Int) + 1, false))) ∧
            ((f.level = 32 ∨ 65 < T.sp.live.length + ts.length) → exec (.calli a) s = s.laneTrap T slot 0x11)))))

/-- R140, R142, R147 to R150, R161, R170: RET leaves the entries above the innermost call entry for its join, BRK the n
innermost for a word, and both stop where the rules say; LEND leaves every entry. A fragment that leaves entries stands at the
position of the fragment that pushed the lowest of them, or behind an earlier leaver. EXIT takes its lanes from the fragment and
the team for good, and the fragment goes on with the rest or ends; a holder's item is dropped and counted off, once its writes
are released. The block ends once the table is empty and every fragment is at LEND. -/
def Obligations.ControlLeaves : Prop :=
  ∀ (s : State) (T : Team) (slot : Nat), LaneCurrent s T slot →
    let f := T.frag slot
    let clock := if f.again then T.clock else T.clock + 1
    -- some other fragment of the deepest level is not at join, so that no level of the table is complete
    let open' := T.sp.depth ≠ 0 ∧ ∃ k, k ≠ slot ∧ (T.frag k).valid = true ∧ (T.frag k).level = T.sp.depth ∧ (T.frag k).state ≠ 1
    -- the table is empty of entries, and some other fragment is not at LEND
    let busy := T.sp.depth = 0 ∧ ∃ k, k ≠ slot ∧ (T.frag k).valid = true ∧ (T.frag k).state ≠ 4
    -- no other fragment of level e has left entry e + 1 before
    let first := fun (e : Nat) => ∀ p ∈ T.sp.frags, p.1 ≠ slot → p.2.valid = true → p.2.level = e →
      p.2.brk ≠ some (T.sp.entry (e + 1)).uid
    let becomes := fun (T' : Team) (g : Frag) => T'.sp.depth = T.sp.depth ∧ T'.block = T.block ∧
      ∀ k, T'.frag k = if k = slot then g else T.frag k
    let ended := fun (T' : Team) => T'.block = none ∧ T'.sp = {}
    -- the fragment at level e, at a counter or at LEND
    let at' := fun (e : Nat) (pc : Int) (state : Nat) => if e < f.level then
        ({ f with pc := pc, state := state, level := e, order := (T.sp.entry (e + 1)).pos, brk := some (T.sp.entry (e + 1)).uid
                  seq := false, again := false, wait := none } : Frag)
      else { f with pc := pc, state := state, seq := false, again := false, wait := none }
    let leaves := fun (i : Instr) (e : Nat) (pc : Int) => ∃ T', exec i s = .next (s.setTeam T') ∧ T' = T.leaveL slot e pc ∧
      T' = { T.setSp T'.sp with clock := clock } ∧
      (open' → (e = f.level ∨ first e) → becomes T' (at' e pc (if T.sp.joinAt e = some pc then 1 else 0)))
    (∀ c, c ≠ 0 → c ≤ f.level → (T.sp.entry c).call = true → (∀ e, c < e → e ≤ f.level → (T.sp.entry e).call = false) →
      leaves .ret c (T.sp.entry c).join) ∧
    ((∀ e, e ≠ 0 → e ≤ f.level → (T.sp.entry e).call = false) → exec .ret s = s.laneTrap T slot 0x03) ∧
    (∀ n tt : BitVec 20,
      (n.toNat ≤ f.level → (∀ e, f.level - n.toNat < e → e ≤ f.level → (T.sp.entry e).call = false) →
        leaves (.brk n tt) (f.level - n.toNat) (f.pc + tt.toInt)) ∧
      ((f.level < n.toNat ∨ ∃ e, f.level - n.toNat < e ∧ e ≤ f.level ∧ (T.sp.entry e).call = true) →
        exec (.brk n tt) s = s.laneTrap T slot 0x11)) ∧
    ((T.isOrdinary = true ∨ T.trapLevel = true) →
      (∀ g : Guard,
        let m := T.execMask f g
        let rest := f.mask &&& ~~~m
        let held := (lanesOf m T.lanes).filter fun l => (T.item l).isSome
        let free := s.releaseOk T.id T.core f.hist .device
        (held ≠ [] → free = false → exec (.exit g) s = .next (s.setTeam T)) ∧
        ((held = [] ∨ free = true) → ∃ T',
          exec (.exit g) s = .next ((if held = [] then s else s.subLive T.launch held.length).setTeam T') ∧
          T' = { (T.setSp T'.sp).setBlock T'.block with mask := T.mask &&& ~~~m, items := T'.items, clock := clock } ∧
          (∀ l, T'.item l = if l ∈ lanesOf m T.lanes then none else T.item l) ∧
          (rest ≠ 0 → f.valid = true → f.level = T.sp.depth → T.sp.joinAt f.level ≠ some (f.pc + 1) →
            becomes T' { f with mask := rest, pc := f.pc + 1, state := 0, seq := true, again := false, wait := none }) ∧
          (rest = 0 → open' ∨ busy → becomes T' {}) ∧
          (rest = 0 → T.sp.depth = 0 → (∀ p ∈ T.sp.frags, p.1 ≠ slot → p.2.valid = true → p.2.state = 4) → ended T'))) ∧
      ∃ T', exec .lend s = .next (s.setTeam T') ∧ T' = { (T.setSp T'.sp).setBlock T'.block with clock := clock } ∧
        ((open' ∧ (f.level = 0 ∨ first 0) ∨ busy ∧ f.level = 0) → becomes T' (at' 0 f.pc 4)) ∧
        (T.sp.depth = 0 → f.level = 0 → (∀ p ∈ T.sp.frags, p.1 ≠ slot → p.2.valid = true → p.2.state = 4) → ended T') ∧
        (T.sp.depth ≤ 32 → T.sp.frags = [(slot, f)] → ended T'))

/-- R41, R153, R264 to R266, R268, R269, R312: LD and LDS issue one load per access of each executing lane, a pair as two of 8
bytes and LDS as a run, and mark their registers empty; a strong or ordered form carries its scope, and `.acq` acquires. In a
DET launch a form of cluster scope or wider acts at its turn and then finishes. A misaligned address raises cause 0x0A with its
lanes, and where a place is missing the access walks, parks or traps (`LaneAccess`). -/
def Obligations.LaneLoads : Prop :=
  ∀ (s : State) (T : Team) (slot : Nat) (g : Guard) (d : BitVec 9) (p : Adr),
    let m := T.execMask (T.frag slot) g
    let ls := lanesOf m T.lanes
    let load := fun (acc : Access) (ty : LTy) (x : Placed) =>
      { evAt x (.load x.p.len) (.lane x.p.reg x.p.lane (pieceTy ty)) with
        scope := Access.scope acc, strong := Access.isStrong acc, acq := Access.isOrdered acc }
    (∀ (ty : LTy) (acc : Access),
      let i := Instr.ld g ty d p acc
      let wide := Scope.isWide (Access.scope acc)
      LaneFinishes s T slot i ∧
      ((T.frag slot).wait = none → LaneReady s T slot g { srcs := [(p.a, 1)], dst := dstOf ty d } →
        LaneAligned s T slot i ls (T.addr p) (accessWidth ty) (AtTurn s T i (wide && m != 0) fun T1 =>
          LaneAccess s T1 slot i m (Access.isPad acc) wide true false (ls.flatMap fun l => piecesOf ty d.toNat l (T.addr p l))
            fun s0 T2 pl => LaneIssues s s0 T2 slot i m wide (dstOf ty d) pl (load acc ty) fun _ => 0))) ∧
    (∀ (pad : Bool) (n : BitVec 3),
      let i := Instr.lds g d p pad n
      let regs := (List.range (n.toNat + 1)).map (d.toNat + ·)
      (T.frag slot).wait = none → LaneReady s T slot g { srcs := [(p.a, 1)], dst := regs } →
      LaneAligned s T slot i ls (T.addr p) 8 (LaneAccess s T slot i m pad false true false
        (ls.flatMap fun l => (List.range (n.toNat + 1)).map fun j => ⟨l, d.toNat + j, T.addr p l + BitVec.ofNat 64 (8 * j), 8⟩)
        fun s0 T2 pl => LaneIssues s s0 T2 slot i m false regs pl (load .plain .b64) fun _ => 0))

/-- R264, R268, R269, R312: ST and STS issue one store per access of each executing lane with the bytes of its register, and
leave every register as it was; ST.mrad32 sets the flags of its conversion; `.rel` releases. In a DET launch a form of cluster
scope or wider acts at its turn and then finishes; misaligned addresses and missing places are as for loads, and a page without
write permission raises cause 0x06. -/
def Obligations.LaneStores : Prop :=
  ∀ (s : State) (T : Team) (slot : Nat) (g : Guard) (p : Adr) (b : Src),
    let m := T.execMask (T.frag slot) g
    let ls := lanesOf m T.lanes
    (∀ (ty : LTy) (acc : Access),
      let i := Instr.st g ty p b acc
      let wide := Scope.isWide (Access.scope acc)
      LaneFinishes s T slot i ∧
      ((T.frag slot).wait = none → LaneReady s T slot g { srcs := [(p.a, 1), (b, pairLen (isPair ty))] } →
        LaneAligned s T slot i ls (T.addr p) (accessWidth ty) (AtTurn s T i (wide && m != 0) fun T1 =>
          LaneAccess s T1 slot i m (Access.isPad acc) wide false true (ls.flatMap fun l => piecesOf ty b.n.toNat l (T.addr p l))
            fun s0 T2 pl => LaneIssues s s0 T2 slot i m wide [] pl
              (fun x => { evAt x (.store (storeValue (pieceTy ty) (T.dataWord b x.p.reg x.p.lane)).1) with
                scope := Access.scope acc, strong := Access.isStrong acc, rel := Access.isOrdered acc })
              fun x => (storeValue (pieceTy ty) (T.dataWord b x.p.reg x.p.lane)).2))) ∧
    (∀ (pad : Bool) (n : BitVec 3),
      let i := Instr.sts g p b pad n
      (T.frag slot).wait = none → LaneReady s T slot g { srcs := [(p.a, 1), (b, n.toNat + 1)] } →
      LaneAligned s T slot i ls (T.addr p) 8 (LaneAccess s T slot i m pad false false true
        (ls.flatMap fun l => (List.range (n.toNat + 1)).map fun j => ⟨l, b.n.toNat + j, T.addr p l + BitVec.ofNat 64 (8 * j), 8⟩)
        fun s0 T2 pl => LaneIssues s s0 T2 slot i m false [] pl
          (fun x => evAt x (.store (leBytes 8 (T.dataWord b x.p.reg x.p.lane).toNat))) fun _ => 0))

/-- R264: what a load puts into its register and a store takes from its own, type by type: zero or sign extension of the bytes,
little-endian, and the low bytes of the register. -/
def Obligations.AccessValues : Prop :=
  ∀ (w : Word) (bs : List Byte),
    (bs.length = 8 → ∀ ty ∈ [LTy.iv32, .pt32, .pt64, .bf16, .ivi32, .i32, .n32, .i64, .n64, .b64],
      (loadValue ty bs).2 = 0 ∧ ∀ k (h : k < bs.length), (loadValue ty bs).1.extractLsb' (8 * k) 8 = bs[k]) ∧
    (∀ x : Byte, loadValue .n8 [x] = (x.setWidth 64, 0) ∧ loadValue .i8 [x] = (x.signExtend 64, 0)) ∧
    (∀ x y : Byte, loadValue .n16 [x, y] = ((y ++ x).setWidth 64, 0) ∧ loadValue .i16 [x, y] = ((y ++ x).signExtend 64, 0)) ∧
    (∀ ty, ty ≠ .mrad32 → (storeValue ty w).2 = 0 ∧ (storeValue ty w).1.length = accessLen ty ∧
      ∀ k (h : k < (storeValue ty w).1.length), (storeValue ty w).1[k] = w.extractLsb' (8 * k) 8)

/-- R259, R270, R313: LDFE and STFE issue one tagged access per executing lane at the cohort's scope; earlier lanes that name
the same words come first. Outside DET the fragment goes on. In a DET launch they act at their turn and the fragment stays until
every lane has succeeded, trying again at later turns with the lanes that have not. -/
def Obligations.LaneTagged : Prop :=
  ∀ (s : State) (T : Team) (slot : Nat) (g : Guard) (ty : LTy) (p : Adr) (w1 : Bool),
    let m := T.execMask (T.frag slot) g
    let ls := lanesOf m T.lanes
    let len := if w1 then 4 else 8
    let tries := fun (i : Instr) (T1 : Team) (lanes : LaneMask) (grp failed : Nat) (dst : List Nat) (ev : Placed → Ev)
        (pl : List Placed) =>
      let r := s.fresh.emit T1 slot grp (pl.map ev)
      let mine := fun (e : Ev) => e.team == T.id && e.grp == grp
      let T2 := r.2.mark dst lanes grp
      exec i s = .next (({ r.1 with evs := (r.1.evs.filter fun e => !mine e) ++ chainEvs (r.1.evs.filter mine) }).setTeam
        (if T.counted then T2.setSp (T2.sp.waits slot ⟨i, lanes, .tries grp failed, s.cycle⟩) else T2.nextL slot))
    let is := fun (i : Instr) (n : Names) (ev : Placed → Ev) =>
      ((T.frag slot).wait = none → LaneReady s T slot g n →
        LaneAligned s T slot i ls (T.addr p) len
          ((m = 0 → exec i s = .next (s.setTeam (T.nextL slot))) ∧
          (m ≠ 0 → AtTurn s T i true fun T1 => PadAccess s T1 slot i (ls.map fun l => ⟨l, 0, T.addr p l, len⟩)
            (tries i T1 m s.evId 0 n.dst ev)))) ∧
      (∀ w grp failed, LaneCurrent s T slot → (T.frag slot).wait = some w → w.what = .tries grp failed →
        ((∃ e ∈ s.evs, e.team = T.id ∧ e.grp = grp) → exec i s = .next s) ∧
        ((∀ e ∈ s.evs, e.team = T.id → e.grp ≠ grp) → exec i s = .next (s.setTeam (T.nextL slot)))) ∧
      (∀ w grp failed left broken, LaneCurrent s T slot → (T.frag slot).wait = some w → w.what = .turn grp failed left broken →
        T.counted = true → AtTurn s T i true fun T1 =>
          PadAccess s T1 slot i ((lanesOf left T.lanes).map fun l => ⟨l, 0, T.addr p l, len⟩) (tries i T1 left grp failed [] ev))
    (∀ d : BitVec 9, is (.ldfe g ty d p w1) { srcs := [(p.a, 1)], dst := [d.toNat] } fun x =>
      { evAt x (.ldfe (if w1 then 1 else 2)) (.lane d.toNat x.p.lane .b64) with
        scope := s.cohortScope T, acq := true, strong := true }) ∧
    (∀ b : Src, is (.stfe g ty p b w1) { srcs := [(p.a, 1), (b, 1)] } fun x =>
      { evAt x (.stfe (leBytes len (T.srcW b x.p.lane).toNat)) with scope := s.cohortScope T, rel := true, strong := true })

/-- R271, R272, R312: PFETCH fills core copies of the lines its lanes name where a translation is cached, walks where none is,
and takes no fault; FENCE waits at its word until its release may complete and then acquires, in a DET launch at its turn when
its scope is cluster or wider. R273, R313: WAITA arms one strong acquiring read per executing lane and its fragment waits at the
word; a guard that no lane passes goes on. In a DET launch it reads at its turns, with the lanes not yet satisfied, until
x.waitlimit turns have failed. The last lane to be satisfied ends the wait: the fragment stands at the next word. That FENCE
waits at its word and that an unfinished wait holds back what follows are the model's readings (log 32, 33). -/
def Obligations.LaneFencesAndWaits : Prop :=
  (∀ (s : State) (T : Team) (slot : Nat) (g : Guard),
     let m := T.execMask (T.frag slot) g
     (∀ (p : Adr), LaneReady s T slot g { srcs := [(p.a, 1)] } →
       exec (.pfetch g p true) s = .next (s.setTeam (T.nextL slot)) ∧
       exec (.pfetch g p false) s = .next (((lanesOf m T.lanes).foldl (fun q l =>
         match q.translate (.prefetch T.core (T.addr p l)) T.core T.ctx (T.addr p l) with
         | .ok key attr _ => q.prefetchLine T.core key attr
         | .miss => q.askWalk (.prefetch T.core (T.addr p l)) T.core T.ctx (T.addr p l) false 0
         | _ => q) s).setTeam (T.nextL slot))) ∧
     (∀ sc : Scope, LaneCurrent s T slot → m ≠ 0 → AtTurn s T (.fence g sc) (Scope.isWide sc) fun T1 =>
       (s.releaseOk T.id T.core (T.frag slot).hist sc = true →
         exec (.fence g sc) s = .next ((if Scope.isWide sc then s.dropClean T.core else s).setTeam (T1.nextL slot))) ∧
       (s.releaseOk T.id T.core (T.frag slot).hist sc = false → exec (.fence g sc) s = .next s)) ∧
     (∀ sc : Scope, LaneCurrent s T slot → m = 0 → exec (.fence g sc) s = .next (s.setTeam (T.nextL slot)))) ∧
  (∀ (s : State) (T : Team) (slot : Nat) (g : Guard) (ty : LTy) (p : Adr) (b : Src) (c : Cond) (pad : Bool) (sc : Scope),
     let m := T.execMask (T.frag slot) g
     let ls := lanesOf m T.lanes
     let i := Instr.waita g ty p b c pad sc
     let arms := fun (T1 : Team) (lanes all : LaneMask) (broken : Bool) (failed : Nat) =>
       LaneAccess s T1 slot i lanes pad (Scope.isWide sc) true false ((lanesOf lanes T.lanes).map fun l => ⟨l, 0, T.addr p l, 8⟩) fun s0 T2 pl =>
         let r := s0.fresh.emit T2 slot s0.evId (pl.map fun x =>
           { evAt x (.waitRead c (T.srcW b x.p.lane) false) (.wait T.trapLevel slot x.p.lane) with
             scope := if pad then .team else sc, strong := true, acq := true })
         let T3 := if T.counted then r.2 else r.2.countL slot
         let got := maskOf (pl.map (·.p.lane))
         exec i s = .next (r.1.setTeam (T3.setSp (T3.sp.waits slot
           ⟨i, if T.counted then all else got, .reads got broken failed, s.cycle⟩)))
     ((T.frag slot).wait = none → LaneReady s T slot g { srcs := [(p.a, 1), (b, 1)] } →
       LaneAligned s T slot i ls (T.addr p) 8
         ((m = 0 → exec i s = .next (s.setTeam (T.nextL slot))) ∧
         (m ≠ 0 → AtTurn s T i true fun T1 => arms T1 m m false 0))) ∧
     (∀ w grp failed left broken, LaneCurrent s T slot → (T.frag slot).wait = some w → w.what = .turn grp failed left broken →
       (T.waitlimit ≠ 0 → T.waitlimit.toNat ≤ failed → exec i s = .next s) ∧
       ((T.waitlimit = 0 ∨ failed < T.waitlimit.toNat) → AtTurn s T i true fun T1 => arms T1 left w.exec broken failed)) ∧
     (∀ (X : Team) (h : Bool) (k l : Nat) (w : LaneWait) (n : Nat), ((X.spOf h).frag k).wait = some w → w.instr = i →
       w.what = .reads (laneBit l) false n →
       X.satisfied h k l false = { X.setSpOf h ((X.spOf h).advance k) with
         clock := if ((X.spOf h).frag k).again then X.clock else X.clock + 1 }))

/-- R274 to R276, R312, R313, R315: ATOM and ATOMC issue one read-modify-write per executing lane at their scope and order,
commit the region, and mark D empty unless the form answers nothing. In a DET launch the form that answers nothing is held in
the list of atomics, with its scope and what it must follow, and what comes later follows it; every other form drains the held
ones below its key at its turn, once they may perform, and then acts and finishes. That a draining atomic of a deterministic
launch waits until every held atomic may step, and drains them in one step, is the model's choice (log 75). -/
def Obligations.LaneAtomics : Prop :=
  ∀ (s : State) (T : Team) (slot : Nat) (g : Guard) (ty : LTy) (d : BitVec 9) (pad : Bool) (sc : Scope) (o : Ord),
    let m := T.execMask (T.frag slot) g
    let ls := lanesOf m T.lanes
    let acq := o = .acq ∨ o = .ar
    let rel := o = .rel ∨ o = .ar
    let is := fun (i : Instr) (n : Names) (adr : Nat → Word) (held : Bool) (op : Nat → EvOp) (dst : Nat → Dst)
        (atom : Placed → HeldAtom) =>
      let ps := ls.map fun l => (⟨l, 0, adr l, 8⟩ : Piece)
      LaneFinishes s T slot i ∧
      ((T.frag slot).wait = none → LaneReady s T slot g n → LaneAligned s T slot i ls adr 8
        ((m = 0 → exec i s = .next (s.setTeam (T.nextL slot))) ∧
        (m ≠ 0 → T.counted = true → held = true → LaneAccess s T slot i m pad true true true ps fun s0 T2 pl =>
          let h := s0.liveHist (T2.frag slot).hist
          let as : List HeldAtom := pl.zipIdx.map fun x => { atom x.1 with id := s0.evId + x.2, preds := h }
          exec i s = .next ({ s0 with evId := s0.evId + as.length, atoms := s0.atoms ++ as }.setTeam
            (Team.nextL { T2.setFrag slot { T2.frag slot with hist := h ++ as.map HeldAtom.id } with committed := true } slot))) ∧
        (m ≠ 0 → (T.counted = false ∨ held = false) → AtTurn s T i true fun T1 =>
          let ready := s.drainReady T.launch (some (s.keyOf T))
          (T.counted = true → ready = false → exec i s = .next s) ∧
          ((T.counted = true → ready = true) → LaneAccess s T1 slot i m pad true true true ps fun s0 T2 pl =>
            LaneIssues s (if T.counted then s0.drain T.launch (some (s.keyOf T)) else s0) { T2 with committed := true } slot i m true
              n.dst pl (fun x => { evAt x (op x.p.lane) (dst x.p.lane) with
                scope := sc, strong := true, acq := decide acq, rel := decide rel }) fun _ => 0))))
    (∀ (p : Adr) (b : Src) (op : AtomOp) (nr : Bool),
      is (.atom g ty d p b op pad nr sc o) { srcs := [(p.a, 1), (b, 1)], dst := if nr then [] else [d.toNat] } (T.addr p) nr
        (fun l => .rmw op ty (T.srcW b l)) (fun l => if nr then .none else .lane d.toNat l .b64) fun x =>
        { launch := T.launch, key := { s.keyOf T with lane := x.p.lane }, team := T.id, core := T.core, ctx := T.ctx
          addr := x.key, attr := x.attr, pad := pad, op := op, ty := ty, b := T.srcW b x.p.lane
          scope := sc, rel := decide rel }) ∧
    (∀ (a b c : Src),
      is (.atomc g ty d a b c pad sc o) { srcs := [(a, 1), (b, 1), (c, 1)], dst := [d.toNat] } (T.srcW a) false
        (fun l => .cas (T.srcW b l) (T.srcW c l)) (fun l => .lane d.toNat l .b64) fun _ => default)

/-- R32, R59, R60, R313: SLD, SST and SWAITA at an aligned address issue one event of 8 bytes that follows every earlier scalar
access; SLD and SWAITA mark their register empty (s0 never is), and every other register keeps its value. In a DET launch SWAITA
reads at its turn and the stream stays at the word. A misaligned address raises cause 0x0A; without a place the stream walks,
stalls on a page fault or traps (`ScalarAccess`). -/
def Obligations.ScalarMemory : Prop :=
  ∀ (s : State) (T : Team) (d a : BitVec 7),
    let T1 := T.linkFills
    let h := s.liveHist T1.shist
    let issues := fun (i : Instr) (marks : Bool) (wait : Option Nat) (s0 : State) (e : Ev) => ∃ T' : Team,
      exec i s = .next ({ s0.fresh with evs := s0.evs ++ [{ e.toCtl with
        id := s.evId, team := T.id, core := T.core, ctx := T.ctx, grp := s.evId, preds := h, region := T.regionTag }] }.setTeam T') ∧
      (∀ r, T'.sIsEmpty r = (T.sIsEmpty r || (marks && r == d.toNat && r != 0))) ∧
      let T2 := { T1 with
        sempty := T'.sempty, shist := h ++ [s.evId]
        sfill := if marks = true ∧ d ≠ 0 then SMap.wr [] T.sfill d.toNat [] else T.sfill }
      T' = if wait = none then { T2 with spc := T.spc + 4, clock := T.clock + 1, swaited := [], swait := none, sfailed := 0 }
        else { T2 with committed := true, swait := wait }
    (∀ m : BitVec 11,
      let va := T.sreg a.toNat + m.signExtend 64
      (ScalarReady s T [d.toNat, a.toNat] [a.toNat] →
        (va.toNat % 8 ≠ 0 → exec (.sld d a m) s = s.scalarTrap T1 0x0A) ∧
        (va.toNat % 8 = 0 → ScalarAccess s T1 (.sld d a m) va 8 false false fun s0 key attr =>
          issues (.sld d a m) true none s0 (scalarEv key attr (.load 8) (.scalar d.toNat)))) ∧
      (ScalarReady s T [d.toNat, a.toNat] [d.toNat, a.toNat] →
        (va.toNat % 8 ≠ 0 → exec (.sst d a m) s = s.scalarTrap T1 0x0A) ∧
        (va.toNat % 8 = 0 → ScalarAccess s T1 (.sst d a m) va 8 false true fun s0 key attr =>
          issues (.sst d a m) false none s0 (scalarEv key attr (.store (leBytes 8 (T.sreg d.toNat).toNat)) .none)))) ∧
    (∀ c : Cond,
      let i := Instr.swaita d a c
      let va := T.sreg a.toNat
      let e := fun (key : Nat) (attr : Attr) (start : Nat) =>
        { scalarEv key attr (.waitRead c (T.sreg d.toNat) false) (.scalar d.toNat) with
          scope := .system, strong := true, acq := true, start := start }
      (ScalarReady s T [d.toNat, a.toNat] [d.toNat, a.toNat] → T.swait = none →
        (va.toNat % 8 ≠ 0 → exec i s = s.scalarTrap T1 0x0A) ∧
        (va.toNat % 8 = 0 → ScalarAccess s T1 i va 8 true false fun s0 key attr =>
          (T.counted = false → issues i true none s0 (e key attr s.cycle)) ∧
          (T.counted = true → (s0.turn T1 = true → issues i true (some s.evId) s0 (e key attr 0)) ∧
            (s0.turn T1 = false → exec i s = .next s0)))) ∧
      (∀ k, s.cur = some ⟨T.id, none⟩ → s.team? T.id = some T → T.swait = some k →
        (s.ev? k = none → exec i s = .next (s.setTeam (T.retireS (T.spc + 4)))) ∧
        (∀ e x c', s.ev? k = some e → e.op = .waitRead c' x true → T.counted = true →
          let again := e.start < T.sfailed ∧ (T.waitlimit = 0 ∨ T.sfailed < T.waitlimit.toNat)
          (s.evBad e = true → exec i s = .next (s.swaitPoisoned T e d.toNat)) ∧
          (s.evBad e = false → ¬ again → exec i s = .next s) ∧
          (s.evBad e = false → again → (s.turn T = false → exec i s = .next s) ∧
            (s.turn T = true → exec i s = .next ((s.setTeam { T with committed := true }).setEv
              { e with op := .waitRead c' x false, start := T.sfailed }))))))

/-- R29, R61, R64 to R66, R309: NOP only goes on; SEMPTY empties N + 1 registers; SFENCE waits at its word until the scalar
stream's own accesses are performed at its scope and then acquires, in a DET launch at its turn when its scope is cluster or
wider; LSYNC and FBAR wait until no block and no scalar fill of the team is left, and what follows LSYNC follows the accesses of
the ended blocks, not those of a block that the team's trap interrupted; LQ enqueues a block with the registers it names, waits
while four are queued, and raises cause 0x04 where the entry has not landed; in a DET launch it waits until no block is queued
or runs, and its stream goes on once its own block has ended. That SFENCE waits at its word, and that LQ judges its page before
it waits for a place, are the model's readings (log 33, 82). -/
def Obligations.ScalarStreamOrder : Prop :=
  ∀ (s : State) (T : Team),
    (ScalarReady s T [] [] → ScalarGoesTo s T .nop (T.spc + 4)) ∧
    (∀ (d : BitVec 7) (n : BitVec 4), ScalarReady s T ((List.range (n.toNat + 1)).map (d.toNat + ·)) [] →
      ∃ T', exec (.sempty d n) s = .next (s.setTeam T') ∧
        (∀ r, T'.sIsEmpty r = (T.sIsEmpty r || (r != 0 && decide (d.toNat ≤ r) && decide (r ≤ d.toNat + n.toNat)))) ∧
        (∀ r, SMap.rd [] T'.sfill r = if r ≠ 0 ∧ d.toNat ≤ r ∧ r ≤ d.toNat + n.toNat then [] else SMap.rd [] T.sfill r) ∧
        T' = { T with
          sempty := T'.sempty, sfill := T'.sfill, spc := T.spc + 4, clock := T.clock + 1, shist := T.linkFills.shist
          swaited := [], swait := none, sfailed := 0 }) ∧
    (∀ sc : Scope, ScalarReady s T [] [] → AtTurn s T.linkFills (.sfence sc) (Scope.isWide sc) fun T1 =>
      (s.releaseOwn T.id T.core T1.shist sc = false → exec (.sfence sc) s = .next s) ∧
      (s.releaseOwn T.id T.core T1.shist sc = true →
        exec (.sfence sc) s = .next ((if Scope.isWide sc then s.dropClean T.core else s).setTeam
          ({ T1 with sfenced := s.liveHist T1.shist }.retireS (T.spc + 4))))) ∧
    (ScalarReady s T [] [] →
      let idle := T.lq = [] ∧ T.block = none ∧ T.fills = []
      (¬ idle → exec .lsync s = .next s ∧ exec .fbar s = .next s) ∧
      (idle → ∃ h : List Nat, exec .lsync s = .next (s.setTeam { T with
          spc := T.spc + 4, clock := T.clock + 1, shist := h, swaited := [], swait := none, sfailed := 0 }) ∧
        ∀ k, k ∈ h ↔ k ∈ s.liveHist T.linkFills.shist ∨
          ((∃ e ∈ s.evs, e.team = T.id ∧ e.grp ≠ e.id ∧ s.frozen e = false ∧ e.id = k) ∨ (∃ a ∈ s.atoms, a.team = T.id ∧ a.id = k) ∨
            (∃ c ∈ s.copies, c.team = some T.id ∧ c.reading = true ∧ c.id = k) ∨ ∃ x ∈ T.tiles, x.id = k) ∧
          ¬ (T.trapLevel = true ∧ ∃ b, T.run = some b ∧
            ((∃ e ∈ s.evs, e.team = T.id ∧ e.region ≠ 0 ∧ b.born ≤ e.id ∧ e.id = k) ∨
              ∃ c ∈ s.copies, c.team = some T.id ∧ c.region ≠ 0 ∧ b.born ≤ c.id ∧ c.id = k))) ∧
      (idle → (∀ c ∈ s.cinvs, c.team ≠ T.id) → ScalarGoesTo s T .fbar (T.spc + 4))) ∧
    (∀ (a : BitVec 7) (n : BitVec 4) (e : BitVec 14),
      let regs := (List.range n.toNat).map (a.toNat + ·)
      let T1 := T.linkFills
      let landed := s.pageLanded T (T.lanePage e.toNat)
      let idle := T.lq = [] ∧ T.block = none
      -- the LQ of a DET launch whose block is under way
      let entered := T.counted = true ∧ if T.trapLevel then T.swait ≠ none else T.lqAt = some T.spc
      let T2 := T1.setLq (T.lq ++ [{ entry := e.toNat, args := regs.map T.sreg, handler := T.trapLevel, after := T.sfenced }])
      (ScalarReady s T regs regs → ¬ entered →
        (landed = false → exec (.lq a n e) s = s.scalarTrap T1 0x04) ∧
        (landed = true → (4 ≤ T.lq.length ∨ T.counted = true ∧ ¬ idle) → exec (.lq a n e) s = .next (s.setTeam T1)) ∧
        (landed = true → T.counted = false → T.lq.length < 4 →
          exec (.lq a n e) s = .next (s.setTeam (T2.retireS (T.spc + 4)))) ∧
        (landed = true → T.counted = true → idle → exec (.lq a n e) s = .next (s.setTeam
          (if T.trapLevel then { T2 with swait := some 0 } else { T2 with lqAt := some T.spc })))) ∧
      (s.cur = some ⟨T.id, none⟩ → s.team? T.id = some T → entered →
        (idle → exec (.lq a n e) s = .next (s.setTeam { T.retireS (T.spc + 4) with lqAt := none })) ∧
        (¬ idle → exec (.lq a n e) s = .next s)))

/-- R74, R77 to R79, R330, R331, R335, R336: CRIT and CRITX mark a team of a maintenance launch and no other; RGN begins a
region at its own word with the live-in registers of the table's entry; outside a handler ERET raises cause 0x02; SEND waits at
its word until the team is quiet, in a DET launch for its turn, then the team is gone with its copies. R33, R34: the last team
takes its cohort with it, and the last cohort its launch, whose completion stamp is stored where its page is writable, by a
message to another die. What SEND waits for is the model's reading (log 69); that a completion stamp to a page that is not
mapped writable stores nothing, and that the held atomics drain in one step, are its choice (log 75). -/
def Obligations.RegionsAndMarking : Prop :=
  ∀ (s : State) (T : Team), ScalarReady s T [] [] →
    let T1 := T.linkFills
    exec .crit s = .next (s.setTeam ({ T1 with crit := T.crit || T.hdr.maint }.retireS (T.spc + 4))) ∧
    exec .critx s = .next (s.setTeam ({ T1 with crit := T.crit && !T.hdr.maint }.retireS (T.spc + 4))) ∧
    (∀ i : BitVec 18,
      (T.laneIdle = false → exec (.rgn i) s = .next s) ∧
      (T.laneIdle = true → T.hdr.regions = 0 → exec (.rgn i) s = s.scalarTrap T1 0x05) ∧
      (T.laneIdle = true → T.hdr.regions ≠ 0 → T.trapLevel = true → ScalarGoesTo s T (.rgn i) (T.spc + 4)) ∧
      (T.laneIdle = true → T.hdr.regions ≠ 0 → T.trapLevel = false → heldBack (s.older T1.shist) = false →
        ScalarAccess s T1 (.rgn i) (BitVec.ofNat 64 (T.hdr.regions / 64 * 64 + 64 * i.toNat)) 64 false false fun s0 key a =>
        let ks := (List.range 64).map fun j => (key + j, a)
        (s.mayPeek T.core T1.shist ks = false → exec (.rgn i) s = .next s) ∧
        (s.mayPeek T.core T1.shist ks = true → ∃ T', exec (.rgn i) s = .next ((s0.afterPeek T.core ks).setTeam T') ∧
          T'.regionpc = BitVec.ofInt 32 T.spc ∧ T'.committed = false ∧ T'.regionNo = T.regionNo + 1 ∧ T'.spc = T.spc + 4 ∧
          (∀ j < 7, T'.livein.getD j 0 =
            BitVec.ofNat 64 (leNat (s.peek T.id T.core T1.shist (key + 8 * j) 8 a))) ∧
          T'.livein.getD 7 0 = BitVec.ofNat 64 (leNat (s.peek T.id T.core T1.shist (key + 56) 8 a)) &&& 0xFFFFFF ∧
          T'.sregs = T.sregs ∧ T'.vregs = T.vregs ∧ T'.kflags = T.kflags ∧ T'.q = T.q))) ∧
    (T.trapLevel = false → exec .eret s = s.scalarTrap T1 0x02) ∧
    ((T.laneIdle = false ∨ s.quiet T1 = false) → exec .send s = .next s) ∧
    (T.laneIdle = true → s.quiet T1 = true →
      let s0 := { s with copies := s.copies.filter fun c => c.team != some T.id || !c.stopped }
      (T.counted = true → s0.turn T1 = false → exec .send s = .next s0) ∧
      let ready := (s0.setTeam { T1 with committed := true }).drainReady T.launch (some (s.keyOf T1))
      (T.counted = true → s0.turn T1 = true → ready = false → exec .send s = .next s) ∧
      (T.counted = true → s0.turn T1 = true → ready = true → ∃ t, exec .send s = .next t) ∧
      (T.counted = false → (∃ t, exec .send s = .next t) ∧ (T.sort = .ordinary → T.items = [] →
        let others := ∃ X ∈ s.teams, X.id ≠ T.id ∧ X.launch = T.launch ∧ X.cohort = T.cohort ∧ X.inCohort = true
        let left := { s with
          teams := s.teams.filter (fun X => X.id != T.id)
          copies := s.copies.filter (fun c => c.team != some T.id || (!c.stopped && c.ended))
          evs := s.evs.filter (fun e => e.team != T.id || !e.abandoned) }
        (others → exec .send s = .next left) ∧
        (¬ others → ∀ C L, s.cohort? T.launch T.cohort = some C → s.launch? T.launch = some L →
          C.cistern.pad = [] → C.cistern.busy = [] →
          let L' := { L with retired := insertNat T.cohort L.retired }
          let gone := { left with
            cohorts := s.cohorts.filter (fun X => !(X.launch == T.launch && X.idx == T.cohort))
            launches := s.launches.map fun X => if X.id = L.id then { X with retired := insertNat T.cohort X.retired } else X }
          (L'.retired.length ≠ L.hdr.cohorts → exec .send s = .next gone) ∧
          (L'.retired.length = L.hdr.cohorts → exec .send s = .next (gone.completeLaunch L')))))) ∧
    (∀ (L : Launch) (k : Nat) (w : Bool), L.token = none →
      let r := s.completeLaunch L
      (∀ X ∈ r.launches, X.id ≠ L.id) ∧ (∀ o ∈ r.objs, o.launch ≠ L.id) ∧ (∀ x ∈ r.tickets, x.launch ≠ L.id) ∧
      let q := (s.drainCores L.cores).drain L.id none
      (L.hdr.stampAddr ≠ 0 → q.dispKey L.die L.ctx (BitVec.ofNat 64 L.hdr.stampAddr) = some (k, w) →
        isPad k = false → isCtl k = false →
        let here := q.ownDie (32 * L.die) k = true ∧ q.portFailed L.die k = false
        (∀ j < 8, r.byte (k + j) = if w = true ∧ here then L.hdr.stampVal.extractLsb' (8 * j) 8 else q.byte (k + j)) ∧
        (w = true → ¬ here → r.msgs = (q.send (32 * L.die) L.die (q.homeOf (32 * L.die) k) k 8 (.stamp L.ctx L.hdr.stampVal)).msgs)))

/-- R75, R95, R96, R309, R334: what MFX reads in the scalar stream and in a lane, register by register of R75's list, and what
MTX writes; x.fflags waits at its word for the instructions that may still set flags. MTX of a register that its stream may not
write raises cause 0x02. That x.fflags waits for copies that convert, and what x.clock counts, are the model's readings (log 65,
74); that x.cap reads 0 where no list is loaded is its choice (log 5). -/
def Obligations.SystemRegisters : Prop :=
  ∀ (s : State) (T : Team),
    let both : List (Nat × Word) := [(0x002, BitVec.ofNat 64 T.teamid), (0x004, T.hdr.args),
      (0x006, if T.inCohort then BitVec.ofNat 64 T.clock else 0),
      (0x008, SMap.rd 0 s.caps (4096 * dieOf T.core + T.ctx)), (0x009, T.waitlimit.setWidth 64),
      (0x00C, T.tvec.setWidth 64), (0x010, T.trapcause.setWidth 64), (0x011, T.trappc.setWidth 64),
      (0x012, T.regionpc.setWidth 64)]
    let scalar : List (Nat × Word) := both ++ [(0x000, T.wid 0), (0x003, T.cohortIdx 0), (0x005, (summary T.mask).setWidth 64),
      (0x007, ((T.fflags.foldl (fun (f : BitVec 16) (p : Nat × BitVec 16) => f ||| p.2) 0) &&& 0x1FF).setWidth 64),
      (0x00A, T.kflags.setWidth 64), (0x013, T.splitsel.setWidth 64)] ++
      (List.range 32).map (fun j => (0x020 + j, (T.faultmask.extractLsb' (32 * j) 32).setWidth 64)) ++
      (List.range 8).map (fun j => (0x040 + j, T.livein.getD j 0)) ++
      (List.range 64).map (fun j => (0x100 + j, T.split.readWindow T.splitsel.toNat j))
    let lane := fun (f : Frag) (l : Nat) => both ++ [(0x000, T.wid l), (0x001, BitVec.ofNat 64 l), (0x003, T.cohortIdx l),
      (0x005, (f.mask.extractLsb' (32 * (l / 32)) 32).setWidth 64), (0x007, (T.flags l &&& 0x1FF).setWidth 64),
      (0x00B, if T.isWave then T.wid l else 0)]
    (∀ (d : BitVec 7) (x : BitVec 12), scalarSysReg x.toNat = true → ScalarReady s T [d.toNat] [] →
      (¬ (x = 0x007 ∧ s.flagsQuiet T = false) →
        ∃ v, ScalarWrites s T (.mfxScalar d x) d.toNat v ∧ ∃ p ∈ scalar, p.1 = x.toNat ∧ v = p.2) ∧
      (x = 0x007 → s.flagsQuiet T = false → exec (.mfxScalar d x) s = .next s)) ∧
    (∀ (d : BitVec 7) (x : BitVec 12), ScalarReady s T [d.toNat] [d.toNat] → scalarWritable T.trapLevel x.toNat = true →
      (¬ (x = 0x007 ∧ s.flagsQuiet T = false) → ∃ t, exec (.mtxScalar d x) s = .next t) ∧
      (x = 0x007 → s.flagsQuiet T = false → exec (.mtxScalar d x) s = .next s)) ∧
    (∀ (d : BitVec 7) (x : BitVec 12), scalarSysReg x.toNat = true → ScalarReady s T [d.toNat] [d.toNat] →
      (x = 0x007 → s.flagsQuiet T = true) →
      let w := T.sreg d.toNat
      let writes := fun (T' : Team) => exec (.mtxScalar d x) s = .next (s.setTeam (T'.retireS (T.spc + 4)))
      let T1 := T.linkFills
      (x = 0x007 → ∃ fl, writes { T1 with fflags := fl } ∧
        ∀ l, SMap.rd 0 fl l = if l < T.lanes then w.setWidth 16 &&& 0x1FF else T.flags l) ∧
      (x = 0x009 → writes { T1 with waitlimit := w.setWidth 32 }) ∧
      (x = 0x00A → ∃ kf : BitVec 16, writes { T1 with kflags := kf } ∧
        ∀ k < 8, kf.extractLsb' (2 * k) 2 = if w.extractLsb' (2 * k) 2 = 2 then 3 else w.extractLsb' (2 * k) 2) ∧
      (x = 0x00C → writes { T1 with tvec := w.setWidth 32 }) ∧
      (x = 0x013 → writes { T1 with splitsel := w.setWidth 8 }) ∧
      (x = 0x011 → T.trapLevel = true → writes { T1 with trappc := w.setWidth 32 &&& 0xFFFFFFFC }) ∧
      (0x100 ≤ x.toNat → x.toNat < 0x140 → T.trapLevel = true →
        writes { T1 with split := T.split.writeWindow T.splitsel.toNat (x.toNat - 0x100) w }) ∧
      (x.toNat ∉ [0x007, 0x009, 0x00A, 0x00C, 0x013] →
        (T.trapLevel = false ∨ (x.toNat ≠ 0x011 ∧ (x.toNat < 0x100 ∨ 0x140 ≤ x.toNat))) →
        exec (.mtxScalar d x) s = s.scalarTrap T 0x02)) ∧
    (∀ (slot : Nat) (g : Guard) (d : BitVec 9) (x : BitVec 12), laneSysReg x.toNat = true →
      LaneReady s T slot g { dst := [d.toNat] } →
      let waits := x = 0x007 ∧ T.execMask (T.frag slot) g ≠ 0 ∧ s.laneFlagsQuiet T slot = false
      (waits → exec (.mfxLane g d x) s = .next s) ∧
      (¬ waits → ∃ v : Nat → Word, LaneWrites s T slot (.mfxLane g d x) g false d (fun l => (v l).toPair) (fun _ => 0) ∧
        ∀ l, ∃ p ∈ lane (T.frag slot) l, p.1 = x.toNat ∧ v l = p.2)) ∧
    (∀ (slot : Nat) (g : Guard) (a : Src) (x : BitVec 12), laneSysReg x.toNat = true → x ≠ 0x007 → LaneCurrent s T slot →
      exec (.mtxLane g a x) s = s.laneTrap T slot 0x02) ∧
    (∀ (slot : Nat) (g : Guard) (a : Src), LaneReady s T slot g { srcs := [(a, 1)] } →
      let waits := T.execMask (T.frag slot) g ≠ 0 ∧ s.laneFlagsQuiet T slot = false
      (waits → exec (.mtxLane g a 0x007) s = .next s) ∧
      (¬ waits → ∃ fl, exec (.mtxLane g a 0x007) s = .next (s.setTeam { T.nextL slot with fflags := fl }) ∧
        ∀ l, SMap.rd 0 fl l = if T.executes slot g l then (T.srcW a l).setWidth 16 &&& 0x1FF else T.flags l))

/-- R76, R151, R327 to R329, R331, R334: a trap of a team with a handler, taken when no register write is in flight, sets the
trap registers, enters trap level and starts the scalar stream at x.tvec; TRAP and BKPT resume behind their word, a lane's in
its fragment; a second trap or a team without a handler halts. ERET goes back to x.trappc with the same registers. What ERET
does with a bad split table and the fault mask of whole-fragment causes are the model's readings (log 67, 68). -/
def Obligations.TrapEntryAndReturn : Prop :=
  ∀ (s : State) (T : Team),
    let enters := fun (T0 : Team) (cause : Half) (mask : LaneMask) (pc : Half) => { T0 with
      trapcause := cause, trappc := pc, faultmask := mask, trapLevel := true, spc := T.tvec.toNat, raised := none
      swait := none, swaited := [], sfailed := 0, hqueue := [], hrun := none, hsplit := {} }
    let handled := T.isWave = false ∧ T.trapLevel = false ∧ T.tvec ≠ 0xFFFFFFFF ∧ s.writesInFlight T = false
    (∀ cause < 256,
      (handled → s.scalarTrap T cause = .next (s.setTeam (enters T (BitVec.ofNat 32 cause) 0 (BitVec.ofInt 32 T.spc)))) ∧
      (T.isWave = false → s.mustWait T = false →
        (T.trapLevel = true → s.scalarTrap T cause = .next (s.haltTeam T (T.trapcause.toNat % 256) cause false T.spc)) ∧
        (T.trapLevel = false → T.tvec = 0xFFFFFFFF → s.scalarTrap T cause = .next (s.haltTeam T 0xFF cause false T.spc))) ∧
      ((T.isWave = true ∨ s.mustWait T = true) → s.scalarTrap T cause = .next (s.setTeam { T with
        raised := some { cause := cause, resume := T.spc } }))) ∧
    (∀ (slot cause : Nat) (m : LaneMask), cause < 256 → handled → ∃ T0 : Team,
      s.laneTrapMask T slot cause m = .next (s.setTeam (enters T0 (BitVec.ofNat 32 (cause + 2 ^ 27)) m (BitVec.ofInt 32 T.spc))) ∧
      T0 = { T with split := T0.split } ∧ T0.split.last = slot ∧
      ∀ k, T0.split.frag k = if k = slot then { T.split.frag slot with state := 0, wait := none } else T.split.frag k) ∧
    (ScalarReady s T [] [] → handled →
      let T1 := T.linkFills.retireS (T.spc + 4)
      (∀ code : BitVec 18, exec (.trapScalar code) s = .next (s.setTeam
        (enters T1 (BitVec.ofNat 32 (0x0C + code.toNat * 2 ^ 8 + 2 ^ 26)) 0 (BitVec.ofInt 32 (T.spc + 4))))) ∧
      exec .bkptScalar s = .next (s.setTeam (enters T1 0x0C 0 (BitVec.ofInt 32 (T.spc + 4))))) ∧
    (∀ (slot : Nat) (g : Guard), LaneCurrent s T slot → handled → s.writesInFlight (T.nextL slot) = false →
      let T1 := T.nextL slot
      (T.execMask (T.frag slot) g = 0 →
        (∀ code : BitVec 18, exec (.trapLane g code) s = .next (s.setTeam T1)) ∧
        exec (.bkptLane g) s = .next (s.setTeam T1)) ∧
      (T.execMask (T.frag slot) g ≠ 0 →
        (∀ code : BitVec 18, exec (.trapLane g code) s = .next (s.setTeam (enters T1
          (BitVec.ofNat 32 (0x0C + code.toNat * 2 ^ 8 + 2 ^ 26 + 2 ^ 27)) (T.frag slot).mask (BitVec.ofInt 32 T.spc)))) ∧
        exec (.bkptLane g) s = .next (s.setTeam (enters T1
          (BitVec.ofNat 32 (0x0C + 2 ^ 27)) (T.frag slot).mask (BitVec.ofInt 32 T.spc))))) ∧
    (ScalarReady s T [] [] → T.trapLevel = true → T.isOrdinary = true →
      ((T.hqueue ≠ [] ∨ T.hrun ≠ none) → exec .eret s = .next s) ∧
      (T.hqueue = [] → T.hrun = none → T.split.check T.mask = false → exec .eret s = s.scalarTrap T.linkFills 0x0E) ∧
      (T.hqueue = [] → T.hrun = none → T.split.check T.mask = true → ∃ T' : Team,
        exec .eret s = .next (State.setTeam { s with
          copies := s.copies.map fun c => if c.team == some T.id then { c with stopped := false, stopping := false } else c
          evs := s.evs.filter fun e => !e.stray T' } T') ∧
        T' = { T with
          trapLevel := false, spc := T.trappc.toNat, clock := T.clock + 1, shist := T.linkFills.shist, hsplit := {}
          swait := none, swaited := [], lqAt := T'.lqAt, run := T'.run, split := T'.split } ∧
        (T.split.live = [] → T'.run = none ∧ T'.split = {})))

/-- R20, R52, R67 to R70, R228, R313, R336: LAUNCH, TASK and SIGNAL commit their region as they issue and wait at their word, in
a DET launch for their turn, then until the team's earlier scalar accesses are performed at device scope. LAUNCH posts the
128-byte header at an aligned address to its die, TASK puts the 32-byte record into the die's table and SIGNAL adds 1 to a
token. A misaligned address raises cause 0x0A, a malformed record or a token of an absent die 0x06; a full list holds LAUNCH and
TASK at their word. Without a place for the record, they walk, stall or trap as a scalar load does. That the instruction waits
at its word for the release, and which causes come first, are the model's readings (log 33, 66). -/
def Obligations.CreateWork : Prop :=
  ∀ (s : State) (T : Team) (a : BitVec 7), ScalarReady s T [a.toNat] [a.toNat] →
    let v := T.sreg a.toNat
    let T1 := T.linkFills
    let T2 : Team := { T1 with committed := true }
    let T3 : Team := { T2 with sfenced := s.liveHist T1.shist }
    let d := dieOf T.core
    let done : Team := T3.retireS (T.spc + 4)
    let s0 := s.setTeam T2
    let s1 := s0.dropClean T.core
    let s2 := s1.forget (.scalar T.id)
    let room := fun (i : Instr) => (i = .launch a ∧ (s.posts.filter fun p => p.die == d).length < 64) ∨
      (i = .task a ∧ (s.tasks.filter fun t => t.die == d).length < 1024) ∨ i = .signal a
    let valid := fun (i : Instr) => (i = .launch a ∧ v.toNat % 128 = 0) ∨ (i = .task a ∧ v.toNat % 32 = 0) ∨
      (i = .signal a ∧ v.toNat < 2 ^ 14 ∧ (s.die (v.toNat / 4096)).present = true)
    (v.toNat % 128 ≠ 0 → exec (.launch a) s = s.scalarTrap T1 0x0A) ∧
    (v.toNat % 32 ≠ 0 → exec (.task a) s = s.scalarTrap T1 0x0A) ∧
    ((2 ^ 14 ≤ v.toNat ∨ (s.die (v.toNat / 4096)).present = false) → exec (.signal a) s = s.scalarTrap T1 0x06) ∧
    (∀ i, valid i →
      ((T.counted = true ∧ s0.turn T2 = false) ∨ s.releaseOwn T.id T.core T1.shist .device = false ∨ ¬ room i) →
      exec i s = .next s0) ∧
    ((T.counted = true → s0.turn T2 = true) → s.releaseOwn T.id T.core T1.shist .device = true →
      (valid (.signal a) → exec (.signal a) s = .next ((s1.signal T.core T.ctx v.toNat).setTeam done)) ∧
      (∀ i, valid i → room i → i ≠ .signal a →
        (s.translate (.scalar T.id) T.core T.ctx v = .miss → exec i s = .next (s1.askWalk (.scalar T.id) T.core T.ctx v false 1)) ∧
        (s.translate (.scalar T.id) T.core T.ctx v = .fault → exec i s = .next s1) ∧
        (s.translate (.scalar T.id) T.core T.ctx v = .refused → exec i s = s2.scalarTrap T3 0x05)) ∧
      (∀ key attr w, s.translate (.scalar T.id) T.core T.ctx v = .ok key attr w →
        let n := fun (off len : Nat) => s.nat (key + off) len
        let bad := fun (len : Nat) => s1.readsBad T.id T.core T1.shist true key len attr
        (valid (.launch a) → room (.launch a) →
          (bad 128 = true → exec (.launch a) s = s2.scalarTrap T3 0x06) ∧
          (bad 128 = false →
            ∃ H : Header, exec (.launch a) s = .next (State.setTeam { s2 with posts := s.posts ++ [⟨d, T.ctx, H, none, none⟩] } done) ∧
            H.version = n 0x00 2 ∧ H.entry = n 0x08 4 ∧ H.laneBase = n 0x0C 4 ∧ H.image = n 0x10 8 ∧
            H.args.toNat = n 0x18 8 ∧ H.widths = [n 0x20 1, n 0x21 1, n 0x22 1, n 0x23 1, n 0x24 1, n 0x25 1] ∧
            H.flags.toNat = n 0x26 2 ∧ H.cohorts = n 0x28 8 ∧ H.teams = n 0x30 2 ∧ H.words = n 0x32 1 ∧ H.vbud = n 0x33 2 ∧
            H.sbud = n 0x35 1 ∧ H.pri = n 0x36 1 ∧ H.pad = n 0x38 4 ∧ H.cap = n 0x3C 4 ∧ H.spill = n 0x40 8 ∧
            H.tvec.toNat = n 0x48 4 ∧ H.dieMask.toNat = n 0x4C 4 ∧ H.tileMask = n 0x50 1 ∧ H.edge = n 0x51 1 ∧
            H.edgeMin = n 0x52 1 ∧ H.depthMax = n 0x53 1 ∧ H.stride = n 0x54 4 ∧ H.regions = n 0x58 8 ∧
            H.handlers = n 0x60 8 ∧ H.methods = n 0x68 8 ∧ H.stampAddr = n 0x70 8 ∧ H.stampVal.toNat = n 0x78 8)) ∧
        (valid (.task a) → room (.task a) →
          let out := n 4 2
          let good := (n 0 1 = 1 ∨ n 0 1 = 2) ∧ n 1 1 ≤ 4 ∧ n 2 2 = 0 ∧ n 6 2 = 0 ∧ n 24 8 = 0 ∧
            (out = 0xFFFF ∨ out < 2 ^ 14 ∧ (s.die (out / 2 ^ 12)).present = true) ∧ ∀ i < n 1 1, n (8 + 2 * i) 2 < 2 ^ 12
          (bad 32 = true ∨ ¬ good → exec (.task a) s = s2.scalarTrap T3 0x06) ∧
          (bad 32 = false → good → exec (.task a) s = .next (State.setTeam { s2.fresh with tasks := s.tasks ++ [{
            id := s.evId, die := d, ctx := T.ctx, core := T.core, kind := n 0 1
            inputs := (List.range (n 1 1)).map fun i => n (8 + 2 * i) 2
            token := if out = 0xFFFF then none else some out, payload := n 16 8
            det := if T.counted = true ∧ n 0 1 = 2 then some (T.launch, s.keyOf T1) else none }] } done))))) ∧
    (∀ k < 2 ^ 14, (s.die (k / 4096)).present = true → SMap.rd 0 (s.die (k / 4096)).tokens (k % 4096) ≠ 0xFFFF →
      ∀ e j, SMap.rd 0 ((s.signal T.core T.ctx k).die e).tokens j =
        SMap.rd 0 (s.die e).tokens j + if e = k / 4096 ∧ j = k % 4096 then 1 else 0)

/-- R71 to R73, R350, R352, R354: CFETCH makes its slot pending at once with the page it names, and the page the slot held is
landed no more; SEGMENT_LAND gives a pending slot the bytes of its page, sector by sector, each once what precedes the CFETCH
lets it and its home can be reached, and a refused mapping frees it; CINV_EFFECT takes away the pages that overlapped the range
when CINV issued. The moment of the effect of CINV is the model's reading (log 71). -/
def Obligations.CodeSegments : Prop :=
  ∀ (s : State),
    (∀ (T : Team) (a b : BitVec 7), ScalarReady s T [a.toNat, b.toNat] [a.toNat, b.toNat] →
      let off := (T.sreg a.toNat).toNat
      let len := (T.sreg b.toNat).toNat
      let T1 := T.linkFills.retireS (T.spc + 4)
      (off % 4096 ≠ 0 → exec (.cfetch a b) s = s.scalarTrap T.linkFills 0x0A) ∧
      (off % 4096 = 0 → ∃ t : State, exec (.cfetch a b) s = .next (t.setTeam T1) ∧
        t = { s with slots := t.slots, cinvs := t.cinvs } ∧
        (∀ x, x ∈ t.slots ↔ (x ∈ s.slots ∧ ¬(x.core = T.core ∧ x.slot = len % 128)) ∨
          x = { core := T.core, slot := len % 128, landed := false, ctx := T.ctx, image := T.hdr.image, page := off / 4096
                vpage := pageNo (BitVec.ofNat 64 (T.hdr.image + off)), preds := s.liveHist T.linkFills.shist }) ∧
        t.cinvs = s.cinvs.map fun c =>
          if c.core = T.core then { c with slots := c.slots.filter fun k => k != len % 128 } else c) ∧
      (∃ ss, exec (.cinv a b) s = .next (State.setTeam { s.fresh with cinvs := s.cinvs ++ [⟨s.evId, T.id, T.core, ss⟩] } T1) ∧
        ∀ k, k ∈ ss ↔ ∃ x ∈ s.slots, x.slot = k ∧ x.core = T.core ∧ x.image = T.hdr.image ∧
          ∃ o, off ≤ o ∧ o < off + len ∧ o < 2 ^ 32 ∧ o / 4096 = x.page)) ∧
    (∀ x ∈ s.slots, x.landed = false → (∀ y ∈ s.slots, y.core = x.core → y.slot = x.slot → y = x) →
      let who := Requester.code x.core x.slot
      let va := BitVec.ofNat 64 (x.image + 4096 * x.page)
      let tr := s.translate who x.core x.ctx va
      (tr = .miss → exec (.segmentLand x.core x.slot) s = .next (s.askWalk who x.core x.ctx va false 3)) ∧
      (tr = .refused → ∃ sl, exec (.segmentLand x.core x.slot) s = .next { s.forget who with slots := sl } ∧
        ∀ y, y ∈ sl ↔ y ∈ s.slots ∧ y ≠ x) ∧
      (∀ key attr w, tr = .ok key attr w →
        let k := key + x.bytes.length
        let o := s.older x.preds
        let clear := heldBack o = false ∧ ∀ p ∈ o, p.gone = true ∧ ∀ r ∈ p.ranges, overlap r (k, 32) = false
        let reached := s.cutOff x.core k = false ∧ s.portFailed (dieOf x.core) k = false
        (¬ (clear ∧ reached) → exec (.segmentLand x.core x.slot) s = .next s) ∧
        (clear → reached → isPad k = false →
          ∃ sl, exec (.segmentLand x.core x.slot) s = .next { s.dropLine x.core (k / 128) with slots := sl } ∧
          ∀ y, y ∈ sl ↔ (y ∈ s.slots ∧ y ≠ x) ∨
            y = { x with
              landed := decide (4096 ≤ x.bytes.length + 32), bytes := x.bytes ++ s.bytes k 32
              bad := x.bad ++ ((List.range 4).filter fun j => s.poisoned (k + 8 * j) 8).map (x.bytes.length + 8 * ·) }))) ∧
    (∀ c ∈ s.cinvs, (∀ y ∈ s.cinvs, y.id = c.id → y = c) → ∃ t : State, exec (.cinvEffect c.id) s = .next t ∧
      t = { s with slots := t.slots, cinvs := t.cinvs } ∧ (∀ y, y ∈ t.cinvs ↔ y ∈ s.cinvs ∧ y ≠ c) ∧
      ∀ y, y ∈ t.slots ↔ y ∈ s.slots ∧ ¬(y.core = c.core ∧ y.slot ∈ c.slots))

/-- R285 to R287, R313: TKWAIT answers each executing lane once its turn has come or the object is poisoned and acquires at
device scope, else its fragment waits, and polls again; TKPASS waits for its release at device scope, makes one pass per object
and ordinal and commits; in a DET launch both act at their turns. A misaligned address raises cause 0x0A, an object that its
unit does not accept 0x06. A pass takes effect when its turn has come, is held before it and ignored after it; a group without a
live team is passed by the unit once what its teams wrote is in memory. How TKWAIT answers lane by lane and when a pass is
automatic are the model's readings (log 64). -/
def Obligations.LaneTickets : Prop :=
  ∀ (s : State) (T : Team) (slot : Nat) (g : Guard) (p : Adr) (lv : BitVec 3),
    let f := T.frag slot
    let m := T.execMask f g
    let ls := lanesOf m T.lanes
    let ord := fun (l : Nat) => T.hdr.ordinal lv.toNat (T.wid l).toNat
    let object := fun (i : Instr) (T1 : Team) (lanes : LaneMask) (goes : State → Team → List Placed → Prop) =>
      MemAccess s T1 slot i lanes false false false ((lanesOf lanes T.lanes).map fun l => ⟨l, 0, T.addr p l, 16⟩) fun s0 T2 pl =>
        let b := s0.bindAll T.launch lv.toNat pl
        (b.2 ≠ 0 → exec i s = s0.laneTrapMask T2 slot 0x06 b.2) ∧ (b.2 = 0 → goes b.1 T2 pl)
    let starts := fun (i : Instr) (acts : Team → Prop) =>
      f.wait = none → LaneReady s T slot g { srcs := [(p.a, 1)] } → LaneAligned s T slot i ls (T.addr p) 16
        ((m = 0 → exec i s = .next (s.setTeam (T.nextL slot))) ∧ (m ≠ 0 → acts T))
    starts (.tkpass g p lv) (fun _ => Commits s T (.tkpass g p lv) fun T1 => object (.tkpass g p lv) T1 m fun s1 T2 pl =>
      (s.releaseOk T.id T.core f.hist .device = false →
        exec (.tkpass g p lv) s = .next (s.setTeam { T1 with committed := true })) ∧
      (s.releaseOk T.id T.core f.hist .device = true → exec (.tkpass g p lv) s =
        .next ((((pl.map fun x => (x.key, ord x.p.lane)).eraseDups).foldl (fun q x => q.pass x.1 x.2) s1).setTeam
          ({ T2 with committed := true }.nextL slot)))) ∧
    (∀ d : BitVec 4,
      let i := Instr.tkwait g d p lv
      let polls := fun (T1 : Team) (all pending : LaneMask) =>
        let held := heldBack (s.older f.hist) = true ∨ T.counted = true ∧ s.passDue T.launch = true
        (held → exec i s = .next s) ∧
        (¬ held → object i T1 pending fun s1 T2 pl => ∀ v : Nat → Option Tri,
          (∀ x ∈ pl, v x.p.lane = if s.poisonOf x.key then some .u else if s.turnOf x.key = ord x.p.lane then some .t
            else if ord x.p.lane < s.turnOf x.key then some .f else none) →
          let left := maskOf ((pl.filter fun x => (v x.p.lane).isNone).map (·.p.lane))
          let T3 := if f.wait.isSome || T.counted then T2 else T2.countL slot
          let T4 := if left = 0 then (if f.wait.isSome then T2.waitOver T.trapLevel slot else T2.nextL slot)
            else T3.setSp (T3.sp.waits slot ⟨i, all, .tickets left T.counted, s.cycle⟩)
          ∃ T', exec i s = .next ((s1.dropClean T.core).setTeam T') ∧ T' = { T4 with q := T'.q } ∧
            ∀ r l, l < 1024 → T'.qv r l =
              if r = d.toNat ∧ r ≠ 0 ∧ ∃ x ∈ pl, x.p.lane = l then (v l).getD (T.qv r l) else T.qv r l)
      starts i (fun _ => AtTurn s T i true fun T1 => polls T1 m m) ∧
      ∀ w pending tried, LaneCurrent s T slot → f.wait = some w → w.what = .tickets pending tried →
        AtTurn s T i true fun T1 => polls T1 w.exec pending) ∧
    (∀ (key n : Nat) (t : Ticket), s.ticket? key = some t →
      (s.turnOf key < n → s.pass key n = { s with tickets := s.tickets.map fun x =>
        if x.key == key then { x with held := insertNat n x.held } else x }) ∧
      (n < s.turnOf key → s.pass key n = s) ∧
      (s.turnOf key = n → t.held = [] → s.pass key n = s.homeWrite 0 key (leBytes 8 (n + 1))) ∧
      (∀ L, s.launch? t.launch = some L →
        let due := s.groupLive L t.level (s.turnOf key) = false ∧ s.writtenBack L.cores = true
        (¬ due → exec (.ticketAutoPass key) s = .next s) ∧
        (due → t.held = [] →
          (∀ w ∈ L.halted, L.hdr.ordinal t.level w ≠ s.turnOf key) →
          exec (.ticketAutoPass key) s = .next (s.homeWrite 0 key (leBytes 8 (s.turnOf key + 1)))) ∧
        (due → t.held = [] →
          (∃ w ∈ L.halted, L.hdr.ordinal t.level w = s.turnOf key) → isDev (key + 8) = true → ∃ w : Nat, w.testBit 0 = true ∧
          exec (.ticketAutoPass key) s = .next ((s.homeWrite 0 (key + 8) (leBytes 8 w)).homeWrite 0 key
            (leBytes 8 (s.turnOf key + 1))))))

/-- R51, R178, R229 to R232, R313: PBINIT, PBEXP and PBARV issue one barrier step per executing lane at an aligned usable pad
offset, lanes that name the same barrier in ascending order; PBARV commits; a misaligned offset raises cause 0x0A, one past the
limit 0x07 and a count out of range 0x06, for the fragment. PBWAIT arms one acquiring read per lane and its fragment waits, in a
DET launch at its turns, and writes true, or undecided after a broken phase, once every lane's phase has completed. BAR waits at
its word, and once its whole team, or for BAR.cohort every ordinary team of its cohort, has arrived there and what it releases
is performed, goes on. That PBWAIT acquires at its cohort's scope and what BAR.cohort means in a spawned team are the model's
readings (log 35, 63); that a count of PBINIT out of range raises 0x06 before 0x07 is its choice (log 66). -/
def Obligations.LaneBarriers : Prop :=
  ∀ (s : State) (T : Team) (slot : Nat) (g : Guard),
    let f := T.frag slot
    let m := T.execMask f g
    let ls := lanesOf m T.lanes
    let pieces := fun (a : Src) (lanes : LaneMask) => (lanesOf lanes T.lanes).map fun l => (⟨l, 0, T.srcW a l, 16⟩ : Piece)
    let placed := fun (i : Instr) (T1 : Team) (ps : List Piece) (goes : List Placed → Prop) =>
      ((∃ p ∈ ps, s.padOk T p.va p.len = false) → exec i s = s.laneTrap T1 slot 0x07) ∧
      ((∀ p ∈ ps, s.padOk T p.va p.len = true) → goes (ps.map fun p => ⟨p, s.padKeyOf T p.va.toNat, .cached⟩))
    let aligned := fun (i : Instr) (a : Src) (goes : Prop) =>
      ((∃ l ∈ ls, (T.srcW a l).toNat % 16 ≠ 0) → exec i s = s.laneTrap T slot 0x0A) ∧
      ((∀ l ∈ ls, (T.srcW a l).toNat % 16 = 0) → goes)
    let steps := fun (i : Instr) (a : Src) (commits : Bool) (op : Nat → EvOp) => placed i T (pieces a m) fun pl =>
      let r := s.fresh.emit T slot s.evId (pl.map fun x => evAt x (op x.p.lane))
      let mine := fun (e : Ev) => e.team == T.id && e.grp == s.evId
      exec i s = .next (({ r.1 with evs := (r.1.evs.filter fun e => !mine e) ++ chainEvs (r.1.evs.filter mine) }).setTeam
        (({ r.2 with committed := T.committed || (commits && m != 0) } : Team).nextL slot))
    (∀ a b c : Src, LaneReady s T slot g { srcs := [(a, 1), (b, 1), (c, 1)] } →
      let i := Instr.pbinit g a b c
      aligned i a
        (((∃ l ∈ ls, 2 ^ 23 ≤ (T.srcW b l).toNat ∨ 2 ^ 31 ≤ (T.srcW c l).toNat) → exec i s = s.laneTrap T slot 0x06) ∧
        ((∀ l ∈ ls, (T.srcW b l).toNat < 2 ^ 23 ∧ (T.srcW c l).toNat < 2 ^ 31) →
          steps i a false fun l => .pbinit (T.srcW b l).toNat (T.srcW c l).toNat))) ∧
    (∀ a b : Src, LaneReady s T slot g { srcs := [(a, 1), (b, 1)] } →
      aligned (.pbexp g a b) a (steps (.pbexp g a b) a false fun l => .pbexp ((T.srcW b l).toNat % 2 ^ 32)) ∧
      aligned (.pbarv g a b) a (steps (.pbarv g a b) a true fun l => .pbarv ((T.srcW b l).toNat % 2 ^ 24))) ∧
    (∀ (d : BitVec 4) (a : Src) (gen : Bool) (n : BitVec 8),
      let i := Instr.pbwait g d a gen n
      let arms := fun (T1 : Team) (lanes all : LaneMask) (broken : Bool) (failed : Nat) => placed i T1 (pieces a lanes) fun pl =>
        let r := s.fresh.emit T1 slot s.evId (pl.map fun x => { evAt x (.pbwait gen n.toNat) (.wait T.trapLevel slot x.p.lane) with
          scope := s.cohortScope T, strong := true, acq := true })
        let T2 := if T.counted then r.2 else r.2.countL slot
        let got := maskOf (pl.map (·.p.lane))
        exec i s = .next (r.1.setTeam (T2.setSp (T2.sp.waits slot
          ⟨i, if T.counted then all else got, .reads got broken failed, s.cycle⟩)))
      (f.wait = none → LaneReady s T slot g { srcs := [(a, 1)] } → aligned i a
        ((m = 0 → exec i s = .next (s.setTeam (T.nextL slot))) ∧ (m ≠ 0 → AtTurn s T i true fun T1 => arms T1 m m false 0))) ∧
      (∀ w grp failed left broken, LaneCurrent s T slot → f.wait = some w → w.what = .turn grp failed left broken →
        (T.waitlimit ≠ 0 → T.waitlimit.toNat ≤ failed → exec i s = .next s) ∧
        ((T.waitlimit = 0 ∨ failed < T.waitlimit.toNat) → AtTurn s T i true fun T1 => arms T1 left w.exec broken failed)) ∧
      -- the last lane's phase completes the wait: d holds true, or undecided when a phase was broken
      (∀ (X : Team) (h : Bool) (k l : Nat) (w : LaneWait) (b0 b : Bool) (n0 : Nat), ((X.spOf h).frag k).wait = some w → w.instr = i →
        w.what = .reads (laneBit l) b0 n0 → ∃ Y : Team, X.satisfied h k l b = { Y.setSpOf h ((X.spOf h).advance k) with
            clock := if ((X.spOf h).frag k).again then X.clock else X.clock + 1 } ∧
          Y = { X with q := Y.q } ∧ ∀ r j, j < 1024 → Y.qv r j =
            if r = d.toNat ∧ r ≠ 0 ∧ j < X.lanes ∧ w.exec.getLsbD j = true then (if b0 || b then .u else .t) else X.qv r j)) ∧
    (∀ cohort : Bool, f.wait = none → LaneCurrent s T slot →
      (m = 0 → exec (.bar g cohort) s = .next (s.setTeam (T.nextL slot))) ∧
      (m ≠ 0 → T.sp.depth = 0 → f.valid = true → f.level = 0 → AtTurn s T (.bar g cohort) true fun _ =>
        ((∃ k, k ≠ slot ∧ (T.frag k).valid = true) → (∀ k, k ≠ slot → (T.frag k).valid = true → (T.frag k).state ≠ 2) →
          ∃ T', exec (.bar g cohort) s = .next (s.setTeam T') ∧ (T'.frag slot).pc = f.pc ∧
            (T'.frag slot).state = 2 ∧ (T'.frag slot).mask = f.mask ∧ T'.vregs = T.vregs ∧ T'.q = T.q) ∧
        (T.sp.frags = [(slot, f)] → f.mask = T.mask → s.releaseOk T.id T.core f.hist .team = true →
          ∃ T', exec (.bar g false) s = .next (s.setTeam T') ∧ (T'.frag slot).pc = f.pc + 1 ∧
            (T'.frag slot).state = 0 ∧ (T'.frag slot).mask = f.mask ∧ T'.vregs = T.vregs ∧ T'.q = T.q) ∧
        -- the last team of its cohort: every ordinary team goes on
        (T.sp.frags = [(slot, f)] → f.mask = T.mask → T.isOrdinary = true → (∀ X ∈ s.teams, ∀ Y ∈ s.teams, X.id = Y.id → X = Y) →
          let group := s.teams.filter fun X => X.launch == T.launch && X.cohort == T.cohort && X.isOrdinary
          (∀ X ∈ group, X.id ≠ T.id → X.arrived true = true) →
          (∀ X ∈ group, s.releaseOk X.id X.core (X.sp.live.flatMap fun p => p.2.hist) (s.cohortScope T) = true) →
          ∃ t, exec (.bar g true) s = .next t ∧ t.mem = s.mem ∧ t.staged = s.staged ∧ t.evs = s.evs ∧
            (∀ X ∈ group, ∃ X', t.team? X.id = some X' ∧ X'.vregs = X.vregs ∧ X'.q = X.q ∧ ∀ k, (X.sp.frag k).valid = true →
              X.sp.depth = 0 → (X.sp.frag k).level = 0 → (X'.sp.frag k).mask = (X.sp.frag k).mask ∧
                (X'.sp.frag k).pc = (X.sp.frag k).pc + 1 ∧ (X'.sp.frag k).state = 0) ∧
            ∀ X ∈ s.teams, X ∉ group → t.team? X.id = some X)))

/-- R178, R229, R230: what the steps of a phase barrier make of it: initialisation loads both counts and their reload values in
generation 0; an arrival that leaves nothing pending completes the phase, so that the generation advances and both counts
reload; a count that would go below zero, or that a plain store left out of its range, breaks it; a wait by generation succeeds
up to 127 generations later. A PBINIT, PBEXP, PBARV or PBWAIT that nothing holds back takes that step at its bank when its event
is moved. -/
def Obligations.PhaseBarriers : Prop :=
  (∀ b : Bar, b.gen < 256 → b.pa < 2 ^ 24 → b.ea < 2 ^ 24 → b.pb < 2 ^ 32 → b.eb < 2 ^ 32 → barOf b.w0 b.w1 = b) ∧
  (∀ b : Bar, b.gen < 256 → b.pa ≤ 2 ^ 23 - 1 → b.pb ≤ 2 ^ 31 - 1 →
    let next := fun (broken : Bool) => { b with gen := (b.gen + 1) % 256, broken := broken, pa := b.ea, pb := b.eb }
    (∀ n k, n ≤ b.pa → k ≤ b.pb → (n < b.pa ∨ k < b.pb) →
      b.lower (some n) (some k) = { b with pa := b.pa - n, pb := b.pb - k } ∧
      (k = 0 → b.lower (some n) none = { b with pa := b.pa - n }) ∧ (n = 0 → b.lower none (some k) = { b with pb := b.pb - k })) ∧
    ((0 < b.pa ∨ 0 < b.pb) → b.lower (some b.pa) (some b.pb) = next false) ∧
    (0 < b.pa → b.pb = 0 → b.lower (some b.pa) none = next false) ∧
    (0 < b.pb → b.pa = 0 → b.lower none (some b.pb) = next false) ∧
    (∀ n k, (b.pa < n ∨ b.pb < k) → b.lower (some n) (some k) = next true) ∧
    (∀ n, b.pb + n ≤ 2 ^ 31 - 1 → b.expect n = { b with pb := b.pb + n }) ∧
    (∀ n, 2 ^ 31 - 1 < b.pb + n → b.expect n = next true) ∧
    (∀ n < 256, b.reached true n = true ↔ ∃ k, 1 ≤ k ∧ k ≤ 127 ∧ (n + k) % 256 = b.gen) ∧
    (∀ n, b.reached false n = true ↔ b.gen % 2 ≠ n % 2) ∧
    (∀ (x : Bar) (n : Nat), x.ea = b.ea → x.eb = b.eb → x.gen = b.gen →
      let broken := { x with gen := (x.gen + 1) % 256, broken := true, pa := x.ea, pb := x.eb }
      (2 ^ 23 - 1 < x.pa → x.lower (some n) none = broken) ∧
      (2 ^ 31 - 1 < x.pb → x.lower none (some n) = broken ∧ x.expect n = broken))) ∧
  ∀ (s : State) (e : Ev), s.ev? e.id = some e → e.isPadEv = true → e.st = .issued → e.rel = false → s.frozen e = false →
    heldBack (s.older e.preds) = false → s.padBusy e = false →
    let moves := fun (t : State) => exec (.performLoad e.id) s = .next t ∧ exec (.leave e.id) s = .next t
    let puts := fun (b : Bar) => ∃ t, moves t ∧ t = (s.endEv e.id).setBar e.ctx e.key b ∧
      (b.gen < 256 → b.pa < 2 ^ 24 → b.ea < 2 ^ 24 → b.pb < 2 ^ 32 → b.eb < 2 ^ 32 → t.bar e.key = b)
    (∀ b c, e.op = .pbinit b c → puts { gen := 0, broken := false, pa := b, ea := b, pb := c, eb := c }) ∧
    (∀ n, e.op = .pbexp n → puts ((s.bar e.key).expect n)) ∧
    (∀ n, e.op = .pbarv n → puts ((s.bar e.key).lower (some n) none)) ∧
    (∀ g n, e.op = .pbwait g n →
      ((s.bar e.key).reached g n = false → moves s) ∧
      ((s.bar e.key).reached g n = true → ∀ h k l, e.dst = .wait h k l →
        moves (((s.endEv e.id).modTeam e.team fun T => T.satisfied h k l (s.bar e.key).broken).acquire e.core e.scope)))

/-- R221 to R226, R313, R325: CPY starts one copy per executing lane, in ascending lane order in the lowest free slots, and
commits, in a DET launch at its turn; a misaligned operand raises cause 0x0A, more than 32 lanes 0x06, a record that may not be
read yet and a full table hold it at its word. CPYS gives the remaining-progress record of a slot; a COPY_SECTOR writes the
bytes of one sector and counts them, and the last one sets the copy's flags and ends it. How a sector is cut from the delivery
and which check comes first are the model's readings (log 59, 62). -/
def Obligations.LaneCopies : Prop :=
  ∀ (s : State) (T : Team) (slot : Nat),
    (∀ o : CpyOps,
      let i := Instr.cpy o
      let m := T.execMask (T.frag slot) o.g
      let ls := lanesOf m T.lanes
      let run := (if o.pb then 1 else 0) + if o.st then 2 else 0
      let word := fun (n l : Nat) => T.dataWord o.c (o.c.n.toNat + n) l
      let aligned := fun (l : Nat) => (T.srcW o.a l).toNat % 64 = 0 ∧ (T.v o.d.toNat l).toNat % 8 = 0 ∧
        (o.pb = true → (word 0 l).toNat % 16 = 0) ∧
        (o.st = true → (T.dataWord o.c (o.c.n.toNat + if o.pb then 1 else 0) l).toNat % 8 = 0)
      LaneReady s T slot o.g { srcs := [(o.a, 1), (o.b, 1), (⟨o.d, false, false⟩, if o.rs then 2 else 1)] ++
        (if run = 0 then [] else [(o.c, run)]) } →
      ((∃ l ∈ ls, ¬ aligned l) → exec i s = s.laneTrap T slot 0x0A) ∧
      ((∀ l ∈ ls, aligned l) →
        (m = 0 → exec i s = .next (s.setTeam (T.nextL slot))) ∧
        (m ≠ 0 → 32 < ls.length → exec i s = s.laneTrap T slot 0x06) ∧
        (m ≠ 0 → ls.length ≤ 32 → AtTurn s T i true fun T1 =>
          MemAccess s T1 slot i m false true false (ls.map fun l => ⟨l, 0, T.srcW o.a l, 64⟩) fun s0 T2 pl =>
          let h := (T2.frag slot).hist
          let ks := pl.flatMap fun x => (List.range 64).map fun j => (x.key + j, x.attr)
          (s0.mayPeek T.core h ks = false → exec i s = .next s) ∧
          (s0.mayPeek T.core h ks = true →
            let cs := pl.map fun x => cpyCopy o s0 T2 slot x.p.lane (layoutOf (s0.peek T.id T.core h x.key 64 x.attr))
            let free := (List.range 32).filter fun n => s.copies.all fun c => c.team != some T.id || c.ended || c.slot != n
            (∀ cause, cpyCheck o s0 T2 cs = some cause → exec i s = (s0.afterPeek T.core ks).laneTrap T2 slot cause) ∧
            (cpyCheck o s0 T2 cs = none → free.length < cs.length → exec i s = .next s) ∧
            (cpyCheck o s0 T2 cs = none → cs.length ≤ free.length → ∃ new : List Copy,
              let T3 := T2.setFrag slot { T2.frag slot with
                hist := s.liveHist h ++ (List.range cs.length).map (s0.evId + ·) }
              exec i s = .next ({ s0.afterPeek T.core ks with evId := s0.evId + cs.length, copies := s.copies ++ new }.setTeam
                ({ T3 with committed := true }.nextL slot)) ∧
              new.length = cs.length ∧ ∀ (k : Nat) (c x : Copy), cs[k]? = some c → new[k]? = some x →
                x = { c with id := s0.evId + k, slot := free.getD k 0
                             done := if o.rs then (T.v (o.d.toNat + 1) c.lane).toNat % 2 ^ 32 else 0 }))))) ∧
    (∀ (g : Guard) (d : BitVec 9) (a : Src), LaneReady s T slot g { srcs := [(a, 1)], dst := [d.toNat, d.toNat + 1] } →
      ∀ val : Nat → Pair, (∀ l,
        let n := (T.srcW a l).toNat % 32
        let out := (s.copies.filter fun c => c.team == some T.id && !c.ended).length
        (∀ c, (s.copies.filter fun c => c.team == some T.id && !c.ended && c.slot == n).head? = some c →
          (val l).even = BitVec.ofNat 64 (c.done % 2 ^ 32 + n * 2 ^ 32 + (if c.stopped then 2 else 1) * 2 ^ 37) ∧
          (val l).odd = BitVec.ofNat 64 (c.total % 2 ^ 32) ||| BitVec.ofNat 64 (out * 2 ^ 32)) ∧
        ((∀ c ∈ s.copies, c.team = some T.id → c.ended = false → c.slot ≠ n) →
          (val l).even = BitVec.ofNat 64 (n * 2 ^ 32) ∧ (val l).odd = BitVec.ofNat 64 (out * 2 ^ 32))) →
      LaneWrites s T slot (.cpys g d a) g true d val fun _ => 0) ∧
    (∀ c ∈ s.copies, (∀ y ∈ s.copies, y.id = c.id → y = c) → c.stopped = false → c.stopping = false → c.ended = false →
      c.team = some T.id → s.team? T.id = some T → c.det = none → c.pb = none → c.dir = .toPad → s.sectorReady c = true →
      let n := c.sectorAt c.done
      let rd := fun (a : Nat) => s.peekByte T.id T.core c.preds (s.vaKey (.copy c.id) T.core T.ctx a)
      let pad := fun (o : Nat) => s.byte (s.padKeyOf T o)
      c.core = T.core → c.ctx = T.ctx →
      let w := c.sector rd pad pad c.done n
      ∃ t, exec (.copySector c.id) s = .next t ∧ t.mem = s.mem ∧ t.evs = s.evs ∧
        t.staged = (w.1.zipIdx.map fun x =>
          (s.padKeyOf T (c.destAt c.done) + (c.destAt (c.done + x.2) - c.destAt c.done), x.1)).reverse ++ s.staged ∧
        (c.done + n < c.total → t.teams = s.teams ∧
          t.copies = s.copies.map fun x => if x = c then { c with done := c.done + n, flags := c.flags ||| w.2 } else x) ∧
        (c.total ≤ c.done + n → c.stamp = none → c.token = none →
          (∀ x, x ∈ t.copies ↔ x ∈ s.copies ∧ x ≠ c) ∧
          ∃ X, t.team? T.id = some X ∧ X = { T with fflags := X.fflags } ∧
            ∀ l, X.flags l = if l = c.lane then T.flags l ||| (c.flags ||| w.2) else T.flags l))

/-- R241, R242, R278, R279, R283, R312: COMB sends one request per executing lane, commits and marks D empty; in a DET launch it
does so at its turn, which lasts until the requests are at their units. OBJREG sends registrations and waits; OBJCLR sends
clears and goes on. AMSG queues one message per lane at its core and commits, in a DET launch at its turn; lanes whose queue is
full wait. CRET answers the requests of its wave once, and outside a wave raises cause 0x02. Without a table the others raise
cause 0x06, and so do addresses in host memory. Registration by physical range, the reply size read at CRET and one AMSG at a
time are the model's readings (log 50 to 52), and so is that the turn of COMB lasts until its requests are at their units (log
80). -/
def Obligations.LaneConfluence : Prop :=
  ∀ (s : State) (T : Team) (slot : Nat) (g : Guard),
    let f := T.frag slot
    let m := T.execMask f g
    let ls := lanesOf m T.lanes
    let request := fun (s0 : State) (T2 : Team) (k : Nat) (x : Placed) (kind : ReqKind) (reg qs : Nat) => ({
      id := s0.evId + 1 + k, team := T2.id, launch := T2.launch, core := T2.core, ctx := T2.ctx, lane := x.p.lane, grp := s0.evId
      kind := kind, va := x.p.va.toNat, key := x.key, wid := T2.wid x.p.lane, cohort := (T2.cohortIdx x.p.lane).toNat
      clock := T2.clock, reg := reg, qs := qs, preds := s0.liveHist (T2.frag slot).hist, region := T2.regionTag
      h := T2.trapLevel, slot := slot } : Req)
    let sends := fun (i : Instr) (s0 : State) (T2 T' : Team) (pl : List Placed) (kind : Nat → ReqKind) (reg qs : Nat) =>
      ∃ new : List Req, exec i s = .next ({ s0 with evId := s0.evId + 1 + pl.length, reqs := s0.reqs ++ new }.setTeam T') ∧
        new.length = pl.length ∧ ∀ (k : Nat) (x : Placed) (r : Req), pl[k]? = some x → new[k]? = some r →
          r = request s0 T2 k x (kind x.p.lane) reg qs
    let notHost := fun (i : Instr) (T2 : Team) (s0 : State) (pl : List Placed) (acts : Prop) =>
      ((∃ x ∈ pl, inHost x.key = true) → ∃ h : LaneMask, exec i s = s0.laneTrapMask T2 slot 0x06 h ∧
        ∀ l < 1024, (h.getLsbD l = true ↔ ∃ x ∈ pl, x.p.lane = l ∧ inHost x.key = true)) ∧
      ((∀ x ∈ pl, inHost x.key = false) → acts)
    let waits := fun (T' : Team) (i : Instr) (w : WaitFor) => T'.setSp (T'.sp.waits slot ⟨i, m, w, s.cycle⟩)
    (∀ (p : Adr) (b : Src) (d : BitVec 9) (qs : BitVec 4) (meth : BitVec 8),
      let i := Instr.comb g d p b qs meth
      let regs := [d.toNat]
      LaneFinishes s T slot i ∧
      (f.wait = none → LaneReady s T slot g { srcs := [(p.a, 1), (b, 1)], dst := regs } → LaneAligned s T slot i ls (T.addr p) 8
        ((m = 0 → exec i s = .next (s.setTeam (T.nextL slot))) ∧
        (m ≠ 0 → T.hdr.methods = 0 → exec i s = s.laneTrapMask T slot 0x06 m) ∧
        (m ≠ 0 → T.hdr.methods ≠ 0 → AtTurn s T i true fun T1 =>
          MemAccess s T1 slot i m false false false (ls.map fun l => ⟨l, 0, T.addr p l, 8⟩) fun s0 T2 pl => notHost i T2 s0 pl
            (let held := (s.reqs.filter fun r => r.core == T.core && r.kind.isComb).length + pl.length
            (1024 < held → exec i s = .next s) ∧
            (held ≤ 1024 →
              let T3 := { T2.mark regs (maskOf (pl.map (·.p.lane))) s0.evId with committed := true }
              sends i s0 T2 (if T.counted then waits T3 i (.finish s0.evId) else T3.nextL slot) pl
                (fun l => .comb meth.toNat (T.srcW b l)) d.toNat qs.toNat)))))) ∧
    (∀ (p : Adr) (b : Src),
      let i := Instr.objreg g p b
      f.wait = none → LaneReady s T slot g { srcs := [(p.a, 1), (b, 1)] } → LaneAligned s T slot i ls (T.addr p) 8
        ((m = 0 → exec i s = .next (s.setTeam (T.nextL slot))) ∧
        (m ≠ 0 → T.hdr.methods = 0 → exec i s = s.laneTrapMask T slot 0x06 m) ∧
        (m ≠ 0 → T.hdr.methods ≠ 0 →
          MemAccess s T slot i m false false false (ls.map fun l => ⟨l, 0, T.addr p l, 8⟩) fun s0 T2 pl => notHost i T2 s0 pl
            (sends i s0 T2 (waits (T2.countL slot) i (.objreg (maskOf (pl.map (·.p.lane))))) pl
              (fun l => .register ((T.srcW b l).extractLsb' 0 32).toNat
                ((T.srcW b l).extractLsb' 32 16).toNat ((T.srcW b l).extractLsb' 48 16).toNat) 0 0)))) ∧
    -- OBJREG goes on once every answer is back, where a handler or a trap kept it from doing so at once
    (∀ (p : Adr) (b : Src) (w : LaneWait), LaneCurrent s T slot → f.wait = some w →
      let i := Instr.objreg g p b
      let rs := s.reqs.filter fun r => r.team == T.id && r.h == T.trapLevel && r.slot == slot && r.kind.isRegister && !r.dropped
      let left := { s with reqs := s.reqs.filter fun x => !(rs.any fun r => x.team == r.team && x.grp == r.grp) }
      ((rs = [] ∨ (∃ r ∈ rs, r.place ≠ .back) ∨ T.raised ≠ none) → exec i s = .next s) ∧
      (rs ≠ [] → (∀ r ∈ rs, r.place = .back ∧ r.grp = (rs.headD default).grp) → T.raised = none →
        ((∀ r ∈ rs, r.bad = false) → exec i s = .next (left.setTeam (T.waitOver T.trapLevel slot))) ∧
        ((∃ r ∈ rs, r.bad = true) → (∀ r ∈ rs, r.fresh = false) → exec i s =
          left.laneTrapMask T slot 0x06 (maskOf ((rs.filter (·.bad)).map (·.lane)))))) ∧
    (∀ p : Adr, LaneReady s T slot g { srcs := [(p.a, 1)] } →
      MemAccess s T slot (.objclr g p) m false false false (ls.map fun l => ⟨l, 0, T.addr p l, 1⟩) fun s0 T2 pl =>
        sends (.objclr g p) s0 T2 (T2.nextL slot) pl (fun _ => .clear) 0 0) ∧
    (∀ (p : Adr) (b : Src) (core : Bool) (h : BitVec 12) (n : BitVec 3),
      let i := Instr.amsg g p b core h n
      let message := fun (T2 : Team) (y : Nat × Nat × Word) => ({
        core := y.2.1, handler := h.toNat, payload := (List.range (n.toNat + 1)).map fun j => T.dataWord b (b.n.toNat + j) y.1
        addr := y.2.2, wid := T2.wid y.1, cohort := (T2.cohortIdx y.1).toNat, ctx := T2.ctx, pri := T2.hdr.pri, hdr := T2.hdr
        launch := T2.launch, spages := T2.spages, lblocks := T2.lblocks } : AMsg)
      -- the lanes' messages, of which the first ones that fit are queued
      let queues := fun (w : Option LaneWait) (s0 : State) (T1 T2 : Team) (dest : List (Nat × Nat × Word)) =>
        let T3 := { T2 with committed := true }
        ((T.sending slot = true ∨ s0.releaseOk T.id T.core (T2.frag slot).hist .device = false) →
          exec i s = .next (s.setTeam { T1 with committed := true })) ∧
        (T.sending slot = false → s0.releaseOk T.id T.core (T2.frag slot).hist .device = true →
          ∀ pre post : List (Nat × Nat × Word), dest = pre ++ post →
            (∀ y ∈ pre, s0.routeBroken (dieOf T.core) (dieOf y.2.1) = false ∧
              (s0.amsgs.filter fun x => x.core == y.2.1).length + (pre.filter fun x => x.2.1 == y.2.1).length ≤ 64) →
            (∀ y, post.head? = some y → s0.routeBroken (dieOf T.core) (dieOf y.2.1) = true ∨
              64 ≤ (s0.amsgs.filter fun x => x.core == y.2.1).length + (pre.filter fun x => x.2.1 == y.2.1).length) →
            let T4 := if T.counted = true ∨ w.isSome = true then T3 else T3.countL slot
            exec i s = .next ({ s0 with amsgs := s0.amsgs ++ pre.map (message T2) }.setTeam (
              if post = [] then (if w.isSome then T3.waitOver T.trapLevel slot else T3.nextL slot)
              else T4.setSp (T4.sp.waits slot ⟨i, (w.map LaneWait.exec).getD m, .amsg (maskOf (post.map Prod.fst)), s.cycle⟩))))
      let tries := fun (w : Option LaneWait) (lanes pending : LaneMask) (T1 : Team) =>
        let now := lanesOf pending T.lanes
        let there := fun (l : Nat) => decide ((T.srcW p.a l).toNat < 128) && (s.die ((T.srcW p.a l).toNat / 32)).present
        (core = true → (∃ l ∈ now, there l = false) → ∃ k : LaneMask, exec i s = s.laneTrapMask T1 slot 0x06 k ∧
          ∀ l < 1024, k.getLsbD l = (decide (l ∈ now) && !there l)) ∧
        (core = true → (∀ l ∈ now, there l = true) →
          queues w (s.forget (.lanes T.id T.trapLevel slot)) T1 T1 (now.map fun l => (l, (T.srcW p.a l).toNat, 0))) ∧
        (core = false → MemAccess s T1 slot i lanes false false false (now.map fun l => ⟨l, 0, T.addr p l, 1⟩) fun s0 T2 pl =>
          notHost i T2 s0 pl (queues w s0 T1 T2 (pl.map fun x => (x.p.lane, s0.amsgCore x.key, x.p.va))))
      (f.wait = none → LaneReady s T slot g { srcs := [(p.a, 1), (b, n.toNat + 1)] } →
        (m = 0 → exec i s = .next (s.setTeam (T.nextL slot))) ∧
        (m ≠ 0 → T.hdr.handlers = 0 → exec i s = s.laneTrapMask T slot 0x06 m) ∧
        (m ≠ 0 → T.hdr.handlers ≠ 0 → Commits s T i (tries none m m))) ∧
      (∀ w pending, LaneCurrent s T slot → f.wait = some w → w.what = .amsg pending →
        AtTurn s T i true (tries (some w) w.exec pending))) ∧
    (∀ a : BitVec 4, (T.isWave = false → LaneCurrent s T slot → exec (.cret g a) s = s.laneTrap T slot 0x02) ∧
      (∀ o, T.sort = .wave o → LaneReady s T slot g { srcs := [(⟨0, false, false⟩, 1)] } → CrossReady T slot true →
        (T.replied = true → exec (.cret g a) s = .next (s.setTeam (T.nextL slot))) ∧
        (T.replied = false → s.releaseOk T.id T.core (s.evsOf T) .device = false → exec (.cret g a) s = .next s) ∧
        (T.replied = false → s.releaseOk T.id T.core (s.evsOf T) .device = true → ∀ x L w, s.obj? o = some x →
          s.launch? T.launch = some L → s.waveMethod x L = some w → ∃ rs : List Req,
          exec (.cret g a) s = .next ({ s with reqs := rs }.setTeam (({ T with replied := true } : Team).nextL slot)) ∧
          rs.length = s.reqs.length ∧ ∀ (k : Nat) (r r' : Req), s.reqs[k]? = some r → rs[k]? = some r' →
            (r.obj ≠ some o → r' = r) ∧ (r.place.isInWave = false → r' = r) ∧
            (∀ l, r.obj = some o → r.place = .inWave l → m.getLsbD l = true →
              r' = { r with place := .answered, status := T.qv a.toNat l
                            value := BitVec.ofNat 64 ((T.v 0 l).toNat % 2 ^ (8 * w.rb)), keep := w.rb == 0 }) ∧
            (∀ l, r.obj = some o → r.place = .inWave l → m.getLsbD l = false →
              r' = { r with place := .answered, status := .u, value := 0, keep := w.rb == 0 }))))

/-- R240 to R244, R278, R280 to R284: the confluence units and the cores' message queues. A request is answered undecided
without a registration, else held in its object's window, which takes no more once it is due; a registration and a clear act
when they arrive; a window closes at 32 requests, at its length or after 16 cycles without one, or in a DET launch when every
team has passed its clocks, and packs the requests of one method, or answers them false for a poisoned object; a wave starts on
the paired cluster, on its lower core where both have room (the model's choice, log 89); a reply writes the lane's register and
its status; the message at the head of a queue starts its handler, or is dropped and reported; a trapped wave halts once its
stores are out, and poisons its object. Rests on the model's readings of R278 to R284 (log 50 to 52, 80). -/
def Obligations.ConfluenceUnits : Prop :=
  ∀ s : State,
    -- a request arrives: answered undecided without a registration, else held, unless the window is due; the window opens or goes on
    (∀ r, s.arriving r.id = some r → r.kind.isComb = true →
      (s.releaseOk r.team r.core r.preds .device = false → exec (.requestArrival r.id) s = .next s) ∧
      (s.releaseOk r.team r.core r.preds .device = true →
        (s.objFor r.launch r.key = none →
          exec (.requestArrival r.id) s = .next (s.setReq { r with place := .answered, status := .u, value := 0 })) ∧
        (∀ o, s.objFor r.launch r.key = some o → s.windowDue o = true → exec (.requestArrival r.id) s = .next s) ∧
        (∀ o w n, s.objFor r.launch r.key = some o → s.windowDue o = false → o.window = some (w, n) →
          exec (.requestArrival r.id) s = .next { s with
            reqs := (s.reqs.filter fun x => x.id != r.id) ++ [{ r with place := .held, obj := some o.id }]
            objs := s.objs.map fun x => if x.id == o.id then { x with window := some (w, s.cycle) } else x }) ∧
        (∀ o, s.objFor r.launch r.key = some o → o.window = none → o.wave = none → o.packed = [] → ∃ t : State,
          exec (.requestArrival r.id) s = .next t ∧ t = { s with reqs := t.reqs, objs := t.objs } ∧
            t.reqs = (s.reqs.filter fun x => x.id != r.id) ++ [{ r with place := .held, obj := some o.id }] ∧
            { o with window := some (s.cycle, s.cycle) } ∈ t.objs))) ∧
    -- a registration arrives
    (∀ (r : Req) (len mbase win : Nat), s.arriving r.id = some r → r.kind = .register len mbase win →
      let here := s.objs.filter fun o => s.unitOf o.key == s.unitOf r.key
      let same := fun (o : ObjReg) => o.launch = r.launch ∧ o.key = r.key ∧ o.len = len ∧ o.mbase = mbase ∧ o.win = win
      ((len = 0 ∨ len % 8 ≠ 0 ∨ ((∀ o ∈ here, ¬ same o) ∧
          (256 ≤ here.length ∨ ∃ o ∈ here, o.key < r.key + len ∧ r.key < o.key + o.len))) →
        exec (.registrationArrival r.id) s = .next (s.setReq { r with place := .answered, bad := true })) ∧
      (len ≠ 0 → len % 8 = 0 → (∀ o ∈ here, ¬ same o) → here.length < 256 →
        (∀ o ∈ here, o.key + o.len ≤ r.key ∨ r.key + len ≤ o.key) →
        exec (.registrationArrival r.id) s = .next (State.setReq { s.fresh with objs := s.objs ++ [{
          id := s.evId, launch := r.launch, key := r.key, va := r.va, ctx := r.ctx, len := len, mbase := mbase, win := win }] }
          { r with place := .answered, obj := some s.evId, fresh := true })) ∧
      (len ≠ 0 → len % 8 = 0 → (∃ o ∈ here, same o) → ∃ o ∈ here, same o ∧
        exec (.registrationArrival r.id) s = .next (s.setReq { r with place := .answered, obj := some o.id }))) ∧
    -- a clear arrives
    (∀ r, s.arriving r.id = some r → r.kind = .clear → ∃ t : State, exec (.objclrArrival r.id) s = .next t ∧
      t = { s with reqs := s.reqs.filter fun x => x.id != r.id, objs := t.objs } ∧
      (∀ o, s.objFor r.launch r.key = some o →
        t.objs = s.objs.map fun x => if x.id == o.id then { x with poisoned := false } else x) ∧
      (s.objFor r.launch r.key = none → t.objs = s.objs)) ∧
    -- a window closes: a healthy object packs up to 32 requests of the first one's method, a poisoned one answers them false
    (∀ o w n, s.obj? o.id = some o → o.window = some (w, n) →
      let held := s.reqs.filter fun r => r.obj == some o.id && r.place == .held
      let due := 32 ≤ held.length ∨ w + (if o.win = 0 then 64 else o.win) ≤ s.cycle ∨ n + 16 ≤ s.cycle
      (s.isDet o.launch = false → (s.windowDue o = true ↔ due) ∧ (¬ due → exec (.windowClose o.id) s = .next s) ∧
        (due → exec (.windowClose o.id) s = .next (s.packWave o held))) ∧
      (s.isDet o.launch = true → exec (.windowClose o.id) s = .next s ∧
        ∀ L rs, s.launch? o.launch = some L → held ≠ [] → rs.Perm held → rs.Pairwise (fun a b => Req.before a b = true) →
          let full := 32 ≤ held.length ∨ L.placed.length = L.hdr.cohorts ∧
            ∀ T ∈ s.teams, T.launch = o.launch → T.counted = true → ∀ r ∈ held, r.clock < T.clock
          (s.windowDue o = true ↔ full) ∧ (full → exec (.windowCloseDet o.id) s = .next (s.packWave o rs)) ∧
          (¬ full → exec (.windowCloseDet o.id) s = .next s)) ∧
      (∀ r rs,
        let took := (((r :: rs).filter fun y => y.kind.meth == r.kind.meth).take 32).map (·.id)
        (o.poisoned = false → ∃ t : State, s.packWave o (r :: rs) = t ∧ t = { s with reqs := t.reqs, objs := t.objs } ∧
          t.objs = s.objs.map fun x => if x.id == o.id then { x with window := none, packed := took } else x) ∧
        (o.poisoned = true → ∃ t : State, s.packWave o (r :: rs) = t ∧ t = { s with reqs := t.reqs, objs := t.objs } ∧
          t.reqs = s.reqs.map fun x => if x.id ∈ took then { x with place := .answered, status := .f, value := 0 } else x))) ∧
    -- a wave starts on a core of the paired cluster, or its requests are answered undecided when its method is invalid
    (∀ o L, s.obj? o.id = some o → s.launch? o.launch = some L → o.packed ≠ [] → o.wave = none →
      (s.waveMethod o L = none → exec (.waveStart o.id) s = .next (s.endWave o.id)) ∧
      (∀ m,
        let ok := fun (k : Nat) => s.roomFor k (takes 1 (8 * m.budget) 16) = true ∧ s.spanReady k L = true ∧ s.partition k ≠ none
        let first := 32 * (s.unitOf o.key).1 + 2 * (s.unitOf o.key).2
        s.waveMethod o L = some m → (¬ ok first → ¬ ok (first + 1) → exec (.waveStart o.id) s = .next s) ∧
        ∀ k, ok k → (k = first ∨ ¬ ok first ∧ k = first + 1) →
        ∃ (t : State) (W : Team), exec (.waveStart o.id) s = .next t ∧ t.teams = s.teams ++ [W] ∧ t.mem = s.mem ∧
          t.reqs = s.reqs ∧ W.id = s.evId ∧ W.sort = .wave o.id ∧ W.core = k ∧ W.launch = L.id ∧ W.pri = 7 ∧ W.words = 1 ∧
          W.vbud = 8 * m.budget ∧ W.sbud = 16 ∧ W.tvec = 0xFFFFFFFF ∧ W.mask = fullMask (s.packedReqs o).length ∧
          W.run = some { entry := m.entry, args := [BitVec.ofNat 64 o.va] } ∧
          ∀ (i : Nat) (r : Req) (c : Nat) (a : Word), (s.packedReqs o)[i]? = some r → i < 1024 → r.kind = .comb c a →
            W.v 0 i = a ∧ W.wid i = r.wid ∧ W.cohortIdx i = BitVec.ofNat 64 r.cohort)) ∧
    -- a reply arrives: the lane's register and status
    (∀ r ∈ s.reqs, (∀ y ∈ s.reqs, y.id = r.id → y = r) → r.place = .answered → r.kind.isRegister = false → r.dropped = false →
      s.routeBroken (homeDie r.key) (dieOf r.core) = false →
      r.lane < 1024 → ∀ T, s.team? r.team = some T → (∀ X ∈ s.teams, X.id = T.id → X = T) →
      ∃ (t : State) (T' : Team), exec (.replyArrival r.id) s = .next t ∧ t.team? T.id = some T' ∧
        (t.reqs = s.reqs.filter fun x => x.id != r.id) ∧
        (∀ n l, l < 1024 → T'.v n l = if n = r.reg ∧ l = r.lane ∧ r.keep = false then r.value else T.v n l) ∧
        (∀ n l, l < 1024 → T'.qv n l = if n = r.qs ∧ l = r.lane ∧ n ≠ 0 then r.status else T.qv n l) ∧
        T' = { T with vregs := T'.vregs, q := T'.q, marks := T'.marks }) ∧
    -- the last registration answered ends an OBJREG
    (∀ r ∈ s.reqs, r.place = .answered → r.kind.isRegister = true →
      s.routeBroken (homeDie r.key) (dieOf r.core) = false → (∀ y ∈ s.reqs, y.id = r.id → y = r) →
      (∀ y ∈ s.reqs, y.team = r.team → y.grp = r.grp → y = r) → ∀ T, s.team? r.team = some T → r.dropped = false →
      r.lane < 1024 →
      ((T.trapLevel ≠ r.h ∨ T.raised ≠ none) → exec (.registrationAnswer r.id) s = .next (s.setReq { r with place := .back })) ∧
      (T.trapLevel = r.h → T.raised = none →
      (r.bad = false → exec (.registrationAnswer r.id) s = .next (State.setTeam { s with
        reqs := s.reqs.filter fun x => !(x.team == r.team && x.grp == r.grp) } (T.waitOver r.h r.slot))) ∧
      (r.bad = true → r.fresh = false → exec (.registrationAnswer r.id) s = State.laneTrapMask { s with
        reqs := s.reqs.filter fun x => !(x.team == r.team && x.grp == r.grp) } T r.slot 0x06 (laneBit r.lane)))) ∧
    -- the message at the head of a queue starts its handler, or is dropped and reported
    (∀ m rest, s.amsgs = m :: rest →
      ((∀ x, s.method (dieOf m.core) m.ctx m.hdr.handlers m.handler = some x → x.rb ≠ 0) →
        exec (.handlerStart m.core) s = .next (State.deviceEvent { s with amsgs := rest }
          (dieOf m.core) m.core m.ctx 2 (BitVec.ofNat 64 m.handler))) ∧
      (∀ x place, s.method (dieOf m.core) m.ctx m.hdr.handlers m.handler = some x → x.rb = 0 →
        s.roomFor m.core (takes 1 (8 * x.budget) 16) = true → s.spanReady m.core m.launchOf = true →
        s.partition m.core = some place → m.payload.length ≤ 8 →
        ∃ (t : State) (H : Team), exec (.handlerStart m.core) s = .next t ∧ t.teams = s.teams ++ [H] ∧ t.amsgs = rest ∧
          H.sort = .handler ∧ H.mask = 1 ∧ H.core = m.core ∧ H.vbud = 8 * x.budget ∧ H.wid 0 = m.wid ∧
          H.run = some { entry := x.entry, args := [m.addr] } ∧ ∀ j (h : j < m.payload.length), H.v j 0 = m.payload[j])) ∧
    -- a trapped wave halts and poisons its object
    (∀ T o r, s.team? T.id = some T → T.sort = .wave o → T.raised = some r →
      let q := s.abandon T
      ((q.writesInFlight T = true ∨ q.storesOut T = false ∨ q.endReady T = false) → exec (.waveHalt T.id) s = .next q) ∧
      (q.writesInFlight T = false → q.storesOut T = true → q.endReady T = true →
        exec (.waveHalt T.id) s = .next ((q.modObj o fun x => { x with poisoned := true }).haltTeam T 0xFE r.cause r.ln r.resume)))

/-- R305 to R308, R312, R314 to R316, R318, R319, R321: COLL reads its descriptors, sends one contribution per lane word,
commits and marks D empty until each leaves its core, and in a broken communicator writes 0 at once; a DET launch does so at its
turn. FLUSH does nothing outside DET and drains at its turn under DET. A contribution begins or joins its instance, a node with
both inputs combines them, an instance whose time has passed ends with STATUS 2, and a finished copy or a result of a DET launch
acts at its turn. That contributions of the next instance wait in flight, and that a copy's slot is free with its last sector,
are the model's readings (log 53, 58); that FLUSH stays at its turn until every held atomic may step, and drains them in one
step, is its choice (log 75). -/
def Obligations.Collectives : Prop :=
  ∀ (s : State),
    (∀ (T : Team) (slot : Nat) (o : V2) (op : RedOp) (lead : Nat → Nat),
      let m := T.execMask (T.frag slot) o.g
      let ls := lanesOf m T.lanes
      let i := Instr.coll o op
      let adr := fun (l : Nat) => T.srcW o.a (lead l)
      LaneReady s T slot o.g { srcs := [(o.a, 1), (o.b, 1)], dst := [o.d.toNat] } →
      -- the lane of a lane word that names its descriptor
      (∀ l ∈ ls, lead l ∈ ls ∧ lead l / 32 = l / 32 ∧ ∀ k ∈ ls, k / 32 = l / 32 → lead l ≤ k) →
      (m = 0 → exec i s = .next (s.setTeam (T.nextL slot))) ∧
      ((∃ l ∈ ls, (adr l).toNat % 64 ≠ 0) → exec i s = s.laneTrap T slot 0x0A) ∧
      (m ≠ 0 → (∀ l ∈ ls, (adr l).toNat % 64 = 0) → AtTurn s T i true fun T1 =>
        let nc := fun (l : Nat) => match s.translate (.lanes T.id T.trapLevel slot) T.core T.ctx (adr l) with
          | .ok key a _ => if s.mayPeek T.core (T.frag slot).hist [(key, a)] then
              (s.peekByte T.id T.core (T.frag slot).hist (key, a)).toNat else 0
          | _ => 0
        MemAccess s T1 slot i m false true false ((ls.map fun l => ⟨l, 0, adr l, 32⟩) ++
          ls.flatMap fun l => (List.range (if nc l ≤ 64 then (8 * nc l + 4 * (nc l - 1)) / 4 else 0)).map fun j =>
            ⟨l, 0, adr l + BitVec.ofNat 64 (0x20 + 4 * j), 4⟩) fun s0 T2 pl =>
          let parts := s0.collParts T2 slot (T.collWords m) (T.srcW o.a) pl
          let idx := fun (c : CollPart) => c.tree.wids.findIdx? (· == T.wid (32 * c.word))
          let broken := fun (c : CollPart) => s0.commRefuses T.launch T.core c.key c.tree
          let sent := parts.filter fun c => !broken c
          let ks := pl.flatMap fun x => (List.range x.p.len).map fun j => (x.key + j, x.attr)
          let may := s0.mayPeek T.core (T2.frag slot).hist ks
          (may = false → exec i s = .next s) ∧
          (may = true → (∃ c ∈ parts, c.tree.ok = false ∨ idx c = none) → exec i s = (s0.afterPeek T.core ks).laneTrap T2 slot 0x06) ∧
          (may = true → (∀ c ∈ parts, c.tree.ok = true ∧ idx c ≠ none) → ∃ (t : State) (T' : Team) (new : List Contrib),
            exec i s = .next (t.setTeam (T'.nextL slot)) ∧
            t = { s0.afterPeek T.core ks with evId := s0.evId + 1 + sent.length, contribs := s0.contribs ++ new, comms := t.comms } ∧
            T' = { T2.mark [o.d.toNat] (maskOf (sent.flatMap fun c => ls.filter fun l => l / 32 == c.word)) s0.evId with
              committed := true, vregs := T'.vregs } ∧
            (∀ r l, l < 1024 → T'.v r l =
              if r = o.d.toNat ∧ l ∈ ls ∧ (∃ c ∈ parts, c.word = l / 32 ∧ broken c = true) then 0 else T.v r l) ∧
            (∀ c ∈ parts, broken c = true → ∃ y ∈ t.comms, y.key = c.key ∧ y.launch = T.launch ∧ y.invalid = true) ∧
            new.length = sent.length ∧ ∀ (k : Nat) (c : CollPart) (x : Contrib), sent[k]? = some c → new[k]? = some x →
              x.id = s0.evId + 1 + k ∧ x.team = T.id ∧ x.launch = T.launch ∧ x.core = T.core ∧ x.key = c.key ∧ x.tree = c.tree ∧
              some x.contributor = idx c ∧ x.word = c.word ∧ x.reg = o.d.toNat ∧ x.op = op ∧ x.ty = o.ty ∧ x.leftCore = false ∧
              x.det = (if T.counted then some (s.keyOf T) else none) ∧ ∀ j < 32, x.elems[j]? =
                some (if T.executes slot o.g (32 * c.word + j) then some (T.srcW o.b (32 * c.word + j)) else none)))) ∧
    (∀ (T : Team) (slot : Nat) (g : Guard), LaneCurrent s T slot →
      ((T.counted = false ∨ T.execMask (T.frag slot) g = 0) → exec (.flush g) s = .next (s.setTeam (T.nextL slot))) ∧
      (T.counted = true → T.execMask (T.frag slot) g ≠ 0 → AtTurn s T (.flush g) true fun T1 =>
        (s.drainReady T.launch (some (s.keyOf T)) = false → exec (.flush g) s = .next s) ∧
        (s.drainReady T.launch (some (s.keyOf T)) = true →
          exec (.flush g) s = .next ((s.drain T.launch (some (s.keyOf T))).setTeam (T1.nextL slot))))) ∧
    (∀ c ∈ s.contribs, (∀ y ∈ s.contribs, y.id = c.id → y = c) → c.leftCore = false → c.word < 32 → c.elems.length = 32 →
      ∀ T, s.team? c.team = some T → (∀ X ∈ s.teams, X.id = T.id → X = T) → ∃ T' : Team,
      exec (.contributionLeavesCore c.id) s = .next (State.setTeam { s with
        contribs := s.contribs.map fun x => if x = c then { c with leftCore := true } else x } T') ∧
      (∀ r l, l < 1024 → T'.v r l =
        if r = c.reg ∧ l / 32 = c.word ∧ (c.elems.getD (l % 32) none).isSome then 1 else T.v r l) ∧
      T'.marks = T.marks.filter fun m => !(m.reg == c.reg && m.word == c.word && m.grp == c.grp)) ∧
    -- a contribution joins its descriptor's instance, whose common fields are the lowest contributor's, or begins one
    (∀ c ∈ s.contribs, s.contribs.head? = some c → c.leftCore = true →
      s.routeBroken (dieOf c.core) (s.homeOf c.core c.key) = false → (∀ x ∈ s.comms, x.key = c.key → x.invalid = false) →
      let left := s.contribs.filter fun x => x.id != c.id
      let dies := insertNat (dieOf c.core) (s.commDies c.launch c.key)
      let gen := (s.die (s.homeOf c.core c.key)).rtgen.toNat
      (∀ i, (s.insts.find? fun i => i.key == c.key) = some i →
        ((c.contributor ∈ i.arrived ∨ s.instOver i = true) → exec (.contributionArrival c.id) s = .next s) ∧
        (c.contributor ∉ i.arrived → s.instOver i = false → ∃ (t : State) (j : Inst), exec (.contributionArrival c.id) s = .next t ∧
          t = { s with contribs := left, comms := t.comms, insts := s.insts.map fun x => if x.id == i.id then j else x } ∧
          { key := c.key, gen := i.gen, launch := c.launch, bound := true, dies := dies } ∈ t.comms ∧
          j = { i with
            ctx := j.ctx, core := j.core, launch := j.launch, tree := j.tree, op := j.op, ty := j.ty
            present := i.present ++ [(c.contributor, c.elems)], arrived := insertNat c.contributor i.arrived
            det := DetKey.max i.det c.det } ∧
          ((∀ x ∈ i.arrived, c.contributor < x) → j.ctx = c.ctx ∧ j.core = c.core ∧ j.launch = c.launch ∧ j.tree = c.tree ∧
            j.op = c.op ∧ j.ty = c.ty) ∧
          ((∃ x ∈ i.arrived, x ≤ c.contributor) → j.ctx = i.ctx ∧ j.core = i.core ∧ j.launch = i.launch ∧ j.tree = i.tree ∧
            j.op = i.op ∧ j.ty = i.ty))) ∧
      let cut := ∃ d ∈ s.contributorDies c.launch c.key c.tree, s.routeBroken d (s.homeOf c.core c.key) = true
      -- one that would bind a communicator over a failed link makes it invalid, and waits
      ((∀ i ∈ s.insts, i.key ≠ c.key) → cut → ∃ t : State, exec (.contributionArrival c.id) s = .next t ∧
        t = { s with comms := t.comms } ∧ ∃ y ∈ t.comms, y.key = c.key ∧ y.gen = gen ∧ y.launch = c.launch ∧ y.invalid = true) ∧
      ((∀ i ∈ s.insts, i.key ≠ c.key) → ¬ cut → ∃ t : State, exec (.contributionArrival c.id) s = .next t ∧
        t = { s with evId := s.evId + 1, contribs := left, comms := t.comms, insts := s.insts ++ [{
          id := s.evId, key := c.key, ctx := c.ctx, core := c.core, launch := c.launch, tree := c.tree, op := c.op, ty := c.ty
          began := s.cycle, gen := gen, present := [(c.contributor, c.elems)], arrived := [c.contributor]
          det := DetKey.max none c.det }] } ∧
        { key := c.key, gen := gen, launch := c.launch, bound := true, dies := dies } ∈ t.comms)) ∧
    -- a node combines its two inputs, element by element; an absent element passes the other
    (∀ (i : Inst) (n a b p : Nat) (x y : List (Option Word)), s.inst? i.id = some i → s.instOver i = false → 0 ∈ i.arrived →
      i.result = none → i.tree.nodes[n]? = some (a, b, p) → (i.present.find? fun e => e.1 == a) = some (a, x) →
      (i.present.find? fun e => e.1 == b) = some (b, y) → (∀ e ∈ i.present, e.1 ≠ i.tree.nc + n) → ∃ out : List (Option Word),
      let i1 := { i with
        present := i.present ++ [(i.tree.nc + n, out)], result := if n + 1 = i.tree.nodes.length then some out else none }
      (n + 1 ≠ i.tree.nodes.length ∨ i.det ≠ none → exec (.nodeCombine i.id n) s = .next (s.setInst i1)) ∧
      (n + 1 = i.tree.nodes.length → i.det = none →
        exec (.nodeCombine i.id n) s = .next (((s.setInst i1).collWrite i1 1 0 out).getD (s.setInst i1))) ∧
      ∀ (j : Nat) (u v : Option Word), x[j]? = some u → y[j]? = some v → out[j]? = some (match u, v with
        | some u, some v => some (redOp i.op i.ty u.toPair v.toPair).1.even
        | some u, none => some (collRead i.ty u)
        | none, v => v.map (collRead i.ty))) ∧
    (∀ i, s.inst? i.id = some i →
      let ends := i.broken = true ∨ (i.began + i.tree.timeout ≤ s.cycle ∧ i.missing ≠ 0)
      (s.instOver i = true ↔ ends) ∧ (¬ ends → exec (.collTimeout i.id) s = .next s) ∧
      (ends → exec (.collTimeout i.id) s = .next ((s.collWrite i (if i.broken then 3 else 2) i.missing []).getD s))) ∧
    -- what an end without a result writes: MISSING, then STATUS and TAG, where the stamp is mapped writable and can be reached
    (∀ (i : Inst) (status missing k k' : Nat),
      let key := fun (n : Nat) => s.dispKey (s.homeOf i.core i.key) i.ctx (BitVec.ofNat 64 (i.tree.stamp + n))
      let there := fun (k : Nat) => s.cutOff (32 * s.homeOf i.core i.key) k = false ∧ s.portFailed (s.homeOf i.core i.key) k = false
      key 0 = some (k, true) → key 8 = some (k', true) → there k → there k' → s.collWrite i status missing [] = some
        { (s.homeWrite i.ctx k' (leBytes 8 (BitVec.ofNat 64 missing).toNat)).homeWrite i.ctx k
            (leBytes 8 (BitVec.ofNat 64 (status + i.tree.tag.toNat * 2 ^ 8)).toNat) with
          insts := ((s.homeWrite i.ctx k' (leBytes 8 (BitVec.ofNat 64 missing).toNat)).homeWrite i.ctx k
            (leBytes 8 (BitVec.ofNat 64 (status + i.tree.tag.toNat * 2 ^ 8)).toNat)).insts.filter fun x => x.id != i.id }) ∧
    -- a pending event acts at its turn
    (∀ (c : Copy) (k : DetKey), (s.copies.find? fun x => x.id == c.id) = some c → c.det = some k →
      let acts := c.ended = true ∧ s.copyMay c = true ∧ s.eventTurn c.launch k = true
      (¬ acts → exec (.pendingEventAct c.id) s = .next s) ∧ (acts → exec (.pendingEventAct c.id) s = .next (s.copyAct c))) ∧
    (∀ (i : Inst) (k : DetKey) (r : List (Option Word)), (∀ x ∈ s.copies, x.id ≠ i.id) → s.inst? i.id = some i → i.result = some r →
      s.collKey i.launch i.key = some k →
      let acts := i.det ≠ none ∧ i.broken = false ∧ s.eventTurn i.launch k = true
      (¬ acts → exec (.pendingEventAct i.id) s = .next s) ∧
      (acts → exec (.pendingEventAct i.id) s = .next ((s.collWrite i 1 0 r).getD s)))

/-- R180, R199 to R201, R205, R207 to R211, R214: MFMT sets the tile format and, for kind 3, the codebook; MMA and MMAQ check
their operands, queue a tile, mark its accumulators empty and commit where the table lists one live; the free engine takes the
head tile of the next team in slot order, once what the tile reads is written; a tile that writes back adds its products to its
accumulators, sets their rows' flags and changes nothing else; MSTAT reads the state. Which of the values that a byte had during
its run a tile reads is a free choice (log 70). -/
def Obligations.MatrixEngine : Prop :=
  ∀ (s : State) (T : Team) (slot : Nat) (g : Guard),
    let m := T.execMask (T.frag slot) g
    (∀ (a : BitVec 7) (imm : Half), LaneCurrent s T slot →
      let book := imm.extractLsb' 12 2 = 3
      ((book → a.toNat + 3 < T.sbud) → (m = 0 → exec (.mfmt g a imm) s = .next (s.setTeam (T.nextL slot))) ∧
        (m ≠ 0 → exec (.mfmt g a imm) s = .next (s.setTeam (({ T with
          mfmt := imm
          codebook := if book then [T.sreg a.toNat, T.sreg (a.toNat + 1), T.sreg (a.toNat + 2), T.sreg (a.toNat + 3)]
            else T.codebook } : Team).nextL slot)))) ∧
      (book → T.sbud ≤ a.toNat + 3 → exec (.mfmt g a imm) s = s.laneTrap T slot 0x09)) ∧
    (∀ (d : BitVec 9) (a b : Src) (q : Option Src) (ns : BitVec 2) (z : Bool) (ks : BitVec 12),
      let i := match q with | none => Instr.mma g d a b ns z ks | some c => .mmaq g d a b c ns z ks
      let n := 16 * 2 ^ ns.toNat
      let regs := (List.range (if T.mfmt.getLsbD 14 then n else n / 2)).map (d.toNat + ·)
      LaneReady s T slot g { srcs := [(a, 1), (b, 1)] ++ (match q with | some c => [(c, 1)] | none => []) } →
      ((∃ r ∈ regs, T.vbud ≤ r) → exec i s = s.laneTrap T slot 0x09) ∧
      ((∀ r ∈ regs, r < T.vbud) → m = 0 → exec i s = .next (s.setTeam (T.nextL slot))) ∧
      ∀ l, T.executes slot g l → (∀ k < l, T.executes slot g k = false) → (∀ r ∈ regs, r < T.vbud) →
      let t : Tile := {
        id := s.evId, d := d.toNat, n := n, k := ks.toNat, z := z, q := q.isSome, oa := (T.srcW a l).toNat, ob := (T.srcW b l).toNat
        oc := (match q with | some c => (T.srcW c l).toNat | none => 0), rows := m, mfmt := T.mfmt, codebook := T.codebook
        preds := s.liveHist (T.frag slot).hist }
      ((t.oa % 32 ≠ 0 ∨ t.ob % 32 ≠ 0 ∨ t.oc % 4 ≠ 0) → exec i s = s.laneTrap T slot 0x0A) ∧
      (t.oa % 32 = 0 → t.ob % 32 = 0 → t.oc % 4 = 0 →
        ((T.mfmt.extractLsb' 0 5 = 0 ∨ (∃ l, 128 ≤ l ∧ m.getLsbD l = true)) → exec i s = s.laneTrap T slot 0x06) ∧
        (T.mfmt.extractLsb' 0 5 ≠ 0 → (∀ l, m.getLsbD l = true → l < 128) →
          ((∃ r ∈ t.ranges T, s.padOk T (BitVec.ofNat 64 r.1) r.2 = false) → exec i s = s.laneTrap T slot 0x07) ∧
          ((∀ r ∈ t.ranges T, s.padOk T (BitVec.ofNat 64 r.1) r.2 = true) →
            ((2 ≤ T.tiles.length ∨ T.accEmpty regs m = true) → exec i s = .next s) ∧
            (T.tiles.length < 2 → T.accEmpty regs m = false →
              let T1 := T.mark regs m s.evId true
              exec i s = .next (s.fresh.setTeam (({ T1.setFrag slot { T1.frag slot with hist := t.preds ++ [t.id] } with
                tiles := T.tiles ++ [t], committed := T.committed || (!z && regs.any T.liveV) } : Team).nextL slot))))))) ∧
    (∀ (d : BitVec 9) (sel : BitVec 3), LaneReady s T slot g { dst := [d.toNat] } → ∀ v : Word,
      (sel = 0 → v = BitVec.ofNat 64 (T.tiles.length % 4 + (if T.tiles.any (·.running) then 4 else 0) +
        (s.teams.filter fun X => X.core / 2 == T.core / 2 && !X.tiles.isEmpty).length % 256 * 2 ^ 8 + T.tilesDone.toNat * 2 ^ 32)) →
      (sel = 1 → v = T.mfmt.setWidth 64) → (2 ≤ sel.toNat → v = T.codebook.getD (sel.toNat - 4) 0) →
      LaneWrites s T slot (.mstat g d sel) g false d (fun _ => v.toPair) fun _ => 0) ∧
    (∀ (t : Tile) (rest : List Tile), T ∈ s.teams → T.tiles = t :: rest →
      let dist := fun (X : Team) => (X.core % 2 * 96 + X.part * 8 + X.slot + 192 - SMap.rd 0 s.lastTile (T.core / 2)) % 192
      ((∃ X ∈ s.teams, X.core / 2 = T.core / 2 ∧ ∃ x ∈ X.tiles, x.running = true) →
        exec (.tileStart (T.core / 2)) s = .next s) ∧
      ((∀ X ∈ s.teams, X.core / 2 = T.core / 2 → ∀ x ∈ X.tiles, x.running = false) →
        (∀ X ∈ s.teams, X.core / 2 = T.core / 2 → X.tiles ≠ [] → X = T ∨ dist T < dist X) →
        (s.tileBusy t = true → exec (.tileStart (T.core / 2)) s = .next s) ∧
        (s.tileBusy t = false → exec (.tileStart (T.core / 2)) s = .next { s.setTeam { T with
          tiles := { t with running := true, began := s.tick } :: rest } with
            lastTile := SMap.wr 0 s.lastTile (T.core / 2) ((T.core % 2 * 96 + T.part * 8 + T.slot + 1) % 192) }))) ∧
    -- a byte that a tile reads is what the pad holds, or what it held since the tile started
    (∀ (t : Tile) (key : Nat), s.tileByte t key = s.byte key ∨
      ∃ x ∈ s.padOld, t.began ≤ x.1 ∧ x.2.1 = key ∧ s.tileByte t key = x.2.2) ∧
    (∀ (t : Tile) (rest : List Tile), T ∈ s.teams → T.tiles = t :: rest → t.running = true → (∀ x ∈ rest, x.id ≠ t.id) →
      (∀ X ∈ s.teams, X.core / 2 = T.core / 2 → X = T ∨ ∀ x ∈ X.tiles, x.running = false) →
      ∃ (T' : Team) (u : State), exec (.tileWriteback (T.core / 2)) s = .next u ∧ u = { s.setTeam T' with padOld := u.padOld } ∧
        T' = { T with
          vregs := T'.vregs, fflags := T'.fflags, marks := T.marks.filter fun m => m.grp != t.id, tiles := rest
          tilesDone := T.tilesDone + 1 } ∧
        (∀ r l, l < 1024 → (t.rows.getLsbD l = false ∨ T.lanes ≤ l ∨ r < t.d ∨
          t.d + (if fmtIM t.mfmt then t.n else t.n / 2) ≤ r) → t.n % 2 = 0 → T'.v r l = T.v r l) ∧
        let rd := fun (o : Nat) => s.tileByte t (s.padKeyOf T o)
        let row := lineOf rd t.codebook t.oa (aSlice T t.mfmt) t.k T.aLines (fmtPA t.mfmt) (fmtAK t.mfmt) (fmtIM t.mfmt)
        let col := lineOf rd t.codebook t.ob (bSlice t.n t.mfmt) t.k t.n (fmtPB t.mfmt) (fmtBK t.mfmt) (fmtIM t.mfmt)
        let table := fun (j : Nat) => if t.q then some (columnOf rd t.oc t.n j) else none
        let point := fun (l j : Nat) =>
          accPoint (if t.z then 0 else ((T.v (t.d + j / 2) l).extractLsb' (32 * (j % 2)) 32).toNat) (pointTerm (row l) (col j) (table j))
        let interval := fun (l j : Nat) =>
          let w := if t.z then 0 else (T.v (t.d + j) l).toNat
          accInterval (w % 2 ^ 32) (w / 2 ^ 32) (intervalTerm (row l) (col j) (table j))
        (∀ l, l < 1024 → T'.flags l = if l < T.lanes ∧ t.rows.getLsbD l = true then
          (List.range t.n).foldl (fun f j => f ||| (if fmtIM t.mfmt then (interval l j).fl else (point l j).2)) (T.flags l)
          else T.flags l) ∧
        ∀ l j, l < 1024 → l < T.lanes → t.rows.getLsbD l = true → j < t.n →
          (fmtIM t.mfmt = false →
            ((T'.v (t.d + j / 2) l).extractLsb' (32 * (j % 2)) 32).toNat = (point l j).1 % 2 ^ 32) ∧
          (fmtIM t.mfmt = true → T'.v (t.d + j) l = BitVec.ofNat 64 ((interval l j).lo + (interval l j).hi * 2 ^ 32))) ∧
    -- R209 to R211: one exact sum over the lines, and one rounding of it with the accumulator
    let num : Dy → ℝ := fun d => d.m * (2 : ℝ) ^ d.e
    let val : FV → EReal := fun v => match v with
      | .inf n => if n then ⊥ else ⊤
      | v => (num v.dy : EReal)
    let bd : Bd → EReal := fun b => match b with
      | .ninf => ⊥
      | .pinf => ⊤
      | .fin d => (num d : EReal)
    (∀ a b : Blk,
      let sum := fun (h : Dy → Dy → ℝ) (xs ys : List Dy) => ((xs.zip ys).map fun p => h p.1 p.2).sum
      let ab := sum (fun x y => num x * num y) a.mids b.mids
      let rad := sum (fun x y => abs (num x) * num y) a.mids b.rads +
        (sum (fun x y => num x * abs (num y)) a.rads b.mids + sum (fun x y => num x * num y) a.rads b.rads)
      (a.spec = true ∨ b.spec = true → ∀ q, pointTerm a b q = none ∧ intervalTerm a b q = none) ∧
      pointTerm a b (some none) = none ∧ intervalTerm a b (some none) = none ∧
      (a.spec = false → b.spec = false →
        (∃ t, pointTerm a b none = some t ∧ num t = ab) ∧
        (∃ c r, intervalTerm a b none = some (c, r) ∧ num c = ab ∧ num r = rad) ∧
        ∀ sc zp : Dy,
          (∃ t, pointTerm a b (some (some (sc, zp))) = some t ∧ num t = num sc * (ab - num zp * (a.mids.map num).sum)) ∧
          ∃ c r, intervalTerm a b (some (some (sc, zp))) = some (c, r) ∧
            num c = num sc * (ab - num zp * (a.mids.map num).sum) ∧ num r = abs (num sc) * (rad + abs (num zp) * (a.rads.map num).sum))) ∧
    (∀ acc < 2 ^ 32,
      accPoint acc none = (f32.nanBits, fNV) ∧
      ∀ t : Dy, ((f32.read acc).isNan = true → accPoint acc (some t) = (f32.nanBits, fNV)) ∧
        (∀ n, f32.read acc = .inf n → accPoint acc (some t) = (acc, 0)) ∧
        ∀ n k e, f32.read acc = .fin n k e → ∀ d : Dy, num d = num (f32.read acc).dy + num t →
          accPoint acc (some t) = f32.round .rne d) ∧
    (∀ lo < 2 ^ 32, ∀ hi < 2 ^ 32,
      let X := f32.readIv lo hi
      (X.iv = none → ∀ term, accInterval lo hi term = ⟨f32.inf false, f32.inf true, X.fl⟩) ∧
      ∀ a b, X.iv = some (a, b) →
        accInterval lo hi none = ⟨f32.inf true, f32.inf false, fWD⟩ ∧
        ∀ c r : Dy,
          let o := accInterval lo hi (some (c, r))
          let L : EReal := bd a + ((num c - num r : ℝ) : EReal)
          let H : EReal := bd b + ((num c + num r : ℝ) : EReal)
          let x := val (f32.read o.lo)
          let y := val (f32.read o.hi)
          let ok := fun (q : Nat) => q < 2 ^ 32 ∧ (f32.read q).isNan = false
          ok o.lo ∧ ok o.hi ∧ x ≤ L ∧ H ≤ y ∧ (∀ q, ok q → val (f32.read q) ≤ L → val (f32.read q) ≤ x) ∧
          (∀ q, ok q → H ≤ val (f32.read q) → y ≤ val (f32.read q)) ∧
          (o.fl &&& fNX ≠ 0 ↔ x ≠ L ∨ y ≠ H) ∧ (o.fl &&& fOF ≠ 0 ↔ x = ⊥ ∧ L ≠ ⊥ ∨ y = ⊤ ∧ H ≠ ⊤) ∧
          (o.fl &&& fUN ≠ 0 ↔ bd a ≠ ⊥ ∧ bd b ≠ ⊤ ∧ (x = ⊥ ∨ y = ⊤)) ∧
          ∀ d e : Dy, L = num d → H = num e →
            (o.fl &&& fUF ≠ 0 ↔ (f32.round .rd d).2 &&& fUF ≠ 0 ∨ (f32.round .ru e).2 &&& fUF ≠ 0))

/-- R11 to R15, R26, R159 to R170, R174 to R176, R313: SPLIT and FORK push one entry per executing lane once the push may be
made and commit; DRAW serves its takers from the bottom in ascending lane order; DROP gives up items; QUART pushes four quarters
of each tile it may quarter and goes on behind its ELEM word; ELEM waits for one element team per lane; all of them act at their
turn in a DET launch. A team without a cistern takes cause 0x0B, and so does a push past the quota. A refill lands at the top of
the pad part; a steal is answered from a victim, whose last entry its owner may still take in the same cycle. Rests on the
model's readings of spills, steals and refills (log 34, 41 to 46); that a landing refill brings in what fits, the order of its
slots and what a stale slot holds are its choice (log 79). -/
def Obligations.Cisterns : Prop :=
  (∀ (s : State) (T : Team) (slot : Nat) (C : Cohort),
    let f := T.frag slot
    let who := Requester.lanes T.id T.trapLevel slot
    let cap := T.hdr.cap
    let cis := C.cistern
    let spills := fun (n : Nat) => spillsOf cap cis.pad.length n
    -- a push: the quota, and what lets it be made
    let pushes := fun (i : Instr) (T1 : Team) (lanes : LaneMask) (n : Nat) (acts : Prop) =>
      (n ≠ 0 → cis.faulted = true → exec i s = s.retryRefill T1 slot lanes C) ∧
      (n ≠ 0 → cis.faulted = false → cis.heldBy who = true → exec i s = .next (s.setTeam { T1 with committed := true })) ∧
      ((n ≠ 0 → cis.faulted = false ∧ cis.heldBy who = false) → 16 * cap < cis.spilled.length + spills n →
        exec i s = s.laneTrapMask T1 slot 0x0B lanes) ∧
      (PushReady s T slot C n → acts)
    T.sort = .ordinary → cap ≠ 0 → s.cohort? T.launch T.cohort = some C → f.wait = none →
    (∀ (g : Guard) (ty : LTy) (a b c : Src) (axis : BitVec 4) (nw : BitVec 2),
      let i := Instr.split g ty a b c axis nw
      let m := T.execMask f g
      let ls := lanesOf m T.lanes
      let extra := [b, c].take nw.toNat
      LaneReady s T slot g { srcs := (a, pairLen (isPair ty)) :: extra.map fun x => (x, 1), dst := dstOf ty a.n } →
      ((∃ l ∈ ls, T.item l = none) → ∃ k : LaneMask, exec i s = s.laneTrapMask T slot 0x0B k ∧
        ∀ l < 1024, k.getLsbD l = (decide (l ∈ ls) && (T.item l).isNone)) ∧
      (m = 0 → exec i s = .next (s.setTeam (T.nextL slot))) ∧
      (m ≠ 0 → (∀ l ∈ ls, T.item l ≠ none) → Commits s T i fun T1 => pushes i T1 m ls.length (∃ T' : Team,
        exec i s = .next (((s.forget who).pushItems T (ls.map fun l =>
          let h := (T.item l).getD {}
          let u := (halves ty (T.in ty a l)).1
          itemOf (headerWord (min (h.depth + 1) 255) h.kind axis.toNat h.tag)
            ((if ty = .iv64 then [u.even, u.odd] else [u.even]) ++ extra.map fun x => T.srcW x l))).setTeam T') ∧
        T' = { T.nextL slot with vregs := T'.vregs, fflags := T'.fflags, items := T'.items, committed := true } ∧
        (∀ l, T'.item l = if T.executes slot g l then (T.item l).map fun h => { h with depth := min (h.depth + 1) 255, axis := axis.toNat }
          else T.item l) ∧
        (∀ r l, l < 1024 → T'.v r l =
          if T.executes slot g l ∧ r = a.n.toNat then (halves ty (T.in ty a l)).2.1.even
          else if T.executes slot g l ∧ ty = .iv64 ∧ r = a.n.toNat + 1 then (halves ty (T.in ty a l)).2.1.odd else T.v r l) ∧
        ∀ l, T'.flags l = if T.executes slot g l then T.flags l ||| (halves ty (T.in ty a l)).2.2 else T.flags l))) ∧
    (∀ (g : Guard) (a b c : Src) (kind : BitVec 4) (nw : BitVec 2) (hdr : Bool),
      let i := Instr.fork g a b c kind nw hdr
      let m := T.execMask f g
      let ls := lanesOf m T.lanes
      let words := (if hdr then [b, c] else [a, b, c]).take (nw.toNat + 1)
      LaneReady s T slot g { srcs := (if hdr then a :: words else words).map fun x => (x, 1) } →
      (m = 0 → exec i s = .next (s.setTeam (T.nextL slot))) ∧
      (m ≠ 0 → Commits s T i fun T1 => pushes i T1 m ls.length (
        exec i s = .next (((s.forget who).pushItems T (ls.map fun l =>
          itemOf (if hdr then T.srcW a l else match T.item l with
            | some h => headerWord h.depth kind.toNat h.axis h.tag
            | none => headerWord 0 kind.toNat 0 0) (words.map fun x => T.srcW x l))).setTeam
          (({ T with committed := true } : Team).nextL slot))))) ∧
    -- what a push leaves: the entries at the bottom, or, into a full pad part, after its top half has moved to free slots
    (∀ xs : List Item,
      let after := ((s.pushItems T xs).cohort? T.launch T.cohort).map (·.cistern)
      (cis.pad.length + xs.length ≤ cap → after = some { cis with pad := cis.pad ++ xs }) ∧
      (∀ x, xs = [x] → cis.pad.length = cap →
        let ks := (cis.freeFrom (16 * cap)).take (cap / 2)
        after = some { cis with
          pad := cis.pad.drop (cap / 2) ++ [x], first := (cis.first + cap / 2) % cap, spilled := cis.spilled ++ ks
          nextSlot := ((ks.getLast?.getD 0) + 1) % (16 * cap) }) ∧
      (s.launch? T.launch ≠ none → (s.pushItems T xs).liveOf T.launch = s.liveOf T.launch + xs.length)) ∧
    (∀ (q : BitVec 4) (d : BitVec 9) (steal : Bool) (nw : BitVec 2) (hdr : Bool),
      let i := Instr.draw q d steal nw hdr
      let regs := (List.range (nw.toNat + 1 + (if hdr then 1 else 0))).map (d.toNat + ·)
      let takers := (lanesOf f.mask T.lanes).filter fun l => (T.item l).isNone
      let n := min takers.length cis.pad.length
      let left := cis.spilled.length - min cis.spilled.length (cap / 2)
      -- the cistern that the takers leave: entries gone, and with the last of the pad part a refill under way
      let c1 := if cis.refill = none ∧ n = cis.pad.length ∧ cis.spilled ≠ [] then
          { cis with pad := [], spilled := cis.spilled.take left, refill := some ⟨cis.spilled.drop left, none⟩, faulted := false }
        else if cis.refill = none then { cis with pad := cis.pad.take (cis.pad.length - n) } else cis
      let leaves := fun (t : State) => t.mem = s.mem ∧ t.launches = s.launches ∧
        t.cohorts = s.cohorts.map fun D => if D.launch == T.launch && D.idx == T.cohort then { D with cistern := c1 } else D
      let takes := fun (T' : Team) => ∀ (k l : Nat), l < 1024 → takers[k]? = some l →
        (∀ x, cis.refill = none → cis.pad.reverse[k]? = some x → T'.item l = some { x.held with no := s.evId } ∧
          (∀ w ≤ nw.toNat, w < 3 → T'.v (d.toNat + w) l = [x.w1, x.w2, x.w3].getD w 0) ∧
          (hdr = true → T'.v (d.toNat + nw.toNat + 1) l = x.w0)) ∧
        ((cis.refill ≠ none ∨ cis.pad.length ≤ k) → T'.item l = none)
      let tells := fun (T' : Team) => q ≠ 0 → ∀ l < 1024, l < T.lanes → f.mask.getLsbD l = true →
        T'.qv q.toNat l = if (T'.item l).isSome then .t else if s.liveOf T.launch = 0 then .u else .f
      LaneCurrent s T slot → (∀ r ∈ regs, r < T.vbud) → T.anyEmpty regs (maskOf takers) = false → AtTurn s T i true fun T1 =>
        (takers = [] → ∃ T' : Team, exec i s = .next (s.setTeam T') ∧ T' = { T.nextL slot with q := T'.q, committed := true } ∧
          (q ≠ 0 → ∀ l < 1024, l < T.lanes → f.mask.getLsbD l = true → T'.qv q.toNat l = .t)) ∧
        (takers ≠ [] → cis.faulted = true → exec i s = s.retryRefill T1 slot f.mask C) ∧
        (takers ≠ [] → cis.faulted = false → cis.heldBy who = true → exec i s = .next (s.setTeam T1)) ∧
        -- enough entries in the pad part, a refill in flight, or one that starts
        (takers ≠ [] → cis.faulted = false → cis.heldBy who = false → (takers.length ≤ cis.pad.length ∨ cis.refill ≠ none ∨
            cis.spilled ≠ []) → ∃ (t : State) (T' : Team), exec i s = .next (t.setTeam T') ∧ leaves t ∧
          T' = { (if T.counted = true ∧ c1.refill ≠ none then T1.setSp (T1.sp.waits slot ⟨i, f.mask, .refill, s.cycle⟩)
            else T1.nextL slot) with vregs := T'.vregs, items := T'.items, q := T'.q, committed := true } ∧ takes T' ∧ tells T') ∧
        -- too few, and none to come: no entry for the others, or a steal request while there is live work
        (takers ≠ [] → cis.faulted = false → cis.pad.length < takers.length → cis.spilled = [] → cis.refill = none →
          (∀ X ∈ s.teams, X.launch = T.launch → ∀ p ∈ X.sp.live, ∀ w grp past v cyc x, p.2.wait = some w →
            w.what = .steal grp past (some (v, cyc, x)) → v = C.idx → cyc ≠ s.cycle) →
          ((steal = false ∨ s.liveOf T.launch = 0) → ∃ (t : State) (T' : Team), exec i s = .next (t.setTeam T') ∧ leaves t ∧
            T' = { T.nextL slot with vregs := T'.vregs, items := T'.items, q := T'.q, committed := true } ∧ takes T' ∧ tells T') ∧
          (steal = true → s.liveOf T.launch ≠ 0 → ∃ (t : State) (T' T2 : Team), exec i s = .next (t.setTeam T') ∧ leaves t ∧
            T2 = { T.mark regs (maskOf takers) s.evId with
              vregs := T2.vregs, items := T2.items, q := T2.q, committed := true } ∧ takes T2 ∧
            T' = T2.setSp (T.sp.waits slot ⟨i, f.mask, .steal s.evId none none, s.cycle⟩)))) ∧
    (∀ g : Guard, LaneCurrent s T slot →
      let i := Instr.drop g
      let held := (lanesOf (T.execMask f g) T.lanes).filter fun l => (T.item l).isSome
      (T.execMask f g = 0 → exec i s = .next (s.setTeam (T.nextL slot))) ∧
      (T.execMask f g ≠ 0 → Commits s T i fun _ =>
        (held = [] → exec i s = .next (s.setTeam (({ T with committed := true } : Team).nextL slot))) ∧
        (held ≠ [] → s.releaseOk T.id T.core f.hist .device = false → exec i s = .next (s.setTeam { T with committed := true })) ∧
        (held ≠ [] → s.releaseOk T.id T.core f.hist .device = true → ∃ T' : Team,
          exec i s = .next ((s.subLive T.launch held.length).setTeam T') ∧
          T' = { T.nextL slot with items := T'.items, committed := true } ∧
          ∀ l, T'.item l = if T.executes slot g l then none else T.item l))) ∧
    (∀ (g : Guard) (entry : Int), LaneCurrent s T slot → s.elemWord T (f.pc + 1) = some (.ok entry) →
      let i := Instr.quart g
      let m := T.execMask f g
      let ls := lanesOf m T.lanes
      let tile := fun (l : Nat) => ∃ h, T.item l = some h ∧ h.kind = 1
      let may := fun (l : Nat) => match T.item l with
        | some h => !h.wide && decide (h.depth + 1 ≤ T.hdr.depthMax) && decide (T.hdr.edgeMin ≤ tileEdge h.tile / 2)
        | none => false
      (m = 0 → exec i s = .next (s.setTeam (T.nextQ slot))) ∧
      ((∃ l ∈ ls, ¬ tile l) → ∃ k : LaneMask, exec i s = s.laneTrapMask T slot 0x0B k ∧
        ∀ l < 1024, (k.getLsbD l = true ↔ l ∈ ls ∧ ¬ tile l)) ∧
      (m ≠ 0 → (∀ l ∈ ls, tile l) → s.hullPending T ls = true → exec i s = .next s) ∧
      (m ≠ 0 → (∀ l ∈ ls, tile l) → s.hullPending T ls = false → Commits s T i fun T1 =>
        pushes i T1 m (4 * (ls.filter may).length) (∃ T' : Team,
          exec i s = .next ((((s.forget who).pushItems T ((ls.filter may).flatMap fun l =>
            let h := (T.item l).getD {}
            let e := tileEdge h.tile / 2
            [(e, e), (e, 0), (0, e), (0, 0)].map fun x => itemOf (headerWord (h.depth + 1) 1 0 h.tag)
              [tileWord (tileRow h.tile + x.1) (tileCol h.tile + x.2) e])).subLive T.launch (ls.filter may).length).setTeam T') ∧
          T'.vregs = T.vregs ∧ T'.sregs = T.sregs ∧ T'.committed = true ∧
          (∀ l, T'.item l = if l ∈ ls ∧ may l = true then none else T.item l) ∧
          ((∀ l ∈ ls, may l = true) → f.level = 0 → T.sp.depth = 0 → f.valid = true → (T'.frag slot).pc = f.pc + 2) ∧
          ((∃ l ∈ ls, may l = false) → (T'.frag slot).pc = f.pc ∧ (T'.frag slot).state = 2 ∧
            (T'.frag slot).wait = some ⟨i, m, .elems (maskOf (ls.filter fun l => !may l)) entry, s.cycle⟩)))) ∧
    (∀ tt : BitVec 20, LaneCurrent s T slot →
      let i := Instr.elem tt
      let ls := lanesOf f.mask T.lanes
      let tile := fun (l : Nat) => ∃ h, T.item l = some h ∧ h.kind = 1
      ((∃ l ∈ ls, ¬ tile l) → ∃ k : LaneMask, exec i s = s.laneTrapMask T slot 0x0B k ∧
        ∀ l < 1024, (k.getLsbD l = true ↔ l ∈ ls ∧ ¬ tile l)) ∧
      ((∀ l ∈ ls, tile l) → Commits s T i fun _ =>
        (s.releaseOk T.id T.core f.hist .device = false → exec i s = .next (s.setTeam { T with committed := true })) ∧
        (s.releaseOk T.id T.core f.hist .device = true → exec i s = .next (s.setTeam (({ T with committed := true } : Team).setSp
          (T.sp.waits slot ⟨i, f.mask, .elems (maskOf ls) (f.pc + tt.toInt), s.cycle⟩))))))) ∧
  (∀ (s : State) (T : Team) (slot : Nat) (C : Cohort),
    let f := T.frag slot
    let cap := T.hdr.cap
    let cis := C.cistern
    s.cohort? T.launch T.cohort = some C →
    -- a refill lands, as far as the pad part has room
    (∀ (L : Launch) (r : Refill) (xs : List Item), s.launch? T.launch = some L → cis.refill = some r → L.hdr = T.hdr →
      L.ctx = T.ctx → C.cores.head? = some T.core → xs.length = r.slots.length → ∀ keyOf : Nat → Nat,
      (∀ k ∈ r.slots, s.cutOff T.core (keyOf k) = false ∧ s.portFailed (dieOf T.core) (keyOf k) = false ∧ s.poisoned (keyOf k) 32 = false ∧ ∃ attr w,
        s.translate (.cistern T.launch T.cohort) T.core T.ctx (BitVec.ofNat 64 (slotVa T.hdr T.cohort k)) = .ok (keyOf k) attr w ∧
        s.translate (.cistern 0 0) T.core T.ctx (BitVec.ofNat 64 (slotVa T.hdr T.cohort k)) = .ok (keyOf k) attr w) →
      (∀ (j k : Nat) (x : Item), r.slots[j]? = some k → xs[j]? = some x →
        x = ⟨s.word (keyOf k), s.word (keyOf k + 8), s.word (keyOf k + 16), s.word (keyOf k + 24)⟩) →
      let n := min xs.length (cap - cis.pad.length)
      let c1 := { cis with
        pad := xs.drop (xs.length - n) ++ cis.pad, first := (cis.first + cap - n) % cap
        spilled := cis.spilled ++ r.slots.take (xs.length - n), refill := none }
      exec (.refillLand T.launch T.cohort) s = .next ((r.slots.filter fun k => !c1.spilled.contains k).foldl
        (fun q k => q.staleSlot T.ctx (keyOf k))
        ((s.forget (.cistern T.launch T.cohort)).storeCistern C T.hdr T.ctx c1))) ∧
    -- a steal request is answered, from the first victim that has an entry
    (∀ (q : BitVec 4) (d : BitVec 9) (steal hdr : Bool) (nw : BitVec 2) (grp : Nat) (w : LaneWait)
        (past : Option (Nat × Nat)) (won : Option (Nat × Nat × Item)), s.team? T.id = some T → T.thief = some (slot, w) → w.instr = .draw q d steal nw hdr →
      w.what = .steal grp past won →
      let T0 := { T with marks := T.marks.filter fun m => m.grp != grp }
      let lacking := (lanesOf f.mask T.lanes).filter fun l => (T.item l).isNone
      let gives := fun (t : State) (x : Item) => ∀ l, lacking.head? = some l →
        exec (.stealRequest T.id) s = t.drawEnd (T0.receive q d nw hdr grp l x) slot q true false none
      let last := fun (t : State) (v : Cohort) (x : Item) => exec (.stealRequest T.id) s = .next (t.setTeam (T.setSp (T.sp.waits slot
        { w with what := .steal grp past (some (v.idx, s.cycle, x)) })))
      (∀ v cyc x, won = some (v, cyc, x) → (s.cycle ≤ cyc → exec (.stealRequest T.id) s = .next s) ∧ (cyc < s.cycle → gives s x)) ∧
      (won = none → s.victims C T.hdr past = [] → exec (.stealRequest T.id) s = s.drawEnd T0 slot q false false none) ∧
      (∀ v rest, won = none → s.victims C T.hdr past = v :: rest →
        ((s.routeBroken (dieOf T.core) v.die = true ∨ s.routeBroken v.die (dieOf T.core) = true) →
          exec (.stealRequest T.id) s = .next s) ∧
        (s.routeBroken (dieOf T.core) v.die = false → s.routeBroken v.die (dieOf T.core) = false →
          (∀ x below, v.cistern.spilled = [] → v.cistern.pad = x :: below →
            let t := s.modCohort v.launch v.idx fun D => { D with
              cistern := { v.cistern with pad := below, first := (v.cistern.first + 1) % cap } }
            (below = [] ∧ v.cistern.refill = none → last t v x) ∧ (¬ (below = [] ∧ v.cistern.refill = none) → gives t x)) ∧
          (∀ k below key ro, v.cistern.spilled = k :: below →
            s.dispKey (dieOf T.core) T.ctx (BitVec.ofNat 64 (slotVa T.hdr v.idx k)) = some (key, ro) →
            let t := (s.modCohort v.launch v.idx fun D => { D with cistern := { v.cistern with spilled := below } }).staleSlot T.ctx key
            let alone := below = [] ∧ v.cistern.pad = [] ∧ v.cistern.refill = none
            (s.reachable T.core key = false → exec (.stealRequest T.id) s = .next s) ∧
            (s.reachable T.core key = true → (alone → last t v (s.itemAt key)) ∧ (¬ alone → gives t (s.itemAt key))))))) ∧
    -- the victims a request tries: those after the one whose last entry its owner took, which is how the request moves on
    (∀ v : Cohort, v ∈ s.victims C T.hdr none ↔ v ∈ s.cohorts ∧ v.launch = C.launch ∧ v.idx ≠ C.idx ∧
      (T.hdr.steals = true ∨ v.die = C.die) ∧ v.cistern.faulted = false ∧ (v.cistern.spilled ≠ [] ∨ v.cistern.pad ≠ [])) ∧
    (∀ (p : Nat × Nat) (v : Cohort), v ∈ s.victims C T.hdr (some p) ↔ v ∈ s.victims C T.hdr none ∧
      (p.1 < stealRank C.die v.die ∨ p.1 = stealRank C.die v.die ∧ p.2 < v.idx)) ∧
    (∀ (X : Team) (D : Cohort) (k grp : Nat) (past : Option (Nat × Nat)) (x : Item) (w : LaneWait), X ∈ s.teams → X.launch = C.launch →
      (∀ Y ∈ s.teams, Y ≠ X → Y.thief = none) → X.sp.live = [(k, X.sp.frag k)] → (X.sp.frag k).wait = some w →
      w.what = .steal grp past (some (C.idx, s.cycle, x)) → s.cohort? X.launch X.cohort = some D →
      s.reclaim C = (s.setTeam (X.setSp (X.sp.setFrag k { X.sp.frag k with
        wait := some { w with what := .steal grp (some (stealRank D.die C.die, C.idx)) none } })), [x]))) ∧
  -- the end of a DRAW: its acquire, and the answer of every lane
  (∀ (s : State) (X : Team) (slot : Nat) (q : BitVec 4) (got zero : Bool), ∃ X' : Team, s.drawEnd X slot q got zero none =
      .next ((if got || zero then s.dropClean X.core else s).setTeam X') ∧
    X' = { X.nextL slot with q := X'.q, committed := true } ∧
    (q ≠ 0 → ∀ l < 1024, l < X.lanes → (X.frag slot).mask.getLsbD l = true →
      X'.qv q.toNat l = if (X.item l).isSome then .t else if zero then .u else .f)) ∧
  -- a DRAW of a DET launch goes on once its refill has landed
  (∀ (s : State) (T : Team) (slot : Nat) (C : Cohort) (w : LaneWait) (q : BitVec 4) (d : BitVec 9) (steal hdr : Bool)
      (nw : BitVec 2), LaneCurrent s T slot → s.cohort? T.launch T.cohort = some C → (T.frag slot).wait = some w → w.what = .refill →
    (C.cistern.refill = none → exec (.draw q d steal nw hdr) s = .next (s.setTeam (T.nextL slot))) ∧
    (C.cistern.refill ≠ none → exec (.draw q d steal nw hdr) s = .next s)) ∧
  -- a team without a cistern
  (∀ (s : State) (T : Team) (slot : Nat) (g : Guard), (T.sort ≠ .ordinary ∨ T.hdr.cap = 0) → (T.frag slot).wait = none →
    let m := T.execMask (T.frag slot) g
    (∀ (ty : LTy) (a b c : Src) (axis : BitVec 4) (nw : BitVec 2),
      LaneReady s T slot g { srcs := (a, pairLen (isPair ty)) :: ([b, c].take nw.toNat).map fun x => (x, 1), dst := dstOf ty a.n } →
      exec (.split g ty a b c axis nw) s = s.laneTrapMask T slot 0x0B m) ∧
    (∀ (a b c : Src) (kind : BitVec 4) (nw : BitVec 2),
      LaneReady s T slot g { srcs := ([a, b, c].take (nw.toNat + 1)).map fun x => (x, 1) } →
      exec (.fork g a b c kind nw false) s = s.laneTrapMask T slot 0x0B m) ∧
    (∀ (q : BitVec 4) (d : BitVec 9) (steal : Bool) (nw : BitVec 2), LaneCurrent s T slot → d.toNat + nw.toNat < T.vbud →
      (∀ n, T.anyEmpty ((List.range (nw.toNat + 1)).map (d.toNat + ·)) n = false) →
      exec (.draw q d steal nw false) s = s.laneTrapMask T slot 0x0B (T.frag slot).mask))

/-- R161, R172 to R176: LDH issues one read of the whole tile per lane, which names the item the lane holds, and marks its
register empty, and a word that is no tile gives the empty interval with NV and IL at once; STB issues the stores of its tile's
elements and sets the flags of their conversions, also where no element is stored; both wait while the record or the scales may
not be read yet. A misaligned record raises cause 0x0A, a lane without a tile item 0x0B, a record that is not allowed 0x06. An
element team starts for the lowest lane that waits, on its core, in the free pools or the cohort's reservation: its lanes are
the elements of the tile, row by row, and the lane gives up its item. Rests on the model's readings of LDH, STB and element
teams (log 46 to 49). -/
def Obligations.TilesAndElementTeams : Prop :=
  (∀ (s : State) (T : Team) (slot : Nat) (g : Guard) (ty : LTy) (p : Adr) (b : Src),
    let f := T.frag slot
    let ls := lanesOf (T.execMask f g) T.lanes
    let who := Requester.lanes T.id T.trapLevel slot
    let no := fun (h : Nat → Prop) (m : LaneMask) => ∀ l < 1024, (m.getLsbD l = true ↔ l ∈ ls ∧ h l)
    (∀ d : BitVec 9, LaneReady s T slot g { srcs := [(p.a, 1), (b, 1)], dst := dstOf ty d } →
      (∃ l ∈ ls, (T.addr p l).toNat % 64 ≠ 0) → exec (.ldh g ty d p b) s = s.laneTrapMask T slot 0x0A f.mask) ∧
    (LaneReady s T slot g { srcs := [(p.a, 1), (b, 1)] } →
      ((∃ l ∈ ls, (T.addr p l).toNat % 64 ≠ 0) → exec (.stb g ty p b) s = s.laneTrapMask T slot 0x0A f.mask) ∧
      ((∀ l ∈ ls, (T.addr p l).toNat % 64 = 0) → (∃ l ∈ ls, ∀ h, T.item l = some h → h.kind ≠ 1) →
        ∃ m, exec (.stb g ty p b) s = s.laneTrapMask T slot 0x0B m ∧ no (fun l => ∀ h, T.item l = some h → h.kind ≠ 1) m)) ∧
    ∀ (lay : Nat → Layout) (rec place : Word → Nat × Attr),
    let keys := ls.flatMap fun l => (List.range 64).map fun j => ((rec (T.addr p l)).1 + j, (rec (T.addr p l)).2)
    -- the state once the records are read, and whether a byte is poisoned there
    let s1 := (s.afterPeek T.core keys).forget who
    let sound := fun (k : Nat × Attr) (n : Nat) => s1.readsBad T.id T.core f.hist false k.1 n k.2 = false
    (∀ l ∈ ls, (T.addr p l).toNat % 64 = 0 ∧
      (∃ w, s.translate who T.core T.ctx (T.addr p l) = .ok (rec (T.addr p l)).1 (rec (T.addr p l)).2 w) ∧
      sound (rec (T.addr p l)) 64 ∧
      lay l = layoutOf (s.peek T.id T.core f.hist (rec (T.addr p l)).1 64 (rec (T.addr p l)).2)) →
    let may := s.mayPeek T.core f.hist keys
    let bad := fun (ldh : Bool) (l : Nat) => (lay l).valid = false ∨ (ldh = true ∧ (lay l).ety = 15) ∨
      ((lay l).narrow = true ∧ (lay l).desc.lut = true)
    let reads := fun (x : Nat × Layout) (w : Word) (wr : Bool) => ∀ i ∈ x.2.tileElems w,
      (∀ a ∈ x.2.bytesOf i, ∃ wok, s.translate who T.core T.ctx (BitVec.ofNat 64 a) =
        .ok (place (BitVec.ofNat 64 a)).1 (place (BitVec.ofNat 64 a)).2 wok ∧ (wr = true → wok = true) ∧
        (wr = false → sound (place (BitVec.ofNat 64 a)) 1)) ∧
      ∀ a ∈ (x.2.scaleAt i).toList, ∃ wok, s.translate who T.core T.ctx (BitVec.ofNat 64 a) =
        .ok (place (BitVec.ofNat 64 a)).1 (place (BitVec.ofNat 64 a)).2 wok ∧ sound (place (BitVec.ofNat 64 a)) 1
    (∀ d : BitVec 9, LaneReady s T slot g { srcs := [(p.a, 1), (b, 1)], dst := dstOf ty d } →
      let odd := fun (l : Nat) => tileOk (T.srcW b l) = true ∧ (lay l).tileOdd (T.srcW b l) = true
      (may = false → exec (.ldh g ty d p b) s = .next s) ∧
      (may = true → (∃ l ∈ ls, odd l) → exec (.ldh g ty d p b) s = s.laneTrapMask T slot 0x0A f.mask) ∧
      (may = true → (∀ l ∈ ls, ¬ odd l) → (∃ l ∈ ls, bad true l) →
        ∃ m, exec (.ldh g ty d p b) s = s.laneTrapMask T slot 0x06 m ∧ no (bad true) m) ∧
      (may = true → (∀ l ∈ ls, ¬ odd l ∧ ¬ bad true l ∧ (tileOk (T.srcW b l) = true → reads (l, lay l) (T.srcW b l) false)) →
      let good := ls.filter fun l => tileOk (T.srcW b l)
      let T1 := (ls.filter fun l => !tileOk (T.srcW b l)).foldl (fun (q : Team) l =>
        q.put ty d l ((putIv ty (fmtOf ty).emptyIv).1, fNV ||| fIL)) T
      let r := s1.fresh.emit T1 slot s.evId (good.map fun l => ({
        id := 0, team := 0, core := 0, grp := 0, lane := l, preds := [], key := 0
        op := .hull (lay l) ty (((lay l).tileElems (T.srcW b l)).map fun i =>
          (((lay l).bytesOf i).map (fun a => place (BitVec.ofNat 64 a)), ((lay l).place i).2,
            ((lay l).scaleAt i).map fun a => place (BitVec.ofNat 64 a)))
        dst := .lane d.toNat l ty, item := (match T.item l with | some h => h.no | none => 0) } : Ev))
      exec (.ldh g ty d p b) s = .next (r.1.setTeam ((r.2.mark (dstOf ty d) (maskOf good) s.evId).nextL slot)))) ∧
    (∀ tile : Nat → Word, LaneReady s T slot g { srcs := [(p.a, 1), (b, 1)] } →
      (∀ l ∈ ls, ∃ h, T.item l = some h ∧ h.kind = 1 ∧ tile l = h.tile) →
      let i := Instr.stb g ty p b
      let odd := fun (l : Nat) => (lay l).tileOdd (tile l) = true
      (may = false → exec i s = .next s) ∧
      (may = true → (∃ l ∈ ls, odd l) → exec i s = s.laneTrapMask T slot 0x0A f.mask) ∧
      (may = true → (∀ l ∈ ls, ¬ odd l) → (∃ l ∈ ls, bad false l) →
        ∃ m, exec i s = s.laneTrapMask T slot 0x06 m ∧ no (bad false) m) ∧
      (may = true → (∀ l ∈ ls, ¬ odd l ∧ ¬ bad false l ∧ reads (l, lay l) (tile l) true) →
        let scales := ls.flatMap fun l => ((lay l).tileElems (tile l)).flatMap fun j =>
          ((lay l).scaleAt j).toList.map fun a => place (BitVec.ofNat 64 a)
        let conv := fun (l sc : Nat) => (lay l).convert (stbIn ty (T.srcW b l)) (stbRaw ty (T.srcW b l)) sc
        let all := ls.flatMap fun l => ((lay l).tileElems (tile l)).map fun j => (l, j,
          conv l ((lay l).scaleCode (fun a => s1.peekByte T.id T.core f.hist (place (BitVec.ofNat 64 a))) j))
        let T1 := (ls.filter fun l => ((lay l).tileElems (tile l)).isEmpty).foldl (fun (q : Team) l => q.orFlags l (conv l 127).2)
          (all.foldl (fun (q : Team) (e : Nat × Idx × (Nat × FFlags)) => q.orFlags e.1 e.2.2.2) T)
        let r := (s1.afterPeek T.core scales).fresh.emit T1 slot s.evId (all.flatMap fun e => (lay e.1).elemStores e.1 e.2.1 e.2.2.1 place)
        (s1.mayPeek T.core f.hist scales = false → exec i s = .next s) ∧
        (s1.mayPeek T.core f.hist scales = true → exec i s = .next (r.1.setTeam (r.2.nextL slot)))))) ∧
  (∀ (s : State) (T : Team) (slot lane : Nat) (w : LaneWait) (m : LaneMask) (entry : Int) (h : Held) (L : Launch) (place : Nat × Nat),
    s.team? T.id = some T → T.sp.live = [(slot, T.frag slot)] → (T.frag slot).wait = some w → w.what = .elems m entry →
    lowest m T.lanes = some lane → T.item lane = some h → s.launch? T.launch = some L →
    let e := tileEdge h.tile
    let words := (e * e + 31) / 32
    let room := s.roomFor T.core (takes words T.vbud T.sbud) = true
    -- the cohort's reservation is free
    let reserve := ∃ C, s.cohort? T.launch T.cohort = some C ∧ C.resv ≠ [] ∧ words ≤ 32 ∧
      ∀ X ∈ s.teams, X.launch = T.launch → X.cohort = T.cohort → X.fromResv = false
    (¬ room → ¬ reserve → exec (.elementTeamStart T.id lane) s = .next s) ∧
    ((room ∨ reserve) → s.partition T.core = some place → ∃ (t : State) (E : Team), exec (.elementTeamStart T.id lane) s = .next t ∧
      t.teams = (s.teams.map fun x => if x.id = T.id then T.elemStarted slot lane w m entry else x) ++ [E] ∧ t.mem = s.mem ∧
      (E.fromResv = true ↔ ¬ room) ∧
      E.id = s.evId ∧ E.sort = .element T.id lane (tileRow h.tile) (tileCol h.tile) e ∧ E.core = T.core ∧ E.cohort = T.cohort ∧
      E.words = words ∧ E.mask = fullMask (e * e) ∧ E.clock = (if T.counted then T.clock else 0) ∧ E.wid 0 = T.wid lane ∧
      E.run = some { entry := entry, args := match T.block with | some b => b.args | none => [] } ∧
      ∀ i < e * e, i < 1024 → E.v 0 i =
        BitVec.ofNat 64 ((tileRow h.tile + i / e) % 2 ^ 32 + (tileCol h.tile + i % e) % 2 ^ 32 * 2 ^ 32)) ∧
    (T.elemStarted slot lane w m entry).vregs = T.vregs ∧
    (∀ l, (T.elemStarted slot lane w m entry).item l = if l = lane then none else T.item l))

/-- R172, R230, R248 to R254, R256, R258, R259, R270, R273, R292, R296, R320, R336: the steps of the order machine on one
access, message or line. A fill makes a clean copy of a line, but not of a line with dirty bytes, nor while a write-back of it
is on its way; where its set is full the least recently used line goes, its dirty bytes written back. A drop leaves a line's
dirty bytes, a write-back sends them to the home, where exactly they change; a store leaves into the core copy as dirty bytes; a
load takes the bytes of an older store, or reads the copy, the bank or the pad, or sends a message to its home. A pad access
acts at its bank in one step: a store, an atomic, LDFE and STFE with their tags, which commit their region, and the reads of
waits, which are satisfied or fail, as those at a home do; LDH takes the hull of what plain loads read. A read-modify-write at a
home changes its word in one step; a message moves one hop along its route, a reply ends its access. Forwarding from one
covering store is the model's reading (log 29). -/
def Obligations.OrderMachineSteps : Prop :=
  ∀ s : State,
    let only := fun (e : Ev) => s.ev? e.id = some e ∧ s.groupOf e = [e]
    let mates := fun (core line : Nat) => s.lines.filter fun l => l.core == core && l.line % 512 == line % 512
    let room := fun (core line : Nat) => (∃ l ∈ mates core line, l.line = line) ∨ (mates core line).length < 8
    -- the line that makes room, where its set is full
    let evicts := fun (core line : Nat) (t : State) => ∀ v, ¬ room core line → (mates core line).getLast? = some v →
      s.line? core v.line = some v → t.line? core v.line = none ∧ (v.dirty = 0 → t.msgs = s.msgs) ∧
      (v.dirty ≠ 0 → ∃ m, t.msgs = s.msgs ++ [m] ∧ m.body = .writeBack v.line v.dirty v.data v.bad ∧ m.core = core)
    -- the other lines of the cores stay, or have no valid byte
    let others := fun (t : State) (p : Nat → Nat → Prop) => ∀ c n, ¬ p c n → t.line? c n = s.line? c n ∨
      ∃ l, s.line? c n = some l ∧ l.valid = 0
    let unique := fun (T : Team) => s.team? T.id = some T ∧ ∀ X ∈ s.teams, X.id = T.id → X = T
    (∀ (core line : Nat) (tag : Scope), core < 128 →
      (Scope.isWide tag = true → exec (.fill core line tag) s = .next s) ∧
      (s.canFill core line = true ↔ isPad (128 * line) = false ∧ isCtl (128 * line) = false ∧
        (∀ l, s.line? core line = some l → l.dirty = 0) ∧ s.wbFlying core line = false ∧ s.cutOff core (128 * line) = false ∧
        s.portFailed (dieOf core) (128 * line) = false) ∧
      (Scope.isWide tag = false → s.canFill core line = false →
        ∃ t : State, exec (.fill core line tag) s = .next t ∧ t = { s with pins := t.pins }) ∧
      (Scope.isWide tag = false → s.canFill core line = true → ∃ t : State, exec (.fill core line tag) s = .next t ∧ t.mem = s.mem ∧
        t.staged = s.staged ∧ t.teams = s.teams ∧ (room core line → t = { s with lines := t.lines, pins := t.pins }) ∧
        evicts core line t ∧ (∃ l, t.line? core line = some l ∧ l.valid = BitVec.allOnes 128 ∧ l.dirty = 0 ∧ l.tag = tag ∧
          (∀ i < 128, l.byte i = s.byte (128 * line + i)) ∧ ∀ j < 16, l.bad.getLsbD j = s.poisoned (128 * line + 8 * j) 8) ∧
        others t fun c n => c = core ∧ (n = line ∨ ¬ room core line ∧ (mates core line).getLast?.map Line.line = some n))) ∧
    (∀ core line l, s.line? core line = some l → ∃ t : State, exec (.dropLine core line) s = .next t ∧
      t = { s with lines := t.lines } ∧ (l.valid &&& l.dirty ≠ 0 → ∃ l', t.line? core line = some l' ∧
        l' = { l with valid := l.valid &&& l.dirty }) ∧ (l.valid &&& l.dirty = 0 → t.line? core line = none) ∧
      others t fun c n => c = core ∧ n = line) ∧
    (∀ core line l, s.line? core line = some l → l.core = core → l.line = line → l.valid ≠ 0 →
      (l.dirty = 0 → exec (.writeBack core line) s = .next s) ∧
      (l.dirty ≠ 0 → ∃ (t : State) (m : Msg), exec (.writeBack core line) s = .next t ∧
        t.msgs = s.msgs ++ [m] ∧ m.id = s.evId ∧ m.body = .writeBack line l.dirty l.data l.bad ∧ m.core = core ∧ t.mem = s.mem ∧
        t.staged = s.staged ∧ t.teams = s.teams ∧ t.line? core line = some { l with dirty := 0 } ∧
        t.evs = s.evs.map fun e =>
          if e.core == core && e.st == .left none && e.key / 128 == line then { e with st := .left (some s.evId) } else e)) ∧
    (∀ (m : Msg) (rest : List Msg) (line : Nat) (mask : BitVec 128) (data : BitVec 1024) (bad : BitVec 16), s.msgs = m :: rest →
      (∀ x ∈ rest, x.id ≠ m.id) → m.place = .home → m.body = .writeBack line mask data bad → s.portFailed m.dest m.key = false →
      ∃ t : State, exec (.apply m.id) s = .next t ∧ t.teams = s.teams ∧ t.lines = s.lines ∧
        (∀ k, t.byte k = if k / 128 = line ∧ mask.getLsbD (k % 128) then data.extractLsb' (8 * (k % 128)) 8 else s.byte k) ∧
        (s.ownDie m.core (128 * line) = true → t.msgs = rest ∧ t.evs = s.evs.filter fun e => e.st != .left (some m.id)) ∧
        (s.ownDie m.core (128 * line) = false → t.evs = s.evs ∧ ∃ r, t.msgs = rest ++ [r] ∧ r.body = .reply none m.id ∧
          r.dest = dieOf m.core)) ∧
    (∀ (e : Ev) (data : List Byte), only e → e.op = .store data → e.attr = .cached → isPad e.key = false → e.atHome = false →
      (s.canLeave e = false → exec (.leave e.id) s = .next s) ∧
      (s.canLeave e = true → e.key % 128 + data.length ≤ 128 → ∃ t : State, exec (.leave e.id) s = .next t ∧ t.mem = s.mem ∧
        t.staged = s.staged ∧ t.teams = s.teams ∧ { e with st := .left none } ∈ t.evs ∧ evicts e.core (e.key / 128) t ∧
        (room e.core (e.key / 128) →
          t = { s with lines := t.lines, evs := s.evs.map fun x => if x.id == e.id then { e with st := .left none } else x }) ∧
        (∀ i (h : i < data.length), ∃ l, t.line? e.core (e.key / 128) = some l ∧ l.dirty.getLsbD (e.key % 128 + i) = true ∧
          l.valid.getLsbD (e.key % 128 + i) = true ∧ l.byte (e.key % 128 + i) = data[i]))) ∧
    (∀ (e : Ev) (n r l : Nat) (ty : LTy), only e → e.op = .load n → e.dst = .lane r l ty → l < 1024 →
      ∀ T, s.team? e.team = some T → unique T →
      let loads := fun (bs : List Byte) (left : State → Prop) => ∃ (t : State) (T' : Team), exec (.performLoad e.id) s = .next t ∧
        t.mem = s.mem ∧ t.staged = s.staged ∧ (e.acq = false ∨ Scope.isWide e.scope = false → left t) ∧
        (t.evs = s.evs.filter fun x => x.id != e.id) ∧ t.team? T.id = some T' ∧
        T' = { T with vregs := T'.vregs, fflags := T'.fflags, marks := T'.marks } ∧
        (∀ k j, j < 1024 → T'.v k j = if k = r ∧ j = l then (loadValue ty bs).1 else T.v k j) ∧
        (∀ j, T'.flags j = if j = l then T.flags j ||| (loadValue ty bs).2 else T.flags j)
      let same := fun (t : State) => ∀ c n, t.line? c n = s.line? c n
      let stays := exec (.performLoad e.id) s = .next s
      (e.isPadEv = true → e.st = .issued →
        ((heldBack (s.older e.preds) = true ∨ s.padBusy e = true) → stays) ∧
        (e.rel = false → heldBack (s.older e.preds) = false → s.padBusy e = false → loads (s.bytes e.key n) same)) ∧
      (∀ bs, e.isPadEv = false → s.forwardFrom e = some bs → (s.mayLoad e = false → stays) ∧ (s.mayLoad e = true → loads bs same)) ∧
      (e.isPadEv = false → s.forwardFrom e = none → (s.canLoad e = false → stays) ∧ (s.canLoad e = true →
        (e.attr = .pinCore → loads (s.bytes e.key n) same) ∧
        (e.attr ≠ .pinCore → e.atHome = true → exec (.performLoad e.id) s = .next (s.sendEv e)) ∧
        (e.attr ≠ .pinCore → e.atHome = false → e.attr ≠ .uncached → (s.copyHas e.core e.key n = false → stays) ∧
          (s.copyHas e.core e.key n = true → loads ((List.range n).map fun i => (s.copyByte e.core (e.key + i)).1) same)) ∧
        (e.atHome = false → e.attr = .uncached → e.key % 128 + n ≤ 128 → (s.canFill e.core (e.key / 128) = false → stays) ∧
          (s.canFill e.core (e.key / 128) = true → loads (s.bytes e.key n) fun t =>
            others t fun c n => c = e.core ∧ n = e.key / 128))))) ∧
    -- a load with nothing older to its bytes may be made, unless an older acquire holds it back
    (∀ e : Ev, e.st = .issued → e.strong = false → s.frozen e = false → (∀ p ∈ s.older e.preds, p.overlaps e = false) →
      s.olderCopies e.preds = [] → s.olderAtoms e.preds = [] → s.homeHeld e = false → (s.canLoad e = true ↔
        ∀ p ∈ s.older e.preds, p.acq = true → p.st ≠ .issued ∧ p.st ≠ .sent)) ∧
    -- what acts at a pad bank
    (∀ (e : Ev) (T : Team), only e → e.isPadEv = true → e.st = .issued → s.team? e.team = some T → unique T →
      let moves := fun (t : State) => exec (.performLoad e.id) s = .next t ∧ exec (.leave e.id) s = .next t
      let held := heldBack (s.older e.preds) = true ∨ s.frozen e = true ∨ s.padBusy e = true ∨
        (e.rel = true ∧ s.releaseOk e.team e.core e.preds e.scope = false)
      let ends := fun (t : State) => moves t ∧ t.evs = s.evs.filter fun x => x.id != e.id
      let writes := fun (t : State) (d : List Byte) => t.mem = s.mem ∧
        ∀ k, t.byte k = if e.key ≤ k ∧ k < e.key + d.length then d.getD (k - e.key) 0 else s.byte k
      let fills := fun (t : State) (w : Word) (r l : Nat) => ∃ T', t.team? T.id = some T' ∧ T'.v r l = w ∧
        (∀ k j, j < 1024 → (k ≠ r ∨ j ≠ l) → T'.v k j = T.v k j) ∧ T'.committed =
          (T.committed || (match e.op with | .ldfe _ => true | _ => false) && decide (e.region = T.regionNo + 1))
      let word := fun (n : Nat) => (List.range n).map fun i => e.key + 4 * i
      (held → moves s) ∧
      (¬ held →
        (∀ d, e.op = .store d → ∃ t, ends t ∧ t.teams = s.teams ∧ writes t d) ∧
        (∀ op ty b r l, e.op = .rmw op ty b → e.dst = .lane r l .b64 → l < 1024 → ∃ t, ends t ∧
          writes t (leBytes 8 (atomNew op ty (s.word e.key) b).1.toNat) ∧ fills t (s.word e.key) r l) ∧
        (∀ x n r l, e.op = .cas x n → e.dst = .lane r l .b64 → l < 1024 → ∃ t, ends t ∧ fills t (s.word e.key) r l ∧
          (s.word e.key = x → writes t (leBytes 8 n.toNat)) ∧ (s.word e.key ≠ x → ∀ k, t.byte k = s.byte k)) ∧
        (∀ n r l, e.op = .ldfe n → n = 1 ∨ n = 2 → e.dst = .lane r l .b64 → l < 1024 →
          ((∃ k ∈ word n, s.tagFull k = false) → moves s) ∧
          ((∀ k ∈ word n, s.tagFull k = true) → ∃ t, ends t ∧ (∀ k, t.byte k = s.byte k) ∧
            (∀ k, t.tagFull k = (s.tagFull k && !(word n).contains k)) ∧
            fills t (BitVec.ofNat 64 (leNat (s.bytes e.key (4 * n)))) r l)) ∧
        (∀ d, e.op = .stfe d → d.length = 4 ∨ d.length = 8 →
          ((∃ k ∈ word (d.length / 4), s.tagFull k = true) → moves s) ∧
          ((∀ k ∈ word (d.length / 4), s.tagFull k = false) → ∃ t, ends t ∧ writes t d ∧
            (∀ k, t.tagFull k = (s.tagFull k || (word (d.length / 4)).contains k)) ∧ ∃ T', t.team? T.id = some T' ∧
              T' = { T with committed := T.committed || decide (e.region = T.regionNo + 1) })) ∧
        (∀ c x, e.op = .waitRead c x false →
          (condHolds c (s.word e.key) x = false → moves (s.setEv { e with op := .waitRead c x true, value := lowPair (s.word e.key) })) ∧
          (condHolds c (s.word e.key) x = true → ∀ h k l, e.dst = .wait h k l → ∃ t, ends t ∧ (∀ k, t.byte k = s.byte k) ∧
            t.team? T.id = some (T.satisfied h k l false))))) ∧
    -- the read of a wait at a home: satisfied, or failed
    (∀ (m : Msg) (rest : List Msg) (e : Ev) (c : Cond) (x : Word) (T : Team), s.msgs = m :: rest → (∀ y ∈ rest, y.id ≠ m.id) →
      m.place = .home → m.body = .access e.id → s.portFailed m.dest m.key = false → only e → e.op = .waitRead c x false →
      isCtl e.key = false → isPad e.key = false → s.ownDie e.core e.key = true → s.team? e.team = some T → unique T →
      let w := s.word e.key
      let good := condHolds c w x = true ∧ s.frozen e = false ∧ s.evBad e = false
      ∃ t : State, exec (.apply m.id) s = .next t ∧ t.mem = s.mem ∧ t.staged = s.staged ∧
        (good → (t.evs = s.evs.filter fun y => y.id != e.id) ∧
          (∀ h k l, e.dst = .wait h k l → t.team? T.id = some (T.satisfied h k l false)) ∧
          (∀ r, e.dst = .scalar r → t.team? T.id = some (T.setS r w)) ∧
          (e.scope ≠ .team → e.scope ≠ .core → ∀ n l, t.line? e.core n = some l → l.valid &&& l.dirty = l.valid)) ∧
        (¬ good → t.teams = s.teams ∧ t.lines = s.lines ∧
          { e with st := .issued, op := .waitRead c x true, value := lowPair w } ∈ t.evs)) ∧
    -- LDH: the hull of what plain loads read, and whether the item is wide
    (∀ (e : Ev) (lay : Layout) (ty : LTy) (es : List (List (Nat × Attr) × Nat × Option (Nat × Attr))) (d l : Nat) (ty' : LTy) (T : Team),
      only e → e.op = .hull lay ty es → e.dst = .lane d l ty' → isPad e.key = false → l < 1024 → s.team? e.team = some T → unique T →
      let code := fun (x : List (Nat × Attr) × Nat × Option (Nat × Attr)) =>
        (leNat (x.1.map fun k => s.peekByte e.team e.core e.preds k) / 2 ^ x.2.1,
          match x.2.2 with | some k => (s.peekByte e.team e.core e.preds k).toNat | none => 127)
      let r := hullValue lay ty (es.map code)
      (s.canHull e = false → exec (.performLoad e.id) s = .next s) ∧
      (s.canHull e = true → ∃ (t : State) (T' : Team), exec (.performLoad e.id) s = .next t ∧ t.mem = s.mem ∧ t.staged = s.staged ∧
        (t.evs = s.evs.filter fun y => y.id != e.id) ∧ t.team? T.id = some T' ∧
        (∀ k j, j < 1024 → T'.v k j = if j = l ∧ k = d then r.1.even else if j = l ∧ ty = .iv64 ∧ k = d + 1 then r.1.odd else T.v k j) ∧
        (∀ j, T'.flags j = if j = l then T.flags j ||| r.2.1 else T.flags j) ∧
        ∀ j, T'.item j = if j = l then (T.item j).map fun h =>
          if e.item = h.no ∧ h.ldh < e.id then { h with wide := r.2.2, ldh := e.id } else h else T.item j)) ∧
    (∀ (m : Msg) (rest : List Msg) (e : Ev) (op : AtomOp) (ty : LTy) (b : Word) (r l : Nat), s.msgs = m :: rest →
      (∀ x ∈ rest, x.id ≠ m.id) → m.place = .home → m.body = .access e.id → s.portFailed m.dest m.key = false → only e →
      e.op = .rmw op ty b → e.dst = .lane r l .b64 → l < 1024 → isCtl e.key = false → isPad e.key = false →
      s.ownDie e.core e.key = true → ∀ T, s.team? e.team = some T → unique T →
      ∃ (t : State) (T' : Team), exec (.apply m.id) s = .next t ∧ t.team? T.id = some T' ∧ T'.v r l = s.word e.key ∧
        (t.evs = s.evs.filter fun x => x.id != e.id) ∧ (∀ k j, j < 1024 → (k ≠ r ∨ j ≠ l) → T'.v k j = T.v k j) ∧
        ∀ k, t.byte k = if e.key ≤ k ∧ k < e.key + 8 then (atomNew op ty (s.word e.key) b).1.extractLsb' (8 * (k - e.key)) 8
          else s.byte k) ∧
    (∀ (m : Msg) (rest : List Msg) (die : Nat) (asc : Bool), s.msgs = m :: rest → m.place = .ring die asc →
      (∀ x ∈ rest, x.id ≠ m.id) →
      (s.hopFailed die asc = true → exec (.ringMove die asc) s = .next s) ∧
      (s.hopFailed die asc = false → let d := if asc then (die + 1) % 4 else (die + 3) % 4
        exec (.ringMove die asc) s = .next { s with msgs := rest ++ [{ m with
          place := if d = m.dest then (match m.body with | .reply .. => .back | _ => .home) else .ring d asc }] })) ∧
    (∀ (m : Msg) (rest : List Msg) (e : Ev) (w r l : Nat), s.msgs = m :: rest → (∀ x ∈ rest, x.id ≠ m.id) → m.place = .back →
      m.body = .reply (some e.id) w → s.ev? e.id = some e → e.dst = .lane r l .b64 → e.op.len = 8 → l < 1024 →
      ∀ T, s.team? e.team = some T → unique T →
      ∃ (t : State) (T' : Team), exec (.acknowledge m.id) s = .next t ∧ t.msgs = rest ∧ t.team? T.id = some T' ∧
        (t.evs = s.evs.filter fun x => x.id != e.id) ∧ T'.v r l = e.value.even ∧
        ∀ k j, j < 1024 → (k ≠ r ∨ j ≠ l) → T'.v k j = T.v k j)

/-- R60, R179, R230, R273, R312, R313: outside DET a wait that read in vain may read again, and one that has lasted its team's
limit ends: SWAITA with the last value read, WAITA without its condition. A failed turn of a DET launch adds 1 to the team's
clock, and a wait that has failed at as many turns as the limit says ends at its next turn. A limit goes on counting for SWAITA
while a trap waits for it, and what ended reads saw at a home is dropped from the core copy. A wait that meets poisoned bytes
raises cause 0x06. That the limit of SWAITA acts only after a failed read, and that x.waitlimit counts as it now stands, are the
model's readings (log 40, 82). -/
def Obligations.WaitsThatFail : Prop :=
  ∀ (s : State) (T : Team), s.team? T.id = some T → (∀ X ∈ s.teams, X.id = T.id → X = T) →
    (∀ (e : Ev) (c : Cond) (x : Word), s.ev? e.id = some e → e.team = T.id → e.op = .waitRead c x true →
      (T.counted = true → exec (.waitReread e.id) s = .next s) ∧
      (T.counted = false → s.evBad e = false → exec (.waitReread e.id) s = .next (s.setEv { e with op := .waitRead c x false })) ∧
      -- poisoned bytes satisfy no wait: the stream that waits traps
      (T.counted = false → s.evBad e = true → (∀ r, e.dst = .scalar r → T.raised = none → exec (.waitReread e.id) s =
          .next ((s.endEv e.id).raise { T.setS r e.value.even with swait := none } { cause := 0x06, resume := T.spc })) ∧
        (∀ h slot l, e.dst = .wait h slot l →
          let es := s.waitEvs T h slot
          ((s.frozen e = true ∨ T.raised ≠ none) → exec (.waitReread e.id) s = .next s) ∧
          (s.frozen e = false → T.raised = none → exec (.waitReread e.id) s = State.laneTrapMask { s with
            evs := s.evs.filter fun x => !(es.any fun y => y.id == x.id) } T slot 0x06 (maskOf ((es.filter s.evBad).map (·.lane))))))) ∧
    (T.counted = false →
      (T.waitlimit = 0 → exec (.waitLimitExpiry T.id .scalar) s = .next s) ∧
      (∀ (e : Ev) (c : Cond) (x : Word) (r : Nat), s.evs.head? = some e → e.team = T.id → e.st = .issued →
        e.op = .waitRead c x true → e.dst = .scalar r → T.waitlimit ≠ 0 → e.start + T.waitlimit.toNat ≤ s.cycle →
        ∃ T' : Team, exec (.waitLimitExpiry T.id .scalar) s =
            .next (State.setTeam { s.dropSeen [e] with evs := s.evs.filter fun y => y.id != e.id } T') ∧
          (∀ k, T'.sreg k = if k = r ∧ k ≠ 0 then e.value.even else T.sreg k) ∧
          (∀ k, T'.sIsEmpty k = (T.sIsEmpty k && k != r)) ∧ T' = { T with sregs := T'.sregs, sempty := T'.sempty }) ∧
      (T.raised ≠ none → ∀ slot, exec (.waitLimitExpiry T.id (.fragment slot)) s = .next s) ∧
      (∀ (slot : Nat) (w : LaneWait) (p : LaneMask) (b : Bool) (n : Nat), T.raised = none → (T.frag slot).wait = some w →
        w.what = .reads p b n →
        let es := s.waitEvs T T.trapLevel slot
        ((T.waitlimit = 0 ∨ s.cycle < w.start + T.waitlimit.toNat) → exec (.waitLimitExpiry T.id (.fragment slot)) s = .next s) ∧
        (T.waitlimit ≠ 0 → w.start + T.waitlimit.toNat ≤ s.cycle → ∃ T' : Team,
          exec (.waitLimitExpiry T.id (.fragment slot)) s = .next (State.setTeam { s.dropSeen es with
            evs := s.evs.filter fun e => !(es.any fun x => x.id == e.id) } T') ∧ T'.vregs = T.vregs ∧ T'.sregs = T.sregs ∧
          (∀ g d a gen k, w.instr = .pbwait g d a gen k → d ≠ 0 → ∀ l < 1024, l < T.lanes → w.exec.getLsbD l = true →
            T'.qv d.toNat l = .f) ∧
          ((T.frag slot).level = 0 → T.sp.depth = 0 → (T.frag slot).valid = true →
            (T'.frag slot).pc = (T.frag slot).pc + 1 ∧ (T'.frag slot).state = 0)))) ∧
    -- the limit under DET
    (T.counted = true →
      (∀ (e : Ev) (c : Cond) (x : Word) (r : Nat), s.swaitEv T = some e → e.op = .waitRead c x true → e.dst = .scalar r →
        ((T.waitlimit = 0 ∨ T.sfailed < T.waitlimit.toNat ∨ T.sfailed ≤ e.start ∨ s.turn T = false) →
          exec (.waitLimitExpiry T.id .scalar) s = .next s) ∧
        (T.waitlimit ≠ 0 → T.waitlimit.toNat ≤ T.sfailed → e.start < T.sfailed → s.turn T = true → ∃ T' : Team,
          exec (.waitLimitExpiry T.id .scalar) s =
            .next (State.setTeam { s.dropSeen [e] with evs := s.evs.filter fun y => y.id != e.id } T') ∧
          T'.spc = T.spc + 4 ∧ T'.committed = true ∧ ∀ k, T'.sreg k = if k = r ∧ k ≠ 0 then e.value.even else T.sreg k)) ∧
      (∀ (slot grp n : Nat) (w : LaneWait) (p : LaneMask) (b : Bool), T.raised = none → (T.frag slot).wait = some w →
        w.what = .turn grp n p b → T.detPick = some slot → (∀ g ty a x c pad sc, w.instr = .waita g ty a x c pad sc →
          ((T.waitlimit = 0 ∨ n < T.waitlimit.toNat ∨ s.turn T = false) → exec (.waitLimitExpiry T.id (.fragment slot)) s = .next s) ∧
          (T.waitlimit ≠ 0 → T.waitlimit.toNat ≤ n → s.turn T = true → ∃ T' : Team,
            exec (.waitLimitExpiry T.id (.fragment slot)) s = .next (s.setTeam T') ∧ T'.committed = true ∧ T'.vregs = T.vregs ∧
            ((T.frag slot).level = 0 → T.sp.depth = 0 → (T.frag slot).valid = true →
              (T'.frag slot).pc = (T.frag slot).pc + 1 ∧ (T'.frag slot).state = 0))))) ∧
    ((T.counted = false ∨ s.turn T = false ∨ T.raised ≠ none) → exec (.turnRetry T.id) s = .next s) ∧
    (∀ (e : Ev), T.counted = true → s.turn T = true → T.raised = none → T.swait = some e.id → s.ev? e.id = some e →
      (e.start ≠ T.sfailed → exec (.turnRetry T.id) s = .next s) ∧
      (s.stuck e = true → e.start = T.sfailed → exec (.turnRetry T.id) s = .next (s.setTeam { T with
        clock := T.clock + 1, sfailed := T.sfailed + 1, committed := true }))) ∧
    (∀ (slot : Nat) (w : LaneWait) (p : LaneMask) (b : Bool) (n : Nat), T.counted = true → s.turn T = true → T.raised = none →
      T.swait = none → T.detPick = some slot → (T.frag slot).wait = some w → w.what = .reads p b n →
      (∀ e ∈ s.waitEvs T T.trapLevel slot, s.stuck e = true) → ∃ T' : Team,
      exec (.turnRetry T.id) s = .next (State.setTeam { s with
        evs := s.evs.filter fun e => !((s.waitEvs T T.trapLevel slot).any fun x => x.id == e.id) } T') ∧
      T'.clock = T.clock + 1 ∧ T'.committed = true ∧ (T'.frag slot).pc = (T.frag slot).pc ∧ T'.vregs = T.vregs ∧ T'.q = T.q)

/-- R22, R24, R67, R228, R342, R343, R351, R381: the oldest header posted to a die is read in its place when HLAUNCH posted it;
then it is judged, and refused with the code of its first failing check in its stamp or numbered as a launch; a waiting cohort
that may be placed, with no cohort scanned before it, starts all its teams at once on its cores, with its seed tile in the
cistern of a BOUNDS launch, and one that may not keeps its place; a page of a preload span lands in the slot that is chosen for
it; a ready task takes its counts and posts its header. That a poisoned header is dropped is the model's reading (log 84). When
placement is judged, what an unreadable payload or span does, and that a stamp that cannot be written is dropped are the model's
(log 54 to 57, 75). -/
def Obligations.HeadersPlacementAndTasks : Prop :=
  -- a header that HLAUNCH posted is read in its place first, and dropped when its page is refused or its bytes are poisoned
  (∀ (s : State) (die : Nat) (p : Post) (va : Nat), s.posts.find? (fun x => x.die == die) = some p → p.unread = some va →
    (s.die die).present = true → va < 2 ^ 47 → va % 128 = 0 →
    (∀ q, s.ask (.dispatcher die) (32 * die) p.ctx (BitVec.ofNat 64 va) false 2 = .wait q → exec (.headerCheck die) s = .next q) ∧
    (s.ask (.dispatcher die) (32 * die) p.ctx (BitVec.ofNat 64 va) false 2 = .refused → s.posts = [p] → ∃ t : State,
      exec (.headerCheck die) s = .next t ∧ t.posts = [] ∧ t.launches = s.launches ∧ t.teams = s.teams ∧
      (t.die die).fqseq = (s.die die).fqseq + 1) ∧
    ∀ (key : Nat) (a : Attr) (w : Bool), s.ask (.dispatcher die) (32 * die) p.ctx (BitVec.ofNat 64 va) false 2 = .ok key a w →
      (s.poisoned key 128 = true → ∃ t : State, exec (.headerCheck die) s = .next t ∧ t.posts = s.posts.erase p ∧
        t.launches = s.launches ∧ t.teams = s.teams ∧ (t.die die).fqseq = (s.die die).fqseq + 1) ∧
      (s.poisoned key 128 = false → ∀ pre post : List Post, s.posts = pre ++ p :: post → (∀ x ∈ pre, x.die ≠ die) → ∃ t : State,
        exec (.headerCheck die) s = .next t ∧ t.posts = pre ++ { p with hdr := headerOf (s.bytes key 128), unread := none } :: post ∧
        t = { s with posts := t.posts, verdicts := t.verdicts, records := t.records })) ∧
  (∀ (s : State) (die : Nat) (p : Post) (key : Nat) (a : Attr) (w : Bool),
    s.posts.find? (fun x => x.die == die) = some p → p.unread = none →
    s.ask (.preload 0 (32 * die)) (32 * die) p.ctx (BitVec.ofNat 64 (p.hdr.image + p.hdr.laneBase + 4092)) false 3 = .ok key a w →
    let h := p.hdr
    let q : State := { s.forget (.preload 0 (32 * die)) with posts := s.posts.erase p }
    let word := s.nat key 4
    (∀ code, s.refusalCode h word = some code → exec (.headerCheck die) s = .next (
      if h.stampAddr = 0 ∨ h.stampAddr % 8 ≠ 0 then q else q.dispStamp p.die p.ctx h.stampAddr (BitVec.ofNat 64 (2 ^ 63 + code)))) ∧
    (h.version ≠ 1 → s.refusalCode h word = some 0x01) ∧
    (h.version = 1 → h.mbz = false ∨ h.stampVal.getLsbD 63 = true → s.refusalCode h word = some 0x02) ∧
    (h.version = 1 → h.mbz = true → h.stampVal.getLsbD 63 = false →
      (h.widthsBad = true → s.refusalCode h word = some 0x03) ∧
      (h.widthsBad = false →
        ((h.teams = 0 ∨ h.words = 0 ∨ 32 < h.words ∨ 2048 < h.teams * h.words ∨ h.cohorts = 0) → s.refusalCode h word = some 0x04) ∧
        (h.teams ≠ 0 → h.words ≠ 0 → h.words ≤ 32 → h.teams * h.words ≤ 2048 → h.cohorts ≠ 0 →
          ((h.vbud = 0 ∨ 40 < h.vbud ∨ h.sbud = 0 ∨ 8 < h.sbud) → s.refusalCode h word = some 0x05) ∧
          (h.vbud ≠ 0 → h.vbud ≤ 40 → h.sbud ≠ 0 → h.sbud ≤ 8 → (∃ d < 4, h.dieMask.getLsbD d = true ∧ (s.die d).present = true) →
            let span := 128 < word % 2 ^ 15 + word / 2 ^ 16 % 2 ^ 16 ∨ h.laneBase / 4096 < word % 2 ^ 15
            s.refusalCode h word = if s.resident h = false ∨ span then some 0x06 else if h.padBad = true then some 0x07
              else if h.boundsBad = true then some 0x08 else if 7 < h.pri then some 0x09 else if h.misaligned = true then some 0x0A
              else none)))) ∧
    (s.refusalCode h word = none → p.die = die → ∃ (t : State) (L : Launch), exec (.headerCheck die) s = .next t ∧
      t.launches = s.launches ++ [L] ∧ L.hdr = h ∧ L.id = s.evId ∧ L.num = (s.die die).launches ∧ L.ctx = p.ctx ∧ L.placed = [] ∧
      L.live = (if h.bounds then h.cohorts else 0) ∧ L.spages = word % 2 ^ 15 ∧ L.lblocks = word / 2 ^ 16 % 2 ^ 16 ∧
      t.posts = s.posts.erase p ∧ t.teams = s.teams ∧ t.mem = s.mem ∧ t.staged = s.staged)) ∧
  (∀ (s : State) (L : Launch) (c : Nat), s.launch? L.id = some L → L.waits c = true →
    L.hdr.det = false → s.scannedBefore L c = [] → (∀ D ∈ s.cohorts, D.launch = L.id → D.idx ≠ c) →
    -- its place is chosen at the first try and kept
    let K : Launch := { L with places := SMap.wr none L.places c (s.placeOf L c) }
    let s1 := s.modLaunch L.id fun _ => K
    (s1.placeable K false c = none → s1.placeable K true c = none → exec (.cohortPlacement L.id c) s = .next s1) ∧
    ∀ x : Place, (s1.placeable K false c = some x ∨ s1.placeable K false c = none ∧ s1.placeable K true c = some x) →
    let core := fun (k : Nat) => if x.cores.length = 1 ∨ k < (L.hdr.teams + 1) / 2 then x.cores.getD 0 0 else x.cores.getD 1 0
    ∃ t : State, exec (.cohortPlacement L.id c) s = .next t ∧
      (∃ C : Cohort, t.cohorts = s.cohorts ++ [C] ∧ C.launch = L.id ∧ C.idx = c ∧ C.cores = x.cores ∧ C.bases = x.bases ∧
        C.resv = x.resv ∧ C.order = s.placedNo ∧
        C.cistern = { pad := if L.hdr.bounds = true ∧ L.hdr.cap ≠ 0 then [seedTile L.hdr c] else [] }) ∧
      t.teams.length = s.teams.length + L.hdr.teams ∧ t.teams.take s.teams.length = s.teams ∧
      (∀ k < L.hdr.teams, ∃ place, t.teams[s.teams.length + k]? =
        some { startTeam (s.evId + k) L c k (core k) place with issued := s.cycle }) ∧
      t.launch? L.id = some { K with
        placed := insertNat c L.placed, cores := x.cores.foldl (fun r k => insertNat k r) L.cores }) ∧
  (∀ (s : State) (L : Launch) (core page : Nat) (pre post : List Nat) (key slot : Nat) (a : Attr) (w : Bool),
    s.launch? L.id = some L → s.wantsSpan core L = true → L.span = pre ++ page :: post →
    (∀ p ∈ pre, s.landedOn core L.hdr.image p = true) → s.landedOn core L.hdr.image page = false →
    s.ask (.preload L.id core) core L.ctx (pageVa L.hdr.image page) false 3 = .ok key a w → s.preloadSlot core L = some slot →
    let x : CodeSlot := { core := core, slot := slot, landed := true, ctx := L.ctx, image := L.hdr.image, page := page,
                          bytes := s.bytes key 4096, bad := s.badCode key 0 4096 }
    exec (.preloadLand L.id core) s = .next ((State.uncinv { s with
      slots := x :: s.slots.filter fun y => !(y.core == core && y.slot == slot) } core slot).landSpan core L post)) ∧
  (∀ (s : State) (t : Task) (key : Nat) (a : Attr) (w : Bool), s.tasks.find? (fun x => x.id == t.id && x.die == t.die) = some t →
    (s.taskReady t = false → exec (.taskIssue t.die t.id) s = .next s) ∧
    (s.taskReady t = true → t.kind = 1 → (s.posts.filter fun p => p.die == t.die).length < 64 → t.payload % 128 = 0 →
      s.ask (.copy t.id) t.core t.ctx (BitVec.ofNat 64 t.payload) false 3 = .ok key a w → s.poisoned key 128 = false →
      ∃ q : State, exec (.taskIssue t.die t.id) s = .next q ∧
        q.posts = s.posts ++ [⟨t.die, t.ctx, headerOf (s.bytes key 128), t.token, none⟩] ∧
        q.tasks = s.tasks.filter (fun x => x.id != t.id) ∧ q.mem = s.mem ∧ q.staged = s.staged ∧ q.teams = s.teams ∧
        (∀ k, SMap.rd 0 (q.die t.die).tokens k =
          SMap.rd 0 (s.die t.die).tokens k - BitVec.ofNat 16 (t.inputs.count k)) ∧
        ∀ k, t.inputs.count k ≤ (SMap.rd 0 (s.die t.die).tokens k).toNat))

/-- R29, R327, R332, R338, R339, R344, R348, R387: an idle lane stream takes the oldest block, with the mask of the team; a
raised trap is taken once no register write is in flight, and where it halts the team once its stores are out and its end may
act; a team hit by an uncorrectable error halts likewise; a team that takes a request halts, or discards its region and enters
its handler with cause 0x0D; for a cohort that has waited 4096 cycles the dispatcher asks the cohorts of its cluster that have
lower priority and handlers alone, in the order of R344, no more than make room and enough to make it where all of them together
do; a team gains a level for each 256 cycles in a row in which it could issue and did not, up to 7. That a halt gives up loads
and waits, and waits for the stores of the team and for its end, is the model's reading (log 25). The order of the actions of
pre-emption, the count that ages a team, and entry at an x.tvec with low bits are the model's (log 28, 37, 38, 81). -/
def Obligations.BlocksTrapsAndPreemption : Prop :=
  (∀ (s : State) (T : Team), s.team? T.id = some T →
    (∀ b rest, T.block = none → T.lq = b :: rest →
      ((T.raised ≠ none ∨ T.dying = true ∨ T.fills ≠ []) → exec (.laneBlockStart T.id) s = .next s) ∧
      (T.raised = none → T.dying = false → T.fills = [] →
        (T.mask = 0 → exec (.laneBlockStart T.id) s = .next (s.setTeam (T.setLq rest))) ∧
        (T.mask ≠ 0 → ∃ T' : Team, exec (.laneBlockStart T.id) s = .next (s.setTeam T') ∧ T'.block = some { b with born := s.evId } ∧
          T'.lq = rest ∧ T'.sp.entries = [] ∧ (T'.frag 0).valid = true ∧ (T'.frag 0).pc = b.entry ∧ (T'.frag 0).mask = T.mask ∧
          (T'.frag 0).state = 0 ∧ (∀ k, k ≠ 0 → (T'.frag k).valid = false) ∧ T' = { T with
            queue := T'.queue, run := T'.run, split := T'.split, hqueue := T'.hqueue, hrun := T'.hrun, hsplit := T'.hsplit }))) ∧
    -- a team that is over gives up its loads and waits, and halts once its stores are out and its end may act
    (
      let q : State := { s with evs := s.evs.filter fun e => !(e.team == T.id && e.abandoned) }
      (T.dying = true →
        exec (.trapEntry T.id) s = .next (if q.mayHalt T then q.haltTeam T 0xFC 0 false T.spc else q)) ∧
      (∀ r, T.raised = some r → T.isWave = false → T.dying = false → (T.trapLevel = true ∨ T.tvec = 0xFFFFFFFF) →
        (q.writesInFlight T = true ∨ q.storesOut T = false ∨ q.endReady T = false → exec (.trapEntry T.id) s = .next q) ∧
        (q.writesInFlight T = false → q.storesOut T = true → q.endReady T = true → exec (.trapEntry T.id) s = .next (
          if T.trapLevel then q.haltTeam { T with raised := none } (T.trapcause.toNat % 256) r.cause r.ln r.resume
          else q.haltTeam { T with raised := none } 0xFF r.cause r.ln r.resume)))) ∧
    (∀ r, T.raised = some r → T.isWave = false → T.dying = false → T.trapLevel = false → T.tvec ≠ 0xFFFFFFFF →
      exec (.trapEntry T.id) s = .next (if s.writesInFlight T then s else s.setTeam (T.enter r))) ∧
    (T.isWave = true → T.dying = false → exec (.trapEntry T.id) s = .next s) ∧
    (∀ p, T.preq = some p →
      let may := T.crit = false ∧
        (T.tvec = 0xFFFFFFFF ∨ (T.trapLevel = false ∧ T.raised = none ∧ T.committed = false))
      (¬ may → exec (.preemption T.id) s = .next s) ∧
      (may → (p = .remove ∨ T.tvec = 0xFFFFFFFF) → exec (.preemption T.id) s = .next (
        let q := s.abandon T
        if q.mayHalt T = false then q
        else if p = .remove then q.haltTeam T 0xFD 0 false T.spc
        else q.haltTeam T (if T.trapLevel then T.trapcause.toNat % 256 else 0xFF) 0x0D false T.spc)) ∧
      (may → p = .preempt → T.tvec ≠ 0xFFFFFFFF → T.isOrdinary = true →
        s.evs = [] → T.fills = [] → T.tiles = [] → s.reqs = [] → s.contribs = [] → ∃ (t : State) (T' : Team),
        exec (.preemption T.id) s = .next (t.setTeam T') ∧
        T' = { T with
          trapcause := 0x0D, trappc := T.regionpc, faultmask := 0, trapLevel := true, spc := T.tvec.toNat, hqueue := [], hrun := none
          hsplit := {}, queue := [], run := none, split := {}, splitsel := 0x80, lqAt := none, swait := none, swaited := []
          sfailed := 0, tried := 0, preq := none, marks := T'.marks } ∧
        t.mem = s.mem ∧ t.staged = s.staged ∧ t.teams = s.teams ∧
        ∀ c ∈ t.copies, c.team = some T.id → c.ended = false → c.stopped = true ∨ c.stopping = true)) ∧
    (exec (.priorityAging T.id) s = .next (
      if 256 ≤ T.waited ∧ T.pri + T.gain < 7 then s.setTeam { T with gain := T.gain + 1, waited := T.waited - 256 } else s))) ∧
  (∀ (s : State) (L : Launch) (c : Nat) (p : Nat × Nat), s.launch? L.id = some L → s.placeOf L c = some p →
    let fits := fun (q : State) => (q.poolsFit L.hdr true (fun _ => true) p).isSome
    let pri := fun (x : Cohort) => match s.launch? x.launch with | some M => M.hdr.pri | none => 0
    -- the cohorts of the cluster, of lower priority and with handlers alone, and their order
    let may := fun (x : Cohort) => x ∈ s.cohorts ∧ (∃ k ∈ x.cores, k = 32 * p.1 + 2 * p.2 ∨ k = 32 * p.1 + 2 * p.2 + 1) ∧
      pri x < L.hdr.pri ∧ ∀ T ∈ s.teams, T.launch = x.launch → T.cohort = x.idx → T.isOrdinary = true → T.tvec ≠ 0xFFFFFFFF
    let sooner := fun (x y : Cohort) => pri x < pri y ∨ pri x = pri y ∧ y.order < x.order
    ((L.waits c = false ∨ s.cycle < L.since + 4096 ∨ fits s = true) → exec (.dispatcherPreempt L.id c) s = .next s) ∧
    (L.waits c = true → L.since + 4096 ≤ s.cycle → fits s = false → ∃ cs : List Cohort,
      let mine := fun (T : Team) => cs.any fun x => x.launch == T.launch && x.idx == T.cohort
      exec (.dispatcherPreempt L.id c) s = .next { s.requestPreempt mine .preempt with
        teams := (s.requestPreempt mine .preempt).teams.map fun T => if mine T then { T with asked := some s.cycle } else T } ∧
      (∀ x ∈ cs, may x ∧ s.recentlyAsked x = false) ∧
      -- lowest priority first, then the most recently placed, with none passed over
      cs.Pairwise (fun x y => ¬ sooner y x) ∧
      (∀ x ∈ cs, ∀ y, may y → s.recentlyAsked y = false → sooner y x → y ∈ cs) ∧
      -- no more than it takes, those asked already counted as gone, and enough where all together are
      ∀ gone all : List Cohort, (∀ x, x ∈ gone ↔ may x ∧ s.recentlyAsked x = true) → (∀ x, x ∈ all ↔ may x) →
        (∀ n < cs.length, fits (s.without (gone ++ cs.take n)) = false) ∧
        (fits (s.without all) = true → fits (s.without (gone ++ cs)) = true)))

/-- R290, R291, R298 to R300: a walk that its die's unit has taken up reads a pointer at each level from the root of its context
down to a leaf, which every core that shares it then caches; an entry with V = 0 writes one record, naming the first of them, or
attaches to the pending one; a malformed one writes a record of KIND 1 and is refused at once; an answer wakes the requesters of
its record, and a refusal is noted for each of them. That walks for one page share their outcome, which 32 of them run, that
pointers past device memory are malformed and that records wait for a full queue are the model's readings (log 17, 19, 20), and
so is that RESOLVE waits while an access waits in its home queue (log 21). -/
def Obligations.WalksAndAnswers : Prop :=
  (∀ (s : State) (w : Walk), s.walks.find? (fun x => x.id == w.id) = some w →
    let ws := s.walks.filter fun x => dieOf x.core == dieOf w.core && x.ctx == w.ctx && x.vpage == w.vpage
    let d := dieOf w.core
    let out := s.walkTables d w.ctx w.va
    let D := s.die d
    let rest := s.walks.filter fun x => !(ws.any fun y => y.id == x.id)
    let a := D.fqbase.toNat + 32 * (D.fqtail.toNat % 2 ^ D.fqsize)
    let record := fun (t : State) (f : Walk) (kind : Nat) => t.word a = f.va ∧
      t.word (a + 8) = BitVec.ofNat 64 (D.fqseq % 2 ^ 32 + f.ctx % 2 ^ 12 * 2 ^ 32 + (if f.write then 2 ^ 44 else 0) +
        f.src * 2 ^ 45 + f.core * 2 ^ 47) ∧
      t.word (a + 16) = BitVec.ofNat 64 kind ∧ t.word (a + 24) = 0 ∧ (t.die d).fqtail = D.fqtail + 1 ∧ (t.die d).fqseq = D.fqseq + 1
    let room := D.present = true ∧ D.fqFull = false ∧ D.fqwait = []
    let first := ws.find? fun x => !(askers [x]).isEmpty
    (s.walkRuns w = false → exec (.pageWalk w.id) s = .next s) ∧
    (s.walkRuns w = true →
      (∀ k wr at', out.1 = .leaf k wr at' → (∀ x ∈ ws, (s.tlb.filter fun e => e.core == x.core).length + ws.length ≤ 2048) →
        exec (.pageWalk w.id) s = .next { s with
          walks := rest
          tlb := (ws.map fun x => ⟨x.core, x.ctx, x.va.toNat % 2 ^ 48 / 2 ^ out.2, out.2, k, wr, at'⟩).reverse ++ s.tlb }) ∧
      (out.1 = .absent → (∀ r ∈ s.records, ∀ x ∈ ws, ¬(r.core = x.core ∧ r.ctx = x.ctx ∧ r.vpage = x.vpage)) →
        (first = none → ∃ t : State, exec (.pageWalk w.id) s = .next t ∧ t = { s with walks := rest }) ∧
        (∀ f, first = some f →
          (room → ∃ t : State, exec (.pageWalk w.id) s = .next t ∧ record t f 0 ∧ t.walks = rest ∧ t.tlb = s.tlb ∧
            t.records = s.records ++ [⟨d, D.fqseq, f.core, f.ctx, f.vpage, askers ws⟩]) ∧
          (D.fqFull = true ∨ D.fqwait ≠ [] → exec (.pageWalk w.id) s = .next s))) ∧
      (∀ r, out.1 = .absent → ws = [w] → s.records = [r] → r.core = w.core → r.ctx = w.ctx → r.vpage = w.vpage → ∃ r' : FaultRec,
        exec (.pageWalk w.id) s = .next { s with walks := rest, records := [r'] } ∧ r' = { r with who := r'.who } ∧
        ∀ x, x ∈ r'.who ↔ x ∈ r.who ∨ (x ∈ w.who ∧ ∀ k va, x ≠ .prefetch k va)) ∧
      (∀ t h slot, out.1 = .malformed → room → ws = [w] → w.who = [.lanes t h slot] → ∃ q : State,
        exec (.pageWalk w.id) s = .next q ∧ record q w 1 ∧ q.walks = rest ∧ q.records = s.records ∧ q.tlb = s.tlb ∧
        q.verdicts = ⟨.lanes t h slot, w.ctx, w.vpage, false⟩ :: s.verdicts))) ∧
  -- no more than 32 walks run: a page is taken up when fewer than 32 others of the die were asked for before it
  (∀ (s : State) (w : Walk), w ∈ s.walks → (s.pagesAsked (dieOf w.core)).length ≤ 32 → s.walkRuns w = true) ∧
  (∀ (s : State) (d ctx t0 t1 t2 t3 : Nat) (va e0 e1 e2 e3 : Word) (k : Nat) (wr : Bool) (a : Attr),
    let at' := fun (hi lo : Nat) => va.toNat / 2 ^ lo % 2 ^ (hi + 1 - lo)
    pteOf (s.word ((s.die d).ctxt.toNat + 8 * ctx)) 0 true = .next t0 → s.word (t0 + 8 * at' 47 39) = e0 → pteOf e0 0 false = .next t1 →
    s.word (t1 + 8 * at' 38 30) = e1 →
    (pteOf e1 1 false = .leaf k wr a → s.walkTables d ctx va = (.leaf k wr a, 30)) ∧
    (pteOf e1 1 false = .next t2 → s.word (t2 + 8 * at' 29 21) = e2 →
      (pteOf e2 2 false = .leaf k wr a → s.walkTables d ctx va = (.leaf k wr a, 21)) ∧
      (pteOf e2 2 false = .next t3 → s.word (t3 + 8 * at' 20 16) = e3 → s.walkTables d ctx va = (pteOf e3 3 false, 16)))) ∧
  (∀ (w : Word) (level : Nat) (root : Bool), w.getLsbD 0 = false → pteOf w level root = .absent) ∧
  (∀ (level t : Nat) (root : Bool), (root = true ∨ level < 3) → t % (if root = false ∧ level = 2 then 256 else 4096) = 0 → t < 2 ^ 39 →
    pteOf (BitVec.ofNat 64 (1 + t)) level root = .next t) ∧
  (∀ (level pa attr : Nat) (wr : Bool), 1 ≤ level → level ≤ 3 → attr < 3 →
    pa % 2 ^ (if level = 1 then 30 else if level = 2 then 21 else 16) = 0 → pa < 2 ^ 39 →
    pteOf (BitVec.ofNat 64 (3 + (if wr then 4 else 0) + 8 * attr + pa)) level false =
      .leaf pa wr (if attr = 0 then .cached else if attr = 1 then .uncached else .pinSlice)) ∧
  (∀ (s : State) (die seq : Nat), (s.die die).present = true → seq < 2 ^ 32 →
    let found := s.records.find? fun r => r.die == die && r.seq % 2 ^ 32 == seq
    (s.ctlQueued die 0x028 = true → exec (.resolveResolved die seq) s = .next s ∧ exec (.resolveRefused die seq) s = .next s) ∧
    (s.ctlQueued die 0x028 = false →
      (found = none → exec (.resolveResolved die seq) s = .next s ∧ exec (.resolveRefused die seq) s = .next s) ∧
      ∀ (r : FaultRec) (T : Team) (slot : Nat), found = some r →
        s.teams = [T] → r.who = [.lanes T.id false slot] → (T.split.frag slot).valid = true → (T.split.frag slot).state = 3 →
        let awake := { T with split := T.split.setFrag slot { T.split.frag slot with state := 0 } }
        -- at trap level the fragment stays as the trap left it until the handler returns
        let q := State.setTeam { s with records := s.records.erase r } (if T.trapLevel then T else awake)
        exec (.resolveResolved die seq) s = .next q ∧
        exec (.resolveRefused die seq) s = .next { q with verdicts := ⟨.lanes T.id false slot, r.ctx, r.vpage, true⟩ :: s.verdicts }))

/-- R294, R301, R320, R340, R381: what writes of the control page do. An invalidation stays in progress until the TLBs of the
die have dropped what it names; a request reaches each ordinary team of its context; HLAUNCH posts a header; a route generation
waits for the ring queues and then switches every flow, and what stands at a failed hop goes the new way; a window changes once
no cohort holds pad on its core; a register reads as written, in its range; a write of an absent die's page does nothing, and
one behind an access that waits in the home queue of the register has yet to act. The bits that read as zero, the moment of a
route switch and when these rows act are the model's readings (log 15, 16, 21, 22). -/
def Obligations.ControlPage : Prop :=
  (∀ (s : State) (die off : Nat) (w : Word), s.ctlQueued die off = true → exec (.controlRegisterWrite die off w) s = .next s) ∧
  ∀ (s : State) (die : Nat), (s.die die).present = true → (∀ off, s.ctlQueued die off = false) →
    let D := s.die die
    (∀ ctx < 2 ^ 12, ∀ page < 2 ^ 32,
      exec (.invalPage die ctx page) s = .next (s.modDie die fun D => { D with invals := D.invals ++ [(some ctx, some page)] }) ∧
      exec (.invalContext die ctx) s = .next (s.modDie die fun D => { D with invals := D.invals ++ [(some ctx, none)] }) ∧
      exec (.invalAll die) s = .next (s.modDie die fun D => { D with invals := D.invals ++ [(none, none)] })) ∧
    (∃ t : State, exec (.invalComplete die) s = .next t ∧ (t.die die).invals = [] ∧ t.ctlRead die 0x030 = 0 ∧
      (∀ e, e ∈ t.tlb ↔ e ∈ s.tlb ∧ ¬(e.core / 32 = die ∧ ∃ i ∈ D.invals, (∀ c, i.1 = some c → e.ctx = c) ∧
        ∀ p, i.2 = some p → p * 2 ^ 16 / 2 ^ e.bits = e.vpage)) ∧
      (∀ p, p ∈ t.pins ↔ p ∈ s.pins ∧ ¬(homeDie (p.line * 128) = die ∧ ∃ i ∈ D.invals, (∀ c, i.1 = some c → p.ctx = c) ∧
        ∀ v, i.2 = some v → v * 2 ^ 16 / 2 ^ p.bits = p.vpage)) ∧ t.mem = s.mem ∧ t.staged = s.staged ∧ t.teams = s.teams ∧ t.records = s.records) ∧
    (D.invals ≠ [] → s.ctlRead die 0x030 = 1) ∧
    (∀ ctx < 2 ^ 12,
      exec (.preemptRequest die ctx) s = .next { s with teams := s.teams.map fun T =>
        if T.isOrdinary ∧ T.core / 32 = die ∧ T.ctx = ctx then
          { T with preq := if T.preq = some .remove then some .remove else some .preempt } else T } ∧
      exec (.preemptRemove die ctx) s = .next { s with teams := s.teams.map fun T =>
        if T.isOrdinary ∧ T.core / 32 = die ∧ T.ctx = ctx then { T with preq := some .remove } else T }) ∧
    (∀ (A ctx : Nat), A < 2 ^ 47 → A % 128 = 0 → ctx < 2 ^ 12 → ∃ t : State,
      exec (.hlaunch die (BitVec.ofNat 64 (A / 128 * 2 ^ 12 + ctx))) s = .next t ∧
      (∃ p : Post, t.posts = s.posts ++ [p] ∧ p.die = die ∧ p.ctx = ctx ∧ p.unread = some A ∧ p.token = none) ∧
      t = { s with posts := t.posts, dies := t.dies }) ∧
    (∀ w : Word, exec (.rtgen die w) s = .next (s.modDie die fun D => { D with
      rtgenNext := some (w.setWidth 32), routeTaken := D.routeNext, prouteTaken := D.prouteNext })) ∧
    (D.rtgenNext = none → exec (.routeSwitch die) s = .next s) ∧
    (∀ g, D.rtgenNext = some g →
      let busy := ∃ m ∈ s.msgs, ∃ d asc, m.place = .ring d asc ∧ (d = die ∧ s.hopFailed die asc = false ∨ d ≠ die ∧ s.msgFrom m = die)
      (busy → exec (.routeSwitch die) s = .next s) ∧
      (¬ busy → ∃ t : State, exec (.routeSwitch die) s = .next t ∧
        t.die die = { D with route := D.routeTaken, proute := D.prouteTaken, rtgen := g, rtgenNext := none } ∧
        (t.msgs = s.msgs.map fun m => { m with place := match m.place with
          | .ring d asc => .ring d (if d = die then !D.routeTaken.getLsbD m.dest else asc)
          | p => p }) ∧ t.mem = s.mem ∧ t.staged = s.staged ∧ t.teams = s.teams)) ∧
    (∀ c < 32, ∀ w : Word,
      exec (.pinwin (32 * die + c) w) s = .next (s.modDie die fun D => { D with
        pinwinNext := SMap.wr none D.pinwinNext c (some (min 32 w.toNat)) }) ∧
      (∀ n, SMap.rd none D.pinwinNext c = some n → ∃ t : State, exec (.pinwinApply (32 * die + c)) s = .next t ∧
        ((∃ a ∈ s.allocs (32 * die + c), a.2 ≠ 0) → t = s) ∧
        ((∀ a ∈ s.allocs (32 * die + c), a.2 = 0) → (∀ k, SMap.rd 0 (t.die die).pinwin k = if k = c then n else SMap.rd 0 D.pinwin k) ∧
          SMap.rd none (t.die die).pinwinNext c = none ∧ t = { s with dies := t.dies }))) ∧
    (∀ w : Word,
      let reads := fun (off : Nat) (v : Word) => ∃ t : State,
        exec (.controlRegisterWrite die off w) s = .next t ∧ t.ctlRead die off = v ∧ t.mem = s.mem ∧ t.teams = s.teams
      reads 0x000 (w &&& 0xFFFFFFFFFFFFF000) ∧ reads 0x008 (w &&& 0xFFFFFFFFFFFFF000) ∧
      reads 0x010 (BitVec.ofNat 64 (max 4 (min 12 w.toNat))) ∧ reads 0x018 D.fqtail ∧ reads 0x020 w ∧
      (∀ d < 4, reads (0x040 + 8 * d) (w &&& 1) ∧ reads (0x060 + 8 * d) (w &&& 1)) ∧
      reads 0x080 ((D.linkstat &&& ~~~(w.setWidth 4)).setWidth 64) ∧ reads 0x088 (D.rtgen.setWidth 64) ∧
      (die = 0 → reads 0x0A8 (BitVec.ofNat 64 (max 300 (min 1800 w.toNat)))) ∧
      reads 0x0B0 (if w = 0 then 0 else D.eccUncorrected ++ D.eccCorrected) ∧
      reads 0x0B8 ((w &&& 0x000FFFFFFFFFF000) ||| BitVec.ofNat 64 (max 4 (min 12 (w.toNat % 16)))) ∧
      (∀ n < 4, reads (0x0C0 + 8 * n) (w &&& 0x000FFF8000000001)) ∧
      (∀ i < 32, reads (0x200 + 8 * i) (if D.stage < 3 then w &&& 0x1FFFFFFF80 else SMap.rd 0 D.shm i)) ∧
      (∀ off, 0x300 ≤ off ∨ off % 8 ≠ 0 → exec (.controlRegisterWrite die off w) s = .next s) ∧
      (∀ d off, (s.die d).present = false → exec (.controlRegisterWrite d off w) s = .next s))

/-- R260, R320, R333, R379, R382 to R387: an access from outside enters the home queue of its address, a host's also that of a
control page, or stops at an address that does not exist; a reset returns a die to its reset values, with no team and no stored
byte; a link that fails is recorded at both ends; the thermal trip ends all issue; errors are counted, poison bytes or halt a
team once it may be halted; a device event is recorded with its core and its context; a measurement request is answered; a power
limit changes no result. That the record of an error or a link has CTX 0 and names the first core of its die, and how an error
in a core copy or an instruction store poisons, are the model's readings (log 17, 84). The stop at an absent address, zero in
memory after a reset, the measurement's contents, the record at both ends, the eight bytes of an error and the hold of a thermal
trip are the model's choices (log 1, 12, 13, 23 to 26). -/
def Obligations.OutsideWorld : Prop :=
  ∀ (s : State) (die : Nat), die < 4 → (s.die die).present = true →
    let D := s.die die
    (∀ (addr : Nat) (acc : ExtAccess),
      let home := addr / 2 ^ 37 % 4
      let entered : Nat → Nat → Bool → Out := fun d key peer => .next { s with
        evId := s.evId + 1
        msgs := s.msgs ++ [⟨s.evId, 2 ^ 16, d, .home, .external key acc peer, key,
          (match acc with | .write n _ => n | _ => 8)⟩] }
      (s.hostDie = none → exec (.hostMemoryAccess addr acc) s = .next s) ∧
      (addr < 2 ^ 39 → (s.die home).present = true →
        (s.hostDie ≠ none → exec (.hostMemoryAccess addr acc) s = entered home addr false) ∧
        exec (.peerAccess addr acc) s = entered home addr true) ∧
      -- BAR 2: the control pages of the four dies
      (∀ d off, d < 4 → off < 2 ^ 16 → addr = 2 ^ 39 + d * 2 ^ 16 + off → (s.die d).present = true → s.hostDie ≠ none →
        exec (.hostMemoryAccess addr acc) s = entered d (2 ^ 56 + d * 2 ^ 16 + off) false) ∧
      (addr < 2 ^ 39 → (s.die home).present = false →
        (s.hostDie ≠ none → exec (.hostMemoryAccess addr acc) s = .fault .absentAddress) ∧
        exec (.peerAccess addr acc) s = .fault .absentAddress) ∧
      (2 ^ 39 + 2 ^ 18 ≤ addr → s.hostDie ≠ none → exec (.hostMemoryAccess addr acc) s = .fault .absentAddress) ∧
      (2 ^ 39 ≤ addr → exec (.peerAccess addr acc) s = .fault .absentAddress)) ∧
    (∀ romOk dramOk linkOk : Bool, ∃ t : State, exec (.reset die romOk dramOk linkOk) s = .next t ∧
      t.die die = { Die.reset die with
        stage := if romOk = false then 0 else if dramOk = false then 1 else 2
        present := romOk && dramOk, linkUp := romOk && linkOk } ∧
      (∀ d, d ≠ die → t.die d = s.die d) ∧
      (∀ T ∈ t.teams, T ∈ s.teams ∧ ¬(T.core < 128 ∧ T.core / 32 = die)) ∧
      (∀ x ∈ t.slots, ¬(x.core < 128 ∧ x.core / 32 = die)) ∧ (∀ e ∈ t.tlb, ¬(e.core < 128 ∧ e.core / 32 = die)) ∧
      (∀ l ∈ t.lines, ¬(l.core < 128 ∧ l.core / 32 = die)) ∧ (∀ L ∈ t.launches, L.die ≠ die) ∧ (∀ p ∈ t.posts, p.die ≠ die) ∧
      (∀ a < 2 ^ 39, (a / 2 ^ 37 = die → t.byte a = 0) ∧
        (a / 2 ^ 37 ≠ die → t.byte a = SMap.rd 0 s.mem a) ∧ (a / 2 ^ 37 = die → a ∉ t.poison))) ∧
    (∀ t : State, s.insts = [] →
      (exec (.linkFailure die .up) s = .next t → (s.die ((die + 1) % 4)).present = true →
        (t.die die).linkstat = D.linkstat ||| 1 ∧ (t.die ((die + 1) % 4)).linkstat = (s.die ((die + 1) % 4)).linkstat ||| 2 ∧
        (t.die die).fqseq = D.fqseq + 1 ∧ (t.die ((die + 1) % 4)).fqseq = (s.die ((die + 1) % 4)).fqseq + 1 ∧
        t.hopFailed die true = true ∧ t.hopFailed ((die + 1) % 4) false = true ∧ t.msgs = s.msgs) ∧
      (exec (.linkFailure die .down) s = .next t → (s.die ((die + 3) % 4)).present = true →
        (t.die die).linkstat = D.linkstat ||| 2 ∧ (t.die ((die + 3) % 4)).linkstat = (s.die ((die + 3) % 4)).linkstat ||| 1 ∧
        t.hopFailed die false = true ∧ t.hopFailed ((die + 3) % 4) true = true ∧ t.msgs = s.msgs) ∧
      (∀ p < 2, exec (.linkFailure die (.peer p)) s = .next t →
        (t.die die).linkstat = D.linkstat ||| BitVec.ofNat 4 (4 * 2 ^ p) ∧ t.msgs = s.msgs)) ∧
    (s.insts = [] → ∀ link, ∃ t, exec (.linkFailure die link) s = .next t) ∧
    (∃ t : State, exec (.thermalTrip die) s = .next t ∧ t = { s with dies := t.dies } ∧
      ∀ (q : State) (T : Team) (slot : Nat), q = { t with teams := q.teams, cycle := q.cycle } →
        q.moveScalar T = .next q ∧ q.moveLane T slot = .next q) ∧
    (∃ t : State, exec (.eccCorrected die) s = .next t ∧ t = { s with dies := t.dies } ∧
      (t.die die).eccCorrected = D.eccCorrected + 1 ∧ (t.die die).eccUncorrected = D.eccUncorrected) ∧
    (∀ pa < 2 ^ 39, pa / 2 ^ 37 = die → ∃ t : State, exec (.eccUncorrectable die (.memory pa)) s = .next t ∧
      (∀ a, a ∈ t.poison ↔ a ∈ s.poison ∨ a / 8 = pa / 8) ∧ (t.die die).eccUncorrected = D.eccUncorrected + 1 ∧
      (t.die die).fqseq = D.fqseq + 1 ∧ t.teams = s.teams ∧ t.mem = s.mem ∧
      -- the record: KIND 3, EVENT 5, with the physical address in WID
      (D.fqFull = false → D.fqwait = [] →
        let a := D.fqbase.toNat + 32 * (D.fqtail.toNat % 2 ^ D.fqsize)
        t.word a = BitVec.ofNat 64 pa ∧ t.word (a + 8) = BitVec.ofNat 64 (D.fqseq % 2 ^ 32 + 32 * die * 2 ^ 47) ∧
        t.word (a + 16) = BitVec.ofNat 64 (3 + 5 * 4) ∧ t.word (a + 24) = 0 ∧ (t.die die).fqtail = D.fqtail + 1)) ∧
    (∀ T : Team, s.team? T.id = some T → T.core / 32 = die →
      let counted := s.modDie die fun D => { D with eccUncorrected := D.eccUncorrected + 1 }
      let q := counted.abandon T
      exec (.eccUncorrectable die (.team T.id)) s = .next (
        if q.mayHalt T then q.haltTeam T 0xFC 0 false T.spc else counted.setTeam { T with dying := true })) ∧
    -- in a core copy and in an instruction store, the eight bytes are marked where they are held
    (∀ (core key : Nat) (l : Line), s.line? core (key / 128) = some l → core / 32 = die → key < 2 ^ 39 → l.core = core →
      l.line = key / 128 → (∀ x ∈ s.lines, x.core = core → x.line = key / 128 → x = l) →
      l.valid.extractLsb' (key % 128 / 8 * 8) 8 ≠ 0 → ∃ (t : State) (l' : Line),
      exec (.eccUncorrectable die (.copy core key)) s = .next t ∧ t.line? core (key / 128) = some l' ∧
      (∀ i < 16, l'.bad.getLsbD i = true ↔ l.bad.getLsbD i = true ∨ i = key % 128 / 8) ∧ l' = { l with bad := l'.bad } ∧
      (t.die die).eccUncorrected = D.eccUncorrected + 1 ∧ (t.die die).fqseq = D.fqseq + 1 ∧ t.poison = s.poison ∧
      t.teams = s.teams) ∧
    (∀ (core slot off : Nat) (x : CodeSlot), s.slots = [x] → x.core = core → x.slot = slot → x.landed = true → core / 32 = die →
      off < 4096 → ∃ (t : State) (y : CodeSlot),
      exec (.eccUncorrectable die (.code core slot off)) s = .next t ∧ t.slots = [y] ∧ y = { x with bad := y.bad } ∧
      (∀ b, b ∈ y.bad ↔ b ∈ x.bad ∨ b = off / 8 * 8) ∧
      (t.die die).eccUncorrected = D.eccUncorrected + 1 ∧ (t.die die).fqseq = D.fqseq + 1 ∧ t.teams = s.teams) ∧
    (∀ (core ctx event : Nat) (wid : Word), D.fqFull = false → D.fqwait = [] →
      let a := D.fqbase.toNat + 32 * (D.fqtail.toNat % 2 ^ D.fqsize)
      let t := s.deviceEvent die core ctx event wid
      t.word a = wid ∧ t.word (a + 8) = BitVec.ofNat 64 (D.fqseq % 2 ^ 32 + ctx % 2 ^ 12 * 2 ^ 32 + core * 2 ^ 47) ∧
      t.word (a + 16) = BitVec.ofNat 64 (3 + event * 4) ∧ t.word (a + 24) = 0 ∧ (t.die die).fqtail = D.fqtail + 1) ∧
    -- the events that this file's steps report: a lost signal, a dropped message, a refused host launch, a link, an error
    (∀ (core ctx token : Nat), token / 4096 % 4 = die → SMap.rd 0 D.tokens (token % 4096) = 0xFFFF →
      s.signal core ctx token = s.deviceEvent die core ctx 1 (BitVec.ofNat 64 token)) ∧
    (∀ bit, s.failEnd die bit = (s.modDie die fun D => { D with
      linkstat := D.linkstat ||| (1 <<< bit), failed := D.failed ||| (1 <<< bit) }).deviceEvent die (32 * die) 0 3 (BitVec.ofNat 64 bit)) ∧
    (∀ (core ctx page va : Nat) (p : Post), s.posts = [p] → p.die = die → p.ctx = ctx → p.unread = some va → va / 2 ^ 16 = page →
      va < 2 ^ 48 →
      s.refuse core ctx page (.dispatcher die) = State.deviceEvent { s with posts := [] } die core ctx 4 (BitVec.ofNat 64 va)) ∧
    (∀ nonce : Word, exec (.spdmMeasurementRequest die nonce) s = .next { s with
      spdm := s.spdm ++ [⟨die, nonce, Config.measured die, Config.spdmSign die (Config.measured die) nonce⟩] }) ∧
    (∀ skip : Bool, exec (.powerLimitCrossing skip) s = .next { s with skipping := skip })

/-- R35, R36, R51, R78, R141, R151, R353: the stream that moves fetches the bytes at its counter from the landed page of its
image, and the step is `exec` of the instruction they decode to, with the bytes that it stores committed to memory; bytes that
decode to none raise cause 0x01, a page that is not there 0x04, a counter outside the image 0x03. A waiting fragment goes on
with its wait, and a ready one of a block moves only when it is its turn. While a critical team of the partition has something
to issue, no other moves; where both streams would trap, the scalar stream's trap is taken. That a word is fetched when it
issues, which fragment issues, and that the choice of the agent is the model's agenda, are the model's choices (log 6, 28, 71,
81). -/
def Obligations.StepRunsTheWord : Prop :=
  ∀ (s : State) (dt : Nat) (T : Team),
    -- the state in which the move is made: its cycles have passed, and the teams that waited have aged
    let s0 := s.begin dt
    s0 = { s with agenda := s.agenda.tail, cycle := s.cycle + dt, cur := none, staged := [], teams := s0.teams } ∧
    (dt = 0 → s0.teams = s.teams) ∧
    let ends := fun (t : State) => ({ t with
      mem := commitCells s.mem t.staged, staged := [], cur := none, tick := t.tick + 1
      teams := t.teams.map fun X => if X.id == T.id then
        (if X = { T with swaited := X.swaited } then X else { X with issued := t.cycle, gain := 0, waited := 0 }) else X } : State)
    let runs := fun (o : Out) => match o with
      | .next t => step s = .next (ends t)
      | .fault r => step s = .fault r
      | .refused r => step s = .refused r
    -- the move of a lane stream, which leaves the word to the scalar stream's trap
    let runsLane := fun (o : Out) =>
      let p := s0.issueScalarWord T
      ((s0.traps T o = false ∨ s0.traps T p = false) → runs o) ∧ (s0.traps T o = true → s0.traps T p = true → runs p)
    s0.team? T.id = some T →
    (s0.critHolds T = true → ((∃ slot, s.choice = ⟨dt, .lane T.id slot⟩) ∨ s.choice = ⟨dt, .scalar T.id⟩) → runs (.next s0)) ∧
    (s0.critHolds T = false → s0.stopped T = false →
      (s.choice = ⟨dt, .scalar T.id⟩ → T.isOrdinary = true ∨ T.trapLevel = true →
        let at' := T.spc.toNat
        (0 ≤ T.spc → T.spc ≤ 0xFFFFFFFC →
          (∀ x i, s0.landedSlot T (at' / 4096) = some x → decodeBytes ((x.bytes.drop (at' % 4096)).take 4) = .ok i →
            runs (exec i { s0 with cur := some ⟨T.id, none⟩ })) ∧
          (∀ x e, s0.landedSlot T (at' / 4096) = some x → decodeBytes ((x.bytes.drop (at' % 4096)).take 4) = .error e →
            runs (s0.scalarTrap T 0x01)) ∧
          (s0.landedSlot T (at' / 4096) = none → s0.pagePending T (at' / 4096) = false → runs (s0.scalarTrap T 0x04)) ∧
          (s0.landedSlot T (at' / 4096) = none → s0.pagePending T (at' / 4096) = true → runs (.next s0))) ∧
        (T.spc < 0 ∨ 0xFFFFFFFC < T.spc → runs (s0.scalarTrap T 0x03))) ∧
      (∀ slot, s.choice = ⟨dt, .lane T.id slot⟩ →
        let f := T.frag slot
        let n := f.pc.toNat
        let page := T.hdr.laneBase / 4096 + n / 341
        let enters := f.seq = true ∧ n % 341 = 0 ∧ 0 < n
        (T.mayMove slot = false → runsLane (.next s0)) ∧
        (T.mayMove slot = true → f.state = 0 →
          (s0.mayIssue T slot = false → runsLane (.next s0)) ∧
          (s0.mayIssue T slot = true →
            (0 ≤ f.pc → n < 2 ^ 24 → (enters → s0.blockEnd T (n / 341 - 1) = false) →
              (∀ x i, s0.landedSlot T page = some x → decodeBytes ((x.bytes.drop (12 * (n % 341))).take 12) = .ok i →
                runsLane (exec i { s0 with cur := some ⟨T.id, some slot⟩ })) ∧
              (∀ x e, s0.landedSlot T page = some x → decodeBytes ((x.bytes.drop (12 * (n % 341))).take 12) = .error e →
                runsLane (s0.laneTrap T slot 0x01)) ∧
              (s0.landedSlot T page = none → s0.pagePending T page = false → runsLane (s0.laneTrap T slot 0x04)) ∧
              (s0.landedSlot T page = none → s0.pagePending T page = true → runsLane (.next s0))) ∧
            (f.pc < 0 ∨ 2 ^ 24 ≤ n ∨ (enters ∧ s0.blockEnd T (n / 341 - 1) = true) → runsLane (s0.laneTrap T slot 0x03)))) ∧
        (T.mayMove slot = true → f.state = 2 → ∀ w, f.wait = some w →
          runsLane (exec w.instr { s0 with cur := some ⟨T.id, some slot⟩ }))))

/-- Words that the spec writes out (its tables of words, chapters 2, 4, 6, 8, 9, 10, 13 to 16) decode to the instructions they
stand for, and a function header word, and a word with a bit set that its row leaves zero, decode to none. -/
def Obligations.SpecWordsDecode : Prop :=
  decodeTableWord 32 0x26100004 = some (.mfxScalar 4 0x004) ∧
  decodeTableWord 32 0x401837FF = some (.saddImm 6 6 (-1)) ∧
  decodeTableWord 32 0x304FFFFB = some (.sbr 1 .t (-5)) ∧
  decodeTableWord 32 0x58242010 = some (.sld 9 4 0x010) ∧
  decodeTableWord 32 0x02000004 = some .eret ∧
  decodeTableWord 32 0x02000014 = none ∧
  decodeTableWord 96 0x000020040200000200000000 = some (.iadd ⟨Guard.none, .i64, 2, ⟨2, false, false⟩, ⟨0, true, false⟩⟩ false) ∧
  decodeTableWord 96 0x208000120905000000000000 =
    some (.fmul ⟨Guard.none, .iv32, 9, ⟨9, false, false⟩, ⟨10, false, false⟩⟩ .rne) ∧
  decodeTableWord 96 0x620000004000060000A0000C = some (.bq 2 3 5 6) ∧
  decodeTableWord 96 0x81C00400060200008002C000 = some
    (.atom Guard.none .pt32 0 ⟨⟨6, false, false⟩, 0x100⟩ ⟨4, false, false⟩ .add false true .device .relaxed) ∧
  decodeTableWord 96 0xC48000080100000080000000 = some (.draw 1 4 true 0 false) ∧
  decodeTableWord 96 0xC0448010140A800000000001 = some
    (.mma ⟨1, .t⟩ 8 ⟨20, false, false⟩ ⟨21, false, false⟩ 0 false 1) ∧
  decodeTableWord 96 0xFC4000000300000000038000 = some (.mtxLane Guard.none ⟨3, false, false⟩ 0x007) ∧
  decodeTableWord 96 0xFC4000000300000000038001 = none ∧
  decodeTableWord 96 0x7FC000200000000000000000 = none

/-- R36, R43 to R46, R52: the bytes of every well-formed instruction that has a word decode to that instruction, with every
operand at every value that the encoding admits. -/
def Obligations.DecodeEncode : Prop :=
  ∀ i : Instr, Laws.RoundTrip.Statement i

/-- A step from any state in which memory is in canonical form, no stored byte waits and no stream is current leaves such a
state. The form of memory and the staging of stores are the model's own (log 6). -/
def Obligations.StepKeepsInv : Prop :=
  ∀ s s' : State, Inv s → step s = .next s' → Inv s'

/-- Progress: no step is refused, and none stops but one whose agent is an access from outside, or a wait that holds one, to an
address that does not exist. The stop at an absent address is the model's choice (log 13). -/
def Obligations.StepsDoNotStop : Prop :=
  ∀ s : State, (∃ s', step s = .next s') ∨ step s = .fault .absentAddress ∧
    ∃ i : Instr, (∃ addr acc, i = .hostMemoryAccess addr acc ∨ i = .peerAccess addr acc) ∧
      (s.choice.act = .event i ∨ ∃ t slot T w, s.choice.act = .lane t slot ∧ s.team? t = some T ∧ (T.frag slot).wait = some w ∧ w.instr = i)

/-- R301, R302, R320, R340, R381, R383: right after reset the invariant holds, no team, launch or access is there, memory lists
nothing, and the control page of every die reads at the reset values of its registers; the routes take the shorter direction,
ascending at distance 2. That memory and queues are empty and that every die is present is the model's choice (log 1 to 3). -/
def Obligations.ResetState : Prop :=
  let s := State.reset
  Inv s ∧ s.mem = [] ∧ s.teams = [] ∧ s.launches = [] ∧ s.cohorts = [] ∧ s.evs = [] ∧ s.msgs = [] ∧ s.slots = [] ∧ s.tlb = [] ∧
  ∀ d < 4, (s.die d).present = true ∧
    (∀ off ∈ [0x000, 0x008, 0x018, 0x020, 0x030, 0x060, 0x068, 0x070, 0x078, 0x080, 0x088, 0x090, 0x0B0, 0x0B8, 0x0C0, 0x0C8, 0x0D0, 0x0D8],
      s.ctlRead d off = 0) ∧
    s.ctlRead d 0x010 = 4 ∧ s.ctlRead 0 0x0A8 = 1800 ∧
    (∀ c < 32, s.ctlRead d (0x100 + 8 * c) = 0) ∧
    (∀ p < 8, s.ctlRead d (0x200 + 32 * p) = 0x0000000888888880 ∧ s.ctlRead d (0x208 + 32 * p) = 0x0000001111111100 ∧
      s.ctlRead d (0x210 + 32 * p) = 0x0000000222222200 ∧ s.ctlRead d (0x218 + 32 * p) = 0x0000000444444400) ∧
    ∀ t < 4, s.ctlRead d (0x040 + 8 * t) = if t = (d + 3) % 4 then 1 else 0
end

