-- ==== Sys2Proof/Laws/Maps.lean ====
section
/-!
SUPPORT. Laws of the canonical maps and of memory: a read gives what was written last, every other key keeps its value,
and every write keeps the canonical form.
-/
namespace Sys2Proof.Machine

theorem SMap.rd_ins {α : Type} (d : α) (m : SMap α) (k j : Nat) (v : α) :
    SMap.rd d (SMap.ins m k v) j = if j = k then v else SMap.rd d m j := by
  induction m with
  | nil => simp [SMap.ins, SMap.rd, @eq_comm _ j k]
  | cons e t ih =>
    obtain ⟨k', v'⟩ := e
    unfold SMap.ins
    split
    · simp [SMap.rd, @eq_comm _ j k]
    · split
      · next h => subst h; by_cases h : k = j <;> simp [SMap.rd, h, Ne.symm]
      · next h1 h2 =>
        by_cases h3 : k' = j
        · subst h3; simp [SMap.rd, Ne.symm h2]
        · simp [SMap.rd, ih, h3]

theorem SMap.rd_filter {α : Type} (d : α) (m : SMap α) (k j : Nat) :
    SMap.rd d (m.filter fun e => e.1 != k) j = if j = k then d else SMap.rd d m j := by
  induction m with
  | nil => simp [SMap.rd]
  | cons e t ih =>
    obtain ⟨k', v'⟩ := e
    by_cases h : k' = k
    · subst h
      rw [List.filter_cons_of_neg (by simp), ih, SMap.rd]
      simp only [@eq_comm _ k' j]
      by_cases h3 : j = k' <;> simp [h3]
    · rw [List.filter_cons_of_pos (by simpa using h), SMap.rd, SMap.rd, ih]
      by_cases h3 : k' = j
      · subst h3; simp [h]
      · simp [h3]

/-- A read after a write: the written key reads as the written value, every other key as before. -/
theorem SMap.rd_wr {α : Type} [DecidableEq α] (d : α) (m : SMap α) (k j : Nat) (v : α) :
    SMap.rd d (SMap.wr d m k v) j = if j = k then v else SMap.rd d m j := by
  unfold SMap.wr
  split
  · next h => subst h; exact SMap.rd_filter v m k j
  · exact SMap.rd_ins d m k j v

theorem SMap.rd_wr_same {α : Type} [DecidableEq α] (d : α) (m : SMap α) (k : Nat) (v : α) :
    SMap.rd d (SMap.wr d m k v) k = v := by simp [SMap.rd_wr]

theorem SMap.rd_wr_other {α : Type} [DecidableEq α] (d : α) (m : SMap α) {k j : Nat} (v : α) (h : j ≠ k) :
    SMap.rd d (SMap.wr d m k v) j = SMap.rd d m j := by simp [SMap.rd_wr, h]

/-! ### The canonical form -/

theorem SMap.wfFrom_weaken {α : Type} [DecidableEq α] (d : α) (m : SMap α) (lo lo' : Nat) (h : lo' ≤ lo)
    (hm : SMap.wfFrom d (some lo) m = true) : SMap.wfFrom d (some lo') m = true := by
  cases m with
  | nil => rfl
  | cons e t =>
    simp only [SMap.wfFrom, Bool.and_eq_true, decide_eq_true_eq] at hm ⊢
    exact ⟨⟨by omega, hm.1.2⟩, hm.2⟩

theorem SMap.wfFrom_none {α : Type} [DecidableEq α] (d : α) (m : SMap α) (lo : Nat)
    (hm : SMap.wfFrom d (some lo) m = true) : SMap.wfFrom d none m = true := by
  cases m with
  | nil => rfl
  | cons e t =>
    simp only [SMap.wfFrom, Bool.and_eq_true, decide_eq_true_eq] at hm ⊢
    exact ⟨⟨trivial, hm.1.2⟩, hm.2⟩

theorem SMap.wfFrom_filter {α : Type} [DecidableEq α] (d : α) (p : Nat × α → Bool) (m : SMap α) (lo : Option Nat)
    (hm : SMap.wfFrom d lo m = true) : SMap.wfFrom d lo (m.filter p) = true := by
  induction m generalizing lo with
  | nil => rfl
  | cons e t ih =>
    simp only [SMap.wfFrom, Bool.and_eq_true] at hm
    by_cases h : p e
    · simp only [List.filter, h, SMap.wfFrom, Bool.and_eq_true]
      exact ⟨hm.1, ih _ hm.2⟩
    · simp only [List.filter, h]
      apply ih
      cases lo with
      | none => exact SMap.wfFrom_none d t _ hm.2
      | some l => exact SMap.wfFrom_weaken d t _ _ (by simpa using Nat.le_of_lt (of_decide_eq_true hm.1.1)) hm.2

theorem SMap.wfFrom_ins {α : Type} [DecidableEq α] (d : α) (m : SMap α) (lo : Option Nat) (k : Nat) (v : α)
    (hv : v ≠ d) (hk : ∀ l, lo = some l → l < k) (hm : SMap.wfFrom d lo m = true) :
    SMap.wfFrom d lo (SMap.ins m k v) = true := by
  induction m generalizing lo with
  | nil =>
    cases lo with
    | none => simp [SMap.ins, SMap.wfFrom, hv]
    | some l => simp [SMap.ins, SMap.wfFrom, hv, hk l rfl]
  | cons e t ih =>
    obtain ⟨k', v'⟩ := e
    simp only [SMap.wfFrom, Bool.and_eq_true, decide_eq_true_eq] at hm
    unfold SMap.ins
    split
    · next h => cases lo <;> simp [SMap.wfFrom, hv, h, hm.1.2, hm.2, hk]
    · split
      · next h => subst h; cases lo <;> simp [SMap.wfFrom, hv, hm.2, hk]
      · next h1 h2 =>
        simp only [SMap.wfFrom, Bool.and_eq_true, decide_eq_true_eq]
        exact ⟨⟨hm.1.1, hm.1.2⟩, ih (some k') (fun l hl => by cases hl; omega) hm.2⟩

/-- A write keeps the canonical form. -/
theorem SMap.wf_wr {α : Type} [DecidableEq α] (d : α) (m : SMap α) (k : Nat) (v : α) (hm : SMap.wf d m = true) :
    SMap.wf d (SMap.wr d m k v) = true := by
  unfold SMap.wr
  split
  · exact SMap.wfFrom_filter d _ m none hm
  · next h => exact SMap.wfFrom_ins d m none k v h (fun _ hl => by cases hl) hm

/-- Committing stored bytes keeps memory canonical. -/
theorem commitCells_wf (m : Memory) (cs : List Host.Cell) (hm : Memory.wf m = true) : Memory.wf (commitCells m cs) = true := by
  induction cs with
  | nil => exact hm
  | cons c t ih => exact SMap.wf_wr _ _ _ _ ih

/-- Committed memory reads as the bytes stored last, and elsewhere as before. -/
theorem rd_commitCells (m : Memory) (cs : List Host.Cell) (k : Nat) :
    SMap.rd Memory.unlisted (commitCells m cs) k =
      match cs.find? fun c => c.1 == k with | some c => c.2 | none => SMap.rd Memory.unlisted m k := by
  induction cs with
  | nil => rfl
  | cons c t ih =>
    obtain ⟨a, b⟩ := c
    rw [commitCells, SMap.rd_wr, List.find?_cons]
    by_cases h : a = k
    · simp [h]
    · simp [beq_eq_false_iff_ne.mpr h, Ne.symm h, ih]

/-! ### Bytes -/

@[simp] theorem State.byte_setByte_same (s : State) (k : Nat) (b : Byte) : (s.setByte k b).byte k = b := by
  simp [State.byte, State.setByte]

theorem State.byte_setByte_other (s : State) {k j : Nat} (b : Byte) (h : j ≠ k) : (s.setByte k b).byte j = s.byte j := by
  simp [State.byte, State.setByte, Ne.symm h]

/-- Bytes outside a stored run read as before. -/
theorem State.byte_setBytes_other (s : State) (k j : Nat) (bs : List Byte) (h : j < k ∨ k + bs.length ≤ j) :
    (s.setBytes k bs).byte j = s.byte j := by
  induction bs generalizing s k with
  | nil => rfl
  | cons b t ih =>
    simp only [List.length_cons] at h
    rw [State.setBytes, ih _ _ (by omega), State.byte_setByte_other _ _ (by omega)]

/-- A byte of a stored run reads as stored. -/
theorem State.byte_setBytes (s : State) (k i : Nat) (bs : List Byte) (h : i < bs.length) :
    (s.setBytes k bs).byte (k + i) = bs[i] := by
  induction bs generalizing s k i with
  | nil => simp at h
  | cons b t ih =>
    cases i with
    | zero => rw [State.setBytes, State.byte_setBytes_other _ _ _ _ (by omega)]; simp
    | succ n =>
      have := ih (s.setByte k b) (k + 1) n (by simpa using h)
      rw [State.setBytes, show k + (n + 1) = k + 1 + n by omega, this]
      rfl

/-- A stored run reads back. -/
theorem State.bytes_setBytes (s : State) (k : Nat) (bs : List Byte) : (s.setBytes k bs).bytes k bs.length = bs := by
  have gen : ∀ (n i : Nat), n + i = bs.length → (s.setBytes k bs).bytes (k + i) n = bs.drop i := by
    intro n
    induction n with
    | zero => intro i hi; simp [State.bytes, ← hi]
    | succ n ih =>
      intro i hi
      have h : i < bs.length := by omega
      rw [State.bytes, State.byte_setBytes s k i bs h, show k + i + 1 = k + (i + 1) by omega, ih (i + 1) (by omega),
        ← List.drop_eq_getElem_cons h]
  simpa using gen bs.length 0 (by omega)

end Sys2Proof.Machine
end

