-- ==== Sys2Proof/Laws/State.lean ====
section
/-!
SUPPORT. One lemma per field per update: what an update of the state or of a team leaves as it is.
-/
namespace Sys2Proof.Machine

/-! ### State.setTeam -/

@[simp] theorem State.setTeam_agenda (s : State) (T : Team) : (s.setTeam T).agenda = s.agenda := rfl
@[simp] theorem State.setTeam_cur (s : State) (T : Team) : (s.setTeam T).cur = s.cur := rfl
@[simp] theorem State.setTeam_tick (s : State) (T : Team) : (s.setTeam T).tick = s.tick := rfl
@[simp] theorem State.setTeam_cycle (s : State) (T : Team) : (s.setTeam T).cycle = s.cycle := rfl
@[simp] theorem State.setTeam_evId (s : State) (T : Team) : (s.setTeam T).evId = s.evId := rfl
@[simp] theorem State.setTeam_placedNo (s : State) (T : Team) : (s.setTeam T).placedNo = s.placedNo := rfl
@[simp] theorem State.setTeam_mem (s : State) (T : Team) : (s.setTeam T).mem = s.mem := rfl
@[simp] theorem State.setTeam_staged (s : State) (T : Team) : (s.setTeam T).staged = s.staged := rfl
@[simp] theorem State.setTeam_poison (s : State) (T : Team) : (s.setTeam T).poison = s.poison := rfl
@[simp] theorem State.setTeam_tags (s : State) (T : Team) : (s.setTeam T).tags = s.tags := rfl
@[simp] theorem State.setTeam_padCtx (s : State) (T : Team) : (s.setTeam T).padCtx = s.padCtx := rfl
@[simp] theorem State.setTeam_padOld (s : State) (T : Team) : (s.setTeam T).padOld = s.padOld := rfl
@[simp] theorem State.setTeam_lines (s : State) (T : Team) : (s.setTeam T).lines = s.lines := rfl
@[simp] theorem State.setTeam_evs (s : State) (T : Team) : (s.setTeam T).evs = s.evs := rfl
@[simp] theorem State.setTeam_msgs (s : State) (T : Team) : (s.setTeam T).msgs = s.msgs := rfl
@[simp] theorem State.setTeam_pins (s : State) (T : Team) : (s.setTeam T).pins = s.pins := rfl
@[simp] theorem State.setTeam_tlb (s : State) (T : Team) : (s.setTeam T).tlb = s.tlb := rfl
@[simp] theorem State.setTeam_walks (s : State) (T : Team) : (s.setTeam T).walks = s.walks := rfl
@[simp] theorem State.setTeam_records (s : State) (T : Team) : (s.setTeam T).records = s.records := rfl
@[simp] theorem State.setTeam_verdicts (s : State) (T : Team) : (s.setTeam T).verdicts = s.verdicts := rfl
@[simp] theorem State.setTeam_slots (s : State) (T : Team) : (s.setTeam T).slots = s.slots := rfl
@[simp] theorem State.setTeam_cinvs (s : State) (T : Team) : (s.setTeam T).cinvs = s.cinvs := rfl
@[simp] theorem State.setTeam_posts (s : State) (T : Team) : (s.setTeam T).posts = s.posts := rfl
@[simp] theorem State.setTeam_launches (s : State) (T : Team) : (s.setTeam T).launches = s.launches := rfl
@[simp] theorem State.setTeam_cohorts (s : State) (T : Team) : (s.setTeam T).cohorts = s.cohorts := rfl
@[simp] theorem State.setTeam_tasks (s : State) (T : Team) : (s.setTeam T).tasks = s.tasks := rfl
@[simp] theorem State.setTeam_copies (s : State) (T : Team) : (s.setTeam T).copies = s.copies := rfl
@[simp] theorem State.setTeam_lastTile (s : State) (T : Team) : (s.setTeam T).lastTile = s.lastTile := rfl
@[simp] theorem State.setTeam_patterns (s : State) (T : Team) : (s.setTeam T).patterns = s.patterns := rfl
@[simp] theorem State.setTeam_objs (s : State) (T : Team) : (s.setTeam T).objs = s.objs := rfl
@[simp] theorem State.setTeam_reqs (s : State) (T : Team) : (s.setTeam T).reqs = s.reqs := rfl
@[simp] theorem State.setTeam_amsgs (s : State) (T : Team) : (s.setTeam T).amsgs = s.amsgs := rfl
@[simp] theorem State.setTeam_tickets (s : State) (T : Team) : (s.setTeam T).tickets = s.tickets := rfl
@[simp] theorem State.setTeam_contribs (s : State) (T : Team) : (s.setTeam T).contribs = s.contribs := rfl
@[simp] theorem State.setTeam_insts (s : State) (T : Team) : (s.setTeam T).insts = s.insts := rfl
@[simp] theorem State.setTeam_comms (s : State) (T : Team) : (s.setTeam T).comms = s.comms := rfl
@[simp] theorem State.setTeam_atoms (s : State) (T : Team) : (s.setTeam T).atoms = s.atoms := rfl
@[simp] theorem State.setTeam_dies (s : State) (T : Team) : (s.setTeam T).dies = s.dies := rfl
@[simp] theorem State.setTeam_skipping (s : State) (T : Team) : (s.setTeam T).skipping = s.skipping := rfl
@[simp] theorem State.setTeam_hostReplies (s : State) (T : Team) : (s.setTeam T).hostReplies = s.hostReplies := rfl
@[simp] theorem State.setTeam_peerReplies (s : State) (T : Team) : (s.setTeam T).peerReplies = s.peerReplies := rfl
@[simp] theorem State.setTeam_caps (s : State) (T : Team) : (s.setTeam T).caps = s.caps := rfl
@[simp] theorem State.setTeam_spdm (s : State) (T : Team) : (s.setTeam T).spdm = s.spdm := rfl

/-! ### State.modTeam -/

@[simp] theorem State.modTeam_agenda (s : State) (t : Nat) (f : Team → Team) : (s.modTeam t f).agenda = s.agenda := rfl
@[simp] theorem State.modTeam_cur (s : State) (t : Nat) (f : Team → Team) : (s.modTeam t f).cur = s.cur := rfl
@[simp] theorem State.modTeam_tick (s : State) (t : Nat) (f : Team → Team) : (s.modTeam t f).tick = s.tick := rfl
@[simp] theorem State.modTeam_cycle (s : State) (t : Nat) (f : Team → Team) : (s.modTeam t f).cycle = s.cycle := rfl
@[simp] theorem State.modTeam_evId (s : State) (t : Nat) (f : Team → Team) : (s.modTeam t f).evId = s.evId := rfl
@[simp] theorem State.modTeam_placedNo (s : State) (t : Nat) (f : Team → Team) : (s.modTeam t f).placedNo = s.placedNo := rfl
@[simp] theorem State.modTeam_mem (s : State) (t : Nat) (f : Team → Team) : (s.modTeam t f).mem = s.mem := rfl
@[simp] theorem State.modTeam_staged (s : State) (t : Nat) (f : Team → Team) : (s.modTeam t f).staged = s.staged := rfl
@[simp] theorem State.modTeam_poison (s : State) (t : Nat) (f : Team → Team) : (s.modTeam t f).poison = s.poison := rfl
@[simp] theorem State.modTeam_tags (s : State) (t : Nat) (f : Team → Team) : (s.modTeam t f).tags = s.tags := rfl
@[simp] theorem State.modTeam_padCtx (s : State) (t : Nat) (f : Team → Team) : (s.modTeam t f).padCtx = s.padCtx := rfl
@[simp] theorem State.modTeam_padOld (s : State) (t : Nat) (f : Team → Team) : (s.modTeam t f).padOld = s.padOld := rfl
@[simp] theorem State.modTeam_lines (s : State) (t : Nat) (f : Team → Team) : (s.modTeam t f).lines = s.lines := rfl
@[simp] theorem State.modTeam_evs (s : State) (t : Nat) (f : Team → Team) : (s.modTeam t f).evs = s.evs := rfl
@[simp] theorem State.modTeam_msgs (s : State) (t : Nat) (f : Team → Team) : (s.modTeam t f).msgs = s.msgs := rfl
@[simp] theorem State.modTeam_pins (s : State) (t : Nat) (f : Team → Team) : (s.modTeam t f).pins = s.pins := rfl
@[simp] theorem State.modTeam_tlb (s : State) (t : Nat) (f : Team → Team) : (s.modTeam t f).tlb = s.tlb := rfl
@[simp] theorem State.modTeam_walks (s : State) (t : Nat) (f : Team → Team) : (s.modTeam t f).walks = s.walks := rfl
@[simp] theorem State.modTeam_records (s : State) (t : Nat) (f : Team → Team) : (s.modTeam t f).records = s.records := rfl
@[simp] theorem State.modTeam_verdicts (s : State) (t : Nat) (f : Team → Team) : (s.modTeam t f).verdicts = s.verdicts := rfl
@[simp] theorem State.modTeam_slots (s : State) (t : Nat) (f : Team → Team) : (s.modTeam t f).slots = s.slots := rfl
@[simp] theorem State.modTeam_cinvs (s : State) (t : Nat) (f : Team → Team) : (s.modTeam t f).cinvs = s.cinvs := rfl
@[simp] theorem State.modTeam_posts (s : State) (t : Nat) (f : Team → Team) : (s.modTeam t f).posts = s.posts := rfl
@[simp] theorem State.modTeam_launches (s : State) (t : Nat) (f : Team → Team) : (s.modTeam t f).launches = s.launches := rfl
@[simp] theorem State.modTeam_cohorts (s : State) (t : Nat) (f : Team → Team) : (s.modTeam t f).cohorts = s.cohorts := rfl
@[simp] theorem State.modTeam_tasks (s : State) (t : Nat) (f : Team → Team) : (s.modTeam t f).tasks = s.tasks := rfl
@[simp] theorem State.modTeam_copies (s : State) (t : Nat) (f : Team → Team) : (s.modTeam t f).copies = s.copies := rfl
@[simp] theorem State.modTeam_lastTile (s : State) (t : Nat) (f : Team → Team) : (s.modTeam t f).lastTile = s.lastTile := rfl
@[simp] theorem State.modTeam_patterns (s : State) (t : Nat) (f : Team → Team) : (s.modTeam t f).patterns = s.patterns := rfl
@[simp] theorem State.modTeam_objs (s : State) (t : Nat) (f : Team → Team) : (s.modTeam t f).objs = s.objs := rfl
@[simp] theorem State.modTeam_reqs (s : State) (t : Nat) (f : Team → Team) : (s.modTeam t f).reqs = s.reqs := rfl
@[simp] theorem State.modTeam_amsgs (s : State) (t : Nat) (f : Team → Team) : (s.modTeam t f).amsgs = s.amsgs := rfl
@[simp] theorem State.modTeam_tickets (s : State) (t : Nat) (f : Team → Team) : (s.modTeam t f).tickets = s.tickets := rfl
@[simp] theorem State.modTeam_contribs (s : State) (t : Nat) (f : Team → Team) : (s.modTeam t f).contribs = s.contribs := rfl
@[simp] theorem State.modTeam_insts (s : State) (t : Nat) (f : Team → Team) : (s.modTeam t f).insts = s.insts := rfl
@[simp] theorem State.modTeam_comms (s : State) (t : Nat) (f : Team → Team) : (s.modTeam t f).comms = s.comms := rfl
@[simp] theorem State.modTeam_atoms (s : State) (t : Nat) (f : Team → Team) : (s.modTeam t f).atoms = s.atoms := rfl
@[simp] theorem State.modTeam_dies (s : State) (t : Nat) (f : Team → Team) : (s.modTeam t f).dies = s.dies := rfl
@[simp] theorem State.modTeam_skipping (s : State) (t : Nat) (f : Team → Team) : (s.modTeam t f).skipping = s.skipping := rfl
@[simp] theorem State.modTeam_hostReplies (s : State) (t : Nat) (f : Team → Team) : (s.modTeam t f).hostReplies = s.hostReplies := rfl
@[simp] theorem State.modTeam_peerReplies (s : State) (t : Nat) (f : Team → Team) : (s.modTeam t f).peerReplies = s.peerReplies := rfl
@[simp] theorem State.modTeam_caps (s : State) (t : Nat) (f : Team → Team) : (s.modTeam t f).caps = s.caps := rfl
@[simp] theorem State.modTeam_spdm (s : State) (t : Nat) (f : Team → Team) : (s.modTeam t f).spdm = s.spdm := rfl

/-! ### State.modLaunch -/

@[simp] theorem State.modLaunch_agenda (s : State) (l : Nat) (f : Launch → Launch) : (s.modLaunch l f).agenda = s.agenda := rfl
@[simp] theorem State.modLaunch_cur (s : State) (l : Nat) (f : Launch → Launch) : (s.modLaunch l f).cur = s.cur := rfl
@[simp] theorem State.modLaunch_tick (s : State) (l : Nat) (f : Launch → Launch) : (s.modLaunch l f).tick = s.tick := rfl
@[simp] theorem State.modLaunch_cycle (s : State) (l : Nat) (f : Launch → Launch) : (s.modLaunch l f).cycle = s.cycle := rfl
@[simp] theorem State.modLaunch_evId (s : State) (l : Nat) (f : Launch → Launch) : (s.modLaunch l f).evId = s.evId := rfl
@[simp] theorem State.modLaunch_placedNo (s : State) (l : Nat) (f : Launch → Launch) : (s.modLaunch l f).placedNo = s.placedNo := rfl
@[simp] theorem State.modLaunch_mem (s : State) (l : Nat) (f : Launch → Launch) : (s.modLaunch l f).mem = s.mem := rfl
@[simp] theorem State.modLaunch_staged (s : State) (l : Nat) (f : Launch → Launch) : (s.modLaunch l f).staged = s.staged := rfl
@[simp] theorem State.modLaunch_poison (s : State) (l : Nat) (f : Launch → Launch) : (s.modLaunch l f).poison = s.poison := rfl
@[simp] theorem State.modLaunch_tags (s : State) (l : Nat) (f : Launch → Launch) : (s.modLaunch l f).tags = s.tags := rfl
@[simp] theorem State.modLaunch_padCtx (s : State) (l : Nat) (f : Launch → Launch) : (s.modLaunch l f).padCtx = s.padCtx := rfl
@[simp] theorem State.modLaunch_padOld (s : State) (l : Nat) (f : Launch → Launch) : (s.modLaunch l f).padOld = s.padOld := rfl
@[simp] theorem State.modLaunch_lines (s : State) (l : Nat) (f : Launch → Launch) : (s.modLaunch l f).lines = s.lines := rfl
@[simp] theorem State.modLaunch_evs (s : State) (l : Nat) (f : Launch → Launch) : (s.modLaunch l f).evs = s.evs := rfl
@[simp] theorem State.modLaunch_msgs (s : State) (l : Nat) (f : Launch → Launch) : (s.modLaunch l f).msgs = s.msgs := rfl
@[simp] theorem State.modLaunch_pins (s : State) (l : Nat) (f : Launch → Launch) : (s.modLaunch l f).pins = s.pins := rfl
@[simp] theorem State.modLaunch_tlb (s : State) (l : Nat) (f : Launch → Launch) : (s.modLaunch l f).tlb = s.tlb := rfl
@[simp] theorem State.modLaunch_walks (s : State) (l : Nat) (f : Launch → Launch) : (s.modLaunch l f).walks = s.walks := rfl
@[simp] theorem State.modLaunch_records (s : State) (l : Nat) (f : Launch → Launch) : (s.modLaunch l f).records = s.records := rfl
@[simp] theorem State.modLaunch_verdicts (s : State) (l : Nat) (f : Launch → Launch) : (s.modLaunch l f).verdicts = s.verdicts := rfl
@[simp] theorem State.modLaunch_slots (s : State) (l : Nat) (f : Launch → Launch) : (s.modLaunch l f).slots = s.slots := rfl
@[simp] theorem State.modLaunch_cinvs (s : State) (l : Nat) (f : Launch → Launch) : (s.modLaunch l f).cinvs = s.cinvs := rfl
@[simp] theorem State.modLaunch_posts (s : State) (l : Nat) (f : Launch → Launch) : (s.modLaunch l f).posts = s.posts := rfl
@[simp] theorem State.modLaunch_cohorts (s : State) (l : Nat) (f : Launch → Launch) : (s.modLaunch l f).cohorts = s.cohorts := rfl
@[simp] theorem State.modLaunch_teams (s : State) (l : Nat) (f : Launch → Launch) : (s.modLaunch l f).teams = s.teams := rfl
@[simp] theorem State.modLaunch_tasks (s : State) (l : Nat) (f : Launch → Launch) : (s.modLaunch l f).tasks = s.tasks := rfl
@[simp] theorem State.modLaunch_copies (s : State) (l : Nat) (f : Launch → Launch) : (s.modLaunch l f).copies = s.copies := rfl
@[simp] theorem State.modLaunch_lastTile (s : State) (l : Nat) (f : Launch → Launch) : (s.modLaunch l f).lastTile = s.lastTile := rfl
@[simp] theorem State.modLaunch_patterns (s : State) (l : Nat) (f : Launch → Launch) : (s.modLaunch l f).patterns = s.patterns := rfl
@[simp] theorem State.modLaunch_objs (s : State) (l : Nat) (f : Launch → Launch) : (s.modLaunch l f).objs = s.objs := rfl
@[simp] theorem State.modLaunch_reqs (s : State) (l : Nat) (f : Launch → Launch) : (s.modLaunch l f).reqs = s.reqs := rfl
@[simp] theorem State.modLaunch_amsgs (s : State) (l : Nat) (f : Launch → Launch) : (s.modLaunch l f).amsgs = s.amsgs := rfl
@[simp] theorem State.modLaunch_tickets (s : State) (l : Nat) (f : Launch → Launch) : (s.modLaunch l f).tickets = s.tickets := rfl
@[simp] theorem State.modLaunch_contribs (s : State) (l : Nat) (f : Launch → Launch) : (s.modLaunch l f).contribs = s.contribs := rfl
@[simp] theorem State.modLaunch_insts (s : State) (l : Nat) (f : Launch → Launch) : (s.modLaunch l f).insts = s.insts := rfl
@[simp] theorem State.modLaunch_comms (s : State) (l : Nat) (f : Launch → Launch) : (s.modLaunch l f).comms = s.comms := rfl
@[simp] theorem State.modLaunch_atoms (s : State) (l : Nat) (f : Launch → Launch) : (s.modLaunch l f).atoms = s.atoms := rfl
@[simp] theorem State.modLaunch_dies (s : State) (l : Nat) (f : Launch → Launch) : (s.modLaunch l f).dies = s.dies := rfl
@[simp] theorem State.modLaunch_skipping (s : State) (l : Nat) (f : Launch → Launch) : (s.modLaunch l f).skipping = s.skipping := rfl
@[simp] theorem State.modLaunch_hostReplies (s : State) (l : Nat) (f : Launch → Launch) : (s.modLaunch l f).hostReplies = s.hostReplies := rfl
@[simp] theorem State.modLaunch_peerReplies (s : State) (l : Nat) (f : Launch → Launch) : (s.modLaunch l f).peerReplies = s.peerReplies := rfl
@[simp] theorem State.modLaunch_caps (s : State) (l : Nat) (f : Launch → Launch) : (s.modLaunch l f).caps = s.caps := rfl
@[simp] theorem State.modLaunch_spdm (s : State) (l : Nat) (f : Launch → Launch) : (s.modLaunch l f).spdm = s.spdm := rfl

/-! ### State.modCohort -/

@[simp] theorem State.modCohort_agenda (s : State) (l c : Nat) (f : Cohort → Cohort) : (s.modCohort l c f).agenda = s.agenda := rfl
@[simp] theorem State.modCohort_cur (s : State) (l c : Nat) (f : Cohort → Cohort) : (s.modCohort l c f).cur = s.cur := rfl
@[simp] theorem State.modCohort_tick (s : State) (l c : Nat) (f : Cohort → Cohort) : (s.modCohort l c f).tick = s.tick := rfl
@[simp] theorem State.modCohort_cycle (s : State) (l c : Nat) (f : Cohort → Cohort) : (s.modCohort l c f).cycle = s.cycle := rfl
@[simp] theorem State.modCohort_evId (s : State) (l c : Nat) (f : Cohort → Cohort) : (s.modCohort l c f).evId = s.evId := rfl
@[simp] theorem State.modCohort_placedNo (s : State) (l c : Nat) (f : Cohort → Cohort) : (s.modCohort l c f).placedNo = s.placedNo := rfl
@[simp] theorem State.modCohort_mem (s : State) (l c : Nat) (f : Cohort → Cohort) : (s.modCohort l c f).mem = s.mem := rfl
@[simp] theorem State.modCohort_staged (s : State) (l c : Nat) (f : Cohort → Cohort) : (s.modCohort l c f).staged = s.staged := rfl
@[simp] theorem State.modCohort_poison (s : State) (l c : Nat) (f : Cohort → Cohort) : (s.modCohort l c f).poison = s.poison := rfl
@[simp] theorem State.modCohort_tags (s : State) (l c : Nat) (f : Cohort → Cohort) : (s.modCohort l c f).tags = s.tags := rfl
@[simp] theorem State.modCohort_padCtx (s : State) (l c : Nat) (f : Cohort → Cohort) : (s.modCohort l c f).padCtx = s.padCtx := rfl
@[simp] theorem State.modCohort_padOld (s : State) (l c : Nat) (f : Cohort → Cohort) : (s.modCohort l c f).padOld = s.padOld := rfl
@[simp] theorem State.modCohort_lines (s : State) (l c : Nat) (f : Cohort → Cohort) : (s.modCohort l c f).lines = s.lines := rfl
@[simp] theorem State.modCohort_evs (s : State) (l c : Nat) (f : Cohort → Cohort) : (s.modCohort l c f).evs = s.evs := rfl
@[simp] theorem State.modCohort_msgs (s : State) (l c : Nat) (f : Cohort → Cohort) : (s.modCohort l c f).msgs = s.msgs := rfl
@[simp] theorem State.modCohort_pins (s : State) (l c : Nat) (f : Cohort → Cohort) : (s.modCohort l c f).pins = s.pins := rfl
@[simp] theorem State.modCohort_tlb (s : State) (l c : Nat) (f : Cohort → Cohort) : (s.modCohort l c f).tlb = s.tlb := rfl
@[simp] theorem State.modCohort_walks (s : State) (l c : Nat) (f : Cohort → Cohort) : (s.modCohort l c f).walks = s.walks := rfl
@[simp] theorem State.modCohort_records (s : State) (l c : Nat) (f : Cohort → Cohort) : (s.modCohort l c f).records = s.records := rfl
@[simp] theorem State.modCohort_verdicts (s : State) (l c : Nat) (f : Cohort → Cohort) : (s.modCohort l c f).verdicts = s.verdicts := rfl
@[simp] theorem State.modCohort_slots (s : State) (l c : Nat) (f : Cohort → Cohort) : (s.modCohort l c f).slots = s.slots := rfl
@[simp] theorem State.modCohort_cinvs (s : State) (l c : Nat) (f : Cohort → Cohort) : (s.modCohort l c f).cinvs = s.cinvs := rfl
@[simp] theorem State.modCohort_posts (s : State) (l c : Nat) (f : Cohort → Cohort) : (s.modCohort l c f).posts = s.posts := rfl
@[simp] theorem State.modCohort_launches (s : State) (l c : Nat) (f : Cohort → Cohort) : (s.modCohort l c f).launches = s.launches := rfl
@[simp] theorem State.modCohort_teams (s : State) (l c : Nat) (f : Cohort → Cohort) : (s.modCohort l c f).teams = s.teams := rfl
@[simp] theorem State.modCohort_tasks (s : State) (l c : Nat) (f : Cohort → Cohort) : (s.modCohort l c f).tasks = s.tasks := rfl
@[simp] theorem State.modCohort_copies (s : State) (l c : Nat) (f : Cohort → Cohort) : (s.modCohort l c f).copies = s.copies := rfl
@[simp] theorem State.modCohort_lastTile (s : State) (l c : Nat) (f : Cohort → Cohort) : (s.modCohort l c f).lastTile = s.lastTile := rfl
@[simp] theorem State.modCohort_patterns (s : State) (l c : Nat) (f : Cohort → Cohort) : (s.modCohort l c f).patterns = s.patterns := rfl
@[simp] theorem State.modCohort_objs (s : State) (l c : Nat) (f : Cohort → Cohort) : (s.modCohort l c f).objs = s.objs := rfl
@[simp] theorem State.modCohort_reqs (s : State) (l c : Nat) (f : Cohort → Cohort) : (s.modCohort l c f).reqs = s.reqs := rfl
@[simp] theorem State.modCohort_amsgs (s : State) (l c : Nat) (f : Cohort → Cohort) : (s.modCohort l c f).amsgs = s.amsgs := rfl
@[simp] theorem State.modCohort_tickets (s : State) (l c : Nat) (f : Cohort → Cohort) : (s.modCohort l c f).tickets = s.tickets := rfl
@[simp] theorem State.modCohort_contribs (s : State) (l c : Nat) (f : Cohort → Cohort) : (s.modCohort l c f).contribs = s.contribs := rfl
@[simp] theorem State.modCohort_insts (s : State) (l c : Nat) (f : Cohort → Cohort) : (s.modCohort l c f).insts = s.insts := rfl
@[simp] theorem State.modCohort_comms (s : State) (l c : Nat) (f : Cohort → Cohort) : (s.modCohort l c f).comms = s.comms := rfl
@[simp] theorem State.modCohort_atoms (s : State) (l c : Nat) (f : Cohort → Cohort) : (s.modCohort l c f).atoms = s.atoms := rfl
@[simp] theorem State.modCohort_dies (s : State) (l c : Nat) (f : Cohort → Cohort) : (s.modCohort l c f).dies = s.dies := rfl
@[simp] theorem State.modCohort_skipping (s : State) (l c : Nat) (f : Cohort → Cohort) : (s.modCohort l c f).skipping = s.skipping := rfl
@[simp] theorem State.modCohort_hostReplies (s : State) (l c : Nat) (f : Cohort → Cohort) : (s.modCohort l c f).hostReplies = s.hostReplies := rfl
@[simp] theorem State.modCohort_peerReplies (s : State) (l c : Nat) (f : Cohort → Cohort) : (s.modCohort l c f).peerReplies = s.peerReplies := rfl
@[simp] theorem State.modCohort_caps (s : State) (l c : Nat) (f : Cohort → Cohort) : (s.modCohort l c f).caps = s.caps := rfl
@[simp] theorem State.modCohort_spdm (s : State) (l c : Nat) (f : Cohort → Cohort) : (s.modCohort l c f).spdm = s.spdm := rfl

/-! ### State.modDie -/

@[simp] theorem State.modDie_agenda (s : State) (d : Nat) (f : Die → Die) : (s.modDie d f).agenda = s.agenda := rfl
@[simp] theorem State.modDie_cur (s : State) (d : Nat) (f : Die → Die) : (s.modDie d f).cur = s.cur := rfl
@[simp] theorem State.modDie_tick (s : State) (d : Nat) (f : Die → Die) : (s.modDie d f).tick = s.tick := rfl
@[simp] theorem State.modDie_cycle (s : State) (d : Nat) (f : Die → Die) : (s.modDie d f).cycle = s.cycle := rfl
@[simp] theorem State.modDie_evId (s : State) (d : Nat) (f : Die → Die) : (s.modDie d f).evId = s.evId := rfl
@[simp] theorem State.modDie_placedNo (s : State) (d : Nat) (f : Die → Die) : (s.modDie d f).placedNo = s.placedNo := rfl
@[simp] theorem State.modDie_mem (s : State) (d : Nat) (f : Die → Die) : (s.modDie d f).mem = s.mem := rfl
@[simp] theorem State.modDie_staged (s : State) (d : Nat) (f : Die → Die) : (s.modDie d f).staged = s.staged := rfl
@[simp] theorem State.modDie_poison (s : State) (d : Nat) (f : Die → Die) : (s.modDie d f).poison = s.poison := rfl
@[simp] theorem State.modDie_tags (s : State) (d : Nat) (f : Die → Die) : (s.modDie d f).tags = s.tags := rfl
@[simp] theorem State.modDie_padCtx (s : State) (d : Nat) (f : Die → Die) : (s.modDie d f).padCtx = s.padCtx := rfl
@[simp] theorem State.modDie_padOld (s : State) (d : Nat) (f : Die → Die) : (s.modDie d f).padOld = s.padOld := rfl
@[simp] theorem State.modDie_lines (s : State) (d : Nat) (f : Die → Die) : (s.modDie d f).lines = s.lines := rfl
@[simp] theorem State.modDie_evs (s : State) (d : Nat) (f : Die → Die) : (s.modDie d f).evs = s.evs := rfl
@[simp] theorem State.modDie_msgs (s : State) (d : Nat) (f : Die → Die) : (s.modDie d f).msgs = s.msgs := rfl
@[simp] theorem State.modDie_pins (s : State) (d : Nat) (f : Die → Die) : (s.modDie d f).pins = s.pins := rfl
@[simp] theorem State.modDie_tlb (s : State) (d : Nat) (f : Die → Die) : (s.modDie d f).tlb = s.tlb := rfl
@[simp] theorem State.modDie_walks (s : State) (d : Nat) (f : Die → Die) : (s.modDie d f).walks = s.walks := rfl
@[simp] theorem State.modDie_records (s : State) (d : Nat) (f : Die → Die) : (s.modDie d f).records = s.records := rfl
@[simp] theorem State.modDie_verdicts (s : State) (d : Nat) (f : Die → Die) : (s.modDie d f).verdicts = s.verdicts := rfl
@[simp] theorem State.modDie_slots (s : State) (d : Nat) (f : Die → Die) : (s.modDie d f).slots = s.slots := rfl
@[simp] theorem State.modDie_cinvs (s : State) (d : Nat) (f : Die → Die) : (s.modDie d f).cinvs = s.cinvs := rfl
@[simp] theorem State.modDie_posts (s : State) (d : Nat) (f : Die → Die) : (s.modDie d f).posts = s.posts := rfl
@[simp] theorem State.modDie_launches (s : State) (d : Nat) (f : Die → Die) : (s.modDie d f).launches = s.launches := rfl
@[simp] theorem State.modDie_cohorts (s : State) (d : Nat) (f : Die → Die) : (s.modDie d f).cohorts = s.cohorts := rfl
@[simp] theorem State.modDie_teams (s : State) (d : Nat) (f : Die → Die) : (s.modDie d f).teams = s.teams := rfl
@[simp] theorem State.modDie_tasks (s : State) (d : Nat) (f : Die → Die) : (s.modDie d f).tasks = s.tasks := rfl
@[simp] theorem State.modDie_copies (s : State) (d : Nat) (f : Die → Die) : (s.modDie d f).copies = s.copies := rfl
@[simp] theorem State.modDie_lastTile (s : State) (d : Nat) (f : Die → Die) : (s.modDie d f).lastTile = s.lastTile := rfl
@[simp] theorem State.modDie_patterns (s : State) (d : Nat) (f : Die → Die) : (s.modDie d f).patterns = s.patterns := rfl
@[simp] theorem State.modDie_objs (s : State) (d : Nat) (f : Die → Die) : (s.modDie d f).objs = s.objs := rfl
@[simp] theorem State.modDie_reqs (s : State) (d : Nat) (f : Die → Die) : (s.modDie d f).reqs = s.reqs := rfl
@[simp] theorem State.modDie_amsgs (s : State) (d : Nat) (f : Die → Die) : (s.modDie d f).amsgs = s.amsgs := rfl
@[simp] theorem State.modDie_tickets (s : State) (d : Nat) (f : Die → Die) : (s.modDie d f).tickets = s.tickets := rfl
@[simp] theorem State.modDie_contribs (s : State) (d : Nat) (f : Die → Die) : (s.modDie d f).contribs = s.contribs := rfl
@[simp] theorem State.modDie_insts (s : State) (d : Nat) (f : Die → Die) : (s.modDie d f).insts = s.insts := rfl
@[simp] theorem State.modDie_comms (s : State) (d : Nat) (f : Die → Die) : (s.modDie d f).comms = s.comms := rfl
@[simp] theorem State.modDie_atoms (s : State) (d : Nat) (f : Die → Die) : (s.modDie d f).atoms = s.atoms := rfl
@[simp] theorem State.modDie_skipping (s : State) (d : Nat) (f : Die → Die) : (s.modDie d f).skipping = s.skipping := rfl
@[simp] theorem State.modDie_hostReplies (s : State) (d : Nat) (f : Die → Die) : (s.modDie d f).hostReplies = s.hostReplies := rfl
@[simp] theorem State.modDie_peerReplies (s : State) (d : Nat) (f : Die → Die) : (s.modDie d f).peerReplies = s.peerReplies := rfl
@[simp] theorem State.modDie_caps (s : State) (d : Nat) (f : Die → Die) : (s.modDie d f).caps = s.caps := rfl
@[simp] theorem State.modDie_spdm (s : State) (d : Nat) (f : Die → Die) : (s.modDie d f).spdm = s.spdm := rfl

/-! ### State.setByte -/

@[simp] theorem State.setByte_agenda (s : State) (k : Nat) (b : Byte) : (s.setByte k b).agenda = s.agenda := rfl
@[simp] theorem State.setByte_cur (s : State) (k : Nat) (b : Byte) : (s.setByte k b).cur = s.cur := rfl
@[simp] theorem State.setByte_tick (s : State) (k : Nat) (b : Byte) : (s.setByte k b).tick = s.tick := rfl
@[simp] theorem State.setByte_cycle (s : State) (k : Nat) (b : Byte) : (s.setByte k b).cycle = s.cycle := rfl
@[simp] theorem State.setByte_evId (s : State) (k : Nat) (b : Byte) : (s.setByte k b).evId = s.evId := rfl
@[simp] theorem State.setByte_placedNo (s : State) (k : Nat) (b : Byte) : (s.setByte k b).placedNo = s.placedNo := rfl
@[simp] theorem State.setByte_mem (s : State) (k : Nat) (b : Byte) : (s.setByte k b).mem = s.mem := rfl
@[simp] theorem State.setByte_poison (s : State) (k : Nat) (b : Byte) : (s.setByte k b).poison = s.poison := rfl
@[simp] theorem State.setByte_tags (s : State) (k : Nat) (b : Byte) : (s.setByte k b).tags = s.tags := rfl
@[simp] theorem State.setByte_padCtx (s : State) (k : Nat) (b : Byte) : (s.setByte k b).padCtx = s.padCtx := rfl
@[simp] theorem State.setByte_padOld (s : State) (k : Nat) (b : Byte) : (s.setByte k b).padOld = s.padOld := rfl
@[simp] theorem State.setByte_lines (s : State) (k : Nat) (b : Byte) : (s.setByte k b).lines = s.lines := rfl
@[simp] theorem State.setByte_evs (s : State) (k : Nat) (b : Byte) : (s.setByte k b).evs = s.evs := rfl
@[simp] theorem State.setByte_msgs (s : State) (k : Nat) (b : Byte) : (s.setByte k b).msgs = s.msgs := rfl
@[simp] theorem State.setByte_pins (s : State) (k : Nat) (b : Byte) : (s.setByte k b).pins = s.pins := rfl
@[simp] theorem State.setByte_tlb (s : State) (k : Nat) (b : Byte) : (s.setByte k b).tlb = s.tlb := rfl
@[simp] theorem State.setByte_walks (s : State) (k : Nat) (b : Byte) : (s.setByte k b).walks = s.walks := rfl
@[simp] theorem State.setByte_records (s : State) (k : Nat) (b : Byte) : (s.setByte k b).records = s.records := rfl
@[simp] theorem State.setByte_verdicts (s : State) (k : Nat) (b : Byte) : (s.setByte k b).verdicts = s.verdicts := rfl
@[simp] theorem State.setByte_slots (s : State) (k : Nat) (b : Byte) : (s.setByte k b).slots = s.slots := rfl
@[simp] theorem State.setByte_cinvs (s : State) (k : Nat) (b : Byte) : (s.setByte k b).cinvs = s.cinvs := rfl
@[simp] theorem State.setByte_posts (s : State) (k : Nat) (b : Byte) : (s.setByte k b).posts = s.posts := rfl
@[simp] theorem State.setByte_launches (s : State) (k : Nat) (b : Byte) : (s.setByte k b).launches = s.launches := rfl
@[simp] theorem State.setByte_cohorts (s : State) (k : Nat) (b : Byte) : (s.setByte k b).cohorts = s.cohorts := rfl
@[simp] theorem State.setByte_teams (s : State) (k : Nat) (b : Byte) : (s.setByte k b).teams = s.teams := rfl
@[simp] theorem State.setByte_tasks (s : State) (k : Nat) (b : Byte) : (s.setByte k b).tasks = s.tasks := rfl
@[simp] theorem State.setByte_copies (s : State) (k : Nat) (b : Byte) : (s.setByte k b).copies = s.copies := rfl
@[simp] theorem State.setByte_lastTile (s : State) (k : Nat) (b : Byte) : (s.setByte k b).lastTile = s.lastTile := rfl
@[simp] theorem State.setByte_patterns (s : State) (k : Nat) (b : Byte) : (s.setByte k b).patterns = s.patterns := rfl
@[simp] theorem State.setByte_objs (s : State) (k : Nat) (b : Byte) : (s.setByte k b).objs = s.objs := rfl
@[simp] theorem State.setByte_reqs (s : State) (k : Nat) (b : Byte) : (s.setByte k b).reqs = s.reqs := rfl
@[simp] theorem State.setByte_amsgs (s : State) (k : Nat) (b : Byte) : (s.setByte k b).amsgs = s.amsgs := rfl
@[simp] theorem State.setByte_tickets (s : State) (k : Nat) (b : Byte) : (s.setByte k b).tickets = s.tickets := rfl
@[simp] theorem State.setByte_contribs (s : State) (k : Nat) (b : Byte) : (s.setByte k b).contribs = s.contribs := rfl
@[simp] theorem State.setByte_insts (s : State) (k : Nat) (b : Byte) : (s.setByte k b).insts = s.insts := rfl
@[simp] theorem State.setByte_comms (s : State) (k : Nat) (b : Byte) : (s.setByte k b).comms = s.comms := rfl
@[simp] theorem State.setByte_atoms (s : State) (k : Nat) (b : Byte) : (s.setByte k b).atoms = s.atoms := rfl
@[simp] theorem State.setByte_dies (s : State) (k : Nat) (b : Byte) : (s.setByte k b).dies = s.dies := rfl
@[simp] theorem State.setByte_skipping (s : State) (k : Nat) (b : Byte) : (s.setByte k b).skipping = s.skipping := rfl
@[simp] theorem State.setByte_hostReplies (s : State) (k : Nat) (b : Byte) : (s.setByte k b).hostReplies = s.hostReplies := rfl
@[simp] theorem State.setByte_peerReplies (s : State) (k : Nat) (b : Byte) : (s.setByte k b).peerReplies = s.peerReplies := rfl
@[simp] theorem State.setByte_caps (s : State) (k : Nat) (b : Byte) : (s.setByte k b).caps = s.caps := rfl
@[simp] theorem State.setByte_spdm (s : State) (k : Nat) (b : Byte) : (s.setByte k b).spdm = s.spdm := rfl

/-! ### State.setEv -/

@[simp] theorem State.setEv_agenda (s : State) (e : Ev) : (s.setEv e).agenda = s.agenda := rfl
@[simp] theorem State.setEv_cur (s : State) (e : Ev) : (s.setEv e).cur = s.cur := rfl
@[simp] theorem State.setEv_tick (s : State) (e : Ev) : (s.setEv e).tick = s.tick := rfl
@[simp] theorem State.setEv_cycle (s : State) (e : Ev) : (s.setEv e).cycle = s.cycle := rfl
@[simp] theorem State.setEv_evId (s : State) (e : Ev) : (s.setEv e).evId = s.evId := rfl
@[simp] theorem State.setEv_placedNo (s : State) (e : Ev) : (s.setEv e).placedNo = s.placedNo := rfl
@[simp] theorem State.setEv_mem (s : State) (e : Ev) : (s.setEv e).mem = s.mem := rfl
@[simp] theorem State.setEv_staged (s : State) (e : Ev) : (s.setEv e).staged = s.staged := rfl
@[simp] theorem State.setEv_poison (s : State) (e : Ev) : (s.setEv e).poison = s.poison := rfl
@[simp] theorem State.setEv_tags (s : State) (e : Ev) : (s.setEv e).tags = s.tags := rfl
@[simp] theorem State.setEv_padCtx (s : State) (e : Ev) : (s.setEv e).padCtx = s.padCtx := rfl
@[simp] theorem State.setEv_padOld (s : State) (e : Ev) : (s.setEv e).padOld = s.padOld := rfl
@[simp] theorem State.setEv_lines (s : State) (e : Ev) : (s.setEv e).lines = s.lines := rfl
@[simp] theorem State.setEv_msgs (s : State) (e : Ev) : (s.setEv e).msgs = s.msgs := rfl
@[simp] theorem State.setEv_pins (s : State) (e : Ev) : (s.setEv e).pins = s.pins := rfl
@[simp] theorem State.setEv_tlb (s : State) (e : Ev) : (s.setEv e).tlb = s.tlb := rfl
@[simp] theorem State.setEv_walks (s : State) (e : Ev) : (s.setEv e).walks = s.walks := rfl
@[simp] theorem State.setEv_records (s : State) (e : Ev) : (s.setEv e).records = s.records := rfl
@[simp] theorem State.setEv_verdicts (s : State) (e : Ev) : (s.setEv e).verdicts = s.verdicts := rfl
@[simp] theorem State.setEv_slots (s : State) (e : Ev) : (s.setEv e).slots = s.slots := rfl
@[simp] theorem State.setEv_cinvs (s : State) (e : Ev) : (s.setEv e).cinvs = s.cinvs := rfl
@[simp] theorem State.setEv_posts (s : State) (e : Ev) : (s.setEv e).posts = s.posts := rfl
@[simp] theorem State.setEv_launches (s : State) (e : Ev) : (s.setEv e).launches = s.launches := rfl
@[simp] theorem State.setEv_cohorts (s : State) (e : Ev) : (s.setEv e).cohorts = s.cohorts := rfl
@[simp] theorem State.setEv_teams (s : State) (e : Ev) : (s.setEv e).teams = s.teams := rfl
@[simp] theorem State.setEv_tasks (s : State) (e : Ev) : (s.setEv e).tasks = s.tasks := rfl
@[simp] theorem State.setEv_copies (s : State) (e : Ev) : (s.setEv e).copies = s.copies := rfl
@[simp] theorem State.setEv_lastTile (s : State) (e : Ev) : (s.setEv e).lastTile = s.lastTile := rfl
@[simp] theorem State.setEv_patterns (s : State) (e : Ev) : (s.setEv e).patterns = s.patterns := rfl
@[simp] theorem State.setEv_objs (s : State) (e : Ev) : (s.setEv e).objs = s.objs := rfl
@[simp] theorem State.setEv_reqs (s : State) (e : Ev) : (s.setEv e).reqs = s.reqs := rfl
@[simp] theorem State.setEv_amsgs (s : State) (e : Ev) : (s.setEv e).amsgs = s.amsgs := rfl
@[simp] theorem State.setEv_tickets (s : State) (e : Ev) : (s.setEv e).tickets = s.tickets := rfl
@[simp] theorem State.setEv_contribs (s : State) (e : Ev) : (s.setEv e).contribs = s.contribs := rfl
@[simp] theorem State.setEv_insts (s : State) (e : Ev) : (s.setEv e).insts = s.insts := rfl
@[simp] theorem State.setEv_comms (s : State) (e : Ev) : (s.setEv e).comms = s.comms := rfl
@[simp] theorem State.setEv_atoms (s : State) (e : Ev) : (s.setEv e).atoms = s.atoms := rfl
@[simp] theorem State.setEv_dies (s : State) (e : Ev) : (s.setEv e).dies = s.dies := rfl
@[simp] theorem State.setEv_skipping (s : State) (e : Ev) : (s.setEv e).skipping = s.skipping := rfl
@[simp] theorem State.setEv_hostReplies (s : State) (e : Ev) : (s.setEv e).hostReplies = s.hostReplies := rfl
@[simp] theorem State.setEv_peerReplies (s : State) (e : Ev) : (s.setEv e).peerReplies = s.peerReplies := rfl
@[simp] theorem State.setEv_caps (s : State) (e : Ev) : (s.setEv e).caps = s.caps := rfl
@[simp] theorem State.setEv_spdm (s : State) (e : Ev) : (s.setEv e).spdm = s.spdm := rfl

/-! ### State.endEv -/

@[simp] theorem State.endEv_agenda (s : State) (i : Nat) : (s.endEv i).agenda = s.agenda := rfl
@[simp] theorem State.endEv_cur (s : State) (i : Nat) : (s.endEv i).cur = s.cur := rfl
@[simp] theorem State.endEv_tick (s : State) (i : Nat) : (s.endEv i).tick = s.tick := rfl
@[simp] theorem State.endEv_cycle (s : State) (i : Nat) : (s.endEv i).cycle = s.cycle := rfl
@[simp] theorem State.endEv_evId (s : State) (i : Nat) : (s.endEv i).evId = s.evId := rfl
@[simp] theorem State.endEv_placedNo (s : State) (i : Nat) : (s.endEv i).placedNo = s.placedNo := rfl
@[simp] theorem State.endEv_mem (s : State) (i : Nat) : (s.endEv i).mem = s.mem := rfl
@[simp] theorem State.endEv_staged (s : State) (i : Nat) : (s.endEv i).staged = s.staged := rfl
@[simp] theorem State.endEv_poison (s : State) (i : Nat) : (s.endEv i).poison = s.poison := rfl
@[simp] theorem State.endEv_tags (s : State) (i : Nat) : (s.endEv i).tags = s.tags := rfl
@[simp] theorem State.endEv_padCtx (s : State) (i : Nat) : (s.endEv i).padCtx = s.padCtx := rfl
@[simp] theorem State.endEv_padOld (s : State) (i : Nat) : (s.endEv i).padOld = s.padOld := rfl
@[simp] theorem State.endEv_lines (s : State) (i : Nat) : (s.endEv i).lines = s.lines := rfl
@[simp] theorem State.endEv_msgs (s : State) (i : Nat) : (s.endEv i).msgs = s.msgs := rfl
@[simp] theorem State.endEv_pins (s : State) (i : Nat) : (s.endEv i).pins = s.pins := rfl
@[simp] theorem State.endEv_tlb (s : State) (i : Nat) : (s.endEv i).tlb = s.tlb := rfl
@[simp] theorem State.endEv_walks (s : State) (i : Nat) : (s.endEv i).walks = s.walks := rfl
@[simp] theorem State.endEv_records (s : State) (i : Nat) : (s.endEv i).records = s.records := rfl
@[simp] theorem State.endEv_verdicts (s : State) (i : Nat) : (s.endEv i).verdicts = s.verdicts := rfl
@[simp] theorem State.endEv_slots (s : State) (i : Nat) : (s.endEv i).slots = s.slots := rfl
@[simp] theorem State.endEv_cinvs (s : State) (i : Nat) : (s.endEv i).cinvs = s.cinvs := rfl
@[simp] theorem State.endEv_posts (s : State) (i : Nat) : (s.endEv i).posts = s.posts := rfl
@[simp] theorem State.endEv_launches (s : State) (i : Nat) : (s.endEv i).launches = s.launches := rfl
@[simp] theorem State.endEv_cohorts (s : State) (i : Nat) : (s.endEv i).cohorts = s.cohorts := rfl
@[simp] theorem State.endEv_teams (s : State) (i : Nat) : (s.endEv i).teams = s.teams := rfl
@[simp] theorem State.endEv_tasks (s : State) (i : Nat) : (s.endEv i).tasks = s.tasks := rfl
@[simp] theorem State.endEv_copies (s : State) (i : Nat) : (s.endEv i).copies = s.copies := rfl
@[simp] theorem State.endEv_lastTile (s : State) (i : Nat) : (s.endEv i).lastTile = s.lastTile := rfl
@[simp] theorem State.endEv_patterns (s : State) (i : Nat) : (s.endEv i).patterns = s.patterns := rfl
@[simp] theorem State.endEv_objs (s : State) (i : Nat) : (s.endEv i).objs = s.objs := rfl
@[simp] theorem State.endEv_reqs (s : State) (i : Nat) : (s.endEv i).reqs = s.reqs := rfl
@[simp] theorem State.endEv_amsgs (s : State) (i : Nat) : (s.endEv i).amsgs = s.amsgs := rfl
@[simp] theorem State.endEv_tickets (s : State) (i : Nat) : (s.endEv i).tickets = s.tickets := rfl
@[simp] theorem State.endEv_contribs (s : State) (i : Nat) : (s.endEv i).contribs = s.contribs := rfl
@[simp] theorem State.endEv_insts (s : State) (i : Nat) : (s.endEv i).insts = s.insts := rfl
@[simp] theorem State.endEv_comms (s : State) (i : Nat) : (s.endEv i).comms = s.comms := rfl
@[simp] theorem State.endEv_atoms (s : State) (i : Nat) : (s.endEv i).atoms = s.atoms := rfl
@[simp] theorem State.endEv_dies (s : State) (i : Nat) : (s.endEv i).dies = s.dies := rfl
@[simp] theorem State.endEv_skipping (s : State) (i : Nat) : (s.endEv i).skipping = s.skipping := rfl
@[simp] theorem State.endEv_hostReplies (s : State) (i : Nat) : (s.endEv i).hostReplies = s.hostReplies := rfl
@[simp] theorem State.endEv_peerReplies (s : State) (i : Nat) : (s.endEv i).peerReplies = s.peerReplies := rfl
@[simp] theorem State.endEv_caps (s : State) (i : Nat) : (s.endEv i).caps = s.caps := rfl
@[simp] theorem State.endEv_spdm (s : State) (i : Nat) : (s.endEv i).spdm = s.spdm := rfl

/-! ### State.fresh -/

@[simp] theorem State.fresh_agenda (s : State) : (s.fresh).agenda = s.agenda := rfl
@[simp] theorem State.fresh_cur (s : State) : (s.fresh).cur = s.cur := rfl
@[simp] theorem State.fresh_tick (s : State) : (s.fresh).tick = s.tick := rfl
@[simp] theorem State.fresh_cycle (s : State) : (s.fresh).cycle = s.cycle := rfl
@[simp] theorem State.fresh_placedNo (s : State) : (s.fresh).placedNo = s.placedNo := rfl
@[simp] theorem State.fresh_mem (s : State) : (s.fresh).mem = s.mem := rfl
@[simp] theorem State.fresh_staged (s : State) : (s.fresh).staged = s.staged := rfl
@[simp] theorem State.fresh_poison (s : State) : (s.fresh).poison = s.poison := rfl
@[simp] theorem State.fresh_tags (s : State) : (s.fresh).tags = s.tags := rfl
@[simp] theorem State.fresh_padCtx (s : State) : (s.fresh).padCtx = s.padCtx := rfl
@[simp] theorem State.fresh_padOld (s : State) : (s.fresh).padOld = s.padOld := rfl
@[simp] theorem State.fresh_lines (s : State) : (s.fresh).lines = s.lines := rfl
@[simp] theorem State.fresh_evs (s : State) : (s.fresh).evs = s.evs := rfl
@[simp] theorem State.fresh_msgs (s : State) : (s.fresh).msgs = s.msgs := rfl
@[simp] theorem State.fresh_pins (s : State) : (s.fresh).pins = s.pins := rfl
@[simp] theorem State.fresh_tlb (s : State) : (s.fresh).tlb = s.tlb := rfl
@[simp] theorem State.fresh_walks (s : State) : (s.fresh).walks = s.walks := rfl
@[simp] theorem State.fresh_records (s : State) : (s.fresh).records = s.records := rfl
@[simp] theorem State.fresh_verdicts (s : State) : (s.fresh).verdicts = s.verdicts := rfl
@[simp] theorem State.fresh_slots (s : State) : (s.fresh).slots = s.slots := rfl
@[simp] theorem State.fresh_cinvs (s : State) : (s.fresh).cinvs = s.cinvs := rfl
@[simp] theorem State.fresh_posts (s : State) : (s.fresh).posts = s.posts := rfl
@[simp] theorem State.fresh_launches (s : State) : (s.fresh).launches = s.launches := rfl
@[simp] theorem State.fresh_cohorts (s : State) : (s.fresh).cohorts = s.cohorts := rfl
@[simp] theorem State.fresh_teams (s : State) : (s.fresh).teams = s.teams := rfl
@[simp] theorem State.fresh_tasks (s : State) : (s.fresh).tasks = s.tasks := rfl
@[simp] theorem State.fresh_copies (s : State) : (s.fresh).copies = s.copies := rfl
@[simp] theorem State.fresh_lastTile (s : State) : (s.fresh).lastTile = s.lastTile := rfl
@[simp] theorem State.fresh_patterns (s : State) : (s.fresh).patterns = s.patterns := rfl
@[simp] theorem State.fresh_objs (s : State) : (s.fresh).objs = s.objs := rfl
@[simp] theorem State.fresh_reqs (s : State) : (s.fresh).reqs = s.reqs := rfl
@[simp] theorem State.fresh_amsgs (s : State) : (s.fresh).amsgs = s.amsgs := rfl
@[simp] theorem State.fresh_tickets (s : State) : (s.fresh).tickets = s.tickets := rfl
@[simp] theorem State.fresh_contribs (s : State) : (s.fresh).contribs = s.contribs := rfl
@[simp] theorem State.fresh_insts (s : State) : (s.fresh).insts = s.insts := rfl
@[simp] theorem State.fresh_comms (s : State) : (s.fresh).comms = s.comms := rfl
@[simp] theorem State.fresh_atoms (s : State) : (s.fresh).atoms = s.atoms := rfl
@[simp] theorem State.fresh_dies (s : State) : (s.fresh).dies = s.dies := rfl
@[simp] theorem State.fresh_skipping (s : State) : (s.fresh).skipping = s.skipping := rfl
@[simp] theorem State.fresh_hostReplies (s : State) : (s.fresh).hostReplies = s.hostReplies := rfl
@[simp] theorem State.fresh_peerReplies (s : State) : (s.fresh).peerReplies = s.peerReplies := rfl
@[simp] theorem State.fresh_caps (s : State) : (s.fresh).caps = s.caps := rfl
@[simp] theorem State.fresh_spdm (s : State) : (s.fresh).spdm = s.spdm := rfl

/-! ### State.nextFree -/

@[simp] theorem State.nextFree_agenda (s : State) : (s.nextFree).agenda = s.agenda := rfl
@[simp] theorem State.nextFree_cur (s : State) : (s.nextFree).cur = s.cur := rfl
@[simp] theorem State.nextFree_cycle (s : State) : (s.nextFree).cycle = s.cycle := rfl
@[simp] theorem State.nextFree_evId (s : State) : (s.nextFree).evId = s.evId := rfl
@[simp] theorem State.nextFree_placedNo (s : State) : (s.nextFree).placedNo = s.placedNo := rfl
@[simp] theorem State.nextFree_mem (s : State) : (s.nextFree).mem = s.mem := rfl
@[simp] theorem State.nextFree_staged (s : State) : (s.nextFree).staged = s.staged := rfl
@[simp] theorem State.nextFree_poison (s : State) : (s.nextFree).poison = s.poison := rfl
@[simp] theorem State.nextFree_tags (s : State) : (s.nextFree).tags = s.tags := rfl
@[simp] theorem State.nextFree_padCtx (s : State) : (s.nextFree).padCtx = s.padCtx := rfl
@[simp] theorem State.nextFree_padOld (s : State) : (s.nextFree).padOld = s.padOld := rfl
@[simp] theorem State.nextFree_lines (s : State) : (s.nextFree).lines = s.lines := rfl
@[simp] theorem State.nextFree_evs (s : State) : (s.nextFree).evs = s.evs := rfl
@[simp] theorem State.nextFree_msgs (s : State) : (s.nextFree).msgs = s.msgs := rfl
@[simp] theorem State.nextFree_pins (s : State) : (s.nextFree).pins = s.pins := rfl
@[simp] theorem State.nextFree_tlb (s : State) : (s.nextFree).tlb = s.tlb := rfl
@[simp] theorem State.nextFree_walks (s : State) : (s.nextFree).walks = s.walks := rfl
@[simp] theorem State.nextFree_records (s : State) : (s.nextFree).records = s.records := rfl
@[simp] theorem State.nextFree_verdicts (s : State) : (s.nextFree).verdicts = s.verdicts := rfl
@[simp] theorem State.nextFree_slots (s : State) : (s.nextFree).slots = s.slots := rfl
@[simp] theorem State.nextFree_cinvs (s : State) : (s.nextFree).cinvs = s.cinvs := rfl
@[simp] theorem State.nextFree_posts (s : State) : (s.nextFree).posts = s.posts := rfl
@[simp] theorem State.nextFree_launches (s : State) : (s.nextFree).launches = s.launches := rfl
@[simp] theorem State.nextFree_cohorts (s : State) : (s.nextFree).cohorts = s.cohorts := rfl
@[simp] theorem State.nextFree_teams (s : State) : (s.nextFree).teams = s.teams := rfl
@[simp] theorem State.nextFree_tasks (s : State) : (s.nextFree).tasks = s.tasks := rfl
@[simp] theorem State.nextFree_copies (s : State) : (s.nextFree).copies = s.copies := rfl
@[simp] theorem State.nextFree_lastTile (s : State) : (s.nextFree).lastTile = s.lastTile := rfl
@[simp] theorem State.nextFree_patterns (s : State) : (s.nextFree).patterns = s.patterns := rfl
@[simp] theorem State.nextFree_objs (s : State) : (s.nextFree).objs = s.objs := rfl
@[simp] theorem State.nextFree_reqs (s : State) : (s.nextFree).reqs = s.reqs := rfl
@[simp] theorem State.nextFree_amsgs (s : State) : (s.nextFree).amsgs = s.amsgs := rfl
@[simp] theorem State.nextFree_tickets (s : State) : (s.nextFree).tickets = s.tickets := rfl
@[simp] theorem State.nextFree_contribs (s : State) : (s.nextFree).contribs = s.contribs := rfl
@[simp] theorem State.nextFree_insts (s : State) : (s.nextFree).insts = s.insts := rfl
@[simp] theorem State.nextFree_comms (s : State) : (s.nextFree).comms = s.comms := rfl
@[simp] theorem State.nextFree_atoms (s : State) : (s.nextFree).atoms = s.atoms := rfl
@[simp] theorem State.nextFree_dies (s : State) : (s.nextFree).dies = s.dies := rfl
@[simp] theorem State.nextFree_skipping (s : State) : (s.nextFree).skipping = s.skipping := rfl
@[simp] theorem State.nextFree_hostReplies (s : State) : (s.nextFree).hostReplies = s.hostReplies := rfl
@[simp] theorem State.nextFree_peerReplies (s : State) : (s.nextFree).peerReplies = s.peerReplies := rfl
@[simp] theorem State.nextFree_caps (s : State) : (s.nextFree).caps = s.caps := rfl
@[simp] theorem State.nextFree_spdm (s : State) : (s.nextFree).spdm = s.spdm := rfl

/-! ### Team.setV -/

@[simp] theorem Team.setV_id (T : Team) (n l : Nat) (w : Word) : (T.setV n l w).id = T.id := rfl
@[simp] theorem Team.setV_launch (T : Team) (n l : Nat) (w : Word) : (T.setV n l w).launch = T.launch := rfl
@[simp] theorem Team.setV_cohort (T : Team) (n l : Nat) (w : Word) : (T.setV n l w).cohort = T.cohort := rfl
@[simp] theorem Team.setV_tidx (T : Team) (n l : Nat) (w : Word) : (T.setV n l w).tidx = T.tidx := rfl
@[simp] theorem Team.setV_sort (T : Team) (n l : Nat) (w : Word) : (T.setV n l w).sort = T.sort := rfl
@[simp] theorem Team.setV_ctx (T : Team) (n l : Nat) (w : Word) : (T.setV n l w).ctx = T.ctx := rfl
@[simp] theorem Team.setV_core (T : Team) (n l : Nat) (w : Word) : (T.setV n l w).core = T.core := rfl
@[simp] theorem Team.setV_part (T : Team) (n l : Nat) (w : Word) : (T.setV n l w).part = T.part := rfl
@[simp] theorem Team.setV_slot (T : Team) (n l : Nat) (w : Word) : (T.setV n l w).slot = T.slot := rfl
@[simp] theorem Team.setV_pri (T : Team) (n l : Nat) (w : Word) : (T.setV n l w).pri = T.pri := rfl
@[simp] theorem Team.setV_hdr (T : Team) (n l : Nat) (w : Word) : (T.setV n l w).hdr = T.hdr := rfl
@[simp] theorem Team.setV_words (T : Team) (n l : Nat) (w : Word) : (T.setV n l w).words = T.words := rfl
@[simp] theorem Team.setV_vbud (T : Team) (n l : Nat) (w : Word) : (T.setV n l w).vbud = T.vbud := rfl
@[simp] theorem Team.setV_sbud (T : Team) (n l : Nat) (w : Word) : (T.setV n l w).sbud = T.sbud := rfl
@[simp] theorem Team.setV_widOf (T : Team) (n l : Nat) (w : Word) : (T.setV n l w).widOf = T.widOf := rfl
@[simp] theorem Team.setV_cohortOf (T : Team) (n l : Nat) (w : Word) : (T.setV n l w).cohortOf = T.cohortOf := rfl
@[simp] theorem Team.setV_spc (T : Team) (n l : Nat) (w : Word) : (T.setV n l w).spc = T.spc := rfl
@[simp] theorem Team.setV_sregs (T : Team) (n l : Nat) (w : Word) : (T.setV n l w).sregs = T.sregs := rfl
@[simp] theorem Team.setV_sempty (T : Team) (n l : Nat) (w : Word) : (T.setV n l w).sempty = T.sempty := rfl
@[simp] theorem Team.setV_kflags (T : Team) (n l : Nat) (w : Word) : (T.setV n l w).kflags = T.kflags := rfl
@[simp] theorem Team.setV_marks (T : Team) (n l : Nat) (w : Word) : (T.setV n l w).marks = T.marks := rfl
@[simp] theorem Team.setV_q (T : Team) (n l : Nat) (w : Word) : (T.setV n l w).q = T.q := rfl
@[simp] theorem Team.setV_fflags (T : Team) (n l : Nat) (w : Word) : (T.setV n l w).fflags = T.fflags := rfl
@[simp] theorem Team.setV_items (T : Team) (n l : Nat) (w : Word) : (T.setV n l w).items = T.items := rfl
@[simp] theorem Team.setV_mask (T : Team) (n l : Nat) (w : Word) : (T.setV n l w).mask = T.mask := rfl
@[simp] theorem Team.setV_queue (T : Team) (n l : Nat) (w : Word) : (T.setV n l w).queue = T.queue := rfl
@[simp] theorem Team.setV_run (T : Team) (n l : Nat) (w : Word) : (T.setV n l w).run = T.run := rfl
@[simp] theorem Team.setV_split (T : Team) (n l : Nat) (w : Word) : (T.setV n l w).split = T.split := rfl
@[simp] theorem Team.setV_hqueue (T : Team) (n l : Nat) (w : Word) : (T.setV n l w).hqueue = T.hqueue := rfl
@[simp] theorem Team.setV_hrun (T : Team) (n l : Nat) (w : Word) : (T.setV n l w).hrun = T.hrun := rfl
@[simp] theorem Team.setV_hsplit (T : Team) (n l : Nat) (w : Word) : (T.setV n l w).hsplit = T.hsplit := rfl
@[simp] theorem Team.setV_splitsel (T : Team) (n l : Nat) (w : Word) : (T.setV n l w).splitsel = T.splitsel := rfl
@[simp] theorem Team.setV_clock (T : Team) (n l : Nat) (w : Word) : (T.setV n l w).clock = T.clock := rfl
@[simp] theorem Team.setV_waitlimit (T : Team) (n l : Nat) (w : Word) : (T.setV n l w).waitlimit = T.waitlimit := rfl
@[simp] theorem Team.setV_tvec (T : Team) (n l : Nat) (w : Word) : (T.setV n l w).tvec = T.tvec := rfl
@[simp] theorem Team.setV_trapcause (T : Team) (n l : Nat) (w : Word) : (T.setV n l w).trapcause = T.trapcause := rfl
@[simp] theorem Team.setV_trappc (T : Team) (n l : Nat) (w : Word) : (T.setV n l w).trappc = T.trappc := rfl
@[simp] theorem Team.setV_faultmask (T : Team) (n l : Nat) (w : Word) : (T.setV n l w).faultmask = T.faultmask := rfl
@[simp] theorem Team.setV_regionpc (T : Team) (n l : Nat) (w : Word) : (T.setV n l w).regionpc = T.regionpc := rfl
@[simp] theorem Team.setV_livein (T : Team) (n l : Nat) (w : Word) : (T.setV n l w).livein = T.livein := rfl
@[simp] theorem Team.setV_regionNo (T : Team) (n l : Nat) (w : Word) : (T.setV n l w).regionNo = T.regionNo := rfl
@[simp] theorem Team.setV_committed (T : Team) (n l : Nat) (w : Word) : (T.setV n l w).committed = T.committed := rfl
@[simp] theorem Team.setV_trapLevel (T : Team) (n l : Nat) (w : Word) : (T.setV n l w).trapLevel = T.trapLevel := rfl
@[simp] theorem Team.setV_raised (T : Team) (n l : Nat) (w : Word) : (T.setV n l w).raised = T.raised := rfl
@[simp] theorem Team.setV_crit (T : Team) (n l : Nat) (w : Word) : (T.setV n l w).crit = T.crit := rfl
@[simp] theorem Team.setV_dying (T : Team) (n l : Nat) (w : Word) : (T.setV n l w).dying = T.dying := rfl
@[simp] theorem Team.setV_preq (T : Team) (n l : Nat) (w : Word) : (T.setV n l w).preq = T.preq := rfl
@[simp] theorem Team.setV_mfmt (T : Team) (n l : Nat) (w : Word) : (T.setV n l w).mfmt = T.mfmt := rfl
@[simp] theorem Team.setV_codebook (T : Team) (n l : Nat) (w : Word) : (T.setV n l w).codebook = T.codebook := rfl
@[simp] theorem Team.setV_tiles (T : Team) (n l : Nat) (w : Word) : (T.setV n l w).tiles = T.tiles := rfl
@[simp] theorem Team.setV_tilesDone (T : Team) (n l : Nat) (w : Word) : (T.setV n l w).tilesDone = T.tilesDone := rfl
@[simp] theorem Team.setV_fills (T : Team) (n l : Nat) (w : Word) : (T.setV n l w).fills = T.fills := rfl
@[simp] theorem Team.setV_shist (T : Team) (n l : Nat) (w : Word) : (T.setV n l w).shist = T.shist := rfl
@[simp] theorem Team.setV_sfenced (T : Team) (n l : Nat) (w : Word) : (T.setV n l w).sfenced = T.sfenced := rfl
@[simp] theorem Team.setV_sfill (T : Team) (n l : Nat) (w : Word) : (T.setV n l w).sfill = T.sfill := rfl
@[simp] theorem Team.setV_swaited (T : Team) (n l : Nat) (w : Word) : (T.setV n l w).swaited = T.swaited := rfl
@[simp] theorem Team.setV_swait (T : Team) (n l : Nat) (w : Word) : (T.setV n l w).swait = T.swait := rfl
@[simp] theorem Team.setV_sfailed (T : Team) (n l : Nat) (w : Word) : (T.setV n l w).sfailed = T.sfailed := rfl
@[simp] theorem Team.setV_tried (T : Team) (n l : Nat) (w : Word) : (T.setV n l w).tried = T.tried := rfl
@[simp] theorem Team.setV_lqAt (T : Team) (n l : Nat) (w : Word) : (T.setV n l w).lqAt = T.lqAt := rfl
@[simp] theorem Team.setV_replied (T : Team) (n l : Nat) (w : Word) : (T.setV n l w).replied = T.replied := rfl
@[simp] theorem Team.setV_fromResv (T : Team) (n l : Nat) (w : Word) : (T.setV n l w).fromResv = T.fromResv := rfl
@[simp] theorem Team.setV_spages (T : Team) (n l : Nat) (w : Word) : (T.setV n l w).spages = T.spages := rfl
@[simp] theorem Team.setV_lblocks (T : Team) (n l : Nat) (w : Word) : (T.setV n l w).lblocks = T.lblocks := rfl
@[simp] theorem Team.setV_gain (T : Team) (n l : Nat) (w : Word) : (T.setV n l w).gain = T.gain := rfl
@[simp] theorem Team.setV_issued (T : Team) (n l : Nat) (w : Word) : (T.setV n l w).issued = T.issued := rfl
@[simp] theorem Team.setV_waited (T : Team) (n l : Nat) (w : Word) : (T.setV n l w).waited = T.waited := rfl
@[simp] theorem Team.setV_asked (T : Team) (n l : Nat) (w : Word) : (T.setV n l w).asked = T.asked := rfl

/-! ### Team.setFlags -/

@[simp] theorem Team.setFlags_id (T : Team) (l : Nat) (f : BitVec 16) : (T.setFlags l f).id = T.id := rfl
@[simp] theorem Team.setFlags_launch (T : Team) (l : Nat) (f : BitVec 16) : (T.setFlags l f).launch = T.launch := rfl
@[simp] theorem Team.setFlags_cohort (T : Team) (l : Nat) (f : BitVec 16) : (T.setFlags l f).cohort = T.cohort := rfl
@[simp] theorem Team.setFlags_tidx (T : Team) (l : Nat) (f : BitVec 16) : (T.setFlags l f).tidx = T.tidx := rfl
@[simp] theorem Team.setFlags_sort (T : Team) (l : Nat) (f : BitVec 16) : (T.setFlags l f).sort = T.sort := rfl
@[simp] theorem Team.setFlags_ctx (T : Team) (l : Nat) (f : BitVec 16) : (T.setFlags l f).ctx = T.ctx := rfl
@[simp] theorem Team.setFlags_core (T : Team) (l : Nat) (f : BitVec 16) : (T.setFlags l f).core = T.core := rfl
@[simp] theorem Team.setFlags_part (T : Team) (l : Nat) (f : BitVec 16) : (T.setFlags l f).part = T.part := rfl
@[simp] theorem Team.setFlags_slot (T : Team) (l : Nat) (f : BitVec 16) : (T.setFlags l f).slot = T.slot := rfl
@[simp] theorem Team.setFlags_pri (T : Team) (l : Nat) (f : BitVec 16) : (T.setFlags l f).pri = T.pri := rfl
@[simp] theorem Team.setFlags_hdr (T : Team) (l : Nat) (f : BitVec 16) : (T.setFlags l f).hdr = T.hdr := rfl
@[simp] theorem Team.setFlags_words (T : Team) (l : Nat) (f : BitVec 16) : (T.setFlags l f).words = T.words := rfl
@[simp] theorem Team.setFlags_vbud (T : Team) (l : Nat) (f : BitVec 16) : (T.setFlags l f).vbud = T.vbud := rfl
@[simp] theorem Team.setFlags_sbud (T : Team) (l : Nat) (f : BitVec 16) : (T.setFlags l f).sbud = T.sbud := rfl
@[simp] theorem Team.setFlags_widOf (T : Team) (l : Nat) (f : BitVec 16) : (T.setFlags l f).widOf = T.widOf := rfl
@[simp] theorem Team.setFlags_cohortOf (T : Team) (l : Nat) (f : BitVec 16) : (T.setFlags l f).cohortOf = T.cohortOf := rfl
@[simp] theorem Team.setFlags_spc (T : Team) (l : Nat) (f : BitVec 16) : (T.setFlags l f).spc = T.spc := rfl
@[simp] theorem Team.setFlags_sregs (T : Team) (l : Nat) (f : BitVec 16) : (T.setFlags l f).sregs = T.sregs := rfl
@[simp] theorem Team.setFlags_sempty (T : Team) (l : Nat) (f : BitVec 16) : (T.setFlags l f).sempty = T.sempty := rfl
@[simp] theorem Team.setFlags_kflags (T : Team) (l : Nat) (f : BitVec 16) : (T.setFlags l f).kflags = T.kflags := rfl
@[simp] theorem Team.setFlags_vregs (T : Team) (l : Nat) (f : BitVec 16) : (T.setFlags l f).vregs = T.vregs := rfl
@[simp] theorem Team.setFlags_marks (T : Team) (l : Nat) (f : BitVec 16) : (T.setFlags l f).marks = T.marks := rfl
@[simp] theorem Team.setFlags_q (T : Team) (l : Nat) (f : BitVec 16) : (T.setFlags l f).q = T.q := rfl
@[simp] theorem Team.setFlags_items (T : Team) (l : Nat) (f : BitVec 16) : (T.setFlags l f).items = T.items := rfl
@[simp] theorem Team.setFlags_mask (T : Team) (l : Nat) (f : BitVec 16) : (T.setFlags l f).mask = T.mask := rfl
@[simp] theorem Team.setFlags_queue (T : Team) (l : Nat) (f : BitVec 16) : (T.setFlags l f).queue = T.queue := rfl
@[simp] theorem Team.setFlags_run (T : Team) (l : Nat) (f : BitVec 16) : (T.setFlags l f).run = T.run := rfl
@[simp] theorem Team.setFlags_split (T : Team) (l : Nat) (f : BitVec 16) : (T.setFlags l f).split = T.split := rfl
@[simp] theorem Team.setFlags_hqueue (T : Team) (l : Nat) (f : BitVec 16) : (T.setFlags l f).hqueue = T.hqueue := rfl
@[simp] theorem Team.setFlags_hrun (T : Team) (l : Nat) (f : BitVec 16) : (T.setFlags l f).hrun = T.hrun := rfl
@[simp] theorem Team.setFlags_hsplit (T : Team) (l : Nat) (f : BitVec 16) : (T.setFlags l f).hsplit = T.hsplit := rfl
@[simp] theorem Team.setFlags_splitsel (T : Team) (l : Nat) (f : BitVec 16) : (T.setFlags l f).splitsel = T.splitsel := rfl
@[simp] theorem Team.setFlags_clock (T : Team) (l : Nat) (f : BitVec 16) : (T.setFlags l f).clock = T.clock := rfl
@[simp] theorem Team.setFlags_waitlimit (T : Team) (l : Nat) (f : BitVec 16) : (T.setFlags l f).waitlimit = T.waitlimit := rfl
@[simp] theorem Team.setFlags_tvec (T : Team) (l : Nat) (f : BitVec 16) : (T.setFlags l f).tvec = T.tvec := rfl
@[simp] theorem Team.setFlags_trapcause (T : Team) (l : Nat) (f : BitVec 16) : (T.setFlags l f).trapcause = T.trapcause := rfl
@[simp] theorem Team.setFlags_trappc (T : Team) (l : Nat) (f : BitVec 16) : (T.setFlags l f).trappc = T.trappc := rfl
@[simp] theorem Team.setFlags_faultmask (T : Team) (l : Nat) (f : BitVec 16) : (T.setFlags l f).faultmask = T.faultmask := rfl
@[simp] theorem Team.setFlags_regionpc (T : Team) (l : Nat) (f : BitVec 16) : (T.setFlags l f).regionpc = T.regionpc := rfl
@[simp] theorem Team.setFlags_livein (T : Team) (l : Nat) (f : BitVec 16) : (T.setFlags l f).livein = T.livein := rfl
@[simp] theorem Team.setFlags_regionNo (T : Team) (l : Nat) (f : BitVec 16) : (T.setFlags l f).regionNo = T.regionNo := rfl
@[simp] theorem Team.setFlags_committed (T : Team) (l : Nat) (f : BitVec 16) : (T.setFlags l f).committed = T.committed := rfl
@[simp] theorem Team.setFlags_trapLevel (T : Team) (l : Nat) (f : BitVec 16) : (T.setFlags l f).trapLevel = T.trapLevel := rfl
@[simp] theorem Team.setFlags_raised (T : Team) (l : Nat) (f : BitVec 16) : (T.setFlags l f).raised = T.raised := rfl
@[simp] theorem Team.setFlags_crit (T : Team) (l : Nat) (f : BitVec 16) : (T.setFlags l f).crit = T.crit := rfl
@[simp] theorem Team.setFlags_dying (T : Team) (l : Nat) (f : BitVec 16) : (T.setFlags l f).dying = T.dying := rfl
@[simp] theorem Team.setFlags_preq (T : Team) (l : Nat) (f : BitVec 16) : (T.setFlags l f).preq = T.preq := rfl
@[simp] theorem Team.setFlags_mfmt (T : Team) (l : Nat) (f : BitVec 16) : (T.setFlags l f).mfmt = T.mfmt := rfl
@[simp] theorem Team.setFlags_codebook (T : Team) (l : Nat) (f : BitVec 16) : (T.setFlags l f).codebook = T.codebook := rfl
@[simp] theorem Team.setFlags_tiles (T : Team) (l : Nat) (f : BitVec 16) : (T.setFlags l f).tiles = T.tiles := rfl
@[simp] theorem Team.setFlags_tilesDone (T : Team) (l : Nat) (f : BitVec 16) : (T.setFlags l f).tilesDone = T.tilesDone := rfl
@[simp] theorem Team.setFlags_fills (T : Team) (l : Nat) (f : BitVec 16) : (T.setFlags l f).fills = T.fills := rfl
@[simp] theorem Team.setFlags_shist (T : Team) (l : Nat) (f : BitVec 16) : (T.setFlags l f).shist = T.shist := rfl
@[simp] theorem Team.setFlags_sfenced (T : Team) (l : Nat) (f : BitVec 16) : (T.setFlags l f).sfenced = T.sfenced := rfl
@[simp] theorem Team.setFlags_sfill (T : Team) (l : Nat) (f : BitVec 16) : (T.setFlags l f).sfill = T.sfill := rfl
@[simp] theorem Team.setFlags_swaited (T : Team) (l : Nat) (f : BitVec 16) : (T.setFlags l f).swaited = T.swaited := rfl
@[simp] theorem Team.setFlags_swait (T : Team) (l : Nat) (f : BitVec 16) : (T.setFlags l f).swait = T.swait := rfl
@[simp] theorem Team.setFlags_sfailed (T : Team) (l : Nat) (f : BitVec 16) : (T.setFlags l f).sfailed = T.sfailed := rfl
@[simp] theorem Team.setFlags_tried (T : Team) (l : Nat) (f : BitVec 16) : (T.setFlags l f).tried = T.tried := rfl
@[simp] theorem Team.setFlags_lqAt (T : Team) (l : Nat) (f : BitVec 16) : (T.setFlags l f).lqAt = T.lqAt := rfl
@[simp] theorem Team.setFlags_replied (T : Team) (l : Nat) (f : BitVec 16) : (T.setFlags l f).replied = T.replied := rfl
@[simp] theorem Team.setFlags_fromResv (T : Team) (l : Nat) (f : BitVec 16) : (T.setFlags l f).fromResv = T.fromResv := rfl
@[simp] theorem Team.setFlags_spages (T : Team) (l : Nat) (f : BitVec 16) : (T.setFlags l f).spages = T.spages := rfl
@[simp] theorem Team.setFlags_lblocks (T : Team) (l : Nat) (f : BitVec 16) : (T.setFlags l f).lblocks = T.lblocks := rfl
@[simp] theorem Team.setFlags_gain (T : Team) (l : Nat) (f : BitVec 16) : (T.setFlags l f).gain = T.gain := rfl
@[simp] theorem Team.setFlags_issued (T : Team) (l : Nat) (f : BitVec 16) : (T.setFlags l f).issued = T.issued := rfl
@[simp] theorem Team.setFlags_waited (T : Team) (l : Nat) (f : BitVec 16) : (T.setFlags l f).waited = T.waited := rfl
@[simp] theorem Team.setFlags_asked (T : Team) (l : Nat) (f : BitVec 16) : (T.setFlags l f).asked = T.asked := rfl

/-! ### Team.setItem -/

@[simp] theorem Team.setItem_id (T : Team) (l : Nat) (h : Option Held) : (T.setItem l h).id = T.id := rfl
@[simp] theorem Team.setItem_launch (T : Team) (l : Nat) (h : Option Held) : (T.setItem l h).launch = T.launch := rfl
@[simp] theorem Team.setItem_cohort (T : Team) (l : Nat) (h : Option Held) : (T.setItem l h).cohort = T.cohort := rfl
@[simp] theorem Team.setItem_tidx (T : Team) (l : Nat) (h : Option Held) : (T.setItem l h).tidx = T.tidx := rfl
@[simp] theorem Team.setItem_sort (T : Team) (l : Nat) (h : Option Held) : (T.setItem l h).sort = T.sort := rfl
@[simp] theorem Team.setItem_ctx (T : Team) (l : Nat) (h : Option Held) : (T.setItem l h).ctx = T.ctx := rfl
@[simp] theorem Team.setItem_core (T : Team) (l : Nat) (h : Option Held) : (T.setItem l h).core = T.core := rfl
@[simp] theorem Team.setItem_part (T : Team) (l : Nat) (h : Option Held) : (T.setItem l h).part = T.part := rfl
@[simp] theorem Team.setItem_slot (T : Team) (l : Nat) (h : Option Held) : (T.setItem l h).slot = T.slot := rfl
@[simp] theorem Team.setItem_pri (T : Team) (l : Nat) (h : Option Held) : (T.setItem l h).pri = T.pri := rfl
@[simp] theorem Team.setItem_hdr (T : Team) (l : Nat) (h : Option Held) : (T.setItem l h).hdr = T.hdr := rfl
@[simp] theorem Team.setItem_words (T : Team) (l : Nat) (h : Option Held) : (T.setItem l h).words = T.words := rfl
@[simp] theorem Team.setItem_vbud (T : Team) (l : Nat) (h : Option Held) : (T.setItem l h).vbud = T.vbud := rfl
@[simp] theorem Team.setItem_sbud (T : Team) (l : Nat) (h : Option Held) : (T.setItem l h).sbud = T.sbud := rfl
@[simp] theorem Team.setItem_widOf (T : Team) (l : Nat) (h : Option Held) : (T.setItem l h).widOf = T.widOf := rfl
@[simp] theorem Team.setItem_cohortOf (T : Team) (l : Nat) (h : Option Held) : (T.setItem l h).cohortOf = T.cohortOf := rfl
@[simp] theorem Team.setItem_spc (T : Team) (l : Nat) (h : Option Held) : (T.setItem l h).spc = T.spc := rfl
@[simp] theorem Team.setItem_sregs (T : Team) (l : Nat) (h : Option Held) : (T.setItem l h).sregs = T.sregs := rfl
@[simp] theorem Team.setItem_sempty (T : Team) (l : Nat) (h : Option Held) : (T.setItem l h).sempty = T.sempty := rfl
@[simp] theorem Team.setItem_kflags (T : Team) (l : Nat) (h : Option Held) : (T.setItem l h).kflags = T.kflags := rfl
@[simp] theorem Team.setItem_vregs (T : Team) (l : Nat) (h : Option Held) : (T.setItem l h).vregs = T.vregs := rfl
@[simp] theorem Team.setItem_marks (T : Team) (l : Nat) (h : Option Held) : (T.setItem l h).marks = T.marks := rfl
@[simp] theorem Team.setItem_q (T : Team) (l : Nat) (h : Option Held) : (T.setItem l h).q = T.q := rfl
@[simp] theorem Team.setItem_fflags (T : Team) (l : Nat) (h : Option Held) : (T.setItem l h).fflags = T.fflags := rfl
@[simp] theorem Team.setItem_mask (T : Team) (l : Nat) (h : Option Held) : (T.setItem l h).mask = T.mask := rfl
@[simp] theorem Team.setItem_queue (T : Team) (l : Nat) (h : Option Held) : (T.setItem l h).queue = T.queue := rfl
@[simp] theorem Team.setItem_run (T : Team) (l : Nat) (h : Option Held) : (T.setItem l h).run = T.run := rfl
@[simp] theorem Team.setItem_split (T : Team) (l : Nat) (h : Option Held) : (T.setItem l h).split = T.split := rfl
@[simp] theorem Team.setItem_hqueue (T : Team) (l : Nat) (h : Option Held) : (T.setItem l h).hqueue = T.hqueue := rfl
@[simp] theorem Team.setItem_hrun (T : Team) (l : Nat) (h : Option Held) : (T.setItem l h).hrun = T.hrun := rfl
@[simp] theorem Team.setItem_hsplit (T : Team) (l : Nat) (h : Option Held) : (T.setItem l h).hsplit = T.hsplit := rfl
@[simp] theorem Team.setItem_splitsel (T : Team) (l : Nat) (h : Option Held) : (T.setItem l h).splitsel = T.splitsel := rfl
@[simp] theorem Team.setItem_clock (T : Team) (l : Nat) (h : Option Held) : (T.setItem l h).clock = T.clock := rfl
@[simp] theorem Team.setItem_waitlimit (T : Team) (l : Nat) (h : Option Held) : (T.setItem l h).waitlimit = T.waitlimit := rfl
@[simp] theorem Team.setItem_tvec (T : Team) (l : Nat) (h : Option Held) : (T.setItem l h).tvec = T.tvec := rfl
@[simp] theorem Team.setItem_trapcause (T : Team) (l : Nat) (h : Option Held) : (T.setItem l h).trapcause = T.trapcause := rfl
@[simp] theorem Team.setItem_trappc (T : Team) (l : Nat) (h : Option Held) : (T.setItem l h).trappc = T.trappc := rfl
@[simp] theorem Team.setItem_faultmask (T : Team) (l : Nat) (h : Option Held) : (T.setItem l h).faultmask = T.faultmask := rfl
@[simp] theorem Team.setItem_regionpc (T : Team) (l : Nat) (h : Option Held) : (T.setItem l h).regionpc = T.regionpc := rfl
@[simp] theorem Team.setItem_livein (T : Team) (l : Nat) (h : Option Held) : (T.setItem l h).livein = T.livein := rfl
@[simp] theorem Team.setItem_regionNo (T : Team) (l : Nat) (h : Option Held) : (T.setItem l h).regionNo = T.regionNo := rfl
@[simp] theorem Team.setItem_committed (T : Team) (l : Nat) (h : Option Held) : (T.setItem l h).committed = T.committed := rfl
@[simp] theorem Team.setItem_trapLevel (T : Team) (l : Nat) (h : Option Held) : (T.setItem l h).trapLevel = T.trapLevel := rfl
@[simp] theorem Team.setItem_raised (T : Team) (l : Nat) (h : Option Held) : (T.setItem l h).raised = T.raised := rfl
@[simp] theorem Team.setItem_crit (T : Team) (l : Nat) (h : Option Held) : (T.setItem l h).crit = T.crit := rfl
@[simp] theorem Team.setItem_dying (T : Team) (l : Nat) (h : Option Held) : (T.setItem l h).dying = T.dying := rfl
@[simp] theorem Team.setItem_preq (T : Team) (l : Nat) (h : Option Held) : (T.setItem l h).preq = T.preq := rfl
@[simp] theorem Team.setItem_mfmt (T : Team) (l : Nat) (h : Option Held) : (T.setItem l h).mfmt = T.mfmt := rfl
@[simp] theorem Team.setItem_codebook (T : Team) (l : Nat) (h : Option Held) : (T.setItem l h).codebook = T.codebook := rfl
@[simp] theorem Team.setItem_tiles (T : Team) (l : Nat) (h : Option Held) : (T.setItem l h).tiles = T.tiles := rfl
@[simp] theorem Team.setItem_tilesDone (T : Team) (l : Nat) (h : Option Held) : (T.setItem l h).tilesDone = T.tilesDone := rfl
@[simp] theorem Team.setItem_fills (T : Team) (l : Nat) (h : Option Held) : (T.setItem l h).fills = T.fills := rfl
@[simp] theorem Team.setItem_shist (T : Team) (l : Nat) (h : Option Held) : (T.setItem l h).shist = T.shist := rfl
@[simp] theorem Team.setItem_sfenced (T : Team) (l : Nat) (h : Option Held) : (T.setItem l h).sfenced = T.sfenced := rfl
@[simp] theorem Team.setItem_sfill (T : Team) (l : Nat) (h : Option Held) : (T.setItem l h).sfill = T.sfill := rfl
@[simp] theorem Team.setItem_swaited (T : Team) (l : Nat) (h : Option Held) : (T.setItem l h).swaited = T.swaited := rfl
@[simp] theorem Team.setItem_swait (T : Team) (l : Nat) (h : Option Held) : (T.setItem l h).swait = T.swait := rfl
@[simp] theorem Team.setItem_sfailed (T : Team) (l : Nat) (h : Option Held) : (T.setItem l h).sfailed = T.sfailed := rfl
@[simp] theorem Team.setItem_tried (T : Team) (l : Nat) (h : Option Held) : (T.setItem l h).tried = T.tried := rfl
@[simp] theorem Team.setItem_lqAt (T : Team) (l : Nat) (h : Option Held) : (T.setItem l h).lqAt = T.lqAt := rfl
@[simp] theorem Team.setItem_replied (T : Team) (l : Nat) (h : Option Held) : (T.setItem l h).replied = T.replied := rfl
@[simp] theorem Team.setItem_fromResv (T : Team) (l : Nat) (h : Option Held) : (T.setItem l h).fromResv = T.fromResv := rfl
@[simp] theorem Team.setItem_spages (T : Team) (l : Nat) (h : Option Held) : (T.setItem l h).spages = T.spages := rfl
@[simp] theorem Team.setItem_lblocks (T : Team) (l : Nat) (h : Option Held) : (T.setItem l h).lblocks = T.lblocks := rfl
@[simp] theorem Team.setItem_gain (T : Team) (l : Nat) (h : Option Held) : (T.setItem l h).gain = T.gain := rfl
@[simp] theorem Team.setItem_issued (T : Team) (l : Nat) (h : Option Held) : (T.setItem l h).issued = T.issued := rfl
@[simp] theorem Team.setItem_waited (T : Team) (l : Nat) (h : Option Held) : (T.setItem l h).waited = T.waited := rfl
@[simp] theorem Team.setItem_asked (T : Team) (l : Nat) (h : Option Held) : (T.setItem l h).asked = T.asked := rfl

/-! ### Team.setK -/

@[simp] theorem Team.setK_id (T : Team) (k : Nat) (v : Tri) : (T.setK k v).id = T.id := rfl
@[simp] theorem Team.setK_launch (T : Team) (k : Nat) (v : Tri) : (T.setK k v).launch = T.launch := rfl
@[simp] theorem Team.setK_cohort (T : Team) (k : Nat) (v : Tri) : (T.setK k v).cohort = T.cohort := rfl
@[simp] theorem Team.setK_tidx (T : Team) (k : Nat) (v : Tri) : (T.setK k v).tidx = T.tidx := rfl
@[simp] theorem Team.setK_sort (T : Team) (k : Nat) (v : Tri) : (T.setK k v).sort = T.sort := rfl
@[simp] theorem Team.setK_ctx (T : Team) (k : Nat) (v : Tri) : (T.setK k v).ctx = T.ctx := rfl
@[simp] theorem Team.setK_core (T : Team) (k : Nat) (v : Tri) : (T.setK k v).core = T.core := rfl
@[simp] theorem Team.setK_part (T : Team) (k : Nat) (v : Tri) : (T.setK k v).part = T.part := rfl
@[simp] theorem Team.setK_slot (T : Team) (k : Nat) (v : Tri) : (T.setK k v).slot = T.slot := rfl
@[simp] theorem Team.setK_pri (T : Team) (k : Nat) (v : Tri) : (T.setK k v).pri = T.pri := rfl
@[simp] theorem Team.setK_hdr (T : Team) (k : Nat) (v : Tri) : (T.setK k v).hdr = T.hdr := rfl
@[simp] theorem Team.setK_words (T : Team) (k : Nat) (v : Tri) : (T.setK k v).words = T.words := rfl
@[simp] theorem Team.setK_vbud (T : Team) (k : Nat) (v : Tri) : (T.setK k v).vbud = T.vbud := rfl
@[simp] theorem Team.setK_sbud (T : Team) (k : Nat) (v : Tri) : (T.setK k v).sbud = T.sbud := rfl
@[simp] theorem Team.setK_widOf (T : Team) (k : Nat) (v : Tri) : (T.setK k v).widOf = T.widOf := rfl
@[simp] theorem Team.setK_cohortOf (T : Team) (k : Nat) (v : Tri) : (T.setK k v).cohortOf = T.cohortOf := rfl
@[simp] theorem Team.setK_spc (T : Team) (k : Nat) (v : Tri) : (T.setK k v).spc = T.spc := rfl
@[simp] theorem Team.setK_sregs (T : Team) (k : Nat) (v : Tri) : (T.setK k v).sregs = T.sregs := rfl
@[simp] theorem Team.setK_sempty (T : Team) (k : Nat) (v : Tri) : (T.setK k v).sempty = T.sempty := rfl
@[simp] theorem Team.setK_vregs (T : Team) (k : Nat) (v : Tri) : (T.setK k v).vregs = T.vregs := rfl
@[simp] theorem Team.setK_marks (T : Team) (k : Nat) (v : Tri) : (T.setK k v).marks = T.marks := rfl
@[simp] theorem Team.setK_q (T : Team) (k : Nat) (v : Tri) : (T.setK k v).q = T.q := rfl
@[simp] theorem Team.setK_fflags (T : Team) (k : Nat) (v : Tri) : (T.setK k v).fflags = T.fflags := rfl
@[simp] theorem Team.setK_items (T : Team) (k : Nat) (v : Tri) : (T.setK k v).items = T.items := rfl
@[simp] theorem Team.setK_mask (T : Team) (k : Nat) (v : Tri) : (T.setK k v).mask = T.mask := rfl
@[simp] theorem Team.setK_queue (T : Team) (k : Nat) (v : Tri) : (T.setK k v).queue = T.queue := rfl
@[simp] theorem Team.setK_run (T : Team) (k : Nat) (v : Tri) : (T.setK k v).run = T.run := rfl
@[simp] theorem Team.setK_split (T : Team) (k : Nat) (v : Tri) : (T.setK k v).split = T.split := rfl
@[simp] theorem Team.setK_hqueue (T : Team) (k : Nat) (v : Tri) : (T.setK k v).hqueue = T.hqueue := rfl
@[simp] theorem Team.setK_hrun (T : Team) (k : Nat) (v : Tri) : (T.setK k v).hrun = T.hrun := rfl
@[simp] theorem Team.setK_hsplit (T : Team) (k : Nat) (v : Tri) : (T.setK k v).hsplit = T.hsplit := rfl
@[simp] theorem Team.setK_splitsel (T : Team) (k : Nat) (v : Tri) : (T.setK k v).splitsel = T.splitsel := rfl
@[simp] theorem Team.setK_clock (T : Team) (k : Nat) (v : Tri) : (T.setK k v).clock = T.clock := rfl
@[simp] theorem Team.setK_waitlimit (T : Team) (k : Nat) (v : Tri) : (T.setK k v).waitlimit = T.waitlimit := rfl
@[simp] theorem Team.setK_tvec (T : Team) (k : Nat) (v : Tri) : (T.setK k v).tvec = T.tvec := rfl
@[simp] theorem Team.setK_trapcause (T : Team) (k : Nat) (v : Tri) : (T.setK k v).trapcause = T.trapcause := rfl
@[simp] theorem Team.setK_trappc (T : Team) (k : Nat) (v : Tri) : (T.setK k v).trappc = T.trappc := rfl
@[simp] theorem Team.setK_faultmask (T : Team) (k : Nat) (v : Tri) : (T.setK k v).faultmask = T.faultmask := rfl
@[simp] theorem Team.setK_regionpc (T : Team) (k : Nat) (v : Tri) : (T.setK k v).regionpc = T.regionpc := rfl
@[simp] theorem Team.setK_livein (T : Team) (k : Nat) (v : Tri) : (T.setK k v).livein = T.livein := rfl
@[simp] theorem Team.setK_regionNo (T : Team) (k : Nat) (v : Tri) : (T.setK k v).regionNo = T.regionNo := rfl
@[simp] theorem Team.setK_committed (T : Team) (k : Nat) (v : Tri) : (T.setK k v).committed = T.committed := rfl
@[simp] theorem Team.setK_trapLevel (T : Team) (k : Nat) (v : Tri) : (T.setK k v).trapLevel = T.trapLevel := rfl
@[simp] theorem Team.setK_raised (T : Team) (k : Nat) (v : Tri) : (T.setK k v).raised = T.raised := rfl
@[simp] theorem Team.setK_crit (T : Team) (k : Nat) (v : Tri) : (T.setK k v).crit = T.crit := rfl
@[simp] theorem Team.setK_dying (T : Team) (k : Nat) (v : Tri) : (T.setK k v).dying = T.dying := rfl
@[simp] theorem Team.setK_preq (T : Team) (k : Nat) (v : Tri) : (T.setK k v).preq = T.preq := rfl
@[simp] theorem Team.setK_mfmt (T : Team) (k : Nat) (v : Tri) : (T.setK k v).mfmt = T.mfmt := rfl
@[simp] theorem Team.setK_codebook (T : Team) (k : Nat) (v : Tri) : (T.setK k v).codebook = T.codebook := rfl
@[simp] theorem Team.setK_tiles (T : Team) (k : Nat) (v : Tri) : (T.setK k v).tiles = T.tiles := rfl
@[simp] theorem Team.setK_tilesDone (T : Team) (k : Nat) (v : Tri) : (T.setK k v).tilesDone = T.tilesDone := rfl
@[simp] theorem Team.setK_fills (T : Team) (k : Nat) (v : Tri) : (T.setK k v).fills = T.fills := rfl
@[simp] theorem Team.setK_shist (T : Team) (k : Nat) (v : Tri) : (T.setK k v).shist = T.shist := rfl
@[simp] theorem Team.setK_sfenced (T : Team) (k : Nat) (v : Tri) : (T.setK k v).sfenced = T.sfenced := rfl
@[simp] theorem Team.setK_sfill (T : Team) (k : Nat) (v : Tri) : (T.setK k v).sfill = T.sfill := rfl
@[simp] theorem Team.setK_swaited (T : Team) (k : Nat) (v : Tri) : (T.setK k v).swaited = T.swaited := rfl
@[simp] theorem Team.setK_swait (T : Team) (k : Nat) (v : Tri) : (T.setK k v).swait = T.swait := rfl
@[simp] theorem Team.setK_sfailed (T : Team) (k : Nat) (v : Tri) : (T.setK k v).sfailed = T.sfailed := rfl
@[simp] theorem Team.setK_tried (T : Team) (k : Nat) (v : Tri) : (T.setK k v).tried = T.tried := rfl
@[simp] theorem Team.setK_lqAt (T : Team) (k : Nat) (v : Tri) : (T.setK k v).lqAt = T.lqAt := rfl
@[simp] theorem Team.setK_replied (T : Team) (k : Nat) (v : Tri) : (T.setK k v).replied = T.replied := rfl
@[simp] theorem Team.setK_fromResv (T : Team) (k : Nat) (v : Tri) : (T.setK k v).fromResv = T.fromResv := rfl
@[simp] theorem Team.setK_spages (T : Team) (k : Nat) (v : Tri) : (T.setK k v).spages = T.spages := rfl
@[simp] theorem Team.setK_lblocks (T : Team) (k : Nat) (v : Tri) : (T.setK k v).lblocks = T.lblocks := rfl
@[simp] theorem Team.setK_gain (T : Team) (k : Nat) (v : Tri) : (T.setK k v).gain = T.gain := rfl
@[simp] theorem Team.setK_issued (T : Team) (k : Nat) (v : Tri) : (T.setK k v).issued = T.issued := rfl
@[simp] theorem Team.setK_waited (T : Team) (k : Nat) (v : Tri) : (T.setK k v).waited = T.waited := rfl
@[simp] theorem Team.setK_asked (T : Team) (k : Nat) (v : Tri) : (T.setK k v).asked = T.asked := rfl

/-! ### Team.setS -/

@[simp] theorem Team.setS_id (T : Team) (n : Nat) (w : Word) : (T.setS n w).id = T.id := by unfold Team.setS; split <;> rfl
@[simp] theorem Team.setS_launch (T : Team) (n : Nat) (w : Word) : (T.setS n w).launch = T.launch := by unfold Team.setS; split <;> rfl
@[simp] theorem Team.setS_cohort (T : Team) (n : Nat) (w : Word) : (T.setS n w).cohort = T.cohort := by unfold Team.setS; split <;> rfl
@[simp] theorem Team.setS_tidx (T : Team) (n : Nat) (w : Word) : (T.setS n w).tidx = T.tidx := by unfold Team.setS; split <;> rfl
@[simp] theorem Team.setS_sort (T : Team) (n : Nat) (w : Word) : (T.setS n w).sort = T.sort := by unfold Team.setS; split <;> rfl
@[simp] theorem Team.setS_ctx (T : Team) (n : Nat) (w : Word) : (T.setS n w).ctx = T.ctx := by unfold Team.setS; split <;> rfl
@[simp] theorem Team.setS_core (T : Team) (n : Nat) (w : Word) : (T.setS n w).core = T.core := by unfold Team.setS; split <;> rfl
@[simp] theorem Team.setS_part (T : Team) (n : Nat) (w : Word) : (T.setS n w).part = T.part := by unfold Team.setS; split <;> rfl
@[simp] theorem Team.setS_slot (T : Team) (n : Nat) (w : Word) : (T.setS n w).slot = T.slot := by unfold Team.setS; split <;> rfl
@[simp] theorem Team.setS_pri (T : Team) (n : Nat) (w : Word) : (T.setS n w).pri = T.pri := by unfold Team.setS; split <;> rfl
@[simp] theorem Team.setS_hdr (T : Team) (n : Nat) (w : Word) : (T.setS n w).hdr = T.hdr := by unfold Team.setS; split <;> rfl
@[simp] theorem Team.setS_words (T : Team) (n : Nat) (w : Word) : (T.setS n w).words = T.words := by unfold Team.setS; split <;> rfl
@[simp] theorem Team.setS_vbud (T : Team) (n : Nat) (w : Word) : (T.setS n w).vbud = T.vbud := by unfold Team.setS; split <;> rfl
@[simp] theorem Team.setS_sbud (T : Team) (n : Nat) (w : Word) : (T.setS n w).sbud = T.sbud := by unfold Team.setS; split <;> rfl
@[simp] theorem Team.setS_widOf (T : Team) (n : Nat) (w : Word) : (T.setS n w).widOf = T.widOf := by unfold Team.setS; split <;> rfl
@[simp] theorem Team.setS_cohortOf (T : Team) (n : Nat) (w : Word) : (T.setS n w).cohortOf = T.cohortOf := by unfold Team.setS; split <;> rfl
@[simp] theorem Team.setS_spc (T : Team) (n : Nat) (w : Word) : (T.setS n w).spc = T.spc := by unfold Team.setS; split <;> rfl
@[simp] theorem Team.setS_kflags (T : Team) (n : Nat) (w : Word) : (T.setS n w).kflags = T.kflags := by unfold Team.setS; split <;> rfl
@[simp] theorem Team.setS_vregs (T : Team) (n : Nat) (w : Word) : (T.setS n w).vregs = T.vregs := by unfold Team.setS; split <;> rfl
@[simp] theorem Team.setS_marks (T : Team) (n : Nat) (w : Word) : (T.setS n w).marks = T.marks := by unfold Team.setS; split <;> rfl
@[simp] theorem Team.setS_q (T : Team) (n : Nat) (w : Word) : (T.setS n w).q = T.q := by unfold Team.setS; split <;> rfl
@[simp] theorem Team.setS_fflags (T : Team) (n : Nat) (w : Word) : (T.setS n w).fflags = T.fflags := by unfold Team.setS; split <;> rfl
@[simp] theorem Team.setS_items (T : Team) (n : Nat) (w : Word) : (T.setS n w).items = T.items := by unfold Team.setS; split <;> rfl
@[simp] theorem Team.setS_mask (T : Team) (n : Nat) (w : Word) : (T.setS n w).mask = T.mask := by unfold Team.setS; split <;> rfl
@[simp] theorem Team.setS_queue (T : Team) (n : Nat) (w : Word) : (T.setS n w).queue = T.queue := by unfold Team.setS; split <;> rfl
@[simp] theorem Team.setS_run (T : Team) (n : Nat) (w : Word) : (T.setS n w).run = T.run := by unfold Team.setS; split <;> rfl
@[simp] theorem Team.setS_split (T : Team) (n : Nat) (w : Word) : (T.setS n w).split = T.split := by unfold Team.setS; split <;> rfl
@[simp] theorem Team.setS_hqueue (T : Team) (n : Nat) (w : Word) : (T.setS n w).hqueue = T.hqueue := by unfold Team.setS; split <;> rfl
@[simp] theorem Team.setS_hrun (T : Team) (n : Nat) (w : Word) : (T.setS n w).hrun = T.hrun := by unfold Team.setS; split <;> rfl
@[simp] theorem Team.setS_hsplit (T : Team) (n : Nat) (w : Word) : (T.setS n w).hsplit = T.hsplit := by unfold Team.setS; split <;> rfl
@[simp] theorem Team.setS_splitsel (T : Team) (n : Nat) (w : Word) : (T.setS n w).splitsel = T.splitsel := by unfold Team.setS; split <;> rfl
@[simp] theorem Team.setS_clock (T : Team) (n : Nat) (w : Word) : (T.setS n w).clock = T.clock := by unfold Team.setS; split <;> rfl
@[simp] theorem Team.setS_waitlimit (T : Team) (n : Nat) (w : Word) : (T.setS n w).waitlimit = T.waitlimit := by unfold Team.setS; split <;> rfl
@[simp] theorem Team.setS_tvec (T : Team) (n : Nat) (w : Word) : (T.setS n w).tvec = T.tvec := by unfold Team.setS; split <;> rfl
@[simp] theorem Team.setS_trapcause (T : Team) (n : Nat) (w : Word) : (T.setS n w).trapcause = T.trapcause := by unfold Team.setS; split <;> rfl
@[simp] theorem Team.setS_trappc (T : Team) (n : Nat) (w : Word) : (T.setS n w).trappc = T.trappc := by unfold Team.setS; split <;> rfl
@[simp] theorem Team.setS_faultmask (T : Team) (n : Nat) (w : Word) : (T.setS n w).faultmask = T.faultmask := by unfold Team.setS; split <;> rfl
@[simp] theorem Team.setS_regionpc (T : Team) (n : Nat) (w : Word) : (T.setS n w).regionpc = T.regionpc := by unfold Team.setS; split <;> rfl
@[simp] theorem Team.setS_livein (T : Team) (n : Nat) (w : Word) : (T.setS n w).livein = T.livein := by unfold Team.setS; split <;> rfl
@[simp] theorem Team.setS_regionNo (T : Team) (n : Nat) (w : Word) : (T.setS n w).regionNo = T.regionNo := by unfold Team.setS; split <;> rfl
@[simp] theorem Team.setS_committed (T : Team) (n : Nat) (w : Word) : (T.setS n w).committed = T.committed := by unfold Team.setS; split <;> rfl
@[simp] theorem Team.setS_trapLevel (T : Team) (n : Nat) (w : Word) : (T.setS n w).trapLevel = T.trapLevel := by unfold Team.setS; split <;> rfl
@[simp] theorem Team.setS_raised (T : Team) (n : Nat) (w : Word) : (T.setS n w).raised = T.raised := by unfold Team.setS; split <;> rfl
@[simp] theorem Team.setS_crit (T : Team) (n : Nat) (w : Word) : (T.setS n w).crit = T.crit := by unfold Team.setS; split <;> rfl
@[simp] theorem Team.setS_dying (T : Team) (n : Nat) (w : Word) : (T.setS n w).dying = T.dying := by unfold Team.setS; split <;> rfl
@[simp] theorem Team.setS_preq (T : Team) (n : Nat) (w : Word) : (T.setS n w).preq = T.preq := by unfold Team.setS; split <;> rfl
@[simp] theorem Team.setS_mfmt (T : Team) (n : Nat) (w : Word) : (T.setS n w).mfmt = T.mfmt := by unfold Team.setS; split <;> rfl
@[simp] theorem Team.setS_codebook (T : Team) (n : Nat) (w : Word) : (T.setS n w).codebook = T.codebook := by unfold Team.setS; split <;> rfl
@[simp] theorem Team.setS_tiles (T : Team) (n : Nat) (w : Word) : (T.setS n w).tiles = T.tiles := by unfold Team.setS; split <;> rfl
@[simp] theorem Team.setS_tilesDone (T : Team) (n : Nat) (w : Word) : (T.setS n w).tilesDone = T.tilesDone := by unfold Team.setS; split <;> rfl
@[simp] theorem Team.setS_fills (T : Team) (n : Nat) (w : Word) : (T.setS n w).fills = T.fills := by unfold Team.setS; split <;> rfl
@[simp] theorem Team.setS_shist (T : Team) (n : Nat) (w : Word) : (T.setS n w).shist = T.shist := by unfold Team.setS; split <;> rfl
@[simp] theorem Team.setS_sfenced (T : Team) (n : Nat) (w : Word) : (T.setS n w).sfenced = T.sfenced := by unfold Team.setS; split <;> rfl
@[simp] theorem Team.setS_sfill (T : Team) (n : Nat) (w : Word) : (T.setS n w).sfill = T.sfill := by unfold Team.setS; split <;> rfl
@[simp] theorem Team.setS_swaited (T : Team) (n : Nat) (w : Word) : (T.setS n w).swaited = T.swaited := by unfold Team.setS; split <;> rfl
@[simp] theorem Team.setS_swait (T : Team) (n : Nat) (w : Word) : (T.setS n w).swait = T.swait := by unfold Team.setS; split <;> rfl
@[simp] theorem Team.setS_sfailed (T : Team) (n : Nat) (w : Word) : (T.setS n w).sfailed = T.sfailed := by unfold Team.setS; split <;> rfl
@[simp] theorem Team.setS_tried (T : Team) (n : Nat) (w : Word) : (T.setS n w).tried = T.tried := by unfold Team.setS; split <;> rfl
@[simp] theorem Team.setS_lqAt (T : Team) (n : Nat) (w : Word) : (T.setS n w).lqAt = T.lqAt := by unfold Team.setS; split <;> rfl
@[simp] theorem Team.setS_replied (T : Team) (n : Nat) (w : Word) : (T.setS n w).replied = T.replied := by unfold Team.setS; split <;> rfl
@[simp] theorem Team.setS_fromResv (T : Team) (n : Nat) (w : Word) : (T.setS n w).fromResv = T.fromResv := by unfold Team.setS; split <;> rfl
@[simp] theorem Team.setS_spages (T : Team) (n : Nat) (w : Word) : (T.setS n w).spages = T.spages := by unfold Team.setS; split <;> rfl
@[simp] theorem Team.setS_lblocks (T : Team) (n : Nat) (w : Word) : (T.setS n w).lblocks = T.lblocks := by unfold Team.setS; split <;> rfl
@[simp] theorem Team.setS_gain (T : Team) (n : Nat) (w : Word) : (T.setS n w).gain = T.gain := by unfold Team.setS; split <;> rfl
@[simp] theorem Team.setS_issued (T : Team) (n : Nat) (w : Word) : (T.setS n w).issued = T.issued := by unfold Team.setS; split <;> rfl
@[simp] theorem Team.setS_waited (T : Team) (n : Nat) (w : Word) : (T.setS n w).waited = T.waited := by unfold Team.setS; split <;> rfl
@[simp] theorem Team.setS_asked (T : Team) (n : Nat) (w : Word) : (T.setS n w).asked = T.asked := by unfold Team.setS; split <;> rfl

/-! ### Team.emptyS -/

@[simp] theorem Team.emptyS_id (T : Team) (n : Nat) : (T.emptyS n).id = T.id := by unfold Team.emptyS; split <;> rfl
@[simp] theorem Team.emptyS_launch (T : Team) (n : Nat) : (T.emptyS n).launch = T.launch := by unfold Team.emptyS; split <;> rfl
@[simp] theorem Team.emptyS_cohort (T : Team) (n : Nat) : (T.emptyS n).cohort = T.cohort := by unfold Team.emptyS; split <;> rfl
@[simp] theorem Team.emptyS_tidx (T : Team) (n : Nat) : (T.emptyS n).tidx = T.tidx := by unfold Team.emptyS; split <;> rfl
@[simp] theorem Team.emptyS_sort (T : Team) (n : Nat) : (T.emptyS n).sort = T.sort := by unfold Team.emptyS; split <;> rfl
@[simp] theorem Team.emptyS_ctx (T : Team) (n : Nat) : (T.emptyS n).ctx = T.ctx := by unfold Team.emptyS; split <;> rfl
@[simp] theorem Team.emptyS_core (T : Team) (n : Nat) : (T.emptyS n).core = T.core := by unfold Team.emptyS; split <;> rfl
@[simp] theorem Team.emptyS_part (T : Team) (n : Nat) : (T.emptyS n).part = T.part := by unfold Team.emptyS; split <;> rfl
@[simp] theorem Team.emptyS_slot (T : Team) (n : Nat) : (T.emptyS n).slot = T.slot := by unfold Team.emptyS; split <;> rfl
@[simp] theorem Team.emptyS_pri (T : Team) (n : Nat) : (T.emptyS n).pri = T.pri := by unfold Team.emptyS; split <;> rfl
@[simp] theorem Team.emptyS_hdr (T : Team) (n : Nat) : (T.emptyS n).hdr = T.hdr := by unfold Team.emptyS; split <;> rfl
@[simp] theorem Team.emptyS_words (T : Team) (n : Nat) : (T.emptyS n).words = T.words := by unfold Team.emptyS; split <;> rfl
@[simp] theorem Team.emptyS_vbud (T : Team) (n : Nat) : (T.emptyS n).vbud = T.vbud := by unfold Team.emptyS; split <;> rfl
@[simp] theorem Team.emptyS_sbud (T : Team) (n : Nat) : (T.emptyS n).sbud = T.sbud := by unfold Team.emptyS; split <;> rfl
@[simp] theorem Team.emptyS_widOf (T : Team) (n : Nat) : (T.emptyS n).widOf = T.widOf := by unfold Team.emptyS; split <;> rfl
@[simp] theorem Team.emptyS_cohortOf (T : Team) (n : Nat) : (T.emptyS n).cohortOf = T.cohortOf := by unfold Team.emptyS; split <;> rfl
@[simp] theorem Team.emptyS_spc (T : Team) (n : Nat) : (T.emptyS n).spc = T.spc := by unfold Team.emptyS; split <;> rfl
@[simp] theorem Team.emptyS_sregs (T : Team) (n : Nat) : (T.emptyS n).sregs = T.sregs := by unfold Team.emptyS; split <;> rfl
@[simp] theorem Team.emptyS_kflags (T : Team) (n : Nat) : (T.emptyS n).kflags = T.kflags := by unfold Team.emptyS; split <;> rfl
@[simp] theorem Team.emptyS_vregs (T : Team) (n : Nat) : (T.emptyS n).vregs = T.vregs := by unfold Team.emptyS; split <;> rfl
@[simp] theorem Team.emptyS_marks (T : Team) (n : Nat) : (T.emptyS n).marks = T.marks := by unfold Team.emptyS; split <;> rfl
@[simp] theorem Team.emptyS_q (T : Team) (n : Nat) : (T.emptyS n).q = T.q := by unfold Team.emptyS; split <;> rfl
@[simp] theorem Team.emptyS_fflags (T : Team) (n : Nat) : (T.emptyS n).fflags = T.fflags := by unfold Team.emptyS; split <;> rfl
@[simp] theorem Team.emptyS_items (T : Team) (n : Nat) : (T.emptyS n).items = T.items := by unfold Team.emptyS; split <;> rfl
@[simp] theorem Team.emptyS_mask (T : Team) (n : Nat) : (T.emptyS n).mask = T.mask := by unfold Team.emptyS; split <;> rfl
@[simp] theorem Team.emptyS_queue (T : Team) (n : Nat) : (T.emptyS n).queue = T.queue := by unfold Team.emptyS; split <;> rfl
@[simp] theorem Team.emptyS_run (T : Team) (n : Nat) : (T.emptyS n).run = T.run := by unfold Team.emptyS; split <;> rfl
@[simp] theorem Team.emptyS_split (T : Team) (n : Nat) : (T.emptyS n).split = T.split := by unfold Team.emptyS; split <;> rfl
@[simp] theorem Team.emptyS_hqueue (T : Team) (n : Nat) : (T.emptyS n).hqueue = T.hqueue := by unfold Team.emptyS; split <;> rfl
@[simp] theorem Team.emptyS_hrun (T : Team) (n : Nat) : (T.emptyS n).hrun = T.hrun := by unfold Team.emptyS; split <;> rfl
@[simp] theorem Team.emptyS_hsplit (T : Team) (n : Nat) : (T.emptyS n).hsplit = T.hsplit := by unfold Team.emptyS; split <;> rfl
@[simp] theorem Team.emptyS_splitsel (T : Team) (n : Nat) : (T.emptyS n).splitsel = T.splitsel := by unfold Team.emptyS; split <;> rfl
@[simp] theorem Team.emptyS_clock (T : Team) (n : Nat) : (T.emptyS n).clock = T.clock := by unfold Team.emptyS; split <;> rfl
@[simp] theorem Team.emptyS_waitlimit (T : Team) (n : Nat) : (T.emptyS n).waitlimit = T.waitlimit := by unfold Team.emptyS; split <;> rfl
@[simp] theorem Team.emptyS_tvec (T : Team) (n : Nat) : (T.emptyS n).tvec = T.tvec := by unfold Team.emptyS; split <;> rfl
@[simp] theorem Team.emptyS_trapcause (T : Team) (n : Nat) : (T.emptyS n).trapcause = T.trapcause := by unfold Team.emptyS; split <;> rfl
@[simp] theorem Team.emptyS_trappc (T : Team) (n : Nat) : (T.emptyS n).trappc = T.trappc := by unfold Team.emptyS; split <;> rfl
@[simp] theorem Team.emptyS_faultmask (T : Team) (n : Nat) : (T.emptyS n).faultmask = T.faultmask := by unfold Team.emptyS; split <;> rfl
@[simp] theorem Team.emptyS_regionpc (T : Team) (n : Nat) : (T.emptyS n).regionpc = T.regionpc := by unfold Team.emptyS; split <;> rfl
@[simp] theorem Team.emptyS_livein (T : Team) (n : Nat) : (T.emptyS n).livein = T.livein := by unfold Team.emptyS; split <;> rfl
@[simp] theorem Team.emptyS_regionNo (T : Team) (n : Nat) : (T.emptyS n).regionNo = T.regionNo := by unfold Team.emptyS; split <;> rfl
@[simp] theorem Team.emptyS_committed (T : Team) (n : Nat) : (T.emptyS n).committed = T.committed := by unfold Team.emptyS; split <;> rfl
@[simp] theorem Team.emptyS_trapLevel (T : Team) (n : Nat) : (T.emptyS n).trapLevel = T.trapLevel := by unfold Team.emptyS; split <;> rfl
@[simp] theorem Team.emptyS_raised (T : Team) (n : Nat) : (T.emptyS n).raised = T.raised := by unfold Team.emptyS; split <;> rfl
@[simp] theorem Team.emptyS_crit (T : Team) (n : Nat) : (T.emptyS n).crit = T.crit := by unfold Team.emptyS; split <;> rfl
@[simp] theorem Team.emptyS_dying (T : Team) (n : Nat) : (T.emptyS n).dying = T.dying := by unfold Team.emptyS; split <;> rfl
@[simp] theorem Team.emptyS_preq (T : Team) (n : Nat) : (T.emptyS n).preq = T.preq := by unfold Team.emptyS; split <;> rfl
@[simp] theorem Team.emptyS_mfmt (T : Team) (n : Nat) : (T.emptyS n).mfmt = T.mfmt := by unfold Team.emptyS; split <;> rfl
@[simp] theorem Team.emptyS_codebook (T : Team) (n : Nat) : (T.emptyS n).codebook = T.codebook := by unfold Team.emptyS; split <;> rfl
@[simp] theorem Team.emptyS_tiles (T : Team) (n : Nat) : (T.emptyS n).tiles = T.tiles := by unfold Team.emptyS; split <;> rfl
@[simp] theorem Team.emptyS_tilesDone (T : Team) (n : Nat) : (T.emptyS n).tilesDone = T.tilesDone := by unfold Team.emptyS; split <;> rfl
@[simp] theorem Team.emptyS_fills (T : Team) (n : Nat) : (T.emptyS n).fills = T.fills := by unfold Team.emptyS; split <;> rfl
@[simp] theorem Team.emptyS_shist (T : Team) (n : Nat) : (T.emptyS n).shist = T.shist := by unfold Team.emptyS; split <;> rfl
@[simp] theorem Team.emptyS_sfenced (T : Team) (n : Nat) : (T.emptyS n).sfenced = T.sfenced := by unfold Team.emptyS; split <;> rfl
@[simp] theorem Team.emptyS_swaited (T : Team) (n : Nat) : (T.emptyS n).swaited = T.swaited := by unfold Team.emptyS; split <;> rfl
@[simp] theorem Team.emptyS_swait (T : Team) (n : Nat) : (T.emptyS n).swait = T.swait := by unfold Team.emptyS; split <;> rfl
@[simp] theorem Team.emptyS_sfailed (T : Team) (n : Nat) : (T.emptyS n).sfailed = T.sfailed := by unfold Team.emptyS; split <;> rfl
@[simp] theorem Team.emptyS_tried (T : Team) (n : Nat) : (T.emptyS n).tried = T.tried := by unfold Team.emptyS; split <;> rfl
@[simp] theorem Team.emptyS_lqAt (T : Team) (n : Nat) : (T.emptyS n).lqAt = T.lqAt := by unfold Team.emptyS; split <;> rfl
@[simp] theorem Team.emptyS_replied (T : Team) (n : Nat) : (T.emptyS n).replied = T.replied := by unfold Team.emptyS; split <;> rfl
@[simp] theorem Team.emptyS_fromResv (T : Team) (n : Nat) : (T.emptyS n).fromResv = T.fromResv := by unfold Team.emptyS; split <;> rfl
@[simp] theorem Team.emptyS_spages (T : Team) (n : Nat) : (T.emptyS n).spages = T.spages := by unfold Team.emptyS; split <;> rfl
@[simp] theorem Team.emptyS_lblocks (T : Team) (n : Nat) : (T.emptyS n).lblocks = T.lblocks := by unfold Team.emptyS; split <;> rfl
@[simp] theorem Team.emptyS_gain (T : Team) (n : Nat) : (T.emptyS n).gain = T.gain := by unfold Team.emptyS; split <;> rfl
@[simp] theorem Team.emptyS_issued (T : Team) (n : Nat) : (T.emptyS n).issued = T.issued := by unfold Team.emptyS; split <;> rfl
@[simp] theorem Team.emptyS_waited (T : Team) (n : Nat) : (T.emptyS n).waited = T.waited := by unfold Team.emptyS; split <;> rfl
@[simp] theorem Team.emptyS_asked (T : Team) (n : Nat) : (T.emptyS n).asked = T.asked := by unfold Team.emptyS; split <;> rfl

/-! ### Team.setQ -/

@[simp] theorem Team.setQ_id (T : Team) (n l : Nat) (v : Tri) : (T.setQ n l v).id = T.id := by unfold Team.setQ; split <;> rfl
@[simp] theorem Team.setQ_launch (T : Team) (n l : Nat) (v : Tri) : (T.setQ n l v).launch = T.launch := by unfold Team.setQ; split <;> rfl
@[simp] theorem Team.setQ_cohort (T : Team) (n l : Nat) (v : Tri) : (T.setQ n l v).cohort = T.cohort := by unfold Team.setQ; split <;> rfl
@[simp] theorem Team.setQ_tidx (T : Team) (n l : Nat) (v : Tri) : (T.setQ n l v).tidx = T.tidx := by unfold Team.setQ; split <;> rfl
@[simp] theorem Team.setQ_sort (T : Team) (n l : Nat) (v : Tri) : (T.setQ n l v).sort = T.sort := by unfold Team.setQ; split <;> rfl
@[simp] theorem Team.setQ_ctx (T : Team) (n l : Nat) (v : Tri) : (T.setQ n l v).ctx = T.ctx := by unfold Team.setQ; split <;> rfl
@[simp] theorem Team.setQ_core (T : Team) (n l : Nat) (v : Tri) : (T.setQ n l v).core = T.core := by unfold Team.setQ; split <;> rfl
@[simp] theorem Team.setQ_part (T : Team) (n l : Nat) (v : Tri) : (T.setQ n l v).part = T.part := by unfold Team.setQ; split <;> rfl
@[simp] theorem Team.setQ_slot (T : Team) (n l : Nat) (v : Tri) : (T.setQ n l v).slot = T.slot := by unfold Team.setQ; split <;> rfl
@[simp] theorem Team.setQ_pri (T : Team) (n l : Nat) (v : Tri) : (T.setQ n l v).pri = T.pri := by unfold Team.setQ; split <;> rfl
@[simp] theorem Team.setQ_hdr (T : Team) (n l : Nat) (v : Tri) : (T.setQ n l v).hdr = T.hdr := by unfold Team.setQ; split <;> rfl
@[simp] theorem Team.setQ_words (T : Team) (n l : Nat) (v : Tri) : (T.setQ n l v).words = T.words := by unfold Team.setQ; split <;> rfl
@[simp] theorem Team.setQ_vbud (T : Team) (n l : Nat) (v : Tri) : (T.setQ n l v).vbud = T.vbud := by unfold Team.setQ; split <;> rfl
@[simp] theorem Team.setQ_sbud (T : Team) (n l : Nat) (v : Tri) : (T.setQ n l v).sbud = T.sbud := by unfold Team.setQ; split <;> rfl
@[simp] theorem Team.setQ_widOf (T : Team) (n l : Nat) (v : Tri) : (T.setQ n l v).widOf = T.widOf := by unfold Team.setQ; split <;> rfl
@[simp] theorem Team.setQ_cohortOf (T : Team) (n l : Nat) (v : Tri) : (T.setQ n l v).cohortOf = T.cohortOf := by unfold Team.setQ; split <;> rfl
@[simp] theorem Team.setQ_spc (T : Team) (n l : Nat) (v : Tri) : (T.setQ n l v).spc = T.spc := by unfold Team.setQ; split <;> rfl
@[simp] theorem Team.setQ_sregs (T : Team) (n l : Nat) (v : Tri) : (T.setQ n l v).sregs = T.sregs := by unfold Team.setQ; split <;> rfl
@[simp] theorem Team.setQ_sempty (T : Team) (n l : Nat) (v : Tri) : (T.setQ n l v).sempty = T.sempty := by unfold Team.setQ; split <;> rfl
@[simp] theorem Team.setQ_kflags (T : Team) (n l : Nat) (v : Tri) : (T.setQ n l v).kflags = T.kflags := by unfold Team.setQ; split <;> rfl
@[simp] theorem Team.setQ_vregs (T : Team) (n l : Nat) (v : Tri) : (T.setQ n l v).vregs = T.vregs := by unfold Team.setQ; split <;> rfl
@[simp] theorem Team.setQ_marks (T : Team) (n l : Nat) (v : Tri) : (T.setQ n l v).marks = T.marks := by unfold Team.setQ; split <;> rfl
@[simp] theorem Team.setQ_fflags (T : Team) (n l : Nat) (v : Tri) : (T.setQ n l v).fflags = T.fflags := by unfold Team.setQ; split <;> rfl
@[simp] theorem Team.setQ_items (T : Team) (n l : Nat) (v : Tri) : (T.setQ n l v).items = T.items := by unfold Team.setQ; split <;> rfl
@[simp] theorem Team.setQ_mask (T : Team) (n l : Nat) (v : Tri) : (T.setQ n l v).mask = T.mask := by unfold Team.setQ; split <;> rfl
@[simp] theorem Team.setQ_queue (T : Team) (n l : Nat) (v : Tri) : (T.setQ n l v).queue = T.queue := by unfold Team.setQ; split <;> rfl
@[simp] theorem Team.setQ_run (T : Team) (n l : Nat) (v : Tri) : (T.setQ n l v).run = T.run := by unfold Team.setQ; split <;> rfl
@[simp] theorem Team.setQ_split (T : Team) (n l : Nat) (v : Tri) : (T.setQ n l v).split = T.split := by unfold Team.setQ; split <;> rfl
@[simp] theorem Team.setQ_hqueue (T : Team) (n l : Nat) (v : Tri) : (T.setQ n l v).hqueue = T.hqueue := by unfold Team.setQ; split <;> rfl
@[simp] theorem Team.setQ_hrun (T : Team) (n l : Nat) (v : Tri) : (T.setQ n l v).hrun = T.hrun := by unfold Team.setQ; split <;> rfl
@[simp] theorem Team.setQ_hsplit (T : Team) (n l : Nat) (v : Tri) : (T.setQ n l v).hsplit = T.hsplit := by unfold Team.setQ; split <;> rfl
@[simp] theorem Team.setQ_splitsel (T : Team) (n l : Nat) (v : Tri) : (T.setQ n l v).splitsel = T.splitsel := by unfold Team.setQ; split <;> rfl
@[simp] theorem Team.setQ_clock (T : Team) (n l : Nat) (v : Tri) : (T.setQ n l v).clock = T.clock := by unfold Team.setQ; split <;> rfl
@[simp] theorem Team.setQ_waitlimit (T : Team) (n l : Nat) (v : Tri) : (T.setQ n l v).waitlimit = T.waitlimit := by unfold Team.setQ; split <;> rfl
@[simp] theorem Team.setQ_tvec (T : Team) (n l : Nat) (v : Tri) : (T.setQ n l v).tvec = T.tvec := by unfold Team.setQ; split <;> rfl
@[simp] theorem Team.setQ_trapcause (T : Team) (n l : Nat) (v : Tri) : (T.setQ n l v).trapcause = T.trapcause := by unfold Team.setQ; split <;> rfl
@[simp] theorem Team.setQ_trappc (T : Team) (n l : Nat) (v : Tri) : (T.setQ n l v).trappc = T.trappc := by unfold Team.setQ; split <;> rfl
@[simp] theorem Team.setQ_faultmask (T : Team) (n l : Nat) (v : Tri) : (T.setQ n l v).faultmask = T.faultmask := by unfold Team.setQ; split <;> rfl
@[simp] theorem Team.setQ_regionpc (T : Team) (n l : Nat) (v : Tri) : (T.setQ n l v).regionpc = T.regionpc := by unfold Team.setQ; split <;> rfl
@[simp] theorem Team.setQ_livein (T : Team) (n l : Nat) (v : Tri) : (T.setQ n l v).livein = T.livein := by unfold Team.setQ; split <;> rfl
@[simp] theorem Team.setQ_regionNo (T : Team) (n l : Nat) (v : Tri) : (T.setQ n l v).regionNo = T.regionNo := by unfold Team.setQ; split <;> rfl
@[simp] theorem Team.setQ_committed (T : Team) (n l : Nat) (v : Tri) : (T.setQ n l v).committed = T.committed := by unfold Team.setQ; split <;> rfl
@[simp] theorem Team.setQ_trapLevel (T : Team) (n l : Nat) (v : Tri) : (T.setQ n l v).trapLevel = T.trapLevel := by unfold Team.setQ; split <;> rfl
@[simp] theorem Team.setQ_raised (T : Team) (n l : Nat) (v : Tri) : (T.setQ n l v).raised = T.raised := by unfold Team.setQ; split <;> rfl
@[simp] theorem Team.setQ_crit (T : Team) (n l : Nat) (v : Tri) : (T.setQ n l v).crit = T.crit := by unfold Team.setQ; split <;> rfl
@[simp] theorem Team.setQ_dying (T : Team) (n l : Nat) (v : Tri) : (T.setQ n l v).dying = T.dying := by unfold Team.setQ; split <;> rfl
@[simp] theorem Team.setQ_preq (T : Team) (n l : Nat) (v : Tri) : (T.setQ n l v).preq = T.preq := by unfold Team.setQ; split <;> rfl
@[simp] theorem Team.setQ_mfmt (T : Team) (n l : Nat) (v : Tri) : (T.setQ n l v).mfmt = T.mfmt := by unfold Team.setQ; split <;> rfl
@[simp] theorem Team.setQ_codebook (T : Team) (n l : Nat) (v : Tri) : (T.setQ n l v).codebook = T.codebook := by unfold Team.setQ; split <;> rfl
@[simp] theorem Team.setQ_tiles (T : Team) (n l : Nat) (v : Tri) : (T.setQ n l v).tiles = T.tiles := by unfold Team.setQ; split <;> rfl
@[simp] theorem Team.setQ_tilesDone (T : Team) (n l : Nat) (v : Tri) : (T.setQ n l v).tilesDone = T.tilesDone := by unfold Team.setQ; split <;> rfl
@[simp] theorem Team.setQ_fills (T : Team) (n l : Nat) (v : Tri) : (T.setQ n l v).fills = T.fills := by unfold Team.setQ; split <;> rfl
@[simp] theorem Team.setQ_shist (T : Team) (n l : Nat) (v : Tri) : (T.setQ n l v).shist = T.shist := by unfold Team.setQ; split <;> rfl
@[simp] theorem Team.setQ_sfenced (T : Team) (n l : Nat) (v : Tri) : (T.setQ n l v).sfenced = T.sfenced := by unfold Team.setQ; split <;> rfl
@[simp] theorem Team.setQ_sfill (T : Team) (n l : Nat) (v : Tri) : (T.setQ n l v).sfill = T.sfill := by unfold Team.setQ; split <;> rfl
@[simp] theorem Team.setQ_swaited (T : Team) (n l : Nat) (v : Tri) : (T.setQ n l v).swaited = T.swaited := by unfold Team.setQ; split <;> rfl
@[simp] theorem Team.setQ_swait (T : Team) (n l : Nat) (v : Tri) : (T.setQ n l v).swait = T.swait := by unfold Team.setQ; split <;> rfl
@[simp] theorem Team.setQ_sfailed (T : Team) (n l : Nat) (v : Tri) : (T.setQ n l v).sfailed = T.sfailed := by unfold Team.setQ; split <;> rfl
@[simp] theorem Team.setQ_tried (T : Team) (n l : Nat) (v : Tri) : (T.setQ n l v).tried = T.tried := by unfold Team.setQ; split <;> rfl
@[simp] theorem Team.setQ_lqAt (T : Team) (n l : Nat) (v : Tri) : (T.setQ n l v).lqAt = T.lqAt := by unfold Team.setQ; split <;> rfl
@[simp] theorem Team.setQ_replied (T : Team) (n l : Nat) (v : Tri) : (T.setQ n l v).replied = T.replied := by unfold Team.setQ; split <;> rfl
@[simp] theorem Team.setQ_fromResv (T : Team) (n l : Nat) (v : Tri) : (T.setQ n l v).fromResv = T.fromResv := by unfold Team.setQ; split <;> rfl
@[simp] theorem Team.setQ_spages (T : Team) (n l : Nat) (v : Tri) : (T.setQ n l v).spages = T.spages := by unfold Team.setQ; split <;> rfl
@[simp] theorem Team.setQ_lblocks (T : Team) (n l : Nat) (v : Tri) : (T.setQ n l v).lblocks = T.lblocks := by unfold Team.setQ; split <;> rfl
@[simp] theorem Team.setQ_gain (T : Team) (n l : Nat) (v : Tri) : (T.setQ n l v).gain = T.gain := by unfold Team.setQ; split <;> rfl
@[simp] theorem Team.setQ_issued (T : Team) (n l : Nat) (v : Tri) : (T.setQ n l v).issued = T.issued := by unfold Team.setQ; split <;> rfl
@[simp] theorem Team.setQ_waited (T : Team) (n l : Nat) (v : Tri) : (T.setQ n l v).waited = T.waited := by unfold Team.setQ; split <;> rfl
@[simp] theorem Team.setQ_asked (T : Team) (n l : Nat) (v : Tri) : (T.setQ n l v).asked = T.asked := by unfold Team.setQ; split <;> rfl

/-! ### Team.orFlags -/

@[simp] theorem Team.orFlags_id (T : Team) (l : Nat) (f : BitVec 16) : (T.orFlags l f).id = T.id := by unfold Team.orFlags; split <;> rfl
@[simp] theorem Team.orFlags_launch (T : Team) (l : Nat) (f : BitVec 16) : (T.orFlags l f).launch = T.launch := by unfold Team.orFlags; split <;> rfl
@[simp] theorem Team.orFlags_cohort (T : Team) (l : Nat) (f : BitVec 16) : (T.orFlags l f).cohort = T.cohort := by unfold Team.orFlags; split <;> rfl
@[simp] theorem Team.orFlags_tidx (T : Team) (l : Nat) (f : BitVec 16) : (T.orFlags l f).tidx = T.tidx := by unfold Team.orFlags; split <;> rfl
@[simp] theorem Team.orFlags_sort (T : Team) (l : Nat) (f : BitVec 16) : (T.orFlags l f).sort = T.sort := by unfold Team.orFlags; split <;> rfl
@[simp] theorem Team.orFlags_ctx (T : Team) (l : Nat) (f : BitVec 16) : (T.orFlags l f).ctx = T.ctx := by unfold Team.orFlags; split <;> rfl
@[simp] theorem Team.orFlags_core (T : Team) (l : Nat) (f : BitVec 16) : (T.orFlags l f).core = T.core := by unfold Team.orFlags; split <;> rfl
@[simp] theorem Team.orFlags_part (T : Team) (l : Nat) (f : BitVec 16) : (T.orFlags l f).part = T.part := by unfold Team.orFlags; split <;> rfl
@[simp] theorem Team.orFlags_slot (T : Team) (l : Nat) (f : BitVec 16) : (T.orFlags l f).slot = T.slot := by unfold Team.orFlags; split <;> rfl
@[simp] theorem Team.orFlags_pri (T : Team) (l : Nat) (f : BitVec 16) : (T.orFlags l f).pri = T.pri := by unfold Team.orFlags; split <;> rfl
@[simp] theorem Team.orFlags_hdr (T : Team) (l : Nat) (f : BitVec 16) : (T.orFlags l f).hdr = T.hdr := by unfold Team.orFlags; split <;> rfl
@[simp] theorem Team.orFlags_words (T : Team) (l : Nat) (f : BitVec 16) : (T.orFlags l f).words = T.words := by unfold Team.orFlags; split <;> rfl
@[simp] theorem Team.orFlags_vbud (T : Team) (l : Nat) (f : BitVec 16) : (T.orFlags l f).vbud = T.vbud := by unfold Team.orFlags; split <;> rfl
@[simp] theorem Team.orFlags_sbud (T : Team) (l : Nat) (f : BitVec 16) : (T.orFlags l f).sbud = T.sbud := by unfold Team.orFlags; split <;> rfl
@[simp] theorem Team.orFlags_widOf (T : Team) (l : Nat) (f : BitVec 16) : (T.orFlags l f).widOf = T.widOf := by unfold Team.orFlags; split <;> rfl
@[simp] theorem Team.orFlags_cohortOf (T : Team) (l : Nat) (f : BitVec 16) : (T.orFlags l f).cohortOf = T.cohortOf := by unfold Team.orFlags; split <;> rfl
@[simp] theorem Team.orFlags_spc (T : Team) (l : Nat) (f : BitVec 16) : (T.orFlags l f).spc = T.spc := by unfold Team.orFlags; split <;> rfl
@[simp] theorem Team.orFlags_sregs (T : Team) (l : Nat) (f : BitVec 16) : (T.orFlags l f).sregs = T.sregs := by unfold Team.orFlags; split <;> rfl
@[simp] theorem Team.orFlags_sempty (T : Team) (l : Nat) (f : BitVec 16) : (T.orFlags l f).sempty = T.sempty := by unfold Team.orFlags; split <;> rfl
@[simp] theorem Team.orFlags_kflags (T : Team) (l : Nat) (f : BitVec 16) : (T.orFlags l f).kflags = T.kflags := by unfold Team.orFlags; split <;> rfl
@[simp] theorem Team.orFlags_vregs (T : Team) (l : Nat) (f : BitVec 16) : (T.orFlags l f).vregs = T.vregs := by unfold Team.orFlags; split <;> rfl
@[simp] theorem Team.orFlags_marks (T : Team) (l : Nat) (f : BitVec 16) : (T.orFlags l f).marks = T.marks := by unfold Team.orFlags; split <;> rfl
@[simp] theorem Team.orFlags_q (T : Team) (l : Nat) (f : BitVec 16) : (T.orFlags l f).q = T.q := by unfold Team.orFlags; split <;> rfl
@[simp] theorem Team.orFlags_items (T : Team) (l : Nat) (f : BitVec 16) : (T.orFlags l f).items = T.items := by unfold Team.orFlags; split <;> rfl
@[simp] theorem Team.orFlags_mask (T : Team) (l : Nat) (f : BitVec 16) : (T.orFlags l f).mask = T.mask := by unfold Team.orFlags; split <;> rfl
@[simp] theorem Team.orFlags_queue (T : Team) (l : Nat) (f : BitVec 16) : (T.orFlags l f).queue = T.queue := by unfold Team.orFlags; split <;> rfl
@[simp] theorem Team.orFlags_run (T : Team) (l : Nat) (f : BitVec 16) : (T.orFlags l f).run = T.run := by unfold Team.orFlags; split <;> rfl
@[simp] theorem Team.orFlags_split (T : Team) (l : Nat) (f : BitVec 16) : (T.orFlags l f).split = T.split := by unfold Team.orFlags; split <;> rfl
@[simp] theorem Team.orFlags_hqueue (T : Team) (l : Nat) (f : BitVec 16) : (T.orFlags l f).hqueue = T.hqueue := by unfold Team.orFlags; split <;> rfl
@[simp] theorem Team.orFlags_hrun (T : Team) (l : Nat) (f : BitVec 16) : (T.orFlags l f).hrun = T.hrun := by unfold Team.orFlags; split <;> rfl
@[simp] theorem Team.orFlags_hsplit (T : Team) (l : Nat) (f : BitVec 16) : (T.orFlags l f).hsplit = T.hsplit := by unfold Team.orFlags; split <;> rfl
@[simp] theorem Team.orFlags_splitsel (T : Team) (l : Nat) (f : BitVec 16) : (T.orFlags l f).splitsel = T.splitsel := by unfold Team.orFlags; split <;> rfl
@[simp] theorem Team.orFlags_clock (T : Team) (l : Nat) (f : BitVec 16) : (T.orFlags l f).clock = T.clock := by unfold Team.orFlags; split <;> rfl
@[simp] theorem Team.orFlags_waitlimit (T : Team) (l : Nat) (f : BitVec 16) : (T.orFlags l f).waitlimit = T.waitlimit := by unfold Team.orFlags; split <;> rfl
@[simp] theorem Team.orFlags_tvec (T : Team) (l : Nat) (f : BitVec 16) : (T.orFlags l f).tvec = T.tvec := by unfold Team.orFlags; split <;> rfl
@[simp] theorem Team.orFlags_trapcause (T : Team) (l : Nat) (f : BitVec 16) : (T.orFlags l f).trapcause = T.trapcause := by unfold Team.orFlags; split <;> rfl
@[simp] theorem Team.orFlags_trappc (T : Team) (l : Nat) (f : BitVec 16) : (T.orFlags l f).trappc = T.trappc := by unfold Team.orFlags; split <;> rfl
@[simp] theorem Team.orFlags_faultmask (T : Team) (l : Nat) (f : BitVec 16) : (T.orFlags l f).faultmask = T.faultmask := by unfold Team.orFlags; split <;> rfl
@[simp] theorem Team.orFlags_regionpc (T : Team) (l : Nat) (f : BitVec 16) : (T.orFlags l f).regionpc = T.regionpc := by unfold Team.orFlags; split <;> rfl
@[simp] theorem Team.orFlags_livein (T : Team) (l : Nat) (f : BitVec 16) : (T.orFlags l f).livein = T.livein := by unfold Team.orFlags; split <;> rfl
@[simp] theorem Team.orFlags_regionNo (T : Team) (l : Nat) (f : BitVec 16) : (T.orFlags l f).regionNo = T.regionNo := by unfold Team.orFlags; split <;> rfl
@[simp] theorem Team.orFlags_committed (T : Team) (l : Nat) (f : BitVec 16) : (T.orFlags l f).committed = T.committed := by unfold Team.orFlags; split <;> rfl
@[simp] theorem Team.orFlags_trapLevel (T : Team) (l : Nat) (f : BitVec 16) : (T.orFlags l f).trapLevel = T.trapLevel := by unfold Team.orFlags; split <;> rfl
@[simp] theorem Team.orFlags_raised (T : Team) (l : Nat) (f : BitVec 16) : (T.orFlags l f).raised = T.raised := by unfold Team.orFlags; split <;> rfl
@[simp] theorem Team.orFlags_crit (T : Team) (l : Nat) (f : BitVec 16) : (T.orFlags l f).crit = T.crit := by unfold Team.orFlags; split <;> rfl
@[simp] theorem Team.orFlags_dying (T : Team) (l : Nat) (f : BitVec 16) : (T.orFlags l f).dying = T.dying := by unfold Team.orFlags; split <;> rfl
@[simp] theorem Team.orFlags_preq (T : Team) (l : Nat) (f : BitVec 16) : (T.orFlags l f).preq = T.preq := by unfold Team.orFlags; split <;> rfl
@[simp] theorem Team.orFlags_mfmt (T : Team) (l : Nat) (f : BitVec 16) : (T.orFlags l f).mfmt = T.mfmt := by unfold Team.orFlags; split <;> rfl
@[simp] theorem Team.orFlags_codebook (T : Team) (l : Nat) (f : BitVec 16) : (T.orFlags l f).codebook = T.codebook := by unfold Team.orFlags; split <;> rfl
@[simp] theorem Team.orFlags_tiles (T : Team) (l : Nat) (f : BitVec 16) : (T.orFlags l f).tiles = T.tiles := by unfold Team.orFlags; split <;> rfl
@[simp] theorem Team.orFlags_tilesDone (T : Team) (l : Nat) (f : BitVec 16) : (T.orFlags l f).tilesDone = T.tilesDone := by unfold Team.orFlags; split <;> rfl
@[simp] theorem Team.orFlags_fills (T : Team) (l : Nat) (f : BitVec 16) : (T.orFlags l f).fills = T.fills := by unfold Team.orFlags; split <;> rfl
@[simp] theorem Team.orFlags_shist (T : Team) (l : Nat) (f : BitVec 16) : (T.orFlags l f).shist = T.shist := by unfold Team.orFlags; split <;> rfl
@[simp] theorem Team.orFlags_sfenced (T : Team) (l : Nat) (f : BitVec 16) : (T.orFlags l f).sfenced = T.sfenced := by unfold Team.orFlags; split <;> rfl
@[simp] theorem Team.orFlags_sfill (T : Team) (l : Nat) (f : BitVec 16) : (T.orFlags l f).sfill = T.sfill := by unfold Team.orFlags; split <;> rfl
@[simp] theorem Team.orFlags_swaited (T : Team) (l : Nat) (f : BitVec 16) : (T.orFlags l f).swaited = T.swaited := by unfold Team.orFlags; split <;> rfl
@[simp] theorem Team.orFlags_swait (T : Team) (l : Nat) (f : BitVec 16) : (T.orFlags l f).swait = T.swait := by unfold Team.orFlags; split <;> rfl
@[simp] theorem Team.orFlags_sfailed (T : Team) (l : Nat) (f : BitVec 16) : (T.orFlags l f).sfailed = T.sfailed := by unfold Team.orFlags; split <;> rfl
@[simp] theorem Team.orFlags_tried (T : Team) (l : Nat) (f : BitVec 16) : (T.orFlags l f).tried = T.tried := by unfold Team.orFlags; split <;> rfl
@[simp] theorem Team.orFlags_lqAt (T : Team) (l : Nat) (f : BitVec 16) : (T.orFlags l f).lqAt = T.lqAt := by unfold Team.orFlags; split <;> rfl
@[simp] theorem Team.orFlags_replied (T : Team) (l : Nat) (f : BitVec 16) : (T.orFlags l f).replied = T.replied := by unfold Team.orFlags; split <;> rfl
@[simp] theorem Team.orFlags_fromResv (T : Team) (l : Nat) (f : BitVec 16) : (T.orFlags l f).fromResv = T.fromResv := by unfold Team.orFlags; split <;> rfl
@[simp] theorem Team.orFlags_spages (T : Team) (l : Nat) (f : BitVec 16) : (T.orFlags l f).spages = T.spages := by unfold Team.orFlags; split <;> rfl
@[simp] theorem Team.orFlags_lblocks (T : Team) (l : Nat) (f : BitVec 16) : (T.orFlags l f).lblocks = T.lblocks := by unfold Team.orFlags; split <;> rfl
@[simp] theorem Team.orFlags_gain (T : Team) (l : Nat) (f : BitVec 16) : (T.orFlags l f).gain = T.gain := by unfold Team.orFlags; split <;> rfl
@[simp] theorem Team.orFlags_issued (T : Team) (l : Nat) (f : BitVec 16) : (T.orFlags l f).issued = T.issued := by unfold Team.orFlags; split <;> rfl
@[simp] theorem Team.orFlags_waited (T : Team) (l : Nat) (f : BitVec 16) : (T.orFlags l f).waited = T.waited := by unfold Team.orFlags; split <;> rfl
@[simp] theorem Team.orFlags_asked (T : Team) (l : Nat) (f : BitVec 16) : (T.orFlags l f).asked = T.asked := by unfold Team.orFlags; split <;> rfl

/-! ### Team.linkFills -/

@[simp] theorem Team.linkFills_id (T : Team) : (T.linkFills).id = T.id := rfl
@[simp] theorem Team.linkFills_launch (T : Team) : (T.linkFills).launch = T.launch := rfl
@[simp] theorem Team.linkFills_cohort (T : Team) : (T.linkFills).cohort = T.cohort := rfl
@[simp] theorem Team.linkFills_tidx (T : Team) : (T.linkFills).tidx = T.tidx := rfl
@[simp] theorem Team.linkFills_sort (T : Team) : (T.linkFills).sort = T.sort := rfl
@[simp] theorem Team.linkFills_ctx (T : Team) : (T.linkFills).ctx = T.ctx := rfl
@[simp] theorem Team.linkFills_core (T : Team) : (T.linkFills).core = T.core := rfl
@[simp] theorem Team.linkFills_part (T : Team) : (T.linkFills).part = T.part := rfl
@[simp] theorem Team.linkFills_slot (T : Team) : (T.linkFills).slot = T.slot := rfl
@[simp] theorem Team.linkFills_pri (T : Team) : (T.linkFills).pri = T.pri := rfl
@[simp] theorem Team.linkFills_hdr (T : Team) : (T.linkFills).hdr = T.hdr := rfl
@[simp] theorem Team.linkFills_words (T : Team) : (T.linkFills).words = T.words := rfl
@[simp] theorem Team.linkFills_vbud (T : Team) : (T.linkFills).vbud = T.vbud := rfl
@[simp] theorem Team.linkFills_sbud (T : Team) : (T.linkFills).sbud = T.sbud := rfl
@[simp] theorem Team.linkFills_widOf (T : Team) : (T.linkFills).widOf = T.widOf := rfl
@[simp] theorem Team.linkFills_cohortOf (T : Team) : (T.linkFills).cohortOf = T.cohortOf := rfl
@[simp] theorem Team.linkFills_spc (T : Team) : (T.linkFills).spc = T.spc := rfl
@[simp] theorem Team.linkFills_sregs (T : Team) : (T.linkFills).sregs = T.sregs := rfl
@[simp] theorem Team.linkFills_sempty (T : Team) : (T.linkFills).sempty = T.sempty := rfl
@[simp] theorem Team.linkFills_kflags (T : Team) : (T.linkFills).kflags = T.kflags := rfl
@[simp] theorem Team.linkFills_vregs (T : Team) : (T.linkFills).vregs = T.vregs := rfl
@[simp] theorem Team.linkFills_marks (T : Team) : (T.linkFills).marks = T.marks := rfl
@[simp] theorem Team.linkFills_q (T : Team) : (T.linkFills).q = T.q := rfl
@[simp] theorem Team.linkFills_fflags (T : Team) : (T.linkFills).fflags = T.fflags := rfl
@[simp] theorem Team.linkFills_items (T : Team) : (T.linkFills).items = T.items := rfl
@[simp] theorem Team.linkFills_mask (T : Team) : (T.linkFills).mask = T.mask := rfl
@[simp] theorem Team.linkFills_queue (T : Team) : (T.linkFills).queue = T.queue := rfl
@[simp] theorem Team.linkFills_run (T : Team) : (T.linkFills).run = T.run := rfl
@[simp] theorem Team.linkFills_split (T : Team) : (T.linkFills).split = T.split := rfl
@[simp] theorem Team.linkFills_hqueue (T : Team) : (T.linkFills).hqueue = T.hqueue := rfl
@[simp] theorem Team.linkFills_hrun (T : Team) : (T.linkFills).hrun = T.hrun := rfl
@[simp] theorem Team.linkFills_hsplit (T : Team) : (T.linkFills).hsplit = T.hsplit := rfl
@[simp] theorem Team.linkFills_splitsel (T : Team) : (T.linkFills).splitsel = T.splitsel := rfl
@[simp] theorem Team.linkFills_clock (T : Team) : (T.linkFills).clock = T.clock := rfl
@[simp] theorem Team.linkFills_waitlimit (T : Team) : (T.linkFills).waitlimit = T.waitlimit := rfl
@[simp] theorem Team.linkFills_tvec (T : Team) : (T.linkFills).tvec = T.tvec := rfl
@[simp] theorem Team.linkFills_trapcause (T : Team) : (T.linkFills).trapcause = T.trapcause := rfl
@[simp] theorem Team.linkFills_trappc (T : Team) : (T.linkFills).trappc = T.trappc := rfl
@[simp] theorem Team.linkFills_faultmask (T : Team) : (T.linkFills).faultmask = T.faultmask := rfl
@[simp] theorem Team.linkFills_regionpc (T : Team) : (T.linkFills).regionpc = T.regionpc := rfl
@[simp] theorem Team.linkFills_livein (T : Team) : (T.linkFills).livein = T.livein := rfl
@[simp] theorem Team.linkFills_regionNo (T : Team) : (T.linkFills).regionNo = T.regionNo := rfl
@[simp] theorem Team.linkFills_committed (T : Team) : (T.linkFills).committed = T.committed := rfl
@[simp] theorem Team.linkFills_trapLevel (T : Team) : (T.linkFills).trapLevel = T.trapLevel := rfl
@[simp] theorem Team.linkFills_raised (T : Team) : (T.linkFills).raised = T.raised := rfl
@[simp] theorem Team.linkFills_crit (T : Team) : (T.linkFills).crit = T.crit := rfl
@[simp] theorem Team.linkFills_dying (T : Team) : (T.linkFills).dying = T.dying := rfl
@[simp] theorem Team.linkFills_preq (T : Team) : (T.linkFills).preq = T.preq := rfl
@[simp] theorem Team.linkFills_mfmt (T : Team) : (T.linkFills).mfmt = T.mfmt := rfl
@[simp] theorem Team.linkFills_codebook (T : Team) : (T.linkFills).codebook = T.codebook := rfl
@[simp] theorem Team.linkFills_tiles (T : Team) : (T.linkFills).tiles = T.tiles := rfl
@[simp] theorem Team.linkFills_tilesDone (T : Team) : (T.linkFills).tilesDone = T.tilesDone := rfl
@[simp] theorem Team.linkFills_fills (T : Team) : (T.linkFills).fills = T.fills := rfl
@[simp] theorem Team.linkFills_sfenced (T : Team) : (T.linkFills).sfenced = T.sfenced := rfl
@[simp] theorem Team.linkFills_sfill (T : Team) : (T.linkFills).sfill = T.sfill := rfl
@[simp] theorem Team.linkFills_swaited (T : Team) : (T.linkFills).swaited = T.swaited := rfl
@[simp] theorem Team.linkFills_swait (T : Team) : (T.linkFills).swait = T.swait := rfl
@[simp] theorem Team.linkFills_sfailed (T : Team) : (T.linkFills).sfailed = T.sfailed := rfl
@[simp] theorem Team.linkFills_tried (T : Team) : (T.linkFills).tried = T.tried := rfl
@[simp] theorem Team.linkFills_lqAt (T : Team) : (T.linkFills).lqAt = T.lqAt := rfl
@[simp] theorem Team.linkFills_replied (T : Team) : (T.linkFills).replied = T.replied := rfl
@[simp] theorem Team.linkFills_fromResv (T : Team) : (T.linkFills).fromResv = T.fromResv := rfl
@[simp] theorem Team.linkFills_spages (T : Team) : (T.linkFills).spages = T.spages := rfl
@[simp] theorem Team.linkFills_lblocks (T : Team) : (T.linkFills).lblocks = T.lblocks := rfl
@[simp] theorem Team.linkFills_gain (T : Team) : (T.linkFills).gain = T.gain := rfl
@[simp] theorem Team.linkFills_issued (T : Team) : (T.linkFills).issued = T.issued := rfl
@[simp] theorem Team.linkFills_waited (T : Team) : (T.linkFills).waited = T.waited := rfl
@[simp] theorem Team.linkFills_asked (T : Team) : (T.linkFills).asked = T.asked := rfl

/-! ### Team.mark -/

@[simp] theorem Team.mark_id (T : Team) (rs : List Nat) (m : LaneMask) (g : Nat) (t : Bool) : (T.mark rs m g t).id = T.id := rfl
@[simp] theorem Team.mark_launch (T : Team) (rs : List Nat) (m : LaneMask) (g : Nat) (t : Bool) : (T.mark rs m g t).launch = T.launch := rfl
@[simp] theorem Team.mark_cohort (T : Team) (rs : List Nat) (m : LaneMask) (g : Nat) (t : Bool) : (T.mark rs m g t).cohort = T.cohort := rfl
@[simp] theorem Team.mark_tidx (T : Team) (rs : List Nat) (m : LaneMask) (g : Nat) (t : Bool) : (T.mark rs m g t).tidx = T.tidx := rfl
@[simp] theorem Team.mark_sort (T : Team) (rs : List Nat) (m : LaneMask) (g : Nat) (t : Bool) : (T.mark rs m g t).sort = T.sort := rfl
@[simp] theorem Team.mark_ctx (T : Team) (rs : List Nat) (m : LaneMask) (g : Nat) (t : Bool) : (T.mark rs m g t).ctx = T.ctx := rfl
@[simp] theorem Team.mark_core (T : Team) (rs : List Nat) (m : LaneMask) (g : Nat) (t : Bool) : (T.mark rs m g t).core = T.core := rfl
@[simp] theorem Team.mark_part (T : Team) (rs : List Nat) (m : LaneMask) (g : Nat) (t : Bool) : (T.mark rs m g t).part = T.part := rfl
@[simp] theorem Team.mark_slot (T : Team) (rs : List Nat) (m : LaneMask) (g : Nat) (t : Bool) : (T.mark rs m g t).slot = T.slot := rfl
@[simp] theorem Team.mark_pri (T : Team) (rs : List Nat) (m : LaneMask) (g : Nat) (t : Bool) : (T.mark rs m g t).pri = T.pri := rfl
@[simp] theorem Team.mark_hdr (T : Team) (rs : List Nat) (m : LaneMask) (g : Nat) (t : Bool) : (T.mark rs m g t).hdr = T.hdr := rfl
@[simp] theorem Team.mark_words (T : Team) (rs : List Nat) (m : LaneMask) (g : Nat) (t : Bool) : (T.mark rs m g t).words = T.words := rfl
@[simp] theorem Team.mark_vbud (T : Team) (rs : List Nat) (m : LaneMask) (g : Nat) (t : Bool) : (T.mark rs m g t).vbud = T.vbud := rfl
@[simp] theorem Team.mark_sbud (T : Team) (rs : List Nat) (m : LaneMask) (g : Nat) (t : Bool) : (T.mark rs m g t).sbud = T.sbud := rfl
@[simp] theorem Team.mark_widOf (T : Team) (rs : List Nat) (m : LaneMask) (g : Nat) (t : Bool) : (T.mark rs m g t).widOf = T.widOf := rfl
@[simp] theorem Team.mark_cohortOf (T : Team) (rs : List Nat) (m : LaneMask) (g : Nat) (t : Bool) : (T.mark rs m g t).cohortOf = T.cohortOf := rfl
@[simp] theorem Team.mark_spc (T : Team) (rs : List Nat) (m : LaneMask) (g : Nat) (t : Bool) : (T.mark rs m g t).spc = T.spc := rfl
@[simp] theorem Team.mark_sregs (T : Team) (rs : List Nat) (m : LaneMask) (g : Nat) (t : Bool) : (T.mark rs m g t).sregs = T.sregs := rfl
@[simp] theorem Team.mark_sempty (T : Team) (rs : List Nat) (m : LaneMask) (g : Nat) (t : Bool) : (T.mark rs m g t).sempty = T.sempty := rfl
@[simp] theorem Team.mark_kflags (T : Team) (rs : List Nat) (m : LaneMask) (g : Nat) (t : Bool) : (T.mark rs m g t).kflags = T.kflags := rfl
@[simp] theorem Team.mark_vregs (T : Team) (rs : List Nat) (m : LaneMask) (g : Nat) (t : Bool) : (T.mark rs m g t).vregs = T.vregs := rfl
@[simp] theorem Team.mark_q (T : Team) (rs : List Nat) (m : LaneMask) (g : Nat) (t : Bool) : (T.mark rs m g t).q = T.q := rfl
@[simp] theorem Team.mark_fflags (T : Team) (rs : List Nat) (m : LaneMask) (g : Nat) (t : Bool) : (T.mark rs m g t).fflags = T.fflags := rfl
@[simp] theorem Team.mark_items (T : Team) (rs : List Nat) (m : LaneMask) (g : Nat) (t : Bool) : (T.mark rs m g t).items = T.items := rfl
@[simp] theorem Team.mark_mask (T : Team) (rs : List Nat) (m : LaneMask) (g : Nat) (t : Bool) : (T.mark rs m g t).mask = T.mask := rfl
@[simp] theorem Team.mark_queue (T : Team) (rs : List Nat) (m : LaneMask) (g : Nat) (t : Bool) : (T.mark rs m g t).queue = T.queue := rfl
@[simp] theorem Team.mark_run (T : Team) (rs : List Nat) (m : LaneMask) (g : Nat) (t : Bool) : (T.mark rs m g t).run = T.run := rfl
@[simp] theorem Team.mark_split (T : Team) (rs : List Nat) (m : LaneMask) (g : Nat) (t : Bool) : (T.mark rs m g t).split = T.split := rfl
@[simp] theorem Team.mark_hqueue (T : Team) (rs : List Nat) (m : LaneMask) (g : Nat) (t : Bool) : (T.mark rs m g t).hqueue = T.hqueue := rfl
@[simp] theorem Team.mark_hrun (T : Team) (rs : List Nat) (m : LaneMask) (g : Nat) (t : Bool) : (T.mark rs m g t).hrun = T.hrun := rfl
@[simp] theorem Team.mark_hsplit (T : Team) (rs : List Nat) (m : LaneMask) (g : Nat) (t : Bool) : (T.mark rs m g t).hsplit = T.hsplit := rfl
@[simp] theorem Team.mark_splitsel (T : Team) (rs : List Nat) (m : LaneMask) (g : Nat) (t : Bool) : (T.mark rs m g t).splitsel = T.splitsel := rfl
@[simp] theorem Team.mark_clock (T : Team) (rs : List Nat) (m : LaneMask) (g : Nat) (t : Bool) : (T.mark rs m g t).clock = T.clock := rfl
@[simp] theorem Team.mark_waitlimit (T : Team) (rs : List Nat) (m : LaneMask) (g : Nat) (t : Bool) : (T.mark rs m g t).waitlimit = T.waitlimit := rfl
@[simp] theorem Team.mark_tvec (T : Team) (rs : List Nat) (m : LaneMask) (g : Nat) (t : Bool) : (T.mark rs m g t).tvec = T.tvec := rfl
@[simp] theorem Team.mark_trapcause (T : Team) (rs : List Nat) (m : LaneMask) (g : Nat) (t : Bool) : (T.mark rs m g t).trapcause = T.trapcause := rfl
@[simp] theorem Team.mark_trappc (T : Team) (rs : List Nat) (m : LaneMask) (g : Nat) (t : Bool) : (T.mark rs m g t).trappc = T.trappc := rfl
@[simp] theorem Team.mark_faultmask (T : Team) (rs : List Nat) (m : LaneMask) (g : Nat) (t : Bool) : (T.mark rs m g t).faultmask = T.faultmask := rfl
@[simp] theorem Team.mark_regionpc (T : Team) (rs : List Nat) (m : LaneMask) (g : Nat) (t : Bool) : (T.mark rs m g t).regionpc = T.regionpc := rfl
@[simp] theorem Team.mark_livein (T : Team) (rs : List Nat) (m : LaneMask) (g : Nat) (t : Bool) : (T.mark rs m g t).livein = T.livein := rfl
@[simp] theorem Team.mark_regionNo (T : Team) (rs : List Nat) (m : LaneMask) (g : Nat) (t : Bool) : (T.mark rs m g t).regionNo = T.regionNo := rfl
@[simp] theorem Team.mark_committed (T : Team) (rs : List Nat) (m : LaneMask) (g : Nat) (t : Bool) : (T.mark rs m g t).committed = T.committed := rfl
@[simp] theorem Team.mark_trapLevel (T : Team) (rs : List Nat) (m : LaneMask) (g : Nat) (t : Bool) : (T.mark rs m g t).trapLevel = T.trapLevel := rfl
@[simp] theorem Team.mark_raised (T : Team) (rs : List Nat) (m : LaneMask) (g : Nat) (t : Bool) : (T.mark rs m g t).raised = T.raised := rfl
@[simp] theorem Team.mark_crit (T : Team) (rs : List Nat) (m : LaneMask) (g : Nat) (t : Bool) : (T.mark rs m g t).crit = T.crit := rfl
@[simp] theorem Team.mark_dying (T : Team) (rs : List Nat) (m : LaneMask) (g : Nat) (t : Bool) : (T.mark rs m g t).dying = T.dying := rfl
@[simp] theorem Team.mark_preq (T : Team) (rs : List Nat) (m : LaneMask) (g : Nat) (t : Bool) : (T.mark rs m g t).preq = T.preq := rfl
@[simp] theorem Team.mark_mfmt (T : Team) (rs : List Nat) (m : LaneMask) (g : Nat) (t : Bool) : (T.mark rs m g t).mfmt = T.mfmt := rfl
@[simp] theorem Team.mark_codebook (T : Team) (rs : List Nat) (m : LaneMask) (g : Nat) (t : Bool) : (T.mark rs m g t).codebook = T.codebook := rfl
@[simp] theorem Team.mark_tiles (T : Team) (rs : List Nat) (m : LaneMask) (g : Nat) (t : Bool) : (T.mark rs m g t).tiles = T.tiles := rfl
@[simp] theorem Team.mark_tilesDone (T : Team) (rs : List Nat) (m : LaneMask) (g : Nat) (t : Bool) : (T.mark rs m g t).tilesDone = T.tilesDone := rfl
@[simp] theorem Team.mark_fills (T : Team) (rs : List Nat) (m : LaneMask) (g : Nat) (t : Bool) : (T.mark rs m g t).fills = T.fills := rfl
@[simp] theorem Team.mark_shist (T : Team) (rs : List Nat) (m : LaneMask) (g : Nat) (t : Bool) : (T.mark rs m g t).shist = T.shist := rfl
@[simp] theorem Team.mark_sfenced (T : Team) (rs : List Nat) (m : LaneMask) (g : Nat) (t : Bool) : (T.mark rs m g t).sfenced = T.sfenced := rfl
@[simp] theorem Team.mark_sfill (T : Team) (rs : List Nat) (m : LaneMask) (g : Nat) (t : Bool) : (T.mark rs m g t).sfill = T.sfill := rfl
@[simp] theorem Team.mark_swaited (T : Team) (rs : List Nat) (m : LaneMask) (g : Nat) (t : Bool) : (T.mark rs m g t).swaited = T.swaited := rfl
@[simp] theorem Team.mark_swait (T : Team) (rs : List Nat) (m : LaneMask) (g : Nat) (t : Bool) : (T.mark rs m g t).swait = T.swait := rfl
@[simp] theorem Team.mark_sfailed (T : Team) (rs : List Nat) (m : LaneMask) (g : Nat) (t : Bool) : (T.mark rs m g t).sfailed = T.sfailed := rfl
@[simp] theorem Team.mark_tried (T : Team) (rs : List Nat) (m : LaneMask) (g : Nat) (t : Bool) : (T.mark rs m g t).tried = T.tried := rfl
@[simp] theorem Team.mark_lqAt (T : Team) (rs : List Nat) (m : LaneMask) (g : Nat) (t : Bool) : (T.mark rs m g t).lqAt = T.lqAt := rfl
@[simp] theorem Team.mark_replied (T : Team) (rs : List Nat) (m : LaneMask) (g : Nat) (t : Bool) : (T.mark rs m g t).replied = T.replied := rfl
@[simp] theorem Team.mark_fromResv (T : Team) (rs : List Nat) (m : LaneMask) (g : Nat) (t : Bool) : (T.mark rs m g t).fromResv = T.fromResv := rfl
@[simp] theorem Team.mark_spages (T : Team) (rs : List Nat) (m : LaneMask) (g : Nat) (t : Bool) : (T.mark rs m g t).spages = T.spages := rfl
@[simp] theorem Team.mark_lblocks (T : Team) (rs : List Nat) (m : LaneMask) (g : Nat) (t : Bool) : (T.mark rs m g t).lblocks = T.lblocks := rfl
@[simp] theorem Team.mark_gain (T : Team) (rs : List Nat) (m : LaneMask) (g : Nat) (t : Bool) : (T.mark rs m g t).gain = T.gain := rfl
@[simp] theorem Team.mark_issued (T : Team) (rs : List Nat) (m : LaneMask) (g : Nat) (t : Bool) : (T.mark rs m g t).issued = T.issued := rfl
@[simp] theorem Team.mark_waited (T : Team) (rs : List Nat) (m : LaneMask) (g : Nat) (t : Bool) : (T.mark rs m g t).waited = T.waited := rfl
@[simp] theorem Team.mark_asked (T : Team) (rs : List Nat) (m : LaneMask) (g : Nat) (t : Bool) : (T.mark rs m g t).asked = T.asked := rfl

/-! ### Team.commit -/

@[simp] theorem Team.commit_id (T : Team) : (T.commit).id = T.id := rfl
@[simp] theorem Team.commit_launch (T : Team) : (T.commit).launch = T.launch := rfl
@[simp] theorem Team.commit_cohort (T : Team) : (T.commit).cohort = T.cohort := rfl
@[simp] theorem Team.commit_tidx (T : Team) : (T.commit).tidx = T.tidx := rfl
@[simp] theorem Team.commit_sort (T : Team) : (T.commit).sort = T.sort := rfl
@[simp] theorem Team.commit_ctx (T : Team) : (T.commit).ctx = T.ctx := rfl
@[simp] theorem Team.commit_core (T : Team) : (T.commit).core = T.core := rfl
@[simp] theorem Team.commit_part (T : Team) : (T.commit).part = T.part := rfl
@[simp] theorem Team.commit_slot (T : Team) : (T.commit).slot = T.slot := rfl
@[simp] theorem Team.commit_pri (T : Team) : (T.commit).pri = T.pri := rfl
@[simp] theorem Team.commit_hdr (T : Team) : (T.commit).hdr = T.hdr := rfl
@[simp] theorem Team.commit_words (T : Team) : (T.commit).words = T.words := rfl
@[simp] theorem Team.commit_vbud (T : Team) : (T.commit).vbud = T.vbud := rfl
@[simp] theorem Team.commit_sbud (T : Team) : (T.commit).sbud = T.sbud := rfl
@[simp] theorem Team.commit_widOf (T : Team) : (T.commit).widOf = T.widOf := rfl
@[simp] theorem Team.commit_cohortOf (T : Team) : (T.commit).cohortOf = T.cohortOf := rfl
@[simp] theorem Team.commit_spc (T : Team) : (T.commit).spc = T.spc := rfl
@[simp] theorem Team.commit_sregs (T : Team) : (T.commit).sregs = T.sregs := rfl
@[simp] theorem Team.commit_sempty (T : Team) : (T.commit).sempty = T.sempty := rfl
@[simp] theorem Team.commit_kflags (T : Team) : (T.commit).kflags = T.kflags := rfl
@[simp] theorem Team.commit_vregs (T : Team) : (T.commit).vregs = T.vregs := rfl
@[simp] theorem Team.commit_marks (T : Team) : (T.commit).marks = T.marks := rfl
@[simp] theorem Team.commit_q (T : Team) : (T.commit).q = T.q := rfl
@[simp] theorem Team.commit_fflags (T : Team) : (T.commit).fflags = T.fflags := rfl
@[simp] theorem Team.commit_items (T : Team) : (T.commit).items = T.items := rfl
@[simp] theorem Team.commit_mask (T : Team) : (T.commit).mask = T.mask := rfl
@[simp] theorem Team.commit_queue (T : Team) : (T.commit).queue = T.queue := rfl
@[simp] theorem Team.commit_run (T : Team) : (T.commit).run = T.run := rfl
@[simp] theorem Team.commit_split (T : Team) : (T.commit).split = T.split := rfl
@[simp] theorem Team.commit_hqueue (T : Team) : (T.commit).hqueue = T.hqueue := rfl
@[simp] theorem Team.commit_hrun (T : Team) : (T.commit).hrun = T.hrun := rfl
@[simp] theorem Team.commit_hsplit (T : Team) : (T.commit).hsplit = T.hsplit := rfl
@[simp] theorem Team.commit_splitsel (T : Team) : (T.commit).splitsel = T.splitsel := rfl
@[simp] theorem Team.commit_clock (T : Team) : (T.commit).clock = T.clock := rfl
@[simp] theorem Team.commit_waitlimit (T : Team) : (T.commit).waitlimit = T.waitlimit := rfl
@[simp] theorem Team.commit_tvec (T : Team) : (T.commit).tvec = T.tvec := rfl
@[simp] theorem Team.commit_trapcause (T : Team) : (T.commit).trapcause = T.trapcause := rfl
@[simp] theorem Team.commit_trappc (T : Team) : (T.commit).trappc = T.trappc := rfl
@[simp] theorem Team.commit_faultmask (T : Team) : (T.commit).faultmask = T.faultmask := rfl
@[simp] theorem Team.commit_regionpc (T : Team) : (T.commit).regionpc = T.regionpc := rfl
@[simp] theorem Team.commit_livein (T : Team) : (T.commit).livein = T.livein := rfl
@[simp] theorem Team.commit_regionNo (T : Team) : (T.commit).regionNo = T.regionNo := rfl
@[simp] theorem Team.commit_trapLevel (T : Team) : (T.commit).trapLevel = T.trapLevel := rfl
@[simp] theorem Team.commit_raised (T : Team) : (T.commit).raised = T.raised := rfl
@[simp] theorem Team.commit_crit (T : Team) : (T.commit).crit = T.crit := rfl
@[simp] theorem Team.commit_dying (T : Team) : (T.commit).dying = T.dying := rfl
@[simp] theorem Team.commit_preq (T : Team) : (T.commit).preq = T.preq := rfl
@[simp] theorem Team.commit_mfmt (T : Team) : (T.commit).mfmt = T.mfmt := rfl
@[simp] theorem Team.commit_codebook (T : Team) : (T.commit).codebook = T.codebook := rfl
@[simp] theorem Team.commit_tiles (T : Team) : (T.commit).tiles = T.tiles := rfl
@[simp] theorem Team.commit_tilesDone (T : Team) : (T.commit).tilesDone = T.tilesDone := rfl
@[simp] theorem Team.commit_fills (T : Team) : (T.commit).fills = T.fills := rfl
@[simp] theorem Team.commit_shist (T : Team) : (T.commit).shist = T.shist := rfl
@[simp] theorem Team.commit_sfenced (T : Team) : (T.commit).sfenced = T.sfenced := rfl
@[simp] theorem Team.commit_sfill (T : Team) : (T.commit).sfill = T.sfill := rfl
@[simp] theorem Team.commit_swaited (T : Team) : (T.commit).swaited = T.swaited := rfl
@[simp] theorem Team.commit_swait (T : Team) : (T.commit).swait = T.swait := rfl
@[simp] theorem Team.commit_sfailed (T : Team) : (T.commit).sfailed = T.sfailed := rfl
@[simp] theorem Team.commit_tried (T : Team) : (T.commit).tried = T.tried := rfl
@[simp] theorem Team.commit_lqAt (T : Team) : (T.commit).lqAt = T.lqAt := rfl
@[simp] theorem Team.commit_replied (T : Team) : (T.commit).replied = T.replied := rfl
@[simp] theorem Team.commit_fromResv (T : Team) : (T.commit).fromResv = T.fromResv := rfl
@[simp] theorem Team.commit_spages (T : Team) : (T.commit).spages = T.spages := rfl
@[simp] theorem Team.commit_lblocks (T : Team) : (T.commit).lblocks = T.lblocks := rfl
@[simp] theorem Team.commit_gain (T : Team) : (T.commit).gain = T.gain := rfl
@[simp] theorem Team.commit_issued (T : Team) : (T.commit).issued = T.issued := rfl
@[simp] theorem Team.commit_waited (T : Team) : (T.commit).waited = T.waited := rfl
@[simp] theorem Team.commit_asked (T : Team) : (T.commit).asked = T.asked := rfl

/-! ### Team.retireS -/

@[simp] theorem Team.retireS_id (T : Team) (pc : Int) : (T.retireS pc).id = T.id := rfl
@[simp] theorem Team.retireS_launch (T : Team) (pc : Int) : (T.retireS pc).launch = T.launch := rfl
@[simp] theorem Team.retireS_cohort (T : Team) (pc : Int) : (T.retireS pc).cohort = T.cohort := rfl
@[simp] theorem Team.retireS_tidx (T : Team) (pc : Int) : (T.retireS pc).tidx = T.tidx := rfl
@[simp] theorem Team.retireS_sort (T : Team) (pc : Int) : (T.retireS pc).sort = T.sort := rfl
@[simp] theorem Team.retireS_ctx (T : Team) (pc : Int) : (T.retireS pc).ctx = T.ctx := rfl
@[simp] theorem Team.retireS_core (T : Team) (pc : Int) : (T.retireS pc).core = T.core := rfl
@[simp] theorem Team.retireS_part (T : Team) (pc : Int) : (T.retireS pc).part = T.part := rfl
@[simp] theorem Team.retireS_slot (T : Team) (pc : Int) : (T.retireS pc).slot = T.slot := rfl
@[simp] theorem Team.retireS_pri (T : Team) (pc : Int) : (T.retireS pc).pri = T.pri := rfl
@[simp] theorem Team.retireS_hdr (T : Team) (pc : Int) : (T.retireS pc).hdr = T.hdr := rfl
@[simp] theorem Team.retireS_words (T : Team) (pc : Int) : (T.retireS pc).words = T.words := rfl
@[simp] theorem Team.retireS_vbud (T : Team) (pc : Int) : (T.retireS pc).vbud = T.vbud := rfl
@[simp] theorem Team.retireS_sbud (T : Team) (pc : Int) : (T.retireS pc).sbud = T.sbud := rfl
@[simp] theorem Team.retireS_widOf (T : Team) (pc : Int) : (T.retireS pc).widOf = T.widOf := rfl
@[simp] theorem Team.retireS_cohortOf (T : Team) (pc : Int) : (T.retireS pc).cohortOf = T.cohortOf := rfl
@[simp] theorem Team.retireS_sregs (T : Team) (pc : Int) : (T.retireS pc).sregs = T.sregs := rfl
@[simp] theorem Team.retireS_sempty (T : Team) (pc : Int) : (T.retireS pc).sempty = T.sempty := rfl
@[simp] theorem Team.retireS_kflags (T : Team) (pc : Int) : (T.retireS pc).kflags = T.kflags := rfl
@[simp] theorem Team.retireS_vregs (T : Team) (pc : Int) : (T.retireS pc).vregs = T.vregs := rfl
@[simp] theorem Team.retireS_marks (T : Team) (pc : Int) : (T.retireS pc).marks = T.marks := rfl
@[simp] theorem Team.retireS_q (T : Team) (pc : Int) : (T.retireS pc).q = T.q := rfl
@[simp] theorem Team.retireS_fflags (T : Team) (pc : Int) : (T.retireS pc).fflags = T.fflags := rfl
@[simp] theorem Team.retireS_items (T : Team) (pc : Int) : (T.retireS pc).items = T.items := rfl
@[simp] theorem Team.retireS_mask (T : Team) (pc : Int) : (T.retireS pc).mask = T.mask := rfl
@[simp] theorem Team.retireS_queue (T : Team) (pc : Int) : (T.retireS pc).queue = T.queue := rfl
@[simp] theorem Team.retireS_run (T : Team) (pc : Int) : (T.retireS pc).run = T.run := rfl
@[simp] theorem Team.retireS_split (T : Team) (pc : Int) : (T.retireS pc).split = T.split := rfl
@[simp] theorem Team.retireS_hqueue (T : Team) (pc : Int) : (T.retireS pc).hqueue = T.hqueue := rfl
@[simp] theorem Team.retireS_hrun (T : Team) (pc : Int) : (T.retireS pc).hrun = T.hrun := rfl
@[simp] theorem Team.retireS_hsplit (T : Team) (pc : Int) : (T.retireS pc).hsplit = T.hsplit := rfl
@[simp] theorem Team.retireS_splitsel (T : Team) (pc : Int) : (T.retireS pc).splitsel = T.splitsel := rfl
@[simp] theorem Team.retireS_waitlimit (T : Team) (pc : Int) : (T.retireS pc).waitlimit = T.waitlimit := rfl
@[simp] theorem Team.retireS_tvec (T : Team) (pc : Int) : (T.retireS pc).tvec = T.tvec := rfl
@[simp] theorem Team.retireS_trapcause (T : Team) (pc : Int) : (T.retireS pc).trapcause = T.trapcause := rfl
@[simp] theorem Team.retireS_trappc (T : Team) (pc : Int) : (T.retireS pc).trappc = T.trappc := rfl
@[simp] theorem Team.retireS_faultmask (T : Team) (pc : Int) : (T.retireS pc).faultmask = T.faultmask := rfl
@[simp] theorem Team.retireS_regionpc (T : Team) (pc : Int) : (T.retireS pc).regionpc = T.regionpc := rfl
@[simp] theorem Team.retireS_livein (T : Team) (pc : Int) : (T.retireS pc).livein = T.livein := rfl
@[simp] theorem Team.retireS_regionNo (T : Team) (pc : Int) : (T.retireS pc).regionNo = T.regionNo := rfl
@[simp] theorem Team.retireS_committed (T : Team) (pc : Int) : (T.retireS pc).committed = T.committed := rfl
@[simp] theorem Team.retireS_trapLevel (T : Team) (pc : Int) : (T.retireS pc).trapLevel = T.trapLevel := rfl
@[simp] theorem Team.retireS_raised (T : Team) (pc : Int) : (T.retireS pc).raised = T.raised := rfl
@[simp] theorem Team.retireS_crit (T : Team) (pc : Int) : (T.retireS pc).crit = T.crit := rfl
@[simp] theorem Team.retireS_dying (T : Team) (pc : Int) : (T.retireS pc).dying = T.dying := rfl
@[simp] theorem Team.retireS_preq (T : Team) (pc : Int) : (T.retireS pc).preq = T.preq := rfl
@[simp] theorem Team.retireS_mfmt (T : Team) (pc : Int) : (T.retireS pc).mfmt = T.mfmt := rfl
@[simp] theorem Team.retireS_codebook (T : Team) (pc : Int) : (T.retireS pc).codebook = T.codebook := rfl
@[simp] theorem Team.retireS_tiles (T : Team) (pc : Int) : (T.retireS pc).tiles = T.tiles := rfl
@[simp] theorem Team.retireS_tilesDone (T : Team) (pc : Int) : (T.retireS pc).tilesDone = T.tilesDone := rfl
@[simp] theorem Team.retireS_fills (T : Team) (pc : Int) : (T.retireS pc).fills = T.fills := rfl
@[simp] theorem Team.retireS_shist (T : Team) (pc : Int) : (T.retireS pc).shist = T.shist := rfl
@[simp] theorem Team.retireS_sfenced (T : Team) (pc : Int) : (T.retireS pc).sfenced = T.sfenced := rfl
@[simp] theorem Team.retireS_sfill (T : Team) (pc : Int) : (T.retireS pc).sfill = T.sfill := rfl
@[simp] theorem Team.retireS_tried (T : Team) (pc : Int) : (T.retireS pc).tried = T.tried := rfl
@[simp] theorem Team.retireS_lqAt (T : Team) (pc : Int) : (T.retireS pc).lqAt = T.lqAt := rfl
@[simp] theorem Team.retireS_replied (T : Team) (pc : Int) : (T.retireS pc).replied = T.replied := rfl
@[simp] theorem Team.retireS_fromResv (T : Team) (pc : Int) : (T.retireS pc).fromResv = T.fromResv := rfl
@[simp] theorem Team.retireS_spages (T : Team) (pc : Int) : (T.retireS pc).spages = T.spages := rfl
@[simp] theorem Team.retireS_lblocks (T : Team) (pc : Int) : (T.retireS pc).lblocks = T.lblocks := rfl
@[simp] theorem Team.retireS_gain (T : Team) (pc : Int) : (T.retireS pc).gain = T.gain := rfl
@[simp] theorem Team.retireS_issued (T : Team) (pc : Int) : (T.retireS pc).issued = T.issued := rfl
@[simp] theorem Team.retireS_waited (T : Team) (pc : Int) : (T.retireS pc).waited = T.waited := rfl
@[simp] theorem Team.retireS_asked (T : Team) (pc : Int) : (T.retireS pc).asked = T.asked := rfl

end Sys2Proof.Machine
end

