-- ==== Sys2Proof/Laws/Issue.lean ====
section
/-!
SUPPORT. What the shared operations of both streams do: finding the team, the checks before execution, and the fold over
the executing lanes.
-/
namespace Sys2Proof.Machine

/-! ### Teams -/

theorem State.team?_id {s : State} {t : Nat} {T : Team} (h : s.team? t = some T) : T.id = t := by
  simpa using List.find?_some h

theorem State.team?_setTeam {s : State} {T X : Team} (h : s.team? T.id = some X) : (s.setTeam T).team? T.id = some T := by
  simp only [State.team?, State.setTeam] at *
  generalize s.teams = ts at *
  induction ts with
  | nil => simp at h
  | cons a t ih =>
    by_cases e : a.id = T.id
    · simp [e]
    · simp only [List.find?_cons, List.map_cons, beq_eq_false_iff_ne.mpr e] at h ⊢
      simpa [beq_eq_false_iff_ne.mpr e] using ih h

theorem State.team?_setTeam_other (s : State) (T : Team) {t : Nat} (h : t ≠ T.id) : (s.setTeam T).team? t = s.team? t := by
  simp only [State.team?, State.setTeam]
  induction s.teams with
  | nil => rfl
  | cons a u ih =>
    rw [List.map_cons, List.find?_cons, List.find?_cons, ih]
    by_cases e : a.id = T.id
    · simp [e, beq_eq_false_iff_ne.mpr (Ne.symm h)]
    · simp [beq_eq_false_iff_ne.mpr e]

/-! ### The scalar stream -/

theorem ScalarReady.withScalar {s : State} {T : Team} {ns rs : List Nat} (h : ScalarReady s T ns rs) (k : Team → Out) :
    s.withScalar k = k T := by simp [State.withScalar, h.cur, h.team]

/-- A ready scalar instruction executes. -/
theorem ScalarReady.issue {s : State} {T : Team} {ns rs : List Nat} (h : ScalarReady s T ns rs) (k : Team → Out) :
    s.scalarIssue ns rs k = k T.linkFills := by
  have hb : (ns.any fun r => decide (T.sbud ≤ r)) = false := by
    simpa [List.any_eq_false] using fun r hr => h.budget r hr
  have he : rs.filter T.sIsEmpty = [] := by simpa [List.filter_eq_nil_iff] using fun r hr => h.full r hr
  rw [State.scalarIssue, h.withScalar]
  simp [hb, he]

theorem ScalarReady.op {s : State} {T : Team} {ns rs : List Nat} (h : ScalarReady s T ns rs) (f : Team → Team) :
    s.scalarOp ns rs f = .next (s.setTeam (f T.linkFills).nextS) := by rw [State.scalarOp, h.issue]

/-- A named register at or above the budget raises cause 0x09. -/
theorem scalarIssue_budget {s : State} {T : Team} {ns rs : List Nat} (hc : s.cur = some ⟨T.id, none⟩)
    (ht : s.team? T.id = some T) (hb : ∃ r ∈ ns, T.sbud ≤ r) (k : Team → Out) :
    s.scalarIssue ns rs k = s.scalarTrap T 0x09 := by
  obtain ⟨r, hr, hle⟩ := hb
  have : (ns.any fun r => decide (T.sbud ≤ r)) = true := by simpa using ⟨r, hr, hle⟩
  simp [State.scalarIssue, State.withScalar, hc, ht, this]

/-- A read of an empty register leaves the instruction where it is. -/
theorem scalarIssue_empty {s : State} {T : Team} {ns rs : List Nat} (hc : s.cur = some ⟨T.id, none⟩)
    (ht : s.team? T.id = some T) (hb : ∀ r ∈ ns, r < T.sbud) (he : ∃ r ∈ rs, T.sIsEmpty r = true) (k : Team → Out) :
    s.scalarIssue ns rs k =
      .next (s.setTeam { T with swaited := unionNat (rs.filter T.sIsEmpty) T.swaited }) := by
  have hb : (ns.any fun r => decide (T.sbud ≤ r)) = false := by
    simpa [List.any_eq_false] using fun r hr => hb r hr
  have he : (rs.filter T.sIsEmpty).isEmpty = false := by
    rw [List.isEmpty_eq_false_iff_exists_mem]
    obtain ⟨r, hr, h⟩ := he
    exact ⟨r, List.mem_filter.mpr ⟨hr, h⟩⟩
  simp [State.scalarIssue, State.withScalar, hc, ht, hb, he]

/-! ### Scalar registers -/

theorem Team.sreg_setS (T : Team) (d r : Nat) (w : Word) :
    (T.setS d w).sreg r = if r = d ∧ r ≠ 0 then w else T.sreg r := by
  unfold Team.setS Team.sreg
  by_cases hd : d = 0
  · subst hd; by_cases hr : r = 0 <;> simp [hr]
  · by_cases hr : r = 0
    · subst hr; simp
    · by_cases e : r = d <;> simp [hd, hr, SMap.rd_wr, e]

theorem Team.sIsEmpty_setS (T : Team) (d r : Nat) (w : Word) :
    (T.setS d w).sIsEmpty r = (T.sIsEmpty r && r != d) := by
  unfold Team.setS Team.sIsEmpty
  by_cases hd : d = 0
  · subst hd; by_cases hr : r = 0 <;> simp [hr]
  · rw [if_neg hd]
    by_cases hr : r = d <;> simp [hr]

theorem Team.setS_eq (T : Team) (d : Nat) (w : Word) :
    T.setS d w = { T with sregs := (T.setS d w).sregs, sempty := (T.setS d w).sempty } := by
  unfold Team.setS; split <;> rfl

/-! ### Lanes -/

theorem mem_lanesOf (m : LaneMask) (n l : Nat) : l ∈ lanesOf m n ↔ l < n ∧ m.getLsbD l = true := by
  simp [lanesOf]

theorem lanesOf_nodup (m : LaneMask) (n : Nat) : (lanesOf m n).Nodup :=
  List.Pairwise.filter _ List.nodup_range

theorem lt_of_mem_lanesOf {m : LaneMask} {n l : Nat} (h : l ∈ lanesOf m n) : l < 1024 := by
  refine Nat.lt_of_not_le fun hc => ?_
  have := ((mem_lanesOf m n l).mp h).2
  rw [BitVec.getLsbD_of_ge _ _ hc] at this
  exact absurd this (by decide)

/-- The executing lanes of an instruction. -/
theorem mem_exec {T : Team} {slot : Nat} {g : Guard} {l : Nat} :
    l ∈ lanesOf (T.execMask (T.frag slot) g) T.lanes ↔ T.executes slot g l = true := by
  simp [mem_lanesOf, Team.executes]

theorem anyEmpty_of_subset {T : Team} {rs rs' : List Nat} {m : LaneMask} (h : T.anyEmpty rs m = false)
    (hs : ∀ r ∈ rs', r ∈ rs) : T.anyEmpty rs' m = false := by
  simp only [Team.anyEmpty, List.any_eq_false] at *
  exact fun r hr => h r (hs r hr)

theorem LaneCurrent.withLane {s : State} {T : Team} {slot : Nat} (h : LaneCurrent s T slot) (k : Team → Nat → Out) :
    s.withLane k = k T slot := by simp [State.withLane, h.cur, h.team]

/-- A ready lane instruction passes the checks of R51. -/
theorem LaneReady.checks {s : State} {T : Team} {slot : Nat} {g : Guard} {n : Names} (h : LaneReady s T slot g n)
    (k : Unit → Out) (s' : State) : s'.laneChecks T slot (T.execMask (T.frag slot) g) n [] k = k () := by
  have hf : ((n.srcs.filter fun p => p.1.fe).any fun p =>
      T.anyEmpty (srcRegs p.1 p.2) (T.execMask (T.frag slot) g)) = false := by
    rw [List.any_eq_false]
    intro p hp
    rw [Bool.not_eq_true]
    exact anyEmpty_of_subset h.full fun r hr =>
      List.mem_append_right _ (List.mem_flatMap.mpr ⟨p, (List.mem_filter.mp hp).1, hr⟩)
  simp [State.laneChecks, h.budget, h.full, hf]

theorem LaneReady.op {s : State} {T : Team} {slot : Nat} {g : Guard} {n : Names} (h : LaneReady s T slot g n)
    (f : Team → Team → Nat → Team) :
    s.laneOp g n f =
      .next (s.setTeam (((lanesOf (T.execMask (T.frag slot) g) T.lanes).foldl (fun q l => f T q l) T).nextL slot)) := by
  rw [State.laneOp, h.withLane]; exact h.checks _ _

/-! ### Vector registers -/

theorem vkey_inj {n m l k : Nat} (hl : l < 1024) (hk : k < 1024) : vkey n l = vkey m k ↔ n = m ∧ l = k := by
  unfold vkey; omega

theorem Team.v_setV (T : Team) (n l m k : Nat) (w : Word) (hl : l < 1024) (hk : k < 1024) :
    (T.setV n l w).v m k = if m = n ∧ k = l then w else T.v m k := by
  simp [Team.setV, Team.v, SMap.rd_wr, vkey_inj hk hl]

theorem Team.flags_orFlags (T : Team) (l k : Nat) (f : BitVec 16) :
    (T.orFlags l f).flags k = if k = l then T.flags k ||| f else T.flags k := by
  unfold Team.orFlags
  by_cases h : f = 0
  · subst h; simp
  · rw [if_neg h]
    by_cases e : k = l
    · subst e; simp [Team.flags, SMap.rd_wr]
    · simp [Team.flags, SMap.rd_wr, e]

theorem Team.qv_setQ (T : Team) (n l m k : Nat) (v : Tri) (hl : l < 1024) (hk : k < 1024) :
    (T.setQ n l v).qv m k = if m = n ∧ k = l ∧ m ≠ 0 then v else T.qv m k := by
  unfold Team.setQ Team.qv
  by_cases hm : m = 0
  · subst hm; by_cases hn : n = 0 <;> simp [hn]
  · by_cases hn : n = 0
    · subst hn; simp [hm]
    · by_cases e : m = n ∧ k = l
      · simp only [hn, if_false, SMap.rd_wr, e.1, e.2, and_self, ne_eq, not_false_eq_true, if_true]
        cases v <;> rfl
      · simp [hm, hn, SMap.rd_wr, vkey_inj hk hl, e]

/-- What `put` writes: the register of the field, and the odd register of a pair. -/
def putOut (pair : Bool) (d : Nat) (val : Nat → Pair) (n l : Nat) : Option Word :=
  if n = d then some (val l).even else if pair && n == d + 1 then some (val l).odd else none

theorem Team.v_put (q : Team) (ty : LTy) (d : BitVec 9) (l n k : Nat) (r : Res) (hl : l < 1024) (hk : k < 1024) :
    (q.put ty d l r).v n k =
      if k = l then (putOut (isPair ty) d.toNat (fun _ => r.1) n l).getD (q.v n k) else q.v n k := by
  have hv : ∀ (X : Team) (f : BitVec 16), (X.orFlags l f).v n k = X.v n k := fun X f => by simp [Team.v]
  unfold Team.put Team.setVp putOut
  rw [hv]
  cases isPair ty
  · by_cases e : k = l <;> by_cases e2 : n = d.toNat <;> simp [Team.v_setV, hl, hk, e, e2]
  · by_cases e : k = l <;> by_cases e2 : n = d.toNat <;> by_cases e3 : n = d.toNat + 1 <;>
      simp [Team.v_setV, hl, hk, e, e2, e3]

end Sys2Proof.Machine
end

