-- ==== Sys2Proof/Laws/Folds.lean ====
section
/-!
SUPPORT. What a lane instruction leaves: the fold over its executing lanes writes each lane's own results and nothing else.
-/
namespace Sys2Proof.Machine

theorem Team.nextL_put (T : Team) (slot : Nat) (V : SMap Word) (F : SMap (BitVec 16)) :
    Team.nextL { T with vregs := V, fflags := F } slot = { T.nextL slot with vregs := V, fflags := F } := by
  unfold Team.nextL Team.countL Team.setSp Team.sp
  cases T.trapLevel <;> rfl
theorem Team.nextL_setQ (T : Team) (slot : Nat) (Q : SMap (BitVec 2)) (F : SMap (BitVec 16)) :
    Team.nextL { T with q := Q, fflags := F } slot = { T.nextL slot with q := Q, fflags := F } := by
  unfold Team.nextL Team.countL Team.setSp Team.sp
  cases T.trapLevel <;> rfl
theorem Team.nextL_vregs (T : Team) (slot : Nat) : (T.nextL slot).vregs = T.vregs := by
  unfold Team.nextL Team.countL Team.setSp Team.sp
  cases T.trapLevel <;> rfl
theorem Team.nextL_q (T : Team) (slot : Nat) : (T.nextL slot).q = T.q := by
  unfold Team.nextL Team.countL Team.setSp Team.sp
  cases T.trapLevel <;> rfl
theorem Team.nextL_fflags (T : Team) (slot : Nat) : (T.nextL slot).fflags = T.fflags := by
  unfold Team.nextL Team.countL Team.setSp Team.sp
  cases T.trapLevel <;> rfl

@[simp] theorem Team.v_nextL (T : Team) (slot n l : Nat) : (T.nextL slot).v n l = T.v n l := by
  simp [Team.v, Team.nextL_vregs]
@[simp] theorem Team.qv_nextL (T : Team) (slot n l : Nat) : (T.nextL slot).qv n l = T.qv n l := by
  simp [Team.qv, Team.nextL_q]
@[simp] theorem Team.flags_nextL (T : Team) (slot l : Nat) : (T.nextL slot).flags l = T.flags l := by
  simp [Team.flags, Team.nextL_fflags]

theorem Team.put_eq (q : Team) (ty : LTy) (d : BitVec 9) (l : Nat) (r : Res) :
    q.put ty d l r = { q with vregs := (q.put ty d l r).vregs, fflags := (q.put ty d l r).fflags } := by
  unfold Team.put Team.setVp Team.orFlags
  split <;> split <;> rfl

theorem Team.flags_put (q : Team) (ty : LTy) (d : BitVec 9) (l k : Nat) (r : Res) :
    (q.put ty d l r).flags k = if k = l then q.flags k ||| r.2 else q.flags k := by
  unfold Team.put Team.setVp
  rw [Team.flags_orFlags]
  cases isPair ty <;> simp [Team.flags]

/-- The fold of an instruction that writes a destination field in each executing lane. -/
theorem foldl_put (ty : LTy) (d : BitVec 9) (val : Nat → Res) (ls : List Nat) (hlt : ∀ l ∈ ls, l < 1024) (hnd : ls.Nodup)
    (q : Team) :
    (∀ n k, k < 1024 → (ls.foldl (fun q l => q.put ty d l (val l)) q).v n k =
      if k ∈ ls then (putOut (isPair ty) d.toNat (fun l => (val l).1) n k).getD (q.v n k) else q.v n k) ∧
    (∀ k, (ls.foldl (fun q l => q.put ty d l (val l)) q).flags k = if k ∈ ls then q.flags k ||| (val k).2 else q.flags k) ∧
    ls.foldl (fun q l => q.put ty d l (val l)) q =
      { q with
        vregs := (ls.foldl (fun q l => q.put ty d l (val l)) q).vregs
        fflags := (ls.foldl (fun q l => q.put ty d l (val l)) q).fflags } := by
  induction ls generalizing q with
  | nil => simp
  | cons a t ih =>
    rw [List.nodup_cons] at hnd
    obtain ⟨hv, hf, he⟩ := ih (fun l hl => hlt l (List.mem_cons_of_mem _ hl)) hnd.2 (q.put ty d a (val a))
    refine ⟨fun n k hk => ?_, fun k => ?_, ?_⟩
    · rw [List.foldl_cons, hv n k hk, Team.v_put _ _ _ _ _ _ _ (hlt a (List.mem_cons_self ..)) hk]
      by_cases e : k = a
      · subst e; simp [hnd.1, putOut]
      · simp [e, List.mem_cons]
    · rw [List.foldl_cons, hf k, Team.flags_put]
      by_cases e : k = a
      · subst e; simp [hnd.1]
      · simp [e, List.mem_cons]
    · rw [List.foldl_cons, he, Team.put_eq]

/-- The fold of an instruction that writes a predicate and flags in each executing lane. -/
theorem foldl_setQ (d : Nat) (val : Nat → Tri) (fl : Nat → BitVec 16) (ls : List Nat) (hlt : ∀ l ∈ ls, l < 1024)
    (hnd : ls.Nodup) (q : Team) :
    (∀ n k, k < 1024 → (ls.foldl (fun q l => (q.setQ d l (val l)).orFlags l (fl l)) q).qv n k =
      if k ∈ ls ∧ n = d ∧ n ≠ 0 then val k else q.qv n k) ∧
    (∀ k, (ls.foldl (fun q l => (q.setQ d l (val l)).orFlags l (fl l)) q).flags k =
      if k ∈ ls then q.flags k ||| fl k else q.flags k) ∧
    ls.foldl (fun q l => (q.setQ d l (val l)).orFlags l (fl l)) q =
      { q with
        q := (ls.foldl (fun q l => (q.setQ d l (val l)).orFlags l (fl l)) q).q
        fflags := (ls.foldl (fun q l => (q.setQ d l (val l)).orFlags l (fl l)) q).fflags } := by
  induction ls generalizing q with
  | nil => simp
  | cons a t ih =>
    rw [List.nodup_cons] at hnd
    obtain ⟨hv, hf, he⟩ := ih (fun l hl => hlt l (List.mem_cons_of_mem _ hl)) hnd.2 ((q.setQ d a (val a)).orFlags a (fl a))
    refine ⟨fun n k hk => ?_, fun k => ?_, ?_⟩
    · have ho : ∀ (X : Team) (f : BitVec 16), (X.orFlags a f).qv n k = X.qv n k := fun X f => by simp [Team.qv]
      rw [List.foldl_cons, hv n k hk, ho, Team.qv_setQ _ _ _ _ _ _ (hlt a (List.mem_cons_self ..)) hk]
      by_cases e : k = a
      · subst e; simp [hnd.1]
      · simp [e, List.mem_cons]
    · have ho : ∀ (X : Team) (v : Tri), (X.setQ d a v).flags k = X.flags k := fun X v => by simp [Team.flags]
      rw [List.foldl_cons, hf k, Team.flags_orFlags, ho]
      by_cases e : k = a
      · subst e; simp [hnd.1]
      · simp [e, List.mem_cons]
    · have hq : ∀ X : Team, (X.setQ d a (val a)).orFlags a (fl a) =
          { X with q := ((X.setQ d a (val a)).orFlags a (fl a)).q, fflags := ((X.setQ d a (val a)).orFlags a (fl a)).fflags } := by
        intro X; unfold Team.setQ Team.orFlags; split <;> split <;> rfl
      rw [List.foldl_cons, he, hq]

/-- A lane instruction that writes a destination field: what each register and flag holds, and that nothing else changed. -/
theorem LaneReady.put {s : State} {T : Team} {slot : Nat} {g : Guard} {n : Names} (h : LaneReady s T slot g n)
    (ty : LTy) (d : BitVec 9) (val : Nat → Res) :
    ∃ T', s.laneOp g n (fun _ q l => q.put ty d l (val l)) = .next (s.setTeam T') ∧
      (∀ r k, k < 1024 → T'.v r k =
        if T.executes slot g k then (putOut (isPair ty) d.toNat (fun l => (val l).1) r k).getD (T.v r k) else T.v r k) ∧
      (∀ k, T'.flags k = if T.executes slot g k then T.flags k ||| (val k).2 else T.flags k) ∧
      T' = { T.nextL slot with vregs := T'.vregs, fflags := T'.fflags } := by
  obtain ⟨hv, hf, he⟩ := foldl_put ty d val (lanesOf (T.execMask (T.frag slot) g) T.lanes)
    (fun l => lt_of_mem_lanesOf) (lanesOf_nodup _ _) T
  refine ⟨_, h.op _, fun r k hk => ?_, fun k => ?_, ?_⟩
  · rw [Team.v_nextL, hv r k hk]; simp only [mem_exec]
  · rw [Team.flags_nextL, hf k]; simp only [mem_exec]
  · rw [Team.nextL_vregs, Team.nextL_fflags]
    conv => lhs; rw [he]
    exact Team.nextL_put T slot _ _

/-- A lane instruction that writes a predicate. -/
theorem LaneReady.setQ {s : State} {T : Team} {slot : Nat} {g : Guard} {n : Names} (h : LaneReady s T slot g n)
    (d : Nat) (val : Nat → Tri) (fl : Nat → BitVec 16) :
    ∃ T', s.laneOp g n (fun _ q l => (q.setQ d l (val l)).orFlags l (fl l)) = .next (s.setTeam T') ∧
      (∀ r k, k < 1024 → T'.qv r k = if T.executes slot g k ∧ r = d ∧ r ≠ 0 then val k else T.qv r k) ∧
      (∀ k, T'.flags k = if T.executes slot g k then T.flags k ||| fl k else T.flags k) ∧
      T' = { T.nextL slot with q := T'.q, fflags := T'.fflags } := by
  obtain ⟨hv, hf, he⟩ := foldl_setQ d val fl (lanesOf (T.execMask (T.frag slot) g) T.lanes)
    (fun l => lt_of_mem_lanesOf) (lanesOf_nodup _ _) T
  refine ⟨_, h.op _, fun r k hk => ?_, fun k => ?_, ?_⟩
  · rw [Team.qv_nextL, hv r k hk]; simp only [mem_exec]
  · rw [Team.flags_nextL, hf k]; simp only [mem_exec]
  · rw [Team.nextL_q, Team.nextL_fflags]
    conv => lhs; rw [he]
    exact Team.nextL_setQ T slot _ _

end Sys2Proof.Machine
end

