-- ==== Sys2Proof/Laws/Elements.lean ====
section
/-!
SUPPORT. Elements of a register: what each element of an elementwise result is.
-/
namespace Sys2Proof.Machine

@[simp] theorem toPair_even (w : Word) : w.toPair.even = w := by
  apply BitVec.eq_of_getLsbD_eq
  intro i hi
  simp [Word.toPair, Pair.even, hi, show i < 128 by omega]
@[simp] theorem lowPair_even (w : Word) : (lowPair w).even = w := toPair_even w
theorem append_low {m n : Nat} (a : BitVec m) (b : BitVec n) : (a ++ b).extractLsb' 0 n = b := by
  ext i hi
  simp [BitVec.getLsbD_append, hi]
theorem append_high {m n : Nat} (a : BitVec m) (b : BitVec n) : (a ++ b).extractLsb' n m = a := by
  ext i hi
  simp [BitVec.getLsbD_append, show ¬ n + i < n by omega, hi]
@[simp] theorem mkPair_even (a b : Word) : (Pair.mk a b).even = a := append_low b a
@[simp] theorem mkPair_odd (a b : Word) : (Pair.mk a b).odd = b := append_high b a

theorem elemW_pos (ty : LTy) : 0 < elemW ty := by cases ty <;> decide
theorem elemW_count (ty : LTy) : elemW ty * elemCount ty = 64 := by cases ty <;> decide

theorem joinElems_at (n : Nat) (xs : List Nat) (i : Nat) :
    joinElems n xs / 2 ^ (n * i) % 2 ^ n = xs.getD i 0 % 2 ^ n := by
  induction xs generalizing i with
  | nil => simp [joinElems]
  | cons x t ih =>
    cases i with
    | zero => simp [joinElems, Nat.add_mul_mod_self_left]
    | succ i =>
      have h : joinElems n (x :: t) / 2 ^ n = joinElems n t := by
        rw [joinElems, Nat.add_mul_div_left _ _ (Nat.two_pow_pos n), Nat.div_eq_of_lt (Nat.mod_lt _ (Nat.two_pow_pos n)),
          Nat.zero_add]
      rw [Nat.mul_succ, Nat.add_comm, Nat.pow_add, ← Nat.div_div_eq_div_mul, h, ih]
      simp

/-- Element e of a register made of elements. -/
theorem elemOf_ofElems (ty : LTy) (xs : List Nat) (e : Nat) (h : e < elemCount ty) :
    elemOf ty (ofElems ty xs) e = xs.getD e 0 % 2 ^ elemW ty := by
  unfold elemOf ofElems bitsAt
  rw [BitVec.toNat_ofNat]
  have hw : elemW ty * e + elemW ty ≤ 64 := by
    rw [← elemW_count ty, ← Nat.mul_succ]; exact Nat.mul_le_mul_left _ h
  rw [← joinElems_at (elemW ty) xs e]
  have : (2 : Nat) ^ 64 = 2 ^ (elemW ty * e) * (2 ^ elemW ty * 2 ^ (64 - (elemW ty * e + elemW ty))) := by
    rw [← Nat.pow_add, ← Nat.pow_add]; congr 1; omega
  rw [this, Nat.mod_mul_right_div_self, Nat.mod_mul_right_mod]

theorem elemsOf_length (ty : LTy) (w : Word) : (elemsOf ty w).length = elemCount ty := by simp [elemsOf]
theorem elemsOf_getElem (ty : LTy) (w : Word) (e : Nat) (h : e < (elemsOf ty w).length) :
    (elemsOf ty w)[e] = elemOf ty w e := by simp [elemsOf]

theorem getD_elem {α : Type} (xs : List α) (e : Nat) (d : α) (h : e < xs.length) : xs.getD e d = xs[e] := by
  simp [List.getD, h]

theorem elemOf_map1 (ty : LTy) (f : Nat → Nat × FFlags) (a : Word) (e : Nat) (h : e < elemCount ty) :
    elemOf ty (map1 ty f a).1.even e = (f (elemOf ty a e)).1 % 2 ^ elemW ty := by
  simp only [map1, ofRes, toPair_even]
  rw [elemOf_ofElems _ _ _ h, getD_elem _ _ _ (by simp [elemsOf_length, h])]
  simp [elemsOf_getElem]

theorem elemOf_map2 (ty : LTy) (f : Nat → Nat → Nat × FFlags) (a b : Word) (e : Nat) (h : e < elemCount ty) :
    elemOf ty (map2 ty f a b).1.even e = (f (elemOf ty a e) (elemOf ty b e)).1 % 2 ^ elemW ty := by
  simp only [map2, ofRes, toPair_even]
  rw [elemOf_ofElems _ _ _ h, getD_elem _ _ _ (by simp [elemsOf_length, h])]
  simp [elemsOf_getElem]

theorem elemOf_map3 (ty : LTy) (f : Nat → Nat → Nat → Nat × FFlags) (a b c : Word) (e : Nat) (h : e < elemCount ty) :
    elemOf ty (map3 ty f a b c).1.even e = (f (elemOf ty a e) (elemOf ty b e) (elemOf ty c e)).1 % 2 ^ elemW ty := by
  simp only [map3, ofRes, toPair_even]
  rw [elemOf_ofElems _ _ _ h, getD_elem _ _ _ (by simp [elemsOf_length, h])]
  simp [elemsOf_getElem]

end Sys2Proof.Machine
end

