-- ==== Sys2Proof/Laws/Claims.lean ====
section
/-!
SUPPORT. The shared shapes of lane instructions, in the words the claims use: what each leaves when its fragment is ready.
-/
namespace Sys2Proof.Machine

theorem LaneWrites.congr {s : State} {T : Team} {slot : Nat} {i : Instr} {g : Guard} {pair : Bool} {d : BitVec 9}
    {val val' : Nat → Pair} {fl fl' : Nat → FFlags} (h : LaneWrites s T slot i g pair d val fl) (hv : ∀ l, val l = val' l)
    (hf : ∀ l, fl l = fl' l) : LaneWrites s T slot i g pair d val' fl' := by
  rw [← funext hv, ← funext hf]; exact h

/-- An instruction that puts a result in each executing lane. -/
theorem LaneReady.writes {s : State} {T : Team} {slot : Nat} {i : Instr} {g : Guard} {n : Names}
    (h : LaneReady s T slot g n) (ty : LTy) (d : BitVec 9) (val : Team → Nat → Res)
    (hi : exec i s = s.laneOp g n fun T q l => q.put ty d l (val T l)) :
    LaneWrites s T slot i g (isPair ty) d (fun l => (val T l).1) fun l => (val T l).2 := by
  obtain ⟨T', he, hv, hf, ht⟩ := h.put ty d (val T)
  refine ⟨T', ?_, fun r l hl => ?_, hf, ht⟩
  · rw [hi, h.op]; rw [h.op] at he; exact he
  · rw [hv r l hl]
    cases hx : T.executes slot g l <;> by_cases e : r = d.toNat <;> cases isPair ty <;>
      by_cases e2 : r = d.toNat + 1 <;> simp [putOut, e, e2]

theorem isPair_iv64 (ty : LTy) : isPair ty = true ↔ ty = .iv64 := by cases ty <;> decide

/-- Elements of a result that sets no flag. -/
theorem LaneWrites.elems {s : State} {T : Team} {slot : Nat} {i : Instr} {g : Guard} {ty : LTy} {d : BitVec 9}
    {r : Nat → Res} {f : Nat → Nat → Nat}
    (h : LaneWrites s T slot i g false d (fun l => (r l).1) fun l => (r l).2) (h0 : ∀ l, (r l).2 = 0)
    (he : ∀ l e, e < elemCount ty → elemOf ty (r l).1.even e = f l e) : LaneElems s T slot i g ty d f := by
  refine ⟨fun l => (r l).1.even, ?_, he⟩
  obtain ⟨T', h1, h2, h3, h4⟩ := h
  refine ⟨T', h1, fun r' l hl => ?_, fun l => ?_, h4⟩
  · rw [h2 r' l hl]; simp
  · rw [h3 l]; simp only [h0]

theorem LaneWrites.floats {s : State} {T : Team} {slot : Nat} {i : Instr} {g : Guard} {ty : LTy} {d : BitVec 9}
    {r : Nat → Res} {f : Nat → Nat → Nat × FFlags}
    (h : LaneWrites s T slot i g false d (fun l => (r l).1) fun l => (r l).2)
    (h0 : ∀ l, (r l).2 = orElems ty fun e => (f l e).2)
    (he : ∀ l e, e < elemCount ty → elemOf ty (r l).1.even e = (f l e).1 % 2 ^ elemW ty) :
    LaneFloats s T slot i g ty d f := by
  refine ⟨fun l => (r l).1.even, ?_, he⟩
  obtain ⟨T', h1, h2, h3, h4⟩ := h
  refine ⟨T', h1, fun r' l hl => ?_, fun l => ?_, h4⟩
  · rw [h2 r' l hl]; simp
  · rw [h3 l]; simp only [h0]

/-- An instruction that sets a predicate and flags in each executing lane. -/
theorem LaneReady.setsPred {s : State} {T : Team} {slot : Nat} {i : Instr} {g : Guard} {n : Names}
    (h : LaneReady s T slot g n) (d : BitVec 4) (v : Team → Nat → Tri) (fl : Team → Nat → FFlags)
    (hi : exec i s = s.laneOp g n fun T q l => (q.setQ d.toNat l (v T l)).orFlags l (fl T l)) :
    LaneSetsPred s T slot i g d (v T) (fl T) := by
  obtain ⟨T', he, hv, hf, ht⟩ := h.setQ d.toNat (v T) (fl T)
  refine ⟨T', ?_, hv, hf, ht⟩
  rw [hi, h.op]; rw [h.op] at he; exact he

/-! ### Cross-lane instructions -/

theorem CrossReady.gather {s : State} {T : Team} {slot : Nat} {all : Bool} (hx : CrossReady T slot all)
    (hc : LaneCurrent s T slot) (i : Instr) (n : Names) (k : State → Team → Nat → Out) :
    s.gather all i n k = if all && T.overBudget n then s.laneTrap T slot 0x09 else k s T slot := by
  rw [State.gather, hc.withLane]
  cases all
  · simp
  · have h := hx rfl
    cases hw : (T.frag slot).wait with
    | none => simp [hw] at h
    | some w =>
      obtain ⟨i', x, what, st⟩ := w
      simp only [hw, Option.map_some, Option.some.injEq] at h
      subst h
      by_cases hb : T.overBudget n = true <;> simp [hb, hw]

theorem LaneReady.gather {s : State} {T : Team} {slot : Nat} {all : Bool} {g : Guard} {n : Names}
    (h : LaneReady s T slot g n) (hx : CrossReady T slot all) (i : Instr) (k : State → Team → Nat → Out) :
    s.gather all i n k = k s T slot := by
  rw [hx.gather h.toLaneCurrent, h.budget]; simp

theorem LaneReady.cross {s : State} {T : Team} {slot : Nat} {all : Bool} {g : Guard} {n : Names}
    (h : LaneReady s T slot g n) (hx : CrossReady T slot all) (i : Instr) (f : Team → List Nat → Team) :
    s.crossOp all i g n f =
      .next (s.setTeam ((f T (lanesOf (T.execMask (T.frag slot) g) T.lanes)).nextL slot)) := by
  rw [State.crossOp, h.gather hx, h.checks]

/-- A cross-lane instruction that puts a result in each executing lane. -/
theorem LaneReady.crossWrites {s : State} {T : Team} {slot : Nat} {all : Bool} {g : Guard} {n : Names} {i : Instr}
    (h : LaneReady s T slot g n) (hx : CrossReady T slot all) (ty : LTy) (d : BitVec 9)
    (val : Team → List Nat → Nat → Res)
    (hi : exec i s = s.crossOp all i g n fun T ls => ls.foldl (fun q l => q.put ty d l (val T ls l)) T) :
    LaneWrites s T slot i g (isPair ty) d
      (fun l => (val T (lanesOf (T.execMask (T.frag slot) g) T.lanes) l).1)
      fun l => (val T (lanesOf (T.execMask (T.frag slot) g) T.lanes) l).2 := by
  obtain ⟨T', he, hv, hf, ht⟩ := h.put ty d (val T (lanesOf (T.execMask (T.frag slot) g) T.lanes))
  refine ⟨T', ?_, fun r l hl => ?_, hf, ht⟩
  · rw [hi, h.cross hx]; rw [h.op] at he; exact he
  · rw [hv r l hl]
    cases hx : T.executes slot g l <;> by_cases e : r = d.toNat <;> cases isPair ty <;>
      by_cases e2 : r = d.toNat + 1 <;> simp [putOut, e, e2]

/-- A cross-lane instruction that sets a predicate in each executing lane. -/
theorem LaneReady.crossSetsPred {s : State} {T : Team} {slot : Nat} {all : Bool} {g : Guard} {n : Names} {i : Instr}
    (h : LaneReady s T slot g n) (hx : CrossReady T slot all) (d : BitVec 4) (v : Team → List Nat → Nat → Tri)
    (hi : exec i s = s.crossOp all i g n fun T ls => ls.foldl (fun q l => q.setQ d.toNat l (v T ls l)) T) :
    LaneSetsPred s T slot i g d (v T (lanesOf (T.execMask (T.frag slot) g) T.lanes)) fun _ => 0 := by
  obtain ⟨T', he, hv, hf, ht⟩ := h.setQ d.toNat (v T (lanesOf (T.execMask (T.frag slot) g) T.lanes)) fun _ => 0
  refine ⟨T', ?_, hv, hf, ht⟩
  rw [hi, h.cross hx]; rw [h.op] at he; simpa [Team.orFlags] using he

/-! ### Flags of elementwise results -/

theorem foldl_or_zip (xs : List (Nat × FFlags)) (n : Nat) (f : Nat → FFlags) (hn : xs.length = n)
    (h : ∀ e (he : e < xs.length), xs[e].2 = f e) (z : FFlags) :
    xs.foldl (fun r x => r ||| x.2) z = (List.range n).foldl (fun r e => r ||| f e) z := by
  have : xs.map (·.2) = (List.range n).map f := by
    apply List.ext_getElem (by simp [hn])
    intro e h1 h2
    simp only [List.getElem_map, List.getElem_range]
    exact h e (by simpa using h1)
  rw [← List.foldl_map (f := fun x : Nat × FFlags => x.2) (g := fun r y => r ||| y), this, List.foldl_map]

theorem map1_flags (ty : LTy) (f : Nat → Nat × FFlags) (a : Word) :
    (map1 ty f a).2 = orElems ty fun e => (f (elemOf ty a e)).2 := by
  simp only [map1, ofRes, orElems]
  apply foldl_or_zip _ _ _ (by simp [elemsOf_length])
  intro e he
  simp [elemsOf_getElem]

theorem map2_flags (ty : LTy) (f : Nat → Nat → Nat × FFlags) (a b : Word) :
    (map2 ty f a b).2 = orElems ty fun e => (f (elemOf ty a e) (elemOf ty b e)).2 := by
  simp only [map2, ofRes, orElems]
  apply foldl_or_zip _ _ _ (by simp [elemsOf_length])
  intro e he
  simp [elemsOf_getElem]

theorem map3_flags (ty : LTy) (f : Nat → Nat → Nat → Nat × FFlags) (a b c : Word) :
    (map3 ty f a b c).2 = orElems ty fun e => (f (elemOf ty a e) (elemOf ty b e) (elemOf ty c e)).2 := by
  simp only [map3, ofRes, orElems]
  apply foldl_or_zip _ _ _ (by simp [elemsOf_length])
  intro e he
  simp [elemsOf_getElem]

theorem orElems_zero (ty : LTy) : orElems ty (fun _ => 0) = 0 := by cases ty <;> decide

end Sys2Proof.Machine
end

