-- ==== Sys2Proof/Laws/Lines.lean ====
section
/-!
SUPPORT. What the operations on core copies, poison marks, the accesses of a team that halts, and turns do.
-/
namespace Sys2Proof.Machine

/-! ### Core copies (R248, R296) -/

theorem State.line?_some {s : State} {c n : Nat} {l : Line} (h : s.line? c n = some l) : l.core = c ∧ l.line = n := by
  have := List.find?_some h
  simpa using this

/-- A line that is put in front is the one its place now holds; every other place holds what it held. -/
theorem State.line?_putLine (s : State) (l : Line) (c n : Nat) :
    (s.putLine l).line? c n = if l.core = c ∧ l.line = n then some l else s.line? c n := by
  unfold State.line? State.putLine
  by_cases h : l.core = c ∧ l.line = n
  · simp [h]
  · rw [if_neg h, List.find?_cons_of_neg (by simpa using h), List.find?_filter]
    congr 1
    funext x
    by_cases hx : x.core = c ∧ x.line = n
    · obtain ⟨rfl, rfl⟩ := hx
      by_cases hc : x.core = l.core
      · have hl : x.line ≠ l.line := fun hl => h ⟨hc.symm, hl.symm⟩
        simp [hl]
      · simp [hc]
    · have : (x.core == c && x.line == n) = false := by simpa using hx
      simp [this]

/-- Putting or changing a line changes the lines alone. -/
theorem State.putLine_frame (s : State) (l : Line) : s.putLine l = { s with lines := (s.putLine l).lines } := rfl
theorem State.setLine_frame (s : State) (l : Line) : s.setLine l = { s with lines := (s.setLine l).lines } := rfl

theorem State.touch_frame (s : State) (c n : Nat) : s.touch c n = { s with lines := (s.touch c n).lines } := by
  unfold State.touch
  split
  · exact s.putLine_frame _
  · rfl

/-- Using a line changes the order of the lines and what no place holds. -/
theorem State.line?_touch (s : State) (c n k m : Nat) : (s.touch c n).line? k m = s.line? k m := by
  unfold State.touch
  split
  · next l h =>
    rw [State.line?_putLine]
    split
    · next e => rw [← e.1, ← e.2, (State.line?_some h).1, (State.line?_some h).2, h]
    · rfl
  · rfl

/-- A set that holds the line, or fewer than eight, sends none away. -/
theorem State.makeRoom_room (s : State) (c n : Nat) (h : (∃ l ∈ s.setMates c n, l.line = n) ∨ (s.setMates c n).length < 8) :
    s.makeRoom c n = s := by
  unfold State.makeRoom
  have : ((s.setMates c n).any (fun l => l.line == n) || decide ((s.setMates c n).length < 8)) = true := by
    rcases h with ⟨l, hl, e⟩ | h
    · exact Bool.or_eq_true_iff.2 (.inl (List.any_eq_true.2 ⟨l, hl, by simpa using e⟩))
    · exact Bool.or_eq_true_iff.2 (.inr (by simpa using h))
  simp only [this, if_true]

/-! ### Poison (R387) -/

theorem mem_insertNat (k j : Nat) (ks : List Nat) : j ∈ insertNat k ks ↔ j = k ∨ j ∈ ks := by
  induction ks with
  | nil => simp [insertNat]
  | cons a t ih =>
    unfold insertNat
    split
    · simp
    · split
      · next e => subst e; simp
      · simp only [List.mem_cons, ih]
        exact ⟨fun h => h.elim (fun x => .inr (.inl x)) fun h => h.elim .inl fun x => .inr (.inr x),
          fun h => h.elim (fun x => .inr (.inl x)) fun h => h.elim .inl fun x => .inr (.inr x)⟩

/-- The bytes named are poisoned from then on, and so is what was. -/
theorem State.mem_taint (s : State) (ks : List Nat) (j : Nat) : j ∈ (s.taint ks).poison ↔ j ∈ ks ∨ j ∈ s.poison := by
  suffices h : ∀ p : List Nat, j ∈ ks.foldl (fun r k => insertNat k r) p ↔ j ∈ ks ∨ j ∈ p from h s.poison
  induction ks with
  | nil => simp
  | cons a t ih =>
    intro p
    simp only [List.foldl_cons, ih, mem_insertNat, List.mem_cons]
    exact ⟨fun h => h.elim (fun x => .inl (.inr x)) fun h => h.elim (fun x => .inl (.inl x)) .inr,
      fun h => h.elim (fun h => h.elim (fun x => .inr (.inl x)) .inl) fun x => .inr (.inr x)⟩

theorem State.taint_frame (s : State) (ks : List Nat) : s.taint ks = { s with poison := (s.taint ks).poison } := rfl

/-! ### Teams that halt, and turns -/

/-- A team that is over gives up exactly its own loads and waits. -/
theorem State.mem_abandon (s : State) (T : Team) (e : Ev) :
    e ∈ (s.abandon T).evs ↔ e ∈ s.evs ∧ ¬(e.team = T.id ∧ e.abandoned = true) := by
  simp only [State.abandon, List.mem_filter]
  refine and_congr_right fun _ => ?_
  by_cases h : e.team = T.id <;> simp [h]

theorem State.abandon_frame (s : State) (T : Team) : s.abandon T = { s with evs := (s.abandon T).evs } := rfl

/-- An instruction that commits when it issues acts at its turn in a DET launch and at once outside one; until its turn the region is
committed and nothing else has changed. -/
theorem State.commitTurn_cases (s : State) (T : Team) (k : Team → Out) :
    (T.counted = false ∧ s.commitTurn T k = k T) ∨
    (T.counted = true ∧ s.turn T = true ∧ s.commitTurn T k = k { T with committed := true }) ∨
    (T.counted = true ∧ s.turn T = false ∧ s.commitTurn T k = .next (s.setTeam { T with committed := true })) := by
  unfold State.commitTurn
  cases hc : T.counted <;> cases ht : s.turn T <;> simp

end Sys2Proof.Machine
end

