-- ==== Sys2Proof/Tests/Slice0.lean ====
section
/-!
SUPPORT. The model's own tests: words that the spec writes out, values from its tables, terms that WellFormed refuses, and states
that meet the premises of the statements.
-/
namespace Sys2Proof.Tests
set_option Elab.async false
open Sys2Proof.Machine

/-! ### A small machine -/

/-- A launch of one cohort and one team of one lane word, with the largest budgets. -/
def hd : Header := { vbud := 40, sbud := 8, pad := 0x10000, cap := 8, tvec := 0x800 }
def la : Launch := { id := 1, num := 0, die := 0, ctx := 0, hdr := hd, placed := [0], cores := [0] }
def co : Cohort := { launch := 1, idx := 0, cores := [0], bases := [0] }
/-- Its team: the scalar stream at word 16, and every lane alive. -/
def tm : Team := { id := 1, launch := 1, cohort := 0, tidx := 0, hdr := hd, vbud := 320, sbud := 128, spc := 64, regionpc := 64
                   mask := 0xFFFFFFFF, tvec := 0x800 }
/-- The same team with a block whose one fragment stands at word 8 with the lanes of a mask. -/
def lt (m : LaneMask) : Team :=
  { tm with run := some { entry := 8, args := [5, 6] }, split := { frags := [(0, { valid := true, pc := 8, mask := m })] } }
/-- Lanes 0 and 31. -/
def ends : LaneMask := 0x80000001
/-- A page of memory at 0x10000 that core 0 may write, and one at 0x20000 that it may only read. -/
def pages : List TlbEntry := [⟨0, 0, 1, 16, 0x10000, true, .cached⟩, ⟨0, 0, 2, 16, 0x20000, false, .cached⟩]
def st (T : Team) (slot : Option Nat) : State :=
  { State.reset with cur := some ⟨1, slot⟩, teams := [T], launches := [la], cohorts := [co], tlb := pages }
abbrev sc (T : Team) : State := st T none
abbrev ln (T : Team) : State := st T (some 0)
/-- Registers of a lane team by (register, lane) and value. -/
def withV (T : Team) (l : List ((Nat × Nat) × Word)) : Team := l.foldl (fun q x => q.setV x.1.1 x.1.2 x.2) T
def reg (n : BitVec 9) : Src := ⟨n, false, false⟩
def slotSrc (n : BitVec 9) : Src := ⟨n, true, false⟩
def whole : Guard := ⟨0, .always⟩
/-- The next state of an outcome, or the state after reset. -/
def nextOf (o : Out) : State := match o with | .next s => s | _ => State.reset
def teamOf (o : Out) : Team := ((nextOf o).team? 1).getD tm

/-! ### Words of the spec's own tables -/

theorem test_words_scalar :
    decodeTableWord 32 0x6021C000 = some (.lq 8 7 0) ∧ decodeTableWord 32 0x58242010 = some (.sld 9 4 0x010) ∧
    decodeTableWord 32 0x26100004 = some (.mfxScalar 4 0x004) ∧ decodeTableWord 32 0x401837FF = some (.saddImm 6 6 0x7FF) ∧
    decodeTableWord 32 0x0A043001 = some (.scmp 1 6 0 .ne) ∧ decodeTableWord 32 0x304FFFFB = some (.sbr 1 .t 0x7FFFB) ∧
    decodeTableWord 32 0x5A142000 = some (.sst 5 4 0) ∧ decodeTableWord 32 0x12244001 = some (.swaita 9 8 .ne) := by decide
theorem test_words_scalar_system :
    decodeTableWord 32 0x22000005 = some (.trapScalar 5) ∧ decodeTableWord 32 0x24000001 = some (.rgn 1) ∧
    decodeTableWord 32 0x02000004 = some .eret ∧ decodeTableWord 32 0x1A002860 = some (.cfetch 5 6) ∧
    decodeTableWord 32 0x1C002860 = some (.cinv 5 6) ∧ decodeTableWord 32 0x02000003 = some .fbar ∧
    decodeTableWord 32 0x20002800 = some (.sjf 5) := by decide
theorem test_words_integer :
    decodeTableWord 96 0x000020040200000200000000 = some (.iadd ⟨whole, .i64, 2, reg 2, slotSrc 0⟩ false) ∧
    decodeTableWord 96 0x158020020200000000008000 = some (.icmpImm ⟨whole, .i64, 1, reg 2, 1⟩ .eq .lo) := by decide
theorem test_words_float :
    decodeTableWord 96 0x208000120905000000000000 = some (.fmul ⟨whole, .iv32, 9, reg 9, reg 10⟩ .rne) ∧
    decodeTableWord 96 0x400018060200000042000000 = some (.cvt ⟨whole, .i32, 3, reg 2⟩ .pt32 .lo .rz) := by decide
theorem test_words_control :
    decodeTableWord 96 0x620000004000060000A0000C = some (.bq 2 3 5 6) ∧
    decodeTableWord 96 0x62C000000000080000000000 = some (.call 4) ∧ decodeTableWord 96 0x634000000000000000000000 = some .ret ∧
    decodeTableWord 96 0x6000000C0601000000000000 = some (.qand whole 6 6 2) := by decide
theorem test_words_cistern :
    decodeTableWord 96 0xC48000080100000080000000 = some (.draw 1 4 true 0 false) ∧
    decodeTableWord 96 0xC41280000400000000000000 = some (.split ⟨4, .nf⟩ .iv32 (reg 4) (reg 0) (reg 0) 0 0) ∧
    decodeTableWord 96 0xC45280000400000000000000 = some (.fork ⟨4, .nf⟩ (reg 4) (reg 0) (reg 0) 0 0 false) ∧
    decodeTableWord 96 0xC4C000000000000000000000 = some (.drop whole) ∧
    decodeTableWord 96 0xC69080000000000000000000 = some (.quart ⟨4, .t⟩) ∧
    decodeTableWord 96 0xC6C0000000000A0000000000 = some (.elem 5) := by decide
theorem test_words_narrow :
    decodeTableWord 96 0x40C0040C0501000204000000 = some (.qnt ⟨whole, .pt32, 6, reg 5, slotSrc 2⟩ false 2 .rne) ∧
    decodeTableWord 96 0x410004100601000204000000 = some (.dqn ⟨whole, .pt32, 8, reg 6, slotSrc 2⟩ false 2 .rne) := by decide
theorem test_words_matrix :
    decodeTableWord 96 0xC00000000000000004440000 = some (.mfmt whole 0 0x888) ∧
    decodeTableWord 96 0xC08000100000808700000001 = some (.mmaq whole 8 (slotSrc 0) (slotSrc 1) (slotSrc 2) 0 false 1) ∧
    decodeTableWord 96 0xC0448010140A800000000001 = some (.mma ⟨1, .t⟩ 8 (reg 20) (reg 21) 0 false 1) ∧
    decodeTableWord 96 0xC0C0000A0400000000000000 = some (.plane whole 5 (reg 4) false) ∧
    decodeTableWord 96 0xC10000040000000000000000 = some (.mstat whole 2 0) := by decide
theorem test_words_sluice :
    decodeTableWord 96 0xA08480000804828000000000 = some (.pbinit ⟨1, .t⟩ (reg 8) (reg 9) (reg 10)) ∧
    decodeTableWord 96 0xA004800C0003820480000000 =
      some (.cpy ⟨⟨1, .t⟩, 6, slotSrc 0, reg 7, reg 8, true, false, false, .toPad, false, false, 0⟩) ∧
    decodeTableWord 96 0xA14000000300000000009000 = some (.pbwait whole 0 (slotSrc 3) false 1) ∧
    decodeTableWord 96 0xA18000000000000040000000 = some (.bar whole true) := by decide
theorem test_words_cross :
    decodeTableWord 96 0xF00020080300000000008200 = some (.shflImm ⟨whole, .i64, 4, reg 3⟩ 1 .up false) ∧
    decodeTableWord 96 0xE0C0200E0500000000000000 = some (.redScalar whole .i64 7 (reg 5) .add false) := by decide
theorem test_words_memory :
    decodeTableWord 96 0x800020060200000080040000 = some (.ld whole .i64 3 ⟨reg 2, 0x100⟩ .pad) ∧
    decodeTableWord 96 0x804020000202000000000000 = some (.st whole .i64 ⟨reg 2, 0⟩ (reg 4) .plain) ∧
    decodeTableWord 96 0x8254BC001E03800000006000 = some (.waita ⟨5, .t⟩ .b64 ⟨reg 30, 0⟩ (reg 7) .ne false .system) := by decide
theorem test_words_atomic :
    decodeTableWord 96 0x81C0041C1E0680000000C100 = some (.atom whole .pt32 14 ⟨reg 30, 0⟩ (reg 13) .min false false .device .relaxed) ∧
    decodeTableWord 96 0x8210A00E0302818030000000 = some (.atomc ⟨4, .t⟩ .i64 7 (reg 3) (reg 5) (reg 6) false .device .relaxed) := by
  decide
theorem test_words_confluence :
    decodeTableWord 96 0xA24C80000104800000100000 = some (.objreg ⟨3, .t⟩ ⟨slotSrc 1, 0⟩ (reg 9)) ∧
    decodeTableWord 96 0xA1C0000A0102000000110000 = some (.comb whole 5 ⟨slotSrc 1, 0⟩ (reg 4) 2 0) := by decide
theorem test_words_collective :
    decodeTableWord 96 0xA30004140102000400000000 = some (.coll ⟨whole, .pt32, 10, slotSrc 1, reg 4⟩ .add) ∧
    decodeTableWord 96 0xA34000000000000000000000 = some (.flush whole) := by decide
theorem test_words_system :
    decodeTableWord 96 0xFC0000020000000000008000 = some (.mfxLane whole 1 0x001) ∧
    decodeTableWord 96 0xFC4000000300000000038000 = some (.mtxLane whole (reg 3) 0x007) ∧
    decodeTableWord 96 0xFC8000000000000000028000 = some (.trapLane whole 5) ∧
    decodeTableWord 96 0xFCC000000000000000000000 = some (.bkptLane whole) := by decide
/-- A function header is no instruction of a stream, and a word with a bit set that its row leaves zero is none either. -/
theorem test_words_refused :
    decodeTableWord 96 0x7FC000200000000000000000 = none ∧ decodeTableWord 32 0x02000014 = none ∧
    decodeTableWord 96 0xA34000000000000000000001 = none := by decide

/-! ### Terms that a check of WellFormed refuses, one per check -/

theorem test_wf_fields :
    (Instr.qset ⟨1, .always⟩ 1 .t).wf = false ∧ (Instr.mov ⟨whole, .b64, 320, reg 0⟩).wf = false ∧
    (Instr.mov ⟨whole, .iv64, 1, reg 0⟩).wf = false ∧ (Instr.mov ⟨whole, .b64, 0, slotSrc 8⟩).wf = false ∧
    (Instr.mov ⟨whole, .b64, 0, ⟨0, true, true⟩⟩).wf = false ∧ (Instr.mov ⟨whole, .i32, 0, reg 0⟩).wf = false ∧
    (Instr.movi ⟨whole, .iv32, 0, 0x7F800000⟩).wf = false ∧ (Instr.movi ⟨whole, .bf16, 0, 0x10000⟩).wf = false := by decide
theorem test_wf_scalar :
    (Instr.skop 0 1 0 .setu).wf = false ∧ (Instr.skop 0 0 1 .not).wf = false ∧ (Instr.lq 1 0 0).wf = false ∧
    (Instr.lq 127 2 0).wf = false ∧ (Instr.sempty 127 1).wf = false ∧ (Instr.mfxScalar 0 0x001).wf = false ∧
    (Instr.sbr 0 .always 0).wf = false := by decide
theorem test_wf_arithmetic :
    (Instr.iadd ⟨whole, .ivi32, 0, reg 0, reg 0⟩ true).wf = false ∧ (Instr.icmp ⟨whole, .n32, 0, reg 0, reg 0⟩ .lt .lo).wf = false ∧
    (Instr.fcmp ⟨whole, .pt32, 0, reg 0, reg 0⟩ .subset 0).wf = false ∧ (Instr.fadd ⟨whole, .iv32, 0, reg 0, reg 0⟩ .rz).wf = false ∧
    (Instr.cvt ⟨whole, .i32, 0, reg 0⟩ .pt64 .lo .rne).wf = false ∧ (Instr.unpk ⟨whole, .pt32, 0, reg 0⟩ .all).wf = false ∧
    (Instr.qnt ⟨whole, .pt32, 0, reg 0, reg 0⟩ false 7 .rne).wf = false ∧
    (Instr.dqn ⟨whole, .pt64, 0, reg 0, reg 0⟩ false 0 .rz).wf = false := by decide
theorem test_wf_memory :
    (Instr.ld whole .ivi32 0 ⟨reg 0, 0⟩ .plain).wf = false ∧ (Instr.lds whole 319 ⟨reg 0, 0⟩ false 1).wf = false ∧
    (Instr.sts whole ⟨reg 0, 0⟩ (reg 319) false 1).wf = false ∧ (Instr.ldfe whole .n32 0 ⟨reg 0, 0⟩ false).wf = false ∧
    (Instr.atom whole .iv64 0 ⟨reg 0, 0⟩ (reg 0) .add false false .device .relaxed).wf = false ∧
    (Instr.atom whole .i64 0 ⟨reg 0, 0⟩ (reg 0) .add true false .device .relaxed).wf = false ∧
    (Instr.atom whole .i64 1 ⟨reg 0, 0⟩ (reg 0) .add false true .device .relaxed).wf = false ∧
    (Instr.waita whole .i32 ⟨reg 0, 0⟩ (reg 0) .eq false .device).wf = false := by decide
theorem test_wf_other :
    (Instr.brk 0 0).wf = false ∧ (Instr.tkpass whole ⟨reg 0, 0⟩ 6).wf = false ∧
    (Instr.cpy ⟨whole, 0, reg 0, reg 0, reg 0, true, false, false, .padToMem, false, false, 0⟩).wf = false ∧
    (Instr.pbwait whole 0 (reg 0) false 2).wf = false ∧ (Instr.amsg whole ⟨reg 0, 1⟩ (reg 0) true 0 0).wf = false ∧
    (Instr.coll ⟨whole, .pt64, 0, reg 0, reg 0⟩ .add).wf = false ∧ (Instr.mfmt whole 0 0x20).wf = false ∧
    (Instr.mma whole 313 (reg 0) (reg 0) 0 false 1).wf = false := by decide
theorem test_wf_work :
    (Instr.mstat whole 0 2).wf = false ∧ (Instr.split whole .pt32 (reg 0) (reg 0) (reg 0) 0 0).wf = false ∧
    (Instr.fork whole (reg 0) (reg 0) (reg 0) 1 0 true).wf = false ∧ (Instr.draw 0 0 false 3 false).wf = false ∧
    (Instr.scan ⟨whole, .ivi32, 0, reg 0⟩ .add false false).wf = false ∧ (Instr.xbar whole 0 (slotSrc 0) (reg 0)).wf = false ∧
    (Instr.mfxLane whole 0 0x00A).wf = false := by decide

/-! ### Values from the spec's tables -/

/-- What an instruction with destination v3 leaves in lane 0 when v1 and v2 hold these words: register and flags. -/
def run2 (i : Instr) (a b : Word) : Word × FFlags :=
  let T := teamOf (exec i (ln (withV (lt 1) [((1, 0), a), ((2, 0), b)])))
  (T.v 3 0, T.flags 0)
def two (ty : LTy) : V2 := ⟨whole, ty, 3, reg 1, reg 2⟩
def one (ty : LTy) : V1 := ⟨whole, ty, 3, reg 1⟩

/-- The table of R110. -/
theorem test_r110_mul :
    run2 (.fmul (two .iv32) .rne) 0x40400000C0000000 0x40800000BF800000 = (0x41400000C1000000, 0) ∧
    run2 (.fmul (two .iv32) .rne) 0 0x7F8000003F800000 = (0, 0) := by decide +kernel
theorem test_r110_div :
    run2 (.fdiv (two .iv32) .rne) 0x400000003F800000 0x3F800000BF800000 = (0x7F800000FF800000, fDZ ||| fWD ||| fUN) := by decide +kernel
theorem test_r110_sqrt : run2 (.fsqrt (one .iv32) .rne) 0x41100000C0800000 0 = (0x4040000000000000, fDM) := by decide +kernel
theorem test_r110_add :
    run2 (.fadd (two .iv32) .rne) 0x7F7FFFFF7F7FFFFF 0x7F7FFFFF7F7FFFFF = (0x7F8000007F7FFFFF, fOF ||| fNX ||| fUN) := by decide +kernel
theorem test_r110_rcp : run2 (.frcp (one .iv32) .rne) 0x4080000040000000 0 = (0x3F0000003E800000, 0) := by decide +kernel
/-- The table of R123. -/
theorem test_r123_mul : run2 (.imul (two .ivi32) false) 0x0000000380000000 0x0000000200000002 = (0x0000000680000000, 0) := by decide +kernel
theorem test_r123_add :
    run2 (.iadd (two .ivi32) false) 0x7FFFFF0000000064 0x000003E800000000 = (0x7FFFFFFF80000000, fOF ||| fWD) := by decide +kernel
/-- The table of R130. -/
theorem test_r130_signed :
    run2 (.cvt (one .i32) .pt32 .lo .rne) 0x4F800000C0200000 0 = (0x7FFFFFFFFFFFFFFE, fNX ||| fNV) ∧
    run2 (.cvt (one .i32) .pt32 .lo .rd) 0x4F800000C0200000 0 = (0x7FFFFFFFFFFFFFFD, fNX ||| fNV) := by decide +kernel
theorem test_r130_other :
    run2 (.cvt (one .n32) .pt32 .lo .rne) 0x4F800000C0200000 0 = (0xFFFFFFFF00000000, fNV) ∧
    run2 (.cvt (one .iv32) .pt32 .hi .rne) 0x4F800000C0200000 0 = (0x4F8000004F800000, 0) := by decide +kernel
/-- The table behind R198. -/
theorem test_r198_scale : run2 (.qntScale (two .pt32)) 0x43480000437A0000 0x7F00000000073401 = (0x7E00000000073401, 0) := by decide +kernel
theorem test_r198_encode :
    run2 (.qnt (two .pt32) false 0 .rne) 0x43480000437A0000 0x7E00000000073401 = (0x7C7F, fOF ||| fNX) ∧
    run2 (.qnt (two .pt32) false 2 .rne) 0x3A200000C0580000 0x7E00000000073401 = (0x01CE0000, fUF ||| fNX) := by decide +kernel
theorem test_r198_decode :
    run2 (.dqn (two .pt32) false 0 .rne) 0x01CE7C7F 0x7E00000000073401 = (0x4340000043700000, 0) ∧
    run2 (.dqn (two .pt32) false 2 .rne) 0x01CE7C7F 0x7E00000000073401 = (0x3A800000C0600000, 0) := by decide +kernel
/-- The example of R213. -/
theorem test_r213_plane : run2 (.plane whole 3 (reg 1) false) 0x0106 0 = (0x10102, 0) := by decide +kernel

/-! ### States that meet the premises of the statements: the scalar stream -/

def tS : Team := { tm with sregs := [(1, 0x8000000000000000), (2, 0xFFFFFFFFFFFFFFFF), (3, 5), (4, 0x10000), (5, 0x1000F), (6, 0x20000), (7, 0x40000)], kflags := 0x00D }
theorem scalar_ready (n r : List Nat) (hn : (n.all fun k => decide (k < 128)) = true) : ScalarReady (sc tS) tS n r :=
  ⟨rfl, rfl, fun k hk => show k < 128 by simpa using List.all_eq_true.mp hn k hk, fun k _ => by simp [Team.sIsEmpty, tS, tm]⟩

/-- Operands at the last register, a divisor of zero, the quotient that does not fit, and an ordinary one. -/
theorem witness_ScalarArithmetic :
    ScalarReady (sc tS) tS [127, 1, 2] [1, 2] ∧ ScalarReady (sc tS) tS [127, 3, 0] [3, 0] ∧ ScalarReady (sc tS) tS [0, 2, 3] [2, 3] ∧
    ScalarReady (sc tS) tS [0, 127] [127] ∧ ScalarReady (sc tS) tS [127] [127] ∧ tS.sreg 1 = 0x8000000000000000 ∧
    tS.sreg 2 = 0xFFFFFFFFFFFFFFFF ∧ tS.sreg 0 = 0 ∧ tS.sreg 3 ≠ 0 :=
  ⟨scalar_ready _ _ (by decide +kernel), scalar_ready _ _ (by decide +kernel), scalar_ready _ _ (by decide +kernel), scalar_ready _ _ (by decide +kernel),
    scalar_ready _ _ (by decide +kernel), by decide +kernel⟩
/-- A comparison each way, and flags false, true and undecided. -/
theorem witness_ScalarFlags :
    ScalarReady (sc tS) tS [1, 2] [1, 2] ∧ ScalarReady (sc tS) tS [] [] ∧ ScalarReady (sc tS) tS [0, 126, 127] [126, 127] ∧
    condOf .lt (tS.sreg 1) (tS.sreg 2) ∧ ¬condOf .ltu (tS.sreg 2) (tS.sreg 1) ∧ tS.kf 0 = .t ∧ tS.kf 1 = .u ∧ tS.kf 7 = .f :=
  ⟨scalar_ready _ _ (by decide +kernel), scalar_ready _ _ (by decide +kernel), scalar_ready _ _ (by decide +kernel), by simp only [condOf]; decide⟩
/-- A guard that passes and one that does not; a target that is misaligned, past 32 bits, in range and not landed, and landed. -/
def sLanded : State := { sc tS with slots := [{ core := 0, slot := 0, landed := true, ctx := 0, image := 0, page := 16 }] }
theorem witness_ScalarBranches :
    ScalarReady (sc tS) tS [] [] ∧ ScalarReady (sc tS) tS [3] [3] ∧ ScalarReady sLanded tS [4] [4] ∧
    guardPasses .t (tS.kf 0) = true ∧ guardPasses .f (tS.kf 0) = false ∧ (tS.sreg 3).toNat % 4 ≠ 0 ∧ (tS.sreg 1).toNat % 4 = 0 ∧
    2 ^ 32 ≤ (tS.sreg 1).toNat ∧ (tS.sreg 4).toNat % 4 = 0 ∧ (tS.sreg 4).toNat < 2 ^ 32 ∧
    (sc tS).pageLanded tS ((tS.sreg 4).toNat / 4096) = false ∧ sLanded.pageLanded tS ((tS.sreg 4).toNat / 4096) = true :=
  ⟨scalar_ready _ _ (by decide +kernel), scalar_ready _ _ (by decide +kernel), ⟨rfl, rfl, by decide +kernel, by decide +kernel⟩, by decide +kernel⟩
/-- A stream that names its last register and one past it, one that reads an empty one, and a lane word past each budget. -/
def tE : Team := { tS with sempty := [3, 127] }
def tU : Team := { tS with sbud := 127 }
def wide8 : Instr := .lq 120 8 0
def nameds : List Nat := (List.range 8).map (120 + ·)
def tLm : Team := { lt ends with marks := [⟨1, 0, 9, false⟩] }
def tLb : Team := { lt ends with vbud := 8 }
def trapping : V2 := ⟨whole, .n64, 3, reg 2, ⟨1, false, true⟩⟩
theorem witness_ScalarBudgetAndWait :
    (sc tU).team? tU.id = some tU ∧ (sc tE).team? tE.id = some tE ∧ (∀ d x, wide8 = .mtxScalar d x → scalarWritable tU.trapLevel x.toNat = true) ∧
    (∀ d a c, wide8 = .swaita d a c → tU.swait = none) ∧ wide8.scalarRegs = some (nameds, nameds) ∧ (tU.lqOpen = false ∧ tE.lqOpen = false) ∧
    (∃ r ∈ nameds, tU.sbud ≤ r) ∧ (∀ r ∈ nameds, r < tE.sbud) ∧ (∃ r ∈ nameds, tE.sIsEmpty r = true) ∧
    (Instr.sadd 127 3 0).scalarRegs = some ([127, 3, 0], [3, 0]) ∧ tE.sIsEmpty 3 = true :=
  ⟨rfl, rfl, by simp [wide8], by simp [wide8], by decide +kernel⟩
theorem witness_ScalarBudgetAndWait_lanes :
    LaneCurrent (ln tLb) tLb 0 ∧ LaneCurrent (ln tLm) tLm 0 ∧ (tLb.frag 0).wait = none ∧ (tLm.frag 0).wait = none ∧
    (Instr.iadd (two .n64) false).laneRegs = some (whole, (two .n64).names, false) ∧
    ({ tLb with vbud := 3 } : Team).overBudget (two .n64).names = true ∧ tLm.overBudget trapping.names = false ∧
    (Instr.iadd trapping false).laneRegs = some (whole, trapping.names, false) ∧
    (∃ p ∈ trapping.names.srcs, p.1.fe = true ∧ tLm.anyEmpty (srcRegs p.1 p.2) (tLm.execMask (tLm.frag 0) whole) = true) ∧
    (∀ p ∈ (two .n64).names.srcs, p.1.fe = true → tLm.anyEmpty (srcRegs p.1 p.2) (tLm.execMask (tLm.frag 0) whole) = false) ∧
    tLm.anyEmpty (two .n64).names.regs (tLm.execMask (tLm.frag 0) whole) = true :=
  ⟨⟨rfl, rfl⟩, ⟨rfl, rfl⟩, rfl, rfl, by decide +kernel⟩

/-- A fault record of the page of 0x30000 with a requester attached, and its refusal. -/
def asked (w : Requester) (s : State) : State := { s with records := [⟨0, 4, 0, 0, 3, [w]⟩] }
def denied (w : Requester) (s : State) : State := { s with verdicts := [⟨w, 0, 3, true⟩] }
/-- Each fate of an address: a page that is mapped for writing or for reading, with poison and without, one that is not cached, one whose
fault is pending, one that was refused, and one that is not canonical. -/
def sPoison : State := { sc tS with poison := [0x10003] }
theorem witness_ScalarAccess :
    (sc tS).translate (.scalar 1) 0 0 0x10000 = .ok 0x10000 .cached true ∧ (sc tS).translate (.scalar 1) 0 0 0x20000 = .ok 0x20000 .cached false ∧
    (sc tS).poisoned 0x10000 8 = false ∧ sPoison.poisoned 0x10000 8 = true ∧ (sc tS).translate (.scalar 1) 0 0 0x30000 = .miss ∧
    (asked (.scalar 1) (sc tS)).translate (.scalar 1) 0 0 0x30000 = .fault ∧ (denied (.scalar 1) (sc tS)).translate (.scalar 1) 0 0 0x30000 = .refused ∧
    (sc tS).translate (.scalar 1) 0 0 0x800000000000 = .refused := by decide +kernel
/-- A team of a DET launch at its turn, and one behind another team of its launch. -/
def det (T : Team) : Team := { T with hdr := { T.hdr with flags := 1 } }
def behind (T : Team) (s : State) : State := { s with teams := s.teams ++ [{ T with id := 2, clock := 0, run := none }] }
def late (T : Team) : Team := { det T with clock := 5 }
theorem witness_AtTurn :
    tS.counted = false ∧ (det tS).counted = true ∧ (sc (det tS)).turn (det tS) = true ∧ (behind (late tS) (sc (late tS))).turn (late tS) = false ∧
    (behind (late tS) (sc (late tS))).team? 1 = some (late tS) := by decide +kernel
/-- An address that is aligned, and one that is not; a wait that the stream stands at, its read performed, failed and to be made again. -/
def tSw (f : Nat) : Team := { det tS with swait := some 60, sfailed := f }
def swEv (f : Bool) : Ev := { id := 60, team := 1, core := 0, grp := 60, preds := [], key := 0x10000, op := .waitRead .eq 5 f, dst := .scalar 3 }
def sSw (f : Nat) (es : List Ev) : State := { sc (tSw f) with evs := es }
theorem witness_ScalarMemory :
    ScalarReady (sc tS) tS [127, 4] [4] ∧ ScalarReady (sc tS) tS [127, 4] [127, 4] ∧ tS.swait = none ∧ (tS.sreg 4).toNat % 8 = 0 ∧
    (tS.sreg 5).toNat % 8 ≠ 0 ∧ (sSw 0 []).cur = some ⟨1, none⟩ ∧ (sSw 0 []).team? 1 = some (tSw 0) ∧ (sSw 0 []).ev? 60 = none ∧
    (sSw 1 [swEv true]).ev? 60 = some (swEv true) ∧ (swEv true).start < (tSw 1).sfailed ∧ (tSw 1).waitlimit = 0 ∧
    ¬ ((swEv true).start < (tSw 0).sfailed) ∧ (sSw 1 [swEv true]).turn (tSw 1) = true :=
  ⟨scalar_ready _ _ (by decide +kernel), scalar_ready _ _ (by decide +kernel), rfl, by decide +kernel⟩

/-- A stream with nothing before it, one whose store is not yet performed, one with a block queued, and with four. -/
def store1 : Ev := { id := 7, team := 1, core := 0, grp := 7, preds := [], key := 0x10000, op := .store [1, 2, 3, 4, 5, 6, 7, 8] }
def tH : Team := { tS with shist := [7] }
def tQ (n : Nat) : Team := { tS with queue := List.replicate n { entry := 0 } }
def sBlock : State := { sc tS with slots := [{ core := 0, slot := 127, landed := true, ctx := 0, image := 0, page := 0 }] }
theorem witness_ScalarStreamOrder :
    ScalarReady (sc tS) tS [] [] ∧ ScalarReady (sc tS) tS ((List.range 16).map ((112 : BitVec 7).toNat + ·)) [] ∧
    (sc tS).releaseOk 1 0 tS.linkFills.shist .system = true ∧
    ({ sc tH with evs := [store1] } : State).releaseOk 1 0 tH.linkFills.shist .device = false ∧
    (tS.lq = [] ∧ tS.block = none ∧ tS.fills = []) ∧ ¬((tQ 1).lq = [] ∧ (tQ 1).block = none ∧ (tQ 1).fills = []) ∧
    (∀ c ∈ (sc tS).cinvs, c.team ≠ tS.id) ∧ (sc tS).pageLanded tS (tS.lanePage 0) = false ∧
    sBlock.pageLanded tS (tS.lanePage 340) = true ∧ 4 ≤ (tQ 4).lq.length ∧ (tQ 3).lq.length < 4 :=
  ⟨scalar_ready _ _ (by decide +kernel), scalar_ready _ _ (by decide +kernel), by decide +kernel⟩

/-- A launch with a region table at 0x10000, at trap level and not; a block that runs; a team with another of its cohort; a team that is
the last of its cohort, and whose cohort is the last of its launch. -/
def tR : Team := { tS with hdr := { hd with regions := 0x1003F, flags := 4 } }
def tX : Team := { tS with id := 2, tidx := 1 }
def laSt : Launch := { la with hdr := { hd with stampAddr := 0x30000, stampVal := 7 } }
/-- Context 0 of die 0 maps the first gibibyte to itself. -/
def tables : Memory := [(0, 1), (1, 0x10), (0x1000, 1), (0x1001, 0x20), (0x2000, 7)]
theorem witness_RegionsAndMarking :
    ScalarReady (sc tR) tR [] [] ∧ (∃ X ∈ ({ sc tS with teams := [tS, tX] } : State).teams, X.id ≠ tS.id ∧ X.launch = tS.launch ∧ X.cohort = tS.cohort ∧
      X.inCohort = true) ∧
    (lt 1).laneIdle = false ∧ tR.laneIdle = true ∧ tS.hdr.regions = 0 ∧ tR.hdr.regions ≠ 0 ∧ tR.trapLevel = false ∧
    heldBack ((sc tR).older tR.linkFills.shist) = false ∧
    (sc tR).translate (.scalar 1) 0 0 (BitVec.ofNat 64 (tR.hdr.regions / 64 * 64 + 64 * 3)) = .ok 0x100C0 .cached true ∧
    (sc tR).readsBad 1 0 tR.shist false 0x100C0 64 .cached = false ∧ (sc tR).mayPeek 0 tR.linkFills.shist (spanOf 0x100C0 64 .cached) = true ∧
    ({ sc tH with evs := [{ store1 with key := 0x100C0, op := .cas 0 0 }] } : State).mayPeek 0 tH.linkFills.shist (spanOf 0x100C0 64 .cached) = false :=
  ⟨⟨rfl, rfl, by decide +kernel, by decide +kernel⟩, ⟨tX, by decide +kernel⟩, by decide +kernel⟩
theorem witness_RegionsAndMarking_end :
    (sc tS).quiet tS.linkFills = true ∧ ({ sc tS with evs := [store1] } : State).quiet tS.linkFills = false ∧ tS.sort = .ordinary ∧ tS.items = [] ∧
    (sc (det tS)).turn (det tS).linkFills = true ∧ ((sc (det tS)).setTeam { (det tS).linkFills with committed := true }).drainReady 1 (some ((sc (det tS)).keyOf (det tS))) = true ∧
    (behind (late tS) (sc (late tS))).turn (late tS).linkFills = false ∧ (sc tS).cohort? 1 0 = some co ∧ (sc tS).launch? 1 = some la ∧
    co.cistern.pad = [] ∧ co.cistern.busy = [] ∧ (insertNat 0 la.retired).length = la.hdr.cohorts ∧
    (insertNat 0 la.retired).length ≠ ({ hd with cohorts := 2 } : Header).cohorts ∧ laSt.token = none ∧ laSt.hdr.stampAddr ≠ 0 ∧
    (({ sc tS with mem := tables } : State).drainCores [0]).dispKey 0 0 (BitVec.ofNat 64 laSt.hdr.stampAddr) = some (0x30000, true) := by decide +kernel

/-- The package's list as R359 prints it. -/
theorem test_capability_list : (capabilityList 0xF).getD 5 0 = 0x000000000000200F ∧ (capabilityList 0xF).length = 10 := by decide +kernel

/-! ### Lane instructions -/

/-- Lanes 0 and 31: v1 holds the least i64 and 7, v2 holds 0 and −1. Predicate 1 is true, undecided in them. -/
def tL : Team := ((withV (lt ends) [((1, 0), 0x8000000000000000), ((1, 31), 7), ((2, 31), 0xFFFFFFFFFFFFFFFF), ((4, 0), 0x10000), ((4, 31), 0x10010),
  ((5, 0), 0x20000), ((5, 31), 0x20008), ((6, 0), 0x1000F), ((7, 0), 0x100), ((7, 31), 0x110)]).setQ 1 0 .t).setQ 1 31 .u
theorem lane_ready (n : Names) (h : tL.overBudget n = false) (g : Guard) : LaneReady (ln tL) tL 0 g n :=
  ⟨⟨rfl, rfl⟩, h, by simp [Team.anyEmpty, Team.emptyIn, show tL.marks = [] from rfl]⟩
/-- The operand forms with the last register as destination. -/
def w1 (ty : LTy) : V1 := ⟨whole, ty, 319, reg 1⟩
def w2 (ty : LTy) : V2 := ⟨⟨1, .t⟩, ty, 319, reg 1, reg 2⟩
def w3 (ty : LTy) : V3 := ⟨⟨1, .u⟩, ty, 318, reg 2, slotSrc 1, reg 318⟩
def w0i (ty : LTy) : V0i := ⟨whole, ty, 318, 0x3F800000⟩
def w1i (ty : LTy) : V1i := ⟨whole, ty, 318, reg 318, 0x3F800000⟩
def w2i (ty : LTy) : V2i := ⟨whole, ty, 318, reg 2, reg 4, 0x3F800000⟩
def wqs (ty : LTy) : QS := ⟨whole, ty, 318, 1, reg 2, reg 4⟩
def wqsi (ty : LTy) : QSi := ⟨whole, ty, 318, 15, reg 2, 0x3F800000⟩
/-- Lanes execute under each of these guards, and one guard passes no lane. -/
theorem witness_lanes :
    tL.executes 0 whole 0 = true ∧ tL.executes 0 whole 31 = true ∧ tL.executes 0 ⟨1, .t⟩ 0 = true ∧ tL.executes 0 ⟨1, .u⟩ 31 = true ∧
    tL.execMask (tL.frag 0) ⟨1, .f⟩ = 0 ∧ tL.counted = false ∧ (tL.frag 0).wait = none := by decide +kernel

theorem witness_LaneIntegers :
    LTy.n64 ∈ [LTy.i32, .n32, .i64, .n64] ∧ LaneReady (ln tL) tL 0 (w2 .n64).g (w2 .n64).names ∧
    LaneReady (ln tL) tL 0 (w1i .i32).g (w1i .i32).names ∧ LaneReady (ln tL) tL 0 (w3 .i64).g (w3 .i64).names ∧
    LaneReady (ln tL) tL 0 (w2i .i32).g (w2i .i32).names ∧ LTy.i64 ∈ [LTy.i32, .i64] ∧
    LaneReady (ln tL) tL 0 (w1 .i64).g (w1 .i64).names ∧ asInt true 64 (tL.in .i64 (reg 1) 0).even.toNat = -2 ^ 63 ∧
    asInt true 64 (tL.in .i64 (reg 2) 0).even.toNat = 0 :=
  ⟨by decide +kernel, lane_ready _ (by decide +kernel) _, lane_ready _ (by decide +kernel) _, lane_ready _ (by decide +kernel) _, lane_ready _ (by decide +kernel) _, by decide +kernel,
    lane_ready _ (by decide +kernel) _, by decide +kernel, by decide +kernel⟩
theorem witness_LaneBits :
    LTy.b64 ∈ [LTy.i32, .n32, .i64, .n64, .b64] ∧ LTy.b64 ∈ [LTy.i64, .n64, .b64] ∧
    LaneReady (ln tL) tL 0 (w2 .b64).g (w2 .b64).names ∧ LaneReady (ln tL) tL 0 (w1i .b64).g (w1i .b64).names ∧
    LaneReady (ln tL) tL 0 (w1 .i32).g (w1 .i32).names ∧ LaneReady (ln tL) tL 0 (w3 .i64).g (w3 .i64).names ∧
    LaneReady (ln tL) tL 0 (w2i .n64).g (w2i .n64).names :=
  ⟨by decide +kernel, by decide +kernel, lane_ready _ (by decide +kernel) _, lane_ready _ (by decide +kernel) _, lane_ready _ (by decide +kernel) _, lane_ready _ (by decide +kernel) _,
    lane_ready _ (by decide +kernel) _⟩
theorem witness_LaneMoves :
    LaneReady (ln tL) tL 0 (w1i .iv64).g (V1.names ⟨whole, .iv64, 318, reg 318⟩) ∧ LaneReady (ln tL) tL 0 (w0i .iv64).g (w0i .iv64).names ∧
    LaneReady (ln tL) tL 0 (wqs .iv64).g (wqs .iv64).names ∧ LaneReady (ln tL) tL 0 (wqsi .b64).g (wqsi .b64).names ∧
    tL.qv 1 0 = .t ∧ tL.qv 1 31 = .u ∧ tL.qv 15 0 = .f :=
  ⟨lane_ready _ (by decide +kernel) _, lane_ready _ (by decide +kernel) _, lane_ready _ (by decide +kernel) _, lane_ready _ (by decide +kernel) _, by decide +kernel⟩
theorem witness_LaneIntegerCompare :
    LTy.n32 ∈ [LTy.i32, .n32, .i64, .n64] ∧ LaneReady (ln tL) tL 0 whole (C2.names ⟨whole, .n32, 15, reg 319, reg 2⟩) ∧
    LaneReady (ln tL) tL 0 whole (C1i.names ⟨whole, .i64, 0, reg 319, 1⟩) ∧ elemCount .n32 = 2 :=
  ⟨by decide +kernel, lane_ready _ (by decide +kernel) _, lane_ready _ (by decide +kernel) _, rfl⟩

/-- Operands that are NaN, infinite, zero and negative. -/
theorem witness_LanePoints :
    LTy.bf16 ∈ [LTy.pt32, .pt64, .bf16] ∧ LaneReady (ln tL) tL 0 (w2 .bf16).g (w2 .bf16).names ∧
    LaneReady (ln tL) tL 0 (w1i .pt64).g (w1i .pt64).names ∧ LaneReady (ln tL) tL 0 (w3 .pt32).g (w3 .pt32).names ∧
    LaneReady (ln tL) tL 0 (w2i .bf16).g (w2i .bf16).names ∧ LaneReady (ln tL) tL 0 (w1 .pt32).g (w1 .pt32).names ∧
    (FV.nan true).isNan = true ∧ (FV.fin false 0 0).isZero = true ∧ (FV.fin true 1 0).neg = true ∧ (FV.fin true 1 0).isZero = false ∧
    (∀ n : Bool, (FV.fin true 1 0).isZero = true → FV.fin true 1 0 ≠ .inf n) ∧ (FV.fin true 1 0).isNan = false :=
  ⟨by decide +kernel, lane_ready _ (by decide +kernel) _, lane_ready _ (by decide +kernel) _, lane_ready _ (by decide +kernel) _, lane_ready _ (by decide +kernel) _,
    lane_ready _ (by decide +kernel) _, by decide +kernel⟩
theorem witness_LaneIntervals :
    isIv .iv64 = true ∧ isIv .iv32 = true ∧ LaneReady (ln tL) tL 0 whole (V2.names ⟨whole, .iv64, 318, reg 318, slotSrc 6⟩) ∧
    LaneReady (ln tL) tL 0 (w1i .iv64).g (w1i .iv64).names ∧ LaneReady (ln tL) tL 0 (w3 .iv32).g (w3 .iv32).names ∧
    LaneReady (ln tL) tL 0 (w2i .iv64).g (w2i .iv64).names :=
  ⟨rfl, rfl, lane_ready _ (by decide +kernel) _, lane_ready _ (by decide +kernel) _, lane_ready _ (by decide +kernel) _, lane_ready _ (by decide +kernel) _⟩
theorem witness_LaneIntervalUnary :
    LaneReady (ln tL) tL 0 whole (V1.names ⟨whole, .iv64, 318, reg 318⟩) ∧ LaneReady (ln tL) tL 0 whole (V2.names ⟨whole, .iv64, 0, reg 2, reg 2⟩) ∧
    LTy.pt64 ∈ [LTy.pt32, .pt64, .bf16] ∧ LaneReady (ln tL) tL 0 (w1 .pt64).g (w1 .pt64).names :=
  ⟨lane_ready _ (by decide +kernel) _, lane_ready _ (by decide +kernel) _, by decide +kernel, lane_ready _ (by decide +kernel) _⟩
theorem witness_LaneFloatPredicates :
    LaneReady (ln tL) tL 0 whole (C2.names ⟨whole, .bf16, 15, reg 319, reg 2⟩) ∧ LaneReady (ln tL) tL 0 whole (C1i.names ⟨whole, .pt32, 0, reg 319, 1⟩) ∧
    LaneReady (ln tL) tL 0 whole (C2.names ⟨whole, .iv64, 15, reg 318, reg 2⟩) ∧ LaneReady (ln tL) tL 0 whole (C1i.names ⟨whole, .iv64, 0, reg 318, 1⟩) ∧
    (3 : BitVec 3).toNat < elemCount .bf16 ∧ (3 : BitVec 3) ≠ 4 ∧
    LaneReady (ln tL) tL 0 (wqs .iv64).g (wqs .iv64).names ∧ LaneReady (ln tL) tL 0 (wqsi .bf16).g (wqsi .bf16).names :=
  ⟨lane_ready _ (by decide +kernel) _, lane_ready _ (by decide +kernel) _, lane_ready _ (by decide +kernel) _, lane_ready _ (by decide +kernel) _, by decide +kernel, by decide +kernel,
    lane_ready _ (by decide +kernel) _, lane_ready _ (by decide +kernel) _⟩
/-- Bounds at both ends of the finite range, open ends, the canonical empty pattern, an ill-formed one, and bounds past the range. -/
def ivw (w : Word) : Word := ((withV tL [((1, 0), w)]).in .ivi32 (reg 1) 0).even
theorem witness_LaneIntegerIntervals :
    LaneReady (ln tL) tL 0 (w2 .ivi32).g (w2 .ivi32).names ∧ LaneReady (ln tL) tL 0 (w1i .ivi32).g (w1i .ivi32).names ∧
    LaneReady (ln tL) tL 0 whole (C2.names ⟨whole, .ivi32, 15, reg 319, reg 2⟩) ∧
    LaneReady (ln tL) tL 0 whole (C1i.names ⟨whole, .ivi32, 0, reg 319, 1⟩) ∧
    ivw (packIvi (-2 ^ 31 + 1) (2 ^ 31 - 2)) = packIvi (-2 ^ 31 + 1) (2 ^ 31 - 2) ∧ ivw 0x7FFFFFFF80000000 = 0x7FFFFFFF80000000 ∧
    ((ivw 0x800000007FFFFFFF).toNat / 2 ^ 32 : Int).bmod (2 ^ 32) < ((ivw 0x800000007FFFFFFF).toNat % 2 ^ 32 : Int).bmod (2 ^ 32) ∧
    ((ivw 0x0000000100000002).toNat / 2 ^ 32 : Int).bmod (2 ^ 32) < ((ivw 0x0000000100000002).toNat % 2 ^ 32 : Int).bmod (2 ^ 32) ∧
    ivw 0x0000000100000002 ≠ 0x800000007FFFFFFF ∧ ((2 : Int) ^ 31 - 2 + 2 > 2 ^ 31 - 1) :=
  ⟨lane_ready _ (by decide +kernel) _, lane_ready _ (by decide +kernel) _, lane_ready _ (by decide +kernel) _, lane_ready _ (by decide +kernel) _, by decide +kernel⟩
/-- A number for every bound of the statement: a sum, a product and a quotient that are not zero, a positive operand, and points of
intervals; two numbers the formats hold. -/
theorem witness_RoundingAndEnclosure :
    f32 ∈ [f32, f64, fb16] ∧ (⟨3, -2⟩ : Dy).m ≠ 0 ∧ (f32.read 0x40400000) = .fin false 0xC00000 (-22) ∧ (f32.read 0).isZero = true ∧
    (f32.readIv 0x3F800000 0x40400000).fl = 0 ∧ (f32.readIv 0x3F800000 0x40400000).iv.isSome = true ∧
    (f32.readIv 0xFF800000 0x7F800000).iv = some (.ninf, .pinf) ∧ (f32.round .rne ⟨1, 128⟩ false).1 = f32.infBits := by decide +kernel

theorem witness_LaneConversions :
    LaneReady (ln tL) tL 0 whole { srcs := srcsOf .i32 [reg 319], dst := dstOf .pt32 319 } ∧
    LaneReady (ln tL) tL 0 whole { srcs := srcsOf .iv64 [reg 318], dst := dstOf .iv32 319 } ∧
    LaneReady (ln tL) tL 0 whole { srcs := srcsOf .iv32 [reg 319], dst := dstOf .iv64 318 } ∧
    LTy.n32 ∈ [LTy.i32, .n32] ∧ LTy.n64 ∈ [LTy.i64, .n64] ∧ ((FV.fin true 5 (-1)).dy.toInt .rne).1 = -2 ∧
    (2 ^ 31 - 1 : Int) < ((FV.fin false 1 31).dy.toInt .rne).1 ∧ ((FV.fin true 3 31).dy.toInt .rne).1 < -2 ^ 31 :=
  ⟨lane_ready _ (by decide +kernel) _, lane_ready _ (by decide +kernel) _, lane_ready _ (by decide +kernel) _, by decide +kernel⟩
theorem witness_LanePackingAndNarrowing :
    LTy.n32 ∈ [LTy.bf16, .pt32, .i32, .n32] ∧ LaneReady (ln tL) tL 0 (w2 .bf16).g (w2 .bf16).names ∧
    LTy.pt64 ∈ [LTy.pt32, .pt64, .i64, .n64] ∧ LaneReady (ln tL) tL 0 (w1 .n64).g (w1 .n64).names ∧
    (12 : BitVec 4).toNat + elemCount .bf16 ≤ 64 / 4 ∧
    LaneReady (ln tL) tL 0 whole { srcs := srcsOf .b64 [reg 1, reg 319], dst := dstOf .b64 319 } ∧
    LaneReady (ln tL) tL 0 (w2 .iv32).g (w2 .iv32).names ∧
    LaneReady (ln tL) tL 0 whole { srcs := srcsOf .b64 [reg 319], dst := dstOf .b64 319 } :=
  ⟨by decide +kernel, lane_ready _ (by decide +kernel) _, by decide +kernel, lane_ready _ (by decide +kernel) _, by decide +kernel, lane_ready _ (by decide +kernel) _,
    lane_ready _ (by decide +kernel) _, lane_ready _ (by decide +kernel) _⟩

/-- A team that has gathered at a word with `.all`. -/
def tAll : Team := { tL with split := { frags := [(0, { tL.frag 0 with state := 2, wait := some ⟨.lead whole 1, ends, .all true, 0⟩ })] } }
theorem all_ready (n : Names) (h : tAll.overBudget n = false) (g : Guard) : LaneReady (ln tAll) tAll 0 g n :=
  ⟨⟨rfl, rfl⟩, h, by simp [Team.anyEmpty, Team.emptyIn, show tAll.marks = [] from rfl]⟩
theorem witness_LanePredicates :
    LaneReady (ln tL) tL 0 ⟨1, .t⟩ {} ∧ CrossReady tL 0 false ∧ LaneReady (ln tAll) tAll 0 whole {} ∧ CrossReady tAll 0 true :=
  ⟨lane_ready _ (by decide +kernel) _, fun h => (Bool.false_ne_true h).elim, all_ready _ (by decide +kernel) _, fun _ => rfl⟩
def tF : Team := { tL with fills := [⟨3, 127, 9, [], 0⟩] }
theorem witness_LaneScalarWrites :
    LaneReady (ln tL) tL 0 whole { scalar := [127] } ∧ LaneReady (ln tL) tL 0 whole { srcs := [(reg 319, 1)], scalar := [0] } ∧
    (tL.executes 0 whole 0 = true ∧ ∀ k < 0, tL.executes 0 whole k = false) ∧ (∀ l < 32, tL.executes 0 ⟨1, .f⟩ l = false) ∧
    LaneReady (ln tL) tL 0 whole { srcs := srcsOf .iv64 [reg 318], scalar := [127] } ∧ CrossReady tL 0 false ∧
    (⟨3, 127, 9, [], 0⟩ ∈ tF.fills) ∧ (ln tF).team? tF.id = some tF ∧ (tF.fills.filter fun y => y.id == 3) = [⟨3, 127, 9, [], 0⟩] :=
  ⟨lane_ready _ (by decide +kernel) _, lane_ready _ (by decide +kernel) _, by decide +kernel, by decide +kernel, lane_ready _ (by decide +kernel) _,
    fun h => (Bool.false_ne_true h).elim, by decide +kernel, rfl, rfl⟩
theorem witness_LaneCross :
    CrossReady tAll 0 true ∧ LaneReady (ln tAll) tAll 0 whole { srcs := srcsOf .iv64 [reg 318] ++ [(reg 319, 1)], dst := dstOf .iv64 318 } ∧
    LaneReady (ln tAll) tAll 0 (w1 .i64).g (w1 .i64).names ∧ LaneReady (ln tAll) tAll 0 whole { dst := [319] } ∧
    tAll.executes 0 whole 31 = true ∧ (∀ j < 31, 0 < j → tAll.executes 0 whole j = false) :=
  ⟨fun _ => rfl, all_ready _ (by decide +kernel) _, all_ready _ (by decide +kernel) _, all_ready _ (by decide +kernel) _, by decide +kernel, by decide +kernel⟩
theorem witness_LaneCrossbar :
    LaneReady (ln tL) tL 0 whole { srcs := [(reg 1, 1), (reg 7, 1)] } ∧ LaneReady (ln tL) tL 0 whole { srcs := [(reg 1, 1), (reg 7, 1)], dst := [319] } ∧
    tL.executes 0 whole 0 = true ∧ (tL.srcW (reg 7) 0).toNat % 64 = 0 ∧ (ln tL).padOk tL (tL.srcW (reg 7) 0) 512 = true ∧
    heldBack ((ln tL).older (tL.frag 0).hist) = false ∧ (((ln tL).older (tL.frag 0).hist).any fun e => e.isPadEv) = false :=
  ⟨lane_ready _ (by decide +kernel) _, lane_ready _ (by decide +kernel) _, by decide +kernel⟩

theorem witness_ControlJump :
    LaneCurrent (ln tL) tL 0 ∧ (tL.frag 0).valid = true ∧ (tL.frag 0).level = tL.sp.depth ∧
    tL.sp.joinAt (tL.frag 0).level ≠ some ((tL.frag 0).pc + (0xFFFFF : BitVec 20).toInt) := ⟨⟨rfl, rfl⟩, by decide +kernel⟩
/-- A fragment below the deepest level that a table admits. -/
def tDeep : Team := { tL with split := { depth := 32, frags := [(0, { tL.frag 0 with level := 32 })] } }
/-- A callee's header word with a budget of 16 registers, behind the fragment's word. -/
def sCall (T : Team) : State := { ln T with
  slots := [{ core := 0, slot := 0, landed := true, ctx := 0, image := 0, page := 0
              bytes := List.replicate 144 0 ++ leBytes 12 0x7FC000200000000000000000 }] }
theorem witness_ControlBranches :
    LaneCurrent (ln tL) tL 0 ∧ (∀ l < 1024, (1 : LaneMask).getLsbD l = ((tL.frag 0).mask.getLsbD l && decide (l < tL.lanes) && tL.qv 1 l == .t)) ∧
    (∀ l < 1024, (0x80000000 : LaneMask).getLsbD l = ((tL.frag 0).mask.getLsbD l && decide (l < tL.lanes) && tL.qv 1 l == .u)) ∧
    (tL.frag 0).level ≠ 32 ∧ tL.sp.live.length + 3 ≤ 65 ∧ LaneCurrent (ln tDeep) tDeep 0 ∧ (tDeep.frag 0).level = 32 ∧
    (tL.split.frag 0).level = tL.split.depth ∧ (∀ p ∈ [((1 : LaneMask), (9 : Int), true)], p.1 ≠ 0) ∧
    (∃ p ∈ [((1 : LaneMask), (9 : Int), true)], p.2.1 ≠ 12) :=
  ⟨⟨rfl, rfl⟩, by decide +kernel, by decide +kernel, by decide +kernel, by decide +kernel, ⟨rfl, rfl⟩, by decide +kernel⟩
theorem witness_ControlCalls :
    LaneCurrent (sCall tL) tL 0 ∧ (sCall tL).callee tL ((tL.frag 0).pc + (4 : BitVec 20).toInt) = .budget 16 ∧ 16 ≤ tL.vbud ∧
    ({ tL with vbud := 8 } : Team).vbud < 16 ∧ (tL.frag 0).level ≠ 32 ∧ tL.sp.live.length ≤ 64 ∧ (tDeep.frag 0).level = 32 ∧
    (sCall tL).callee tL ((tL.frag 0).pc + (5 : BitVec 20).toInt) ≠ .budget 16 :=
  ⟨⟨rfl, rfl⟩, by decide +kernel⟩
def tC : Team := { tL with split := { depth := 2, entries := [(0, { valid := true, join := 9, call := true }), (1, { valid := true, join := 20 })]
                                      frags := [(0, { tL.frag 0 with level := 2 }), (1, { valid := true, pc := 20, state := 1, level := 2, mask := 2 })] } }
theorem witness_ControlLeaves :
    LaneCurrent (ln tC) tC 0 ∧ (1 ≠ 0 ∧ 1 ≤ (tC.frag 0).level ∧ (tC.sp.entry 1).call = true ∧ ∀ e < 3, 1 < e → (tC.sp.entry e).call = false) ∧
    (∀ e, e ≠ 0 → e ≤ (tL.frag 0).level → (tL.sp.entry e).call = false) ∧ (1 : BitVec 20).toNat ≤ (tC.frag 0).level ∧
    (tL.frag 0).level < (1 : BitVec 20).toNat ∧ (2 - 2 < 1 ∧ (tC.sp.entry 1).call = true) ∧ tL.isOrdinary = true ∧
    (∀ l < 32, tL.executes 0 whole l → tL.item l = none) ∧ tL.sp.depth = 0 ∧ tL.sp.frags = [(0, tL.frag 0)] :=
  ⟨⟨rfl, rfl⟩, by decide +kernel, fun e h0 h1 => by simp_all [show (tL.frag 0).level = 0 from rfl], by decide +kernel, by decide +kernel, by decide +kernel, rfl, by decide +kernel, rfl, rfl⟩

/-! ### Memory of the lanes -/

def lanes2 : List Nat := [0, 31]
def who0 : Requester := .lanes 1 false 0
/-- Eight bytes of lanes 0 and 31 at the addresses of a register: v4 names a writable page, v5 one without write permission, v6 is
misaligned in lane 0, v7 names the pad, and v8 a page that is not mapped in lane 31. -/
def tM : Team := withV tL [((8, 0), 0x10000), ((8, 31), 0x30000)]
def eight (r : BitVec 9) : List Piece := lanes2.map fun l => ⟨l, 0, tM.srcW (reg r) l, 8⟩
def fates (s : State) (r : BitVec 9) : List Trans := (eight r).map fun p => s.translate who0 0 0 p.va
/-- Every clause of an access of lanes: aligned or not, inside the pad's limit or not; each fate of an address; lanes with a page fault
among others, alone, in a full table, and in a DET launch. -/
theorem witness_LaneAccess :
    lanesOf (tM.execMask (tM.frag 0) whole) tM.lanes = lanes2 ∧ (∀ p ∈ eight 4, p.va.toNat % 8 = 0) ∧ (∃ p ∈ eight 6, p.va.toNat % 8 ≠ 0) ∧
    (∀ p ∈ eight 7, (ln tM).padOk tM p.va p.len = true) ∧ (∃ p ∈ eight 4, (ln tM).padOk tM p.va p.len = false) ∧
    fates (ln tM) 4 = [.ok 0x10000 .cached true, .ok 0x10010 .cached true] ∧ fates (ln tM) 5 = [.ok 0x20000 .cached false, .ok 0x20008 .cached false] ∧
    fates (ln tM) 8 = [.ok 0x10000 .cached true, .miss] ∧ fates (asked who0 (ln tM)) 8 = [.ok 0x10000 .cached true, .fault] ∧
    fates (denied who0 (ln tM)) 8 = [.ok 0x10000 .cached true, .refused] ∧ ({ who := who0, ctx := 0, vpage := 3, parked := true } : Verdict) ∈ (denied who0 (ln tM)).verdicts ∧
    (ln tM).verdicts = [] ∧ (ln tM).translate who0 0 0 0x800000000000 = .refused ∧ ({ ln tM with poison := [0x10017] } : State).poisoned 0x10010 8 = true ∧
    (ln tM).poisoned 0x10000 8 = false ∧ maskOf [31] ≠ 0 ∧ maskOf [31] ≠ maskOf lanes2 ∧ tM.counted = false ∧ (det tM).counted = true ∧
    tM.sp.freeSlots.head? = some 1 := by decide +kernel
/-- A fragment of a DET launch that finishes its accesses, with one left and with none. -/
def fin (i : Instr) (T : Team) : Team :=
  { det T with split := { T.split with frags := [(0, { T.frag 0 with state := 2, wait := some ⟨i, ends, .finish 60, 0⟩ })] } }
def tFin (i : Instr) : Team := fin i tL
def left60 : Ev := { id := 60, team := 1, core := 0, grp := 60, preds := [], key := 0x10000, op := .load 8 }
theorem witness_LaneFinishes (i : Instr) :
    LaneCurrent (ln (tFin i)) (tFin i) 0 ∧ ((tFin i).frag 0).wait.map (·.what) = some (.finish 60) ∧
    ({ ln (tFin i) with evs := [left60] } : State).unfinished (tFin i) 60 = true ∧ (ln (tFin i)).unfinished (tFin i) 60 = false :=
  ⟨⟨rfl, rfl⟩, rfl, rfl, rfl⟩
theorem witness_LaneLoads :
    LaneReady (ln tL) tL 0 whole { srcs := [(reg 4, 1)], dst := dstOf .iv64 318 } ∧
    LaneReady (ln tL) tL 0 whole { srcs := [(reg 4, 1)], dst := (List.range 8).map ((312 : BitVec 9).toNat + ·) } ∧ (tL.frag 0).wait = none ∧
    (∀ l ∈ lanes2, (tL.addr ⟨reg 4, 0⟩ l).toNat % accessWidth .iv64 = 0) ∧ (∃ l ∈ lanes2, (tL.addr ⟨reg 6, 0⟩ l).toNat % accessWidth .i64 ≠ 0) :=
  ⟨lane_ready _ (by decide +kernel) _, lane_ready _ (by decide +kernel) _, by decide +kernel⟩
theorem witness_LaneStores :
    LaneReady (ln tL) tL 0 whole { srcs := [(reg 4, 1), (reg 318, pairLen (isPair .iv64))] } ∧
    LaneReady (ln tL) tL 0 whole { srcs := [(reg 4, 1), (reg 312, (7 : BitVec 3).toNat + 1)] } ∧ (tL.frag 0).wait = none ∧
    (∀ l ∈ lanes2, (tL.addr ⟨reg 4, 0⟩ l).toNat % accessWidth .iv64 = 0) :=
  ⟨lane_ready _ (by decide +kernel) _, lane_ready _ (by decide +kernel) _, by decide +kernel⟩
theorem witness_AccessValues :
    ([0, 1, 2, 3, 4, 5, 6, 7] : List Byte).length = 8 ∧ LTy.b64 ∈ [LTy.iv32, .pt32, .pt64, .bf16, .ivi32, .i32, .n32, .i64, .n64, .b64] ∧
    LTy.i8 ≠ .mrad32 := by decide +kernel
/-- A team whose fragment waits for something. -/
def waiting (i : Instr) (w : WaitFor) (T : Team) : Team :=
  { T with split := { T.split with frags := [(0, { T.frag 0 with state := 2, wait := some ⟨i, ends, w, 0⟩ })] } }
def ldfe0 : Instr := .ldfe whole .i64 3 ⟨reg 7, 0⟩ false
theorem witness_LaneTagged :
    LaneReady (ln tL) tL 0 whole { srcs := [(reg 7, 1)], dst := [319] } ∧ LaneReady (ln tL) tL 0 whole { srcs := [(reg 7, 1), (reg 319, 1)] } ∧
    LaneCurrent (ln (waiting ldfe0 (.tries 60 0) (det tL))) (waiting ldfe0 (.tries 60 0) (det tL)) 0 ∧
    LaneCurrent (ln (waiting ldfe0 (.turn 60 1 ends false) (det tL))) (waiting ldfe0 (.turn 60 1 ends false) (det tL)) 0 ∧
    (∀ l ∈ lanes2, (tL.addr ⟨reg 7, 0⟩ l).toNat % 8 = 0) ∧ tL.execMask (tL.frag 0) whole ≠ 0 ∧ tL.execMask (tL.frag 0) ⟨1, .f⟩ = 0 ∧
    ((waiting ldfe0 (.turn 60 1 ends false) (det tL)).frag 0).wait.map (·.what) = some (.turn 60 1 ends false) ∧
    (∃ e ∈ [left60], e.team = 1 ∧ e.grp = 60) :=
  ⟨lane_ready _ (by decide +kernel) _, lane_ready _ (by decide +kernel) _, ⟨rfl, rfl⟩, ⟨rfl, rfl⟩, by decide +kernel⟩
def tLh : Team := { tL with split := { frags := [(0, { tL.frag 0 with hist := [7] })] } }
/-- The last lane of a wait, and a wait between two turns, before and at its limit. -/
def waita1 : Instr := .waita whole .b64 ⟨reg 4, 0⟩ (reg 1) .eq false .system
def tW : Team := { tL with split := { frags := [(0, { tL.frag 0 with state := 2, wait := some ⟨waita1, laneBit 31, .reads (laneBit 31) false 0, 0⟩ })] } }
def tWt (n : Nat) : Team := { waiting waita1 (.turn 0 n ends false) (det tL) with waitlimit := 3 }
theorem witness_LaneFencesAndWaits :
    LaneReady (ln tL) tL 0 whole { srcs := [(reg 4, 1)] } ∧ LaneCurrent (ln tL) tL 0 ∧ LaneReady (ln tL) tL 0 whole { srcs := [(reg 4, 1), (reg 1, 1)] } ∧
    LaneCurrent (ln (tWt 2)) (tWt 2) 0 ∧ tL.execMask (tL.frag 0) whole ≠ 0 ∧ (ln tL).releaseOk 1 tL.core (tL.frag 0).hist .system = true ∧
    ({ ln tLh with evs := [store1] } : State).releaseOk 1 0 (tLh.frag 0).hist .device = false ∧ tL.execMask (tL.frag 0) ⟨1, .f⟩ = 0 ∧
    (∀ l ∈ lanes2, (tL.addr ⟨reg 4, 0⟩ l).toNat % 8 = 0) ∧ ((tWt 2).frag 0).wait.map (·.what) = some (.turn 0 2 ends false) ∧
    2 < (tWt 2).waitlimit.toNat ∧ (tWt 3).waitlimit ≠ 0 ∧ (tWt 3).waitlimit.toNat ≤ 3 ∧
    ((tW.spOf false).frag 0).wait.map (·.what) = some (.reads (laneBit 31) false 0) ∧ ((tW.spOf false).frag 0).wait.map (·.instr) = some waita1 :=
  ⟨lane_ready _ (by decide +kernel) _, ⟨rfl, rfl⟩, lane_ready _ (by decide +kernel) _, ⟨rfl, rfl⟩, by decide +kernel⟩
/-- A held atomic that a drain finds ready, and one that follows a store not yet performed. -/
def atom0 (h : List Nat) : HeldAtom :=
  { launch := 1, key := ⟨0, 0, 0, 0⟩, team := 1, core := 0, ctx := 0, addr := 0x10000, attr := .cached, pad := false, op := .add, ty := .i64, b := 1, preds := h }
def sAt (h : List Nat) (c : Nat) : State := { ln { det tL with clock := c } with atoms := [atom0 h], evs := [store1] }
theorem witness_LaneAtomics :
    LaneReady (ln tL) tL 0 whole { srcs := [(reg 4, 1), (reg 1, 1)], dst := [319] } ∧
    LaneReady (ln tL) tL 0 whole { srcs := [(reg 4, 1), (reg 1, 1), (reg 2, 1)], dst := [319] } ∧ tL.execMask (tL.frag 0) whole ≠ 0 ∧
    (∀ l ∈ lanes2, (tL.srcW (reg 4) l).toNat % 8 = 0) ∧ (sAt [] 3).drainReady 1 (some ((sAt [] 3).keyOf { det tL with clock := 3 })) = true ∧
    (sAt [7] 3).drainReady 1 (some ((sAt [7] 3).keyOf { det tL with clock := 3 })) = false :=
  ⟨lane_ready _ (by decide +kernel) _, lane_ready _ (by decide +kernel) _, by decide +kernel⟩

/-! ### System registers, traps, work and code -/

def tTrap : Team := { tS with trapLevel := true, trappc := 0x40, trapcause := 0x11 }
/-- Registers of both streams, and every one that MTX may write at trap level and below it; an atomic of the fragment that may still set
flags. -/
def flg : State := { ln tLh with evs := [{ store1 with op := .rmw .add .pt64 0, dst := .lane 3 31 .b64, lane := 31 }] }
theorem witness_SystemRegisters :
    ScalarReady (sc tS) tS [127] [] ∧ ScalarReady (sc tS) tS [127] [127] ∧ LaneReady (ln tL) tL 0 whole { dst := [319] } ∧
    LaneReady (ln tL) tL 0 whole { srcs := [(reg 319, 1)] } ∧ LaneCurrent (ln tL) tL 0 ∧ (sc tS).flagsQuiet tS = true ∧ flg.flagsQuiet tLh = false ∧
    tTrap.trapLevel = true ∧ tS.trapLevel = false ∧ scalarSysReg 0x013 = true ∧ scalarSysReg 0x13F = true ∧ scalarWritable true 0x11 = true ∧
    scalarWritable false 0x11 = false ∧ laneSysReg 0x00B = true ∧ laneSysReg 0x007 = true ∧ (ln tL).laneFlagsQuiet tL 0 = true ∧
    flg.laneFlagsQuiet tLh 0 = false ∧ tL.execMask (tL.frag 0) whole ≠ 0 :=
  ⟨scalar_ready _ _ (by decide +kernel), scalar_ready _ _ (by decide +kernel), lane_ready _ (by decide +kernel) _, lane_ready _ (by decide +kernel) _, ⟨rfl, rfl⟩, by decide +kernel⟩
def tNoH : Team := { tS with tvec := 0xFFFFFFFF }
def tParked : Team := { tTrap with run := some { entry := 8 }, split := { last := 0, frags := [(0, { valid := true, pc := 8, mask := 1 })] } }
theorem witness_TrapEntryAndReturn :
    ScalarReady (sc tS) tS [] [] ∧ LaneCurrent (ln tL) tL 0 ∧ ScalarReady (sc tParked) tParked [] [] ∧
    (tS.isWave = false ∧ tS.trapLevel = false ∧ tS.tvec ≠ 0xFFFFFFFF ∧ (sc tS).writesInFlight tS = false) ∧ (sc tTrap).mustWait tTrap = false ∧
    tTrap.trapLevel = true ∧ tNoH.tvec = 0xFFFFFFFF ∧ (sc tNoH).mustWait tNoH = false ∧ (ln tF).mustWait tF = true ∧
    (ln tL).writesInFlight (tL.nextL 0) = false ∧ tL.execMask (tL.frag 0) ⟨1, .f⟩ = 0 ∧ tL.execMask (tL.frag 0) whole ≠ 0 ∧
    tParked.hqueue = [] ∧ tParked.hrun = none ∧ tParked.split.check 0xFFFFFFFF = false ∧ tParked.split.check 1 = true :=
  ⟨scalar_ready _ _ (by decide +kernel), ⟨rfl, rfl⟩, ⟨rfl, rfl, by decide +kernel, by decide +kernel⟩, by decide +kernel⟩
/-- A register each for a header or record, a token, a misaligned address, a token past the last, one of an absent die. -/
def tJ : Team := { tS with sregs := [(1, 0x10000), (2, 0x3FFF), (3, 0x10010), (4, 0x4000), (5, 0x1FF)] }
def absent1 (s : State) : State := { s with dies := s.dies.map fun p => (p.1, if p.1 = 3 then { p.2 with present := false } else p.2) }
/-- A task record with two inputs and no token, and one whose kind is none. -/
def sTask (kind : Byte) : State := { sc tJ with mem := [(0x10000, kind), (0x10001, 2), (0x10004, 0xFF), (0x10005, 0xFF), (0x10008, 5), (0x1000A, 0xFF), (0x1000B, 0x0F)] }
def sFull : State := { sc tJ with posts := List.replicate 64 ⟨0, 0, hd, none, none⟩, tasks := List.replicate 1024 ⟨9, 0, 0, 0, 1, [], none, 0, none⟩ }
theorem witness_CreateWork :
    ScalarReady (sc tJ) tJ [1] [1] ∧ (tJ.sreg 1).toNat % 128 = 0 ∧ (tJ.sreg 3).toNat % 32 ≠ 0 ∧ 2 ^ 14 ≤ (tJ.sreg 4).toNat ∧
    ((absent1 (sc tJ)).die ((tJ.sreg 2).toNat / 4096)).present = false ∧ ((sc tJ).die ((tJ.sreg 2).toNat / 4096)).present = true ∧
    (tJ.sreg 2).toNat < 2 ^ 14 ∧ (sc tJ).releaseOk 1 tJ.core tJ.linkFills.shist .device = true ∧ tJ.counted = false ∧
    64 ≤ (sFull.posts.filter fun p => p.die == 0).length ∧ 1024 ≤ (sFull.tasks.filter fun t => t.die == 0).length ∧
    (sTask 1).translate (.scalar 1) 0 0 (tJ.sreg 1) = .ok 0x10000 .cached true ∧ (sTask 1).poisoned 0x10000 128 = false ∧
    (sTask 1).nat 0x10000 1 = 1 ∧ (sTask 3).nat 0x10000 1 = 3 ∧ SMap.rd 0 ((sc tJ).die 3).tokens 4095 ≠ 0xFFFF :=
  ⟨⟨rfl, rfl, by decide +kernel, by decide +kernel⟩, by decide +kernel⟩
def tK : Team := { tS with sregs := [(1, 0x7F000), (2, 0x1001), (3, 1)] }
def pend : CodeSlot := { core := 0, slot := 1, landed := false, ctx := 0, image := 0, page := 16 }
def held : CodeSlot := { core := 0, slot := 127, landed := true, ctx := 0, image := 0, page := 0x7F }
def sCode : State := { sc tK with slots := [pend, held], cinvs := [⟨4, 1, 0, [127]⟩] }
/-- A fill that goes on, its last sector, one that follows a store to its bytes, and one whose page is not cached or was refused. -/
def codeAt (p : Nat) : CodeSlot := { pend with page := p, preds := [7], bytes := List.replicate 4064 0 }
theorem witness_CodeSegments :
    ScalarReady sCode tK [1, 2] [1, 2] ∧ (tK.sreg 1).toNat % 4096 = 0 ∧ (tK.sreg 3).toNat % 4096 ≠ 0 ∧ pend ∈ sCode.slots ∧
    pend.landed = false ∧ (∀ y ∈ sCode.slots, y.core = pend.core → y.slot = pend.slot → y = pend) ∧
    sCode.translate (.code 0 1) 0 0 (BitVec.ofNat 64 (pend.image + 4096 * pend.page)) = .ok 0x10000 .cached true ∧ sCode.older pend.preds = [] ∧
    (codeAt 16).bytes.length + 32 = 4096 ∧
    ({ sCode with evs := [{ store1 with key := 0x10FE0 }] } : State).older (codeAt 16).preds = [{ store1 with key := 0x10FE0 }] ∧
    overlap (0x10FE0, 8) (0x10000 + 4064, 32) = true ∧ sCode.translate (.code 0 1) 0 0 0x30000 = .miss ∧
    (denied (.code 0 1) sCode).translate (.code 0 1) 0 0 0x30000 = .refused ∧ (∀ y ∈ sCode.cinvs, y.id = 4 → y = ⟨4, 1, 0, [127]⟩) :=
  ⟨⟨rfl, rfl, by decide +kernel, by decide +kernel⟩, by decide +kernel⟩
/-! ### Tickets, barriers, copies -/

/-- An object at 0x10000 whose turn is 0, bound to the launch at level 1. -/
def tk0 : Ticket := { key := 0x10000, launch := 1, level := 1 }
def tT : Team := withV (lt 1) [((4, 0), 0x10000)]
def sTk (T : Team) (turn : Byte) : State := { ln T with tickets := [tk0], mem := if turn = 0 then [] else [(0x10000, turn)] }
/-- Places of ticket objects, which are read and written at their homes; a wait that polls again. -/
def tkw : Instr := .tkwait whole 2 ⟨reg 4, 0⟩ 1
def tTw : Team := { waiting tkw (.tickets 1 false) tT with hdr := { hd with flags := 1 } }
theorem witness_LaneTickets :
    LaneReady (sTk tT 0) tT 0 whole { srcs := [(reg 4, 1)] } ∧ LaneCurrent (sTk tTw 0) tTw 0 ∧ (sTk tT 0).launch? 1 = some la ∧
    (tT.frag 0).wait = none ∧ (tT.addr ⟨reg 4, 0⟩ 0).toNat % 16 = 0 ∧ tT.execMask (tT.frag 0) whole ≠ 0 ∧
    (sTk tT 0).translate who0 0 0 (tT.addr ⟨reg 4, 0⟩ 0) = .ok 0x10000 .cached true ∧
    (((sTk tT 0).forget who0).bindAll 1 1 [⟨⟨0, 0, 0x10000, 16⟩, 0x10000, .cached⟩]).2 = 0 ∧
    (((sTk tT 0).forget who0).bindAll 2 1 [⟨⟨0, 0, 0x10000, 16⟩, 0x10000, .cached⟩]).2 ≠ 0 ∧
    (sTk tT 0).releaseOk 1 0 (tT.frag 0).hist .device = true ∧ heldBack ((sTk tT 0).older (tT.frag 0).hist) = false ∧
    (tTw.frag 0).wait.map (·.what) = some (.tickets 1 false) ∧ (sTk tT 0).turnOf 0x10000 = 0 ∧ (sTk tT 3).turnOf 0x10000 = 3 ∧
    (sTk tT 0).poisonOf 0x10000 = false ∧ (sTk tT 0).ticket? 0x10000 = some tk0 ∧ tk0.held = [] ∧
    hd.ordinal 1 (tT.wid 0).toNat = 0 ∧ isDev (0x10000 + 8) = true :=
  ⟨⟨⟨rfl, rfl⟩, by decide +kernel, by decide +kernel⟩, ⟨rfl, rfl⟩, rfl, by decide +kernel⟩
/-- Teams of a group that live, and groups without one, of which one had a team that halted; writes of a team that has gone, which have
reached memory or not. -/
theorem witness_LaneTickets_passes :
    (sTk tT 0).groupLive la 1 0 = true ∧ (sTk tT 3).groupLive la 1 3 = false ∧ (sTk tT 3).writtenBack la.cores = true ∧
    ({ sTk tT 3 with lines := [⟨0, 0x200, 1, 1, 5, 0, .team⟩] } : State).writtenBack la.cores = false ∧ (∀ w ∈ la.halted, hd.ordinal 1 w ≠ 3) ∧
    (∃ w ∈ ({ la with halted := [96] } : Launch).halted, hd.ordinal 1 w = 3) := by decide +kernel
def tB : Team := withV (lt ends) [((1, 0), 0x100), ((1, 31), 0x200), ((2, 0), 1), ((2, 31), 0x7FFFFF), ((3, 31), 0x7FFFFFFF)]
def psB : List Piece := lanes2.map fun l => ⟨l, 0, tB.srcW (reg 1) l, 16⟩
def tBar : Team := { tm with run := some { entry := 8 }, mask := 5, split := { frags := [(0, { valid := true, pc := 8, mask := 5 })] } }
def tBar2 : Team := { tBar with split := { frags := [(0, { valid := true, pc := 8, mask := 1 }), (1, { valid := true, pc := 9, order := 1, mask := 4 })] } }
def pbw : Instr := .pbwait whole 2 (reg 1) true 0
def tPw (n : Nat) : Team := { waiting pbw (.turn 0 n ends false) (det tB) with waitlimit := 3 }
theorem witness_LaneBarriers :
    LaneReady (ln tB) tB 0 whole { srcs := [(reg 1, 1), (reg 2, 1), (reg 3, 1)] } ∧ LaneReady (ln tB) tB 0 whole { srcs := [(reg 1, 1)] } ∧
    LaneCurrent (ln tBar) tBar 0 ∧ LaneCurrent (ln tBar2) tBar2 0 ∧ LaneCurrent (ln (tPw 2)) (tPw 2) 0 ∧ (tB.frag 0).wait = none ∧
    lanesOf (tB.execMask (tB.frag 0) whole) tB.lanes = lanes2 ∧ (∀ l ∈ lanes2, (tB.srcW (reg 1) l).toNat % 16 = 0) ∧
    (∃ l ∈ lanes2, (tB.srcW (reg 2) l).toNat % 16 ≠ 0) ∧ (∀ p ∈ psB, (ln tB).padOk tB p.va p.len = true) ∧ (ln tB).padOk tB 0xFFF8 16 = false ∧
    (∀ l ∈ lanes2, (tB.srcW (reg 2) l).toNat < 2 ^ 23 ∧ (tB.srcW (reg 3) l).toNat < 2 ^ 31) ∧ 2 ^ 23 ≤ (tB.srcW (reg 3) 31).toNat ∧
    ((tPw 2).frag 0).wait.map (·.what) = some (.turn 0 2 ends false) ∧ 2 < (tPw 2).waitlimit.toNat ∧
    tBar.execMask (tBar.frag 0) whole ≠ 0 ∧ tBar.sp.depth = 0 ∧ tBar.sp.frags = [(0, tBar.frag 0)] ∧ (tBar.frag 0).mask = tBar.mask ∧
    (ln tBar).releaseOk 1 0 (tBar.frag 0).hist .team = true ∧ (tBar2.frag 1).valid = true ∧ (tBar2.frag 1).state ≠ 2 :=
  ⟨⟨⟨rfl, rfl⟩, by decide +kernel, by decide +kernel⟩, ⟨⟨rfl, rfl⟩, by decide +kernel, by decide +kernel⟩, ⟨rfl, rfl⟩, ⟨rfl, rfl⟩, ⟨rfl, rfl⟩, by decide +kernel⟩
/-- A barrier at the largest counts, one with nothing pending left to lower, the phases at the ends of a wait, and counts that a plain
store left out of range. -/
theorem witness_PhaseBarriers :
    let b : Bar := { gen := 255, pa := 2 ^ 23 - 1, ea := 2 ^ 23 - 1, pb := 2 ^ 31 - 1, eb := 0, broken := false }
    let x := { b with pa := 2 ^ 24 - 1, pb := 2 ^ 32 - 1 }
    (b.gen < 256 ∧ b.pa ≤ 2 ^ 23 - 1 ∧ b.pb ≤ 2 ^ 31 - 1 ∧ b.pa < 2 ^ 24 ∧ b.pb < 2 ^ 32) ∧ (0 < b.pa ∨ 0 < b.pb) ∧ b.pa < 2 ^ 23 ∧
    (2 ^ 31 - 1 < b.pb + 1) ∧ (0 : Nat) < 256 ∧ x.ea = b.ea ∧ x.eb = b.eb ∧ x.gen = b.gen ∧ 2 ^ 23 - 1 < x.pa ∧ 2 ^ 31 - 1 < x.pb := by decide +kernel
/-- A layout record at 0x10000: mode 0, elements of .b64, extent and box of 4, based at 0x10100. -/
def tCp : Team := withV (lt 1) [((1, 0), 0x10000), ((3, 0), 0x40)]
def oCp : CpyOps := ⟨whole, 3, reg 1, reg 2, Src.none, false, false, false, .toPad, false, false, 0⟩

theorem witness_LaneCopies :
    LaneReady (ln tCp) tCp 0 whole { srcs := [(oCp.a, 1), (oCp.b, 1), (⟨oCp.d, false, false⟩, 1)] } ∧
    LaneReady (ln tCp) tCp 0 whole { srcs := [(reg 2, 1)], dst := [318, 319] } ∧
    lanesOf (tCp.execMask (tCp.frag 0) whole) tCp.lanes = [0] ∧ (tCp.srcW oCp.a 0).toNat % 64 = 0 ∧ (tCp.v 3 0).toNat % 8 = 0 ∧
    (ln tCp).translate who0 0 0 (tCp.srcW oCp.a 0) = .ok 0x10000 .cached true ∧ (ln tCp).mayPeek 0 [] (spanOf 0x10000 64 .cached) = true :=
  ⟨⟨⟨rfl, rfl⟩, by decide +kernel, by decide +kernel⟩, ⟨⟨rfl, rfl⟩, by decide +kernel, by decide +kernel⟩, by decide +kernel⟩
/-- The record: 64 elements of .b64 from 0x10100, a box of 64; and its copy to pad offset 0x40 at the first sector. -/
def layMem : Memory := [(0x10001, 1), (0x10002, 1), (0x1002C, 64), (0x1002F, 1), (0x10032, 1), (0x10034, 1), (0x10035, 1), (0x10036, 64), (0x10038, 1), (0x1003B, 15),
  (0x10100, 0x11), (0x10107, 0x22), (0x1011F, 0x33)]
def sCp : State := { ln tCp with mem := layMem }
def layC : Layout := layoutOf (sCp.bytes 0x10000 64)
def cp0 : Copy := { id := 9, team := some 1, core := 0, ctx := 0, lay := layC, dst := 0x40, total := 512 }
def sCp1 : State := { sCp with copies := [cp0] }
theorem witness_LaneCopies_sectors :
    cpyCheck oCp (sCp.forget (.lanes 1 false 0)) tCp [cpyCopy oCp (sCp.forget (.lanes 1 false 0)) tCp 0 0 layC] = none ∧
    cpyCheck oCp (ln tCp) tCp [cpyCopy oCp (ln tCp) tCp 0 0 (layoutOf ((ln tCp).bytes 0x10000 64))] = some 0x06 ∧
    cp0.ended = false ∧ cp0.stopped = false ∧ cp0.stopping = false ∧ sCp1.sectorReady cp0 = true ∧ cp0.done + cp0.sectorAt cp0.done < cp0.total ∧ (∀ y ∈ sCp1.copies, y.id = cp0.id → y = cp0) := by decide +kernel

/-! ### Confluence -/

/-- At 0x30000 stands a method of one lane word with a reply of 8 bytes, and at 0x30010 one without a reply. -/
def methods : Memory := [(0x30000, 5), (0x30004, 1), (0x30005, 8), (0x30010, 5), (0x30014, 1)]
def hdC : Header := { hd with methods := 0x30000, handlers := 0x30000 }
def laC : Launch := { la with hdr := hdC }
def tCf : Team := { tL with hdr := hdC }
/-- A wave of an object, and a request of each place in it. -/
def tWv : Team := { tm with sort := .wave 7, run := some { entry := 5 }, mask := 3, split := { frags := [(0, { valid := true, pc := 5, mask := 3, wait := some ⟨.cret whole 1, 3, .all true, 0⟩, state := 2 })] } }
def ob0 : ObjReg := { id := 7, launch := 1, key := 0x10000, va := 0x10000, ctx := 0, len := 64, mbase := 0, win := 0 }
def rq (i : Nat) (k : ReqKind) (p : ReqAt) : Req :=
  { id := i, team := 1, launch := 1, core := 0, ctx := 0, lane := 31, grp := 1, kind := k, va := 0x10000, key := 0x10000, wid := 31
    cohort := 0, clock := 5, reg := 3, qs := 2, place := p, status := .t, value := 9 }
def rs7 : List Req := [{ rq 30 (.comb 0 4) (.inWave 0) with obj := some 7 }, { rq 31 (.comb 0 5) (.inWave 1) with obj := some 7 }]
def sWv : State := { ln tWv with mem := tables ++ methods, launches := [laC], objs := [{ ob0 with packed := [30, 31], wave := some 1 }], reqs := rs7 }
/-- An AMSG that waits with its messages for lane 31. -/
def amsg0 : Instr := .amsg whole ⟨reg 7, 0⟩ (reg 1) false 3 7
def tAm : Team := waiting amsg0 (.amsg (laneBit 31)) tCf
theorem witness_LaneConfluence :
    LaneReady (ln tCf) tCf 0 whole { srcs := [(reg 4, 1), (reg 1, 1)], dst := [319] } ∧
    LaneReady (ln tCf) tCf 0 whole { srcs := [(reg 4, 1), (reg 1, 8)] } ∧ LaneReady (ln tCf) tCf 0 whole { srcs := [(reg 4, 1)] } ∧
    LaneCurrent (ln tAm) tAm 0 ∧ (tCf.frag 0).wait = none ∧ tCf.counted = false ∧ tCf.execMask (tCf.frag 0) whole ≠ 0 ∧
    (∀ l ∈ lanes2, (tCf.addr ⟨reg 4, 0⟩ l).toNat % 8 = 0) ∧
    (∀ l ∈ lanes2, (ln tCf).translate who0 0 0 (tCf.addr ⟨reg 4, 0⟩ l) = .ok (tCf.addr ⟨reg 4, 0⟩ l).toNat .cached true) ∧
    inHost 0x10010 = false ∧ inHost (hostKey 8) = true ∧ tL.hdr.methods = 0 ∧ tCf.hdr.methods ≠ 0 ∧ tL.hdr.handlers = 0 ∧ tCf.hdr.handlers ≠ 0 ∧
    tCf.sending 0 = false ∧ tAm.sending 1 = true ∧ (tAm.frag 0).wait.map (·.what) = some (.amsg (laneBit 31)) ∧
    (ln tCf).releaseOk 1 tCf.core (tCf.frag 0).hist .device = true ∧ (ln tCf).routeBroken 0 1 = false :=
  ⟨⟨⟨rfl, rfl⟩, by decide +kernel, by decide +kernel⟩, ⟨⟨rfl, rfl⟩, by decide +kernel, by decide +kernel⟩, ⟨⟨rfl, rfl⟩, by decide +kernel, by decide +kernel⟩, ⟨rfl, rfl⟩, by decide +kernel⟩
/-- The lanes of a wave, whose object and method are there, and a destination core that is there and one that is not. -/
theorem witness_LaneConfluence_wave :
    LaneCurrent (ln tCf) tCf 0 ∧ LaneReady sWv tWv 0 whole { srcs := [(reg 0, 1)] } ∧ CrossReady tWv 0 true ∧ tCf.isWave = false ∧
    tWv.sort = .wave 7 ∧ tWv.replied = false ∧ sWv.releaseOk 1 tWv.core (sWv.evsOf tWv) .device = true ∧ (sWv.obj? 7).isSome ∧
    sWv.launch? 1 = some laC ∧ (sWv.obj? 7).bind (sWv.waveMethod · laC) = some ⟨5, 1, 8⟩ ∧ (tL.srcW (reg 2) 0).toNat < 128 ∧
    ((ln tCf).die 0).present = true ∧ 128 ≤ (tL.srcW (reg 7) 0).toNat :=
  ⟨⟨rfl, rfl⟩, ⟨⟨rfl, rfl⟩, by decide +kernel, by decide +kernel⟩, fun _ => rfl, by decide +kernel⟩
/-- A machine with an object and one request that is on its way to it. -/
def sRq (os : List ObjReg) (rs : List Req) : State := { ln tCf with mem := tables ++ methods, launches := [laC], objs := os, reqs := rs, cycle := 100 }
def other0 : ObjReg := { ob0 with key := 0x10020, id := 8 }
def win0 : ObjReg := { ob0 with window := some (90, 95) }
def win1 : ObjReg := { ob0 with window := some (30, 95) }
def win2 : ObjReg := { ob0 with window := some (60, 84) }
theorem witness_ConfluenceUnits :
    (sRq [ob0] [rq 30 (.comb 0 4) .sent]).arriving 30 = some (rq 30 (.comb 0 4) .sent) ∧ (rq 30 (.comb 0 4) .sent).kind.isComb = true ∧
    (sRq [ob0] [rq 30 (.comb 0 4) .sent]).releaseOk 1 0 [] .device = true ∧ (sRq [] [rq 30 (.comb 0 4) .sent]).objFor 1 0x10000 = none ∧
    (sRq [ob0] []).objFor 1 0x10000 = some ob0 ∧ (sRq [win0] []).objFor 1 0x10000 = some win0 ∧
    (sRq [win0] []).windowDue win0 = false ∧ (sRq [win1] []).windowDue win1 = true ∧ (sRq [win2] []).windowDue win2 = true ∧
    (sRq [] [rq 30 (.register 64 0 0) .sent]).arriving 30 = some (rq 30 (.register 64 0 0) .sent) ∧ other0.key < 0x10000 + 64 ∧
    (sRq [other0] []).unitOf 0x10020 = (sRq [other0] []).unitOf 0x10000 ∧ (sRq [ob0] [rq 30 .clear .sent]).arriving 30 = some (rq 30 .clear .sent) ∧
    (sRq [ob0] []).isDet 1 = false ∧
    (sRq [{ ob0 with packed := [30] }] [rq 30 (.comb 0 4) (.inWave 0)]).waveMethod { ob0 with packed := [30] } laC = some ⟨5, 1, 8⟩ ∧
    (sRq [{ ob0 with packed := [30] }] [rq 30 (.comb 0 4) (.inWave 0)]).packedReqs { ob0 with packed := [30] } = [rq 30 (.comb 0 4) (.inWave 0)] ∧
    (sRq [{ ob0 with packed := [30] }] [rq 30 (.comb 9 4) (.inWave 0)]).waveMethod { ob0 with packed := [30] } laC = none := by decide +kernel
def msg (h : Nat) : AMsg := { core := 0, handler := h, payload := [7, 8], addr := 0x10000, wid := 31, cohort := 0, ctx := 0, pri := 0, hdr := hdC, launch := 1 }
/-- Under DET a window is due once every team of the launch has passed the clocks it holds. -/
def laDet : Launch := { laC with hdr := { hdC with flags := 1 } }
theorem witness_ConfluenceUnits_det :
    let held := { rq 29 (.comb 0 4) .held with clock := 4, obj := some 7 }
    let s := fun (c : Nat) => { sRq [win1] [held] with launches := [laDet], teams := [{ tCf with hdr := { hdC with flags := 1 }, clock := c }] }
    (s 4).isDet 1 = true ∧ (s 4).launch? 1 = some laDet ∧ (s 4).heldFor 7 = [held] ∧ (s 4).windowDue win1 = false ∧ (s 5).windowDue win1 = true ∧
    laDet.placed.length = laDet.hdr.cohorts := by decide +kernel
/-- The core of the wave has room; a reply and a registration come back; a message finds its handler, or none. -/
theorem witness_ConfluenceUnits_waves :
    let s := sRq [{ ob0 with packed := [30] }] [rq 30 (.comb 0 4) (.inWave 0)]
    let k := 32 * homeDie ob0.key + 2 * s.sliceOf ob0.key
    s.roomFor k (takes 1 8 16) = true ∧ s.spanReady k laC = true ∧ (s.partition k).isSome ∧ s.routeBroken (homeDie 0x10000) 0 = false ∧
    (rq 30 (.comb 0 4) .answered).kind.isRegister = false ∧ (sRq [] []).team? 1 = some tCf ∧ (∀ X ∈ (sRq [] []).teams, X.id = tCf.id → X = tCf) ∧
    (rq 31 (.register 64 0 0) .answered).kind.isRegister = true ∧ tCf.trapLevel = false ∧
    (sRq [] []).method 0 0 0x30000 0 = some ⟨5, 1, 8⟩ ∧ (sRq [] []).method 0 0 0x30000 1 = some ⟨5, 1, 0⟩ ∧ (sRq [] []).method 0 0 0x30000 2 = none ∧
    (sRq [] []).spanReady 0 (msg 1).launchOf = true ∧ (sRq [] []).roomFor 0 (takes 1 8 16) = true ∧ (sRq [] []).partition 0 = some (1, 0) ∧
    (sRq [] []).writesInFlight { tWv with raised := some { cause := 1 } } = false := by decide +kernel

/-! ### Collectives, the matrix engine -/

/-- A descriptor at 0x10000: two contributors, lane words 0 and 32, one node, a result at 0x10200 and a stamp at 0x10300. -/
def treeMem : Memory :=
  [(0x10000, 2), (0x10001, 1), (0x10004, 100), (0x10008, 0), (0x10009, 2), (0x1000A, 1), (0x10011, 3), (0x10012, 1), (0x10018, 9), (0x10028, 32), (0x10031, 1)].filter
    fun x => x.2 != 0
def oC : V2 := ⟨whole, .i64, 319, reg 8, reg 1⟩
def tCo : Team := withV tL [((8, 0), 0x10000), ((8, 31), 0x20000)]
def sCo : State := { ln tCo with mem := tables ++ treeMem, cycle := 500 }
def psCo : List Piece := (lanes2.map fun l => ⟨l, 0, 0x10000, 32⟩) ++
  lanes2.flatMap fun l => (List.range 5).map fun i => ⟨l, 0, 0x10000 + BitVec.ofNat 64 (0x20 + 4 * i), 4⟩
def tree0 : Tree := treeOf (sCo.bytes 0x10000 52)
def tF1 : Team := { tL with hdr := { hd with flags := 1 } }
def ct (k : Nat) : Contrib :=
  { id := 40 + k, team := 1, launch := 1, core := 0, ctx := 0, key := 0x10000, contributor := k, word := 0, grp := 1, reg := 319, op := .add, ty := .i64,
    elems := (List.range 32).map fun j => if j = 31 then some 5 else none, tree := tree0, leftCore := true }
def in0 (p : List Nat) : Inst :=
  { id := 50, key := 0x10000, ctx := 0, core := 0, launch := 1, tree := tree0, op := .add, ty := .i64, began := 400, present := p.map fun k => (k, (ct k).elems), arrived := p }
theorem witness_Collectives :
    LaneReady sCo tCo 0 whole { srcs := [(oC.a, 1), (oC.b, 1)], dst := [319] } ∧ tCo.counted = false ∧ tCo.execMask (tCo.frag 0) whole ≠ 0 ∧
    (∀ l ∈ lanes2, (0 : Nat) ∈ lanes2 ∧ 0 / 32 = l / 32 ∧ ∀ k ∈ lanes2, k / 32 = l / 32 → 0 ≤ k) ∧ (tCo.srcW oC.a 0).toNat % 64 = 0 ∧
    sCo.translate who0 0 0 (tCo.srcW oC.a 0) = .ok 0x10000 .cached true ∧ (sCo.peekByte 1 0 [] (0x10000, .cached)).toNat = 2 ∧ sCo.mayPeek 0 [] [(0x10000, .cached)] = true ∧
    (∀ p ∈ psCo, sCo.translate who0 0 0 p.va = .ok p.va.toNat .cached true) ∧ sCo.mayPeek 0 [] (psCo.flatMap fun p => spanOf p.va.toNat p.len .cached) = true ∧
    sCo.collParts tCo 0 (tCo.collWords 0x80000001) (fun l => tCo.srcW oC.a l) (psCo.map fun p => ⟨p, p.va.toNat, .cached⟩) = [⟨0, 0x10000, tree0⟩] ∧
    tree0.ok = true ∧ tree0.wids.findIdx? (· == tCo.wid 0) = some 0 ∧ sCo.commRefuses 1 0 0x10000 tree0 = false ∧
    ({ sCo with comms := [⟨0x10000, 0, 1, true, true, []⟩] } : State).commRefuses 1 0 0x10000 tree0 = true :=
  ⟨⟨⟨rfl, rfl⟩, by decide +kernel, by decide +kernel⟩, by decide +kernel⟩
/-- A FLUSH in a DET launch; a contribution that leaves and one that arrives; an instance whose node has both inputs, one past its time,
and one that is broken; a stamp that is mapped writable. -/
theorem witness_Collectives_instances :
    LaneCurrent (ln tF1) tF1 0 ∧ tF1.counted = true ∧ tF1.execMask (tF1.frag 0) whole ≠ 0 ∧ (ln tF1).turn tF1 = true ∧
    (ln tF1).drainReady 1 (some ((ln tF1).keyOf tF1)) = true ∧ (ct 1).elems.length = 32 ∧
    sCo.routeBroken (dieOf (ct 1).core) (sCo.homeOf (ct 1).core (ct 1).key) = false ∧ (1 : Nat) ∉ (in0 [0]).arrived ∧ 0 ∈ (in0 [0, 1]).arrived ∧
    ({ sCo with cycle := 450 } : State).instOver (in0 [0]) = false ∧ sCo.instOver (in0 [0]) = true ∧ sCo.instOver (in0 [0, 1]) = false ∧
    sCo.instOver { in0 [0, 1] with broken := true } = true ∧ (in0 [0, 1]).tree.nodes[0]? = some (0, 1, 0) ∧ (in0 [0, 1]).result = none ∧
    ((in0 [0, 1]).present.find? fun e => e.1 == 1) = some (1, (ct 1).elems) ∧ (∀ e ∈ (in0 [0, 1]).present, e.1 ≠ (in0 [0, 1]).tree.nc + 0) ∧
    sCo.dispKey (sCo.homeOf 0 0x10000) 0 (BitVec.ofNat 64 (tree0.stamp + 8)) = some (tree0.stamp + 8, true) :=
  ⟨⟨rfl, rfl⟩, by decide +kernel⟩
def detCp : Copy := { cp0 with det := some ⟨3, 0, 0, 0⟩, launch := 1, done := 512, ended := true }
def sDet (c : Nat) : State := { sc { tF1 with clock := c } with copies := [detCp] }
def detIn : Inst := { in0 [0, 1] with result := some [], det := some ⟨3, 0, 0, 0⟩ }
theorem witness_Collectives_events :
    ((sDet 4).copies.find? fun x => x.id == detCp.id) = some detCp ∧ (sDet 4).eventTurn 1 ⟨3, 0, 0, 0⟩ = true ∧ (sDet 2).eventTurn 1 ⟨3, 0, 0, 0⟩ = false ∧
    detCp.ended = true ∧ (sDet 4).copyMay detCp = true ∧ (∀ x ∈ (sDet 4).copies, x.id ≠ detIn.id) ∧
    ({ sDet 4 with insts := [detIn] } : State).inst? 50 = some detIn ∧
    ({ sDet 4 with insts := [detIn] } : State).collKey 1 0x10000 = some ⟨3, 0, 0, 0⟩ := by decide +kernel
/-- Lanes 0 and 31 with tiles' offsets in v9 and v10, a format of bf16 weights, and tiles of the queue. -/
def bfmt : BitVec 32 := 0x00000888
def tMm : Team := { withV tL [((9, 0), 0x100), ((10, 0), 0x200), ((11, 0), 0x44)] with mfmt := bfmt }
def padCo : Cohort := { co with bases := [0] }
def tile0 : Tile := { id := 70, d := 8, n := 16, k := 1, z := true, q := false, oa := 0x100, ob := 0x200, oc := 0, rows := ends, mfmt := 0x42, codebook := [] }
def tTi (r : Bool) : Team := { tMm with tiles := [{ tile0 with running := r }], marks := [⟨8, 0, 70, true⟩, ⟨9, 0, 1, false⟩] }
theorem witness_MatrixEngine :
    LaneCurrent (ln tMm) tMm 0 ∧ LaneReady (ln tMm) tMm 0 whole { srcs := [(reg 9, 1), (reg 10, 1), (reg 11, 1)] } ∧
    LaneReady (ln tMm) tMm 0 whole { dst := [319] } ∧ tMm.execMask (tMm.frag 0) whole ≠ 0 ∧ (0x3000 : Half).extractLsb' 12 2 = 3 ∧
    (0x1000 : Half).extractLsb' 12 2 ≠ 3 ∧ (124 : BitVec 7).toNat + 3 < tMm.sbud ∧ tMm.sbud ≤ (125 : BitVec 7).toNat + 3 ∧
    tMm.executes 0 whole 0 = true ∧ tMm.executes 0 ⟨1, .u⟩ 31 = true ∧ (∀ k < 31, tMm.executes 0 ⟨1, .u⟩ k = false) ∧
    (∀ r ∈ (List.range 8).map (312 + ·), r < tMm.vbud) ∧ (tMm.srcW (reg 9) 0).toNat % 32 = 0 ∧ (tMm.srcW (reg 10) 0).toNat % 32 = 0 ∧
    (tMm.srcW (reg 11) 0).toNat % 4 = 0 ∧ tL.mfmt.extractLsb' 0 5 = 0 ∧ tMm.mfmt.extractLsb' 0 5 ≠ 0 ∧ (∀ l ∈ lanes2, l < 128) ∧
    (∀ r ∈ tile0.ranges tMm, (ln tMm).padOk tMm (BitVec.ofNat 64 r.1) r.2 = true) ∧
    (∃ r ∈ ({ tile0 with ob := 0xFFE0 } : Tile).ranges tMm, (ln tMm).padOk tMm (BitVec.ofNat 64 r.1) r.2 = false) ∧
    tMm.tiles.length < 2 ∧ tMm.accEmpty ((List.range 8).map (312 + ·)) ends = false :=
  ⟨⟨rfl, rfl⟩, ⟨⟨rfl, rfl⟩, by decide +kernel, by decide +kernel⟩, ⟨⟨rfl, rfl⟩, by decide +kernel, by decide +kernel⟩, by decide +kernel⟩
/-- A tile that may start, one that an older pad access holds back, and one that runs and may be written back. -/
def padSt : Ev := { store1 with key := 2 ^ 60 + 0x100 }
theorem witness_MatrixEngine_tiles :
    tTi false ∈ (ln (tTi false)).teams ∧ (∀ X ∈ (ln (tTi false)).teams, X.core / 2 = 0 → ∀ x ∈ X.tiles, x.running = false) ∧
    (∀ X ∈ (ln (tTi false)).teams, X = tTi false) ∧ tTi true ∈ (ln (tTi true)).teams ∧ (tTi true).tiles = [{ tile0 with running := true }] ∧
    (∀ X ∈ (ln (tTi true)).teams, X = tTi true) ∧ (ln (tTi true)).tileBusy tile0 = false ∧
    ({ ln (tTi false) with evs := [padSt] } : State).tileBusy { tile0 with preds := [7] } = true ∧ tile0.n % 2 = 0 ∧ tile0.q = false ∧
    tile0.rows.getLsbD 31 = true ∧ fmtIM tile0.mfmt = false ∧ fmtIM 0x4042 = true := by decide +kernel

/-! ### Cisterns and the bounds pass -/

def hdS : Header := { hd with spill := 0x10000, depthMax := 255, edgeMin := 1 }
def it (n : Nat) : Item := ⟨headerWord n 1 0 n, tileWord n n 2, 5, 6⟩
/-- Items in lanes 0 and 31: tiles of edge 2. -/
def tIt : Team := { tL with hdr := hdS, items := [(0, some (it 1).held), (31, some (it 2).held)] }
def tNo : Team := { tL with hdr := hdS }
def coP (pad : List Item) (sp : List Nat) (r : Option Refill) : Cohort := { co with cistern := { pad := pad, spilled := sp, refill := r } }
def sCi (T : Team) (C : Cohort) : State := { ln T with cohorts := [C], launches := [{ la with live := 9, hdr := hdS }] }
/-- The word after QUART, of ELEM with target 5 words on. -/
def elemSlot : CodeSlot :=
  { core := 0, slot := 3, landed := true, ctx := 0, image := 0, page := 0, bytes := List.replicate 108 0 ++ leBytes 12 0xC6C0000000000A0000000000 }
def full8 : List Item := (List.range 8).map it
def coF : Cohort := coP full8 [] none
theorem push_ready (n : Nat) (hn : n ≤ 8) : PushReady (sCi tIt coF) tIt 0 coF n := by
  have h : n = 0 ∨ n = 1 ∨ n = 2 ∨ n = 3 ∨ n = 4 ∨ n = 5 ∨ n = 6 ∨ n = 7 ∨ n = 8 := by omega
  rcases h with rfl | rfl | rfl | rfl | rfl | rfl | rfl | rfl | rfl
  all_goals refine ⟨fun _ => rfl, fun _ => rfl, by decide +kernel, by decide +kernel, ?_, by decide +kernel⟩
  all_goals
    intro k hk
    refine ⟨⟨0x10000 + 32 * k, .cached, ?_⟩, ?_⟩ <;> (revert k; decide)
/-- A team whose lanes hold items, one whose lanes hold none, one that has none of a cistern, and a full pad part; a ring with no room. -/
def coQ : Cohort := coP full8 (List.range 128) none
def tC0 : Team := { tNo with hdr := { hdS with cap := 0 } }
theorem witness_Cisterns :
    LaneReady (sCi tIt coF) tIt 0 whole { srcs := (reg 1, 2) :: [(reg 3, 1)], dst := dstOf .iv64 1 } ∧
    LaneReady (sCi tNo coF) tNo 0 whole { srcs := (reg 1, 2) :: [(reg 3, 1)], dst := dstOf .iv64 1 } ∧
    LaneReady (sCi tIt coF) tIt 0 whole { srcs := [(reg 1, 1), (reg 2, 1), (reg 3, 1)] } ∧
    LaneReady (sCi tC0 coF) tC0 0 whole { srcs := (reg 1, 2) :: [(reg 3, 1)], dst := dstOf .iv64 1 } ∧
    LaneReady (sCi tC0 coF) tC0 0 whole { srcs := [(reg 1, 1), (reg 2, 1)] } ∧
    PushReady (sCi tIt coF) tIt 0 coF 2 ∧ LaneCurrent (sCi tC0 coF) tC0 0 ∧ tC0.hdr.cap = 0 ∧
    tIt.sort = .ordinary ∧ tIt.hdr.cap ≠ 0 ∧ (sCi tIt coF).cohort? tIt.launch tIt.cohort = some coF ∧ (tIt.frag 0).wait = none ∧
    (∀ l ∈ lanes2, tIt.item l ≠ none) ∧ tNo.item 31 = none ∧ tIt.execMask (tIt.frag 0) ⟨1, .f⟩ = 0 ∧ tIt.execMask (tIt.frag 0) whole ≠ 0 ∧
    coF.cistern.faulted = false ∧ coF.cistern.heldBy who0 = false ∧ 16 * 8 < coQ.cistern.spilled.length + spillsOf 8 coQ.cistern.pad.length 2 ∧
    (coP [it 3] [] none).cistern.pad.length + 2 ≤ 8 ∧ coF.cistern.pad.length = 8 ∧ (sCi tIt coF).launch? 1 ≠ none :=
  ⟨⟨⟨rfl, rfl⟩, by decide +kernel, by decide +kernel⟩, ⟨⟨rfl, rfl⟩, by decide +kernel, by decide +kernel⟩, ⟨⟨rfl, rfl⟩, by decide +kernel, by decide +kernel⟩,
    ⟨⟨rfl, rfl⟩, by decide +kernel, by decide +kernel⟩, ⟨⟨rfl, rfl⟩, by decide +kernel, by decide +kernel⟩, push_ready 2 (by decide +kernel), ⟨rfl, rfl⟩, by decide +kernel⟩
/-- A DRAW of lanes that hold items and of lanes that hold none, from a faulted cistern, one whose retried refill is under way, one with
entries, one that refills, and an empty one, with live work elsewhere and without; a DRAW that waits for its refill. -/
def drw : Instr := .draw 2 4 true 1 false
def cFault : Cohort := { co with cistern := { spilled := [4], faulted := true } }
def cHeld : Cohort := coP [] [] (some ⟨[4], some who0⟩)
def cRef : Cohort := coP [] [] (some ⟨[4], none⟩)
def cNone : Cohort := coP [] [] none
def takersOf (T : Team) : List Nat := (lanesOf (T.frag 0).mask T.lanes).filter fun l => (T.item l).isNone
def tWr : Team := { tNo with split := { frags := [(0, { tNo.frag 0 with state := 2, wait := some ⟨drw, ends, .refill, 0⟩ })] } }
theorem witness_Cisterns_draw :
    LaneCurrent (sCi tNo coF) tNo 0 ∧ LaneCurrent (sCi tWr cRef) tWr 0 ∧ (∀ r ∈ (List.range 4).map (316 + ·), r < tNo.vbud) ∧
    tNo.anyEmpty ((List.range 4).map (316 + ·)) (maskOf (takersOf tNo)) = false ∧ takersOf tIt = [] ∧ takersOf tNo = lanes2 ∧
    cFault.cistern.faulted = true ∧ cHeld.cistern.faulted = false ∧ cHeld.cistern.heldBy who0 = true ∧ cHeld.cistern.heldBy (.lanes 2 false 0) = false ∧ coF.cistern.heldBy who0 = false ∧
    (takersOf tNo).length ≤ coF.cistern.pad.length ∧ cRef.cistern.refill ≠ none ∧ cRef.cistern.heldBy who0 = false ∧
    (coP [it 1] [4, 5] none).cistern.spilled ≠ [] ∧ cNone.cistern.pad.length < (takersOf tNo).length ∧
    cNone.cistern.spilled = [] ∧ cNone.cistern.refill = none ∧ (∀ X ∈ (sCi tNo cNone).teams, ∀ p ∈ X.sp.live, p.2.wait = none) ∧
    (sCi tNo cNone).liveOf 1 ≠ 0 ∧ (ln tNo).liveOf 1 = 0 ∧ (sCi tWr cRef).cohort? 1 0 = some cRef ∧
    (tWr.frag 0).wait = some ⟨drw, ends, .refill, 0⟩ := ⟨⟨rfl, rfl⟩, ⟨rfl, rfl⟩, by decide +kernel⟩
/-- Items that may be given up and that wait for an older store; tiles that may be quartered and that may not, a word of ELEM after QUART,
and an LDH still to set WIDE. -/
def sQu : State := { sCi tIt coF with slots := [elemSlot] }
def tDh : Team := { tIt with split := { frags := [(0, { tIt.frag 0 with hist := [7] })] } }
def hullEv : Ev := { store1 with lane := 31, op := .hull (layoutOf []) .iv64 [], dst := .lane 318 31 .iv64 }
theorem witness_Cisterns_work :
    LaneCurrent (sCi tIt coF) tIt 0 ∧ LaneCurrent sQu tIt 0 ∧ sQu.elemWord tIt 9 = some (.ok 14) ∧
    (∀ l ∈ lanes2, ∃ h, tIt.item l = some h ∧ h.kind = 1 ∧ h.wide = false ∧ h.depth + 1 ≤ tIt.hdr.depthMax ∧
      tIt.hdr.edgeMin ≤ tileEdge h.tile / 2) ∧ PushReady (sCi tIt coF) tIt 0 coF 8 ∧
    (sCi tIt coF).releaseOk 1 0 (tIt.frag 0).hist .device = true ∧
    ({ sCi tDh coF with evs := [store1] } : State).releaseOk 1 0 (tDh.frag 0).hist .device = false ∧ tIt.sp.depth = 0 ∧
    (tIt.frag 0).level = 0 ∧ (tIt.frag 0).valid = true ∧ ¬ 2 ≤ tileEdge (tileWord 0 2 1) ∧ sQu.hullPending tIt lanes2 = false ∧
    ({ sQu with evs := [hullEv] } : State).hullPending tIt lanes2 = true :=
  ⟨⟨rfl, rfl⟩, ⟨rfl, rfl⟩, by rfl, fun l hl => ⟨(tIt.item l).getD {}, by revert l; decide⟩, push_ready 8 (by decide +kernel), by decide +kernel⟩
/-- A refill of two slots that lands; a thief, its victims, and a cohort with none; a victim whose last entry is in its pad part, one
whose top entry is in its ring, one that lies past a failed link, and a request that has won an entry. -/
def sRf : State := { sCi tNo (coP [it 3] [] (some ⟨[4, 5], none⟩)) with mem := tables ++ [(0x10080, 1), (0x10088, 2), (0x100A8, 3)] }
def stealing (won : Option (Nat × Nat × Item)) : LaneWait := ⟨drw, ends, .steal 3 none won, 0⟩
def tTh (won : Option (Nat × Nat × Item)) : Team := { tNo with split := { frags := [(0, { tNo.frag 0 with state := 2, wait := some (stealing won) })] } }
def coV : Cohort := { co with idx := 1, cores := [0], cistern := { pad := [it 1, it 2] } }
def coL : Cohort := { coV with cistern := { pad := [it 1] } }
def coS : Cohort := { coV with cistern := { spilled := [4] } }
def far1 : Cohort := { coV with cores := [32] }
def sVi (v : Cohort) : State := { sCi (tTh none) coF with cohorts := [coF, v], mem := tables }
def cut1 : State := { sVi far1 with dies := SMap.wr {} (sVi far1).dies 0 { (sVi far1).die 0 with failed := 3 } }
theorem witness_Cisterns_moves :
    sRf.launch? 1 = some { la with live := 9, hdr := hdS } ∧ sRf.cohort? 1 0 = some (coP [it 3] [] (some ⟨[4, 5], none⟩)) ∧ hdS = tNo.hdr ∧
    la.ctx = tNo.ctx ∧ co.cores.head? = some tNo.core ∧
    (∀ k ∈ [4, 5], sRf.translate (.cistern 1 0) 0 0 (BitVec.ofNat 64 (slotVa hdS 0 k)) = .ok (0x10000 + 32 * k) .cached true ∧
      sRf.translate (.cistern 0 0) 0 0 (BitVec.ofNat 64 (slotVa hdS 0 k)) = .ok (0x10000 + 32 * k) .cached true ∧
      sRf.poisoned (0x10000 + 32 * k) 32 = false ∧ sRf.cutOff 0 (0x10000 + 32 * k) = false) ∧
    (sCi (tTh none) coF).team? 1 = some (tTh none) ∧ (∀ won ∈ [none, some (1, 5, it 1)], (tTh won).thief = some (0, stealing won)) ∧
    (sCi (tTh none) coF).victims coF hdS none = [] ∧ (sVi coV).victims coF hdS none = [coV] ∧ (sVi coL).victims coF hdS none = [coL] ∧
    (sVi coS).victims coF hdS none = [coS] ∧ (sVi coV).routeBroken 0 0 = false ∧
    (lanesOf ends (tTh none).lanes).filter (fun l => ((tTh none).item l).isNone) = lanes2 ∧
    (sVi coS).dispKey 0 0 (BitVec.ofNat 64 (slotVa hdS 1 4)) = some (0x11080, true) ∧
    (cut1.routeBroken 0 1 = true ∨ cut1.routeBroken 1 0 = true) ∧
    cut1.victims coF { hdS with flags := 0xFFFFFFFF } none = [far1] := by decide +kernel
/-- A record at 0x10000 of 64 by 64 elements of .b64 at 0x10100, and a tile of edge 1. -/
def tHu : Team := { withV tIt [((8, 0), 0x10000), ((8, 31), 0x10000), ((9, 0), tileWord 0 1 1)] with items := [(0, some (Item.held ⟨headerWord 1 1 0 1, tileWord 0 1 1, 0, 0⟩)),
  (31, some (Item.held ⟨headerWord 1 1 0 1, tileWord 0 2 1, 0, 0⟩))] }
def huMem : Memory := [(0x10001, 1), (0x10002, 1), (0x10018, 0x40), (0x1002C, 64), (0x1002F, 4), (0x10032, 1), (0x10034, 1), (0x10035, 1), (0x10036, 64), (0x10038, 1),
  (0x10108, 0x11), (0x1010F, 0x40), (0x10117, 0x3F)]
def sHu : State := { sCi tHu coF with mem := huMem }
def hp : Adr := ⟨reg 8, 0⟩
def lay0 : Layout := layoutOf (sHu.bytes 0x10000 64)
def placeHu (va : Word) : Nat × Attr := (va.toNat, .cached)
/-- The address may be read as a byte, written too, and is where the map of the page says. -/
def plainAt (s : State) (a : Nat) : Bool :=
  decide (s.translate who0 0 0 (BitVec.ofNat 64 a) = .ok a .cached true) && decide (placeHu (BitVec.ofNat 64 a) = (a, .cached)) && !s.poisoned a 1
/-- Every element of a tile, and its scale, lies in plain memory. -/
def plainTile (s : State) (l : Layout) (w : Word) : Bool :=
  (l.tileElems w).all fun i => (l.bytesOf i).all (plainAt s) && ((l.scaleAt i).toList.all (plainAt s))
/-- Lane 0 reads the tile of its register, lane 31 holds no tile word; both store the tiles of their items. -/
theorem witness_TilesAndElementTeams :
    LaneReady sHu tHu 0 whole { srcs := [(hp.a, 1), (reg 9, 1)], dst := dstOf .iv64 318 } ∧
    LaneReady sHu tHu 0 whole { srcs := [(hp.a, 1), (reg 9, 1)] } ∧
    (∀ l ∈ lanes2, (tHu.addr hp l).toNat % 64 = 0 ∧ sHu.translate who0 0 0 (tHu.addr hp l) = .ok 0x10000 .cached true ∧
      sHu.readsBad 1 0 [] false 0x10000 64 .cached = false ∧ lay0 = layoutOf (sHu.peek 1 0 [] 0x10000 64 .cached)) ∧
    (∀ l ∈ lanes2, tNo.item l = none) ∧ (∃ l ∈ lanes2, (tIt.addr ⟨reg 6, 0⟩ l).toNat % 64 ≠ 0) ∧
    sHu.mayPeek 0 [] (lanes2.flatMap fun _ => spanOf 0x10000 64 .cached) = true ∧ (lay0.valid = true ∧ lay0.ety ≠ 15 ∧ lay0.narrow = false) ∧
    tileOk (tHu.srcW (reg 9) 0) = true ∧ tileOk (tHu.srcW (reg 9) 31) = false ∧ lay0.tileOdd (tHu.srcW (reg 9) 0) = false ∧
    ([tHu.srcW (reg 9) 0, tileWord 0 1 1, tileWord 0 2 1].all (plainTile sHu lay0) = true) ∧
    (∀ l ∈ lanes2, (tHu.item l).any (fun h => h.kind == 1 && tileOk h.tile && !lay0.tileOdd h.tile && !(lay0.tileElems h.tile).isEmpty) = true) :=
  ⟨⟨⟨rfl, rfl⟩, by decide +kernel, by decide +kernel⟩, ⟨⟨rfl, rfl⟩, by decide +kernel, by decide +kernel⟩, by decide +kernel⟩
/-- A record that an older atomic holds back, one with a misaligned element, two that are not allowed, and a narrow one with scales, which
may be read at once or wait for an older atomic. -/
def tHh : Team := { tHu with split := { frags := [(0, { tHu.frag 0 with hist := [7] })] } }
def casAt (a : Nat) : Ev := { store1 with key := a, op := .cas 0 0 }
def sHc (a : Nat) : State := { sCi tHh coF with mem := huMem, evs := [casAt a] }
def layN : Layout := { lay0 with ety := 16, fmt := 0x00073401, scale := 0x10800 }
theorem witness_TilesAndElementTeams_records :
    (sHc 0x10000).mayPeek 0 [7] (lanes2.flatMap fun _ => spanOf 0x10000 64 .cached) = false ∧
    (sHc 0x10800).mayPeek 0 [7] (lanes2.flatMap fun _ => spanOf 0x10000 64 .cached) = true ∧
    { lay0 with base := 0x10104 }.tileOdd (tileWord 0 1 1) = true ∧ { lay0 with mbz := false }.valid = false ∧
    { layN with fmt := 0x4004 }.desc.lut = true ∧ { layN with fmt := 0x4004 }.narrow = true ∧ layN.valid = true ∧ layN.desc.lut = false ∧
    layN.tileOdd (tileWord 0 1 1) = false ∧ (layN.tileElems (tileWord 0 1 1)).map (fun i => layN.scaleAt i) = [some 0x10800] ∧
    plainTile sHu layN (tileWord 0 1 1) = true ∧ sHu.mayPeek 0 [] [(0x10800, .cached)] = true ∧ (sHc 0x10800).mayPeek 0 [7] [(0x10800, .cached)] = false ∧
    (lay0.tileElems (tileWord 200 200 1)).isEmpty = true := by decide +kernel
/-- A lane that waits for its element team: in the free pools, in the cohort's reservation, and in neither. -/
def tEl : Team := { tIt with split := { frags := [(0, { tIt.frag 0 with state := 2, wait := some ⟨.elem 5, ends, .elems ends 13, 0⟩ })] } }
def coR : Cohort := { coF with resv := [(0, ⟨1, 32, 0, 0⟩)] }
def sElF (C : Cohort) : State := { sCi tEl C with teams := [tEl, { tm with id := 9, launch := 2, words := 1023, vbud := 1, part := 5 }] }
theorem witness_TilesAndElementTeams_start :
    (sCi tEl coF).team? 1 = some tEl ∧ tEl.sp.live = [(0, tEl.frag 0)] ∧ (tEl.frag 0).wait = some ⟨.elem 5, ends, .elems ends 13, 0⟩ ∧
    lowest ends tEl.lanes = some 0 ∧ tEl.item 0 = some (it 1).held ∧ (sCi tEl coF).launch? 1 = some { la with live := 9, hdr := hdS } ∧
    tileEdge (it 1).held.tile = 2 ∧ (sCi tEl coF).roomFor 0 (takes 1 tEl.vbud tEl.sbud) = true ∧ (sCi tEl coF).partition 0 = some (1, 0) ∧
    (sElF coF).team? 1 = some tEl ∧ (sElF coF).roomFor 0 (takes 1 tEl.vbud tEl.sbud) = false ∧ coF.resv = [] ∧
    (sElF coR).cohort? 1 0 = some coR ∧ coR.resv ≠ [] ∧ (∀ X ∈ (sElF coR).teams, X.fromResv = false) ∧
    (sElF coR).roomFor 0 (takes 1 tEl.vbud tEl.sbud) = false ∧ (sElF coR).partition 0 = some (1, 0) := by decide +kernel


/-! ### The order machine -/

/-- A line of core 0 at 0x10000 with two dirty bytes and a clean one, and a clean line. -/
def ln0 : Line := { core := 0, line := 0x200, valid := 7, dirty := 3, data := 0x332211 }
def ln1 : Line := { ln0 with dirty := 0 }
def whole1 : Line := { core := 0, line := 0x200, valid := BitVec.allOnes 128, data := 0x332211 }
def sLn (l : Line) : State := { ln tL with lines := [l] }
def ev0 (op : EvOp) (dst : Dst) (key : Nat) : Ev := { id := 60, team := 1, core := 0, grp := 1, lane := 31, preds := [], key := key, op := op, dst := dst }
def loadEv : Ev := ev0 (.load 8) (.lane 5 31 .b64) 0x10000
def storeEv : Ev := ev0 (.store [1, 2, 3, 4, 5, 6, 7, 8]) .none 0x10078
def sEv (e : Ev) (ls : List Line) : State := { ln tL with evs := [e], lines := ls }
def wbMsg : Msg := ⟨9, 0, 0, .home, .writeBack 0x200 3 0x332211 0, 0x10000, 128⟩
def far0 : Msg := ⟨9, 0, 2, .ring 1 true, .access 60, 0x10000, 8⟩
def back0 : Msg := ⟨9, 0, 0, .back, .reply (some 60) 0, 0x10000, 8⟩
def hit (d k : Nat) : State := { ln tL with dies := SMap.wr {} (ln tL).dies d { Die.reset d with failed := BitVec.ofNat 4 k } }
/-- A fill by a wide access, one that a write-back or a failed link holds back, and one that may be made; a drop and a write-back of a
line that is dirty and of one that is clean; the write-back at its home, from the home's die and from another. -/
theorem witness_OrderMachineSteps :
    Scope.isWide .device = true ∧ Scope.isWide .core = false ∧ (∀ l, (sLn ln1).line? 0 0x200 = some l → l.dirty = 0) ∧
    ({ sLn ln1 with msgs := [wbMsg] } : State).wbFlying 0 0x200 = true ∧ (sLn ln1).wbFlying 0 0x200 = false ∧
    (hit 0 3).cutOff 0 (128 * 2 ^ 31) = true ∧ (sLn ln1).cutOff 0 (128 * 0x200) = false ∧ (sLn ln1).portFailed 0 (128 * 0x200) = false ∧
    (sLn ln0).line? 0 0x200 = some ln0 ∧ ln0.valid &&& ln0.dirty ≠ 0 ∧ ln1.valid &&& ln1.dirty = 0 ∧ ln0.valid ≠ 0 ∧ ln0.dirty ≠ 0 ∧
    (sLn ln0).portFailed wbMsg.dest wbMsg.key = false ∧ (sLn ln0).ownDie 0 (128 * 0x200) = true ∧ (sLn ln0).ownDie 32 (128 * 0x200) = false :=
  ⟨by decide +kernel, by decide +kernel, fun l h => by cases h; rfl, by decide +kernel⟩
/-- A store that may leave and one that may not, a load that follows an older store, from the pad, from a copy, from its bank, from its
home and from uncached memory, each with what lets it be made and what does not. -/
def padEv : Ev := { loadEv with key := 2 ^ 60 }
def before : Ev := { storeEv with id := 59, key := 0x10000 }
def after (a : Attr) : Ev := { loadEv with preds := [59], attr := a }
def sTwo (p e : Ev) : State := { ln tL with evs := [p, e] }
theorem witness_OrderMachineSteps_loads :
    (sEv storeEv []).ev? 60 = some storeEv ∧ (sEv storeEv []).groupOf storeEv = [storeEv] ∧ isPad storeEv.key = false ∧ storeEv.atHome = false ∧
    (sEv storeEv []).canLeave storeEv = true ∧ storeEv.key % 128 + 8 ≤ 128 ∧ (sEv { storeEv with st := .sent } []).canLeave { storeEv with st := .sent } = false ∧
    (sEv loadEv []).ev? 60 = some loadEv ∧ (sEv loadEv []).groupOf loadEv = [loadEv] ∧ (sEv loadEv []).team? 1 = some tL ∧
    padEv.isPadEv = true ∧ heldBack [{ before with acq := true }] = true ∧ (sTwo { before with key := 2 ^ 60 } { padEv with preds := [59] }).padBusy { padEv with preds := [59] } = true ∧
    (sEv padEv []).padBusy padEv = false ∧ padEv.rel = false ∧ (sTwo before (after .cached)).forwardFrom (after .cached) = some [1, 2, 3, 4, 5, 6, 7, 8] ∧
    (sTwo before (after .cached)).mayLoad (after .cached) = true ∧
    (sTwo { before with acq := true } (after .cached)).mayLoad (after .cached) = false ∧ (sEv loadEv []).forwardFrom loadEv = none ∧
    (sEv loadEv []).canLoad loadEv = true ∧ (sTwo { before with acq := true, key := 0x10100 } (after .cached)).canLoad (after .cached) = false ∧
    (after .pinCore).atHome = false ∧ { loadEv with scope := .device }.atHome = true ∧ (sEv loadEv [whole1]).copyHas 0 0x10000 8 = true ∧
    (sEv loadEv [ln0]).copyHas 0 0x10000 8 = false ∧ ({ sEv { loadEv with attr := .uncached } [] with msgs := [wbMsg] } : State).wbFlying 0 (0x10000 / 128) = true ∧
    (sEv loadEv []).frozen loadEv = false ∧ (sEv loadEv []).olderCopies [] = [] ∧ loadEv.strong = false ∧ loadEv.st = .issued := by decide +kernel
/-- An atomic at its home on the own die; messages on the ring, and an answer. -/
def rmwEv : Ev := ev0 (.rmw .add .i64 5) (.lane 5 31 .b64) 0x10000
def home0 : Msg := ⟨9, 0, 0, .home, .access 60, 0x10000, 8⟩
theorem witness_OrderMachineSteps_homes :
    (sEv rmwEv []).ev? 60 = some rmwEv ∧ (sEv rmwEv []).groupOf rmwEv = [rmwEv] ∧ home0.place = .home ∧ home0.body = .access rmwEv.id ∧
    (sEv rmwEv []).portFailed 0 0x10000 = false ∧ isCtl rmwEv.key = false ∧ isPad rmwEv.key = false ∧ (sEv rmwEv []).ownDie 0 0x10000 = true ∧
    (sEv rmwEv []).team? 1 = some tL ∧ (∀ X ∈ (sEv rmwEv []).teams, X.id = 1 → X = tL) ∧ (ln tL).hopFailed 1 true = false ∧
    (hit 1 1).hopFailed 1 true = true ∧ far0.place = .ring 1 true ∧ back0.place = .back ∧ loadEv.op.len = 8 := by decide +kernel
/-- Waits that have read in vain: of the scalar stream, of a lane, and each in a DET launch at its turn. -/
def wEv : Ev := { ev0 (.waitRead .eq 5 true) (.scalar 3) 0x10000 with start := 1 }
def tLim : Team := { tS with waitlimit := 50, sempty := [3] }
def sLim (T : Team) : State := { sc T with evs := [wEv], cycle := 100 }
def lEv : Ev := ev0 (.waitRead .eq 5 true) (.wait false 0 31) 0x10000
def sLw (T : Team) (c : Nat) : State := { ln T with evs := [lEv], cycle := c }
def tWl : Team := { tW with waitlimit := 50 }
def pb1 : Instr := .pbwait whole 1 (reg 4) false 1
theorem witness_WaitsThatFail :
    (sLim tLim).team? 1 = some tLim ∧ (∀ X ∈ (sLim tLim).teams, X.id = 1 → X = tLim) ∧ (sLim tLim).ev? 60 = some wEv ∧ wEv.team = 1 ∧
    tLim.counted = false ∧ tLim.raised = none ∧ (sLim tLim).evs.head? = some wEv ∧ tLim.waitlimit ≠ 0 ∧ wEv.start + tLim.waitlimit.toNat ≤ (sLim tLim).cycle ∧
    wEv.st = .issued ∧ tS.waitlimit = 0 ∧ (tWl.frag 0).wait = some ⟨waita1, laneBit 31, .reads (laneBit 31) false 0, 0⟩ ∧
    (sLw tWl 100).waitEvs tWl false 0 = [lEv] ∧ (sLw tWl 40).cycle < 0 + tWl.waitlimit.toNat ∧ 0 + tWl.waitlimit.toNat ≤ (sLw tWl 100).cycle ∧
    (tWl.frag 0).level = 0 ∧ tWl.sp.depth = 0 ∧ (tWl.frag 0).valid = true ∧ pb1 = .pbwait whole 1 (reg 4) false 1 ∧
    ((waiting pb1 (.reads ends false 0) tL).frag 0).wait = some ⟨pb1, ends, .reads ends false 0, 0⟩ := by decide +kernel
/-- In a DET launch: a SWAITA and a WAITA at their turn, before and at the limit; a turn that fails. -/
def tTu (n : Nat) : Team := { det tLim with swait := some 60, sfailed := n }
def tTl : Team := det tWl
def tLt (n : Nat) : Team := { tWt n with waitlimit := 3 }
theorem witness_WaitsThatFail_turns :
    (tTu 60).counted = true ∧ (tTu 60).raised = none ∧ (sLim (tTu 60)).swaitEv (tTu 60) = some wEv ∧ (tTu 7).sfailed < (tTu 7).waitlimit.toNat ∧
    (tTu 1).sfailed ≤ wEv.start ∧ (tTu 60).waitlimit.toNat ≤ (tTu 60).sfailed ∧ wEv.start < (tTu 60).sfailed ∧ (sLim (tTu 60)).turn (tTu 60) = true ∧
    (behind (tTu 60) (sLim { tTu 60 with clock := 5 })).turn { tTu 60 with clock := 5 } = false ∧
    ((tLt 2).frag 0).wait = some ⟨waita1, ends, .turn 0 2 ends false, 0⟩ ∧ (tLt 2).detPick = some 0 ∧ 2 < (tLt 2).waitlimit.toNat ∧
    (tLt 3).waitlimit.toNat ≤ 3 ∧ (ln (tLt 3)).turn (tLt 3) = true ∧ (tLt 3).raised = none ∧ ((tLt 3).frag 0).level = 0 ∧
    (tLt 3).sp.depth = 0 ∧ ((tLt 3).frag 0).valid = true ∧ (tTu 1).swait = some wEv.id ∧ (sLim (tTu 1)).ev? 60 = some wEv ∧
    (sLim (tTu 1)).stuck wEv = true ∧ wEv.start = (tTu 1).sfailed ∧ wEv.start ≠ (tTu 2).sfailed ∧ (sLw tTl 0).turn tTl = true ∧ tTl.swait = none ∧
    tTl.detPick = some 0 ∧ (∀ e ∈ (sLw tTl 0).waitEvs tTl tTl.trapLevel 0, (sLw tTl 0).stuck e = true) := by decide +kernel


/-! ### Headers, placement, tasks, blocks, pre-emption -/

/-- A posted header whose image lies at 0x10000; its preload word (at the lane base + 4092) reads through the dispatcher's TLB. -/
def hdP : Header := { hd with image := 0x10000, laneBase := 0x1000 }
def po : Post := ⟨0, 0, hdP, none, none⟩
def dtlb : List TlbEntry := [⟨0, 0, 1, 16, 0x10000, false, .cached⟩]
def sPo (p : Post) : State := { State.reset with posts := [p], tlb := dtlb, mem := [(0x11FFC, 1), (0x11FFE, 1)] }
def laP : Launch := { id := 1, num := 0, die := 0, ctx := 0, hdr := { hd with teams := 2 } }
def sPl : State := { State.reset with launches := [laP] }
/-- A header that passes every check, and one that fails each. -/
theorem witness_HeadersPlacementAndTasks :
    (sPo po).ask (.preload 0 0) 0 0 (BitVec.ofNat 64 (hdP.image + hdP.laneBase + 4092)) false 3 = .ok 0x11FFC .cached false ∧
    po.unread = none ∧ (sPo po).posts.find? (fun x => x.die == 0) = some po ∧
    (sPo po).nat 0x11FFC 4 = 0x10001 ∧ (sPo po).refusalCode hdP 0x10001 = none ∧ po.die = 0 ∧
    ({ hdP with version := 2 } : Header).version ≠ 1 ∧ (hdP.version = 1 ∧ hdP.mbz = true ∧ hdP.stampVal.getLsbD 63 = false) ∧
    ({ hdP with mbz := false } : Header).mbz = false ∧ ({ hdP with stampVal := 0x8000000000000000 } : Header).stampVal.getLsbD 63 = true ∧
    ({ hdP with widths := [5, 20, 5, 5, 5, 5] } : Header).widthsBad = true ∧ hdP.widthsBad = false ∧ ({ hdP with teams := 0 } : Header).teams = 0 ∧
    (32 < 33 ∧ 2048 < 65 * 32 ∧ 40 < 41 ∧ 8 < 9 ∧ 7 < 8) ∧ (∃ d < 4, hdP.dieMask.getLsbD d = true ∧ ((sPo po).die d).present = true) ∧
    (sPo po).resident { hdP with teams := 64, words := 32 } = false ∧ (sPo po).resident hdP = true ∧ ({ hdP with pad := 32 } : Header).padBad = true ∧
    ({ hdP with flags := 0xFFFFFFFF, edge := 7 } : Header).boundsBad = true ∧ ({ hdP with entry := 2 } : Header).misaligned = true ∧
    (sPo po).refusalCode { hdP with version := 2, stampAddr := 12 } 0x10001 = some 1 ∧ 12 % 8 ≠ 0 := ⟨rfl, by decide +kernel⟩
/-- A cohort that may be placed and one that may not: its teams need more than a busy core has. -/
def sNo : State := { sPl with teams := (List.range 2).map fun k => { tm with id := 10 + k, launch := 9, core := k, words := 1024, vbud := 8, sbud := 16 }
                              launches := [{ laP with places := [(0, some (0, 0))] }] }
theorem witness_HeadersPlacementAndTasks_cohorts :
    sPl.launch? 1 = some laP ∧ laP.waits 0 = true ∧ laP.hdr.det = false ∧ sPl.scannedBefore laP 0 = [] ∧ (∀ D ∈ sPl.cohorts, D.launch = 1 → D.idx ≠ 0) ∧
    (sPl.placeable laP false 0).isSome = true ∧
    (∀ low, sNo.placeable { laP with places := [(0, some (0, 0))] } low 0 = none) := by decide +kernel
/-- A page of a span that is still to land on core 0, and tasks that are ready and not ready. -/
def laSp : Launch := { laP with hdr := { hdP with teams := 1 }, spages := 1, lblocks := 1 }
def sSpan : State := { State.reset with launches := [laSp], tlb := dtlb }
def tsk (k : Nat) (ins : List Nat) : Task := { id := 5, die := 0, ctx := 0, core := 0, kind := k, inputs := ins, token := some 9, payload := 0x10000 }
def sTk1 (n : BitVec 16) : State :=
  { State.reset with tasks := [tsk 1 [7, 7]], tlb := dtlb, dies := SMap.wr {} State.reset.dies 0 { Die.reset 0 with tokens := [(7, n)] } }
theorem witness_HeadersPlacementAndTasks_pages :
    sSpan.ask (.preload 1 0) 0 0 (pageVa hdP.image 0) false 3 = .ok 0x10000 .cached false ∧
    (sTk1 2).ask (.copy 5) 0 0 0x10000 false 3 = .ok 0x10000 .cached false ∧ sSpan.launch? 1 = some laSp ∧ sSpan.wantsSpan 0 laSp = true ∧ laSp.span = [] ++ 0 :: [1] ∧ sSpan.landedOn 0 hdP.image 0 = false ∧
    sSpan.preloadSlot 0 laSp = some 127 ∧
    (sTk1 1).taskReady (tsk 1 [7, 7]) = false ∧ (sTk1 2).taskReady (tsk 1 [7, 7]) = true ∧ (sTk1 2).posts.length < 64 ∧
    (sTk1 2).poisoned 0x10000 128 = false ∧
    (sTk1 2).tasks.find? (fun x => x.id == 5 && x.die == 0) = some (tsk 1 [7, 7]) := ⟨rfl, rfl, by decide +kernel⟩
/-- A team with a block that waits and none that runs, with no lane left, and hit by an error; traps that are taken and that wait for a
register or for a release. -/
def tBq : Team := { tS with queue := [{ entry := 4, args := [1] }, { entry := 5 }] }
def tRa : Team := { tS with raised := some { cause := 6, resume := 64 } }
def tRi : Team := { tRa with tvec := 0xFFFFFFFF, items := [(0, some (it 1).held)], split := { frags := [(0, { valid := true, hist := [60] })] } }
theorem witness_BlocksTrapsAndPreemption :
    (sc tBq).team? 1 = some tBq ∧ tBq.block = none ∧ tBq.lq = { entry := 4, args := [1] } :: [{ entry := 5 }] ∧ tBq.raised = none ∧
    (tBq.dying = false ∧ tBq.fills = []) ∧ tRa.raised ≠ none ∧ tBq.mask ≠ 0 ∧ ({ tBq with mask := 0 } : Team).lq ≠ [] ∧
    (sc { tBq with dying := true }).mayHalt { tBq with dying := true } = true ∧
    ({ sc tBq with evs := [] } : State).mayHalt { tBq with dying := true, tiles := [{ tile0 with running := true }] } = false ∧
    tRa.raised = some { cause := 6, resume := 64 } ∧ tRa.isWave = false ∧ (sc tRa).writesInFlight tRa = false ∧ tRa.halts = false ∧
    ({ sc tRa with evs := [{ wEv with op := .load 8 }] } : State).writesInFlight tRa = true ∧ tRi.halts = true ∧ (sc tRi).mustRelease tRi = true ∧
    (sc tRi).releaseOk 1 0 ((sc tRi).evsOf tRi) .device = true ∧
    ({ sc tRi with evs := [storeEv] } : State).releaseOk 1 0 (({ sc tRi with evs := [storeEv] } : State).evsOf tRi) .device = false := by decide +kernel
/-- Requests that must wait, that remove the team, and that its handler takes; a team that has waited. -/
def tPq (p : PReq) : Team := { tBq with preq := some p, run := some { entry := 8 }, split := (lt ends).split }
def tNoP (p : PReq) : Team := { tPq p with tvec := 0xFFFFFFFF }
theorem witness_BlocksTrapsAndPreemption_requests :
    (sc (tPq .preempt)).team? 1 = some (tPq .preempt) ∧ (tPq .preempt).preq = some .preempt ∧ (tPq .remove).preq = some .remove ∧
    (tPq .preempt).isOrdinary = true ∧ ((tPq .preempt).committed = false ∧ (tPq .preempt).crit = false ∧ (tPq .preempt).trapLevel = false ∧
      (tPq .preempt).raised = none ∧ (tPq .preempt).tvec ≠ 0xFFFFFFFF) ∧ ({ tPq .preempt with committed := true } : Team).committed ≠ false ∧
    (sc (tPq .preempt)).evs = [] ∧ (tPq .preempt).fills = [] ∧ (tPq .preempt).tiles = [] ∧ (sc (tPq .preempt)).reqs = [] ∧
    (sc (tPq .preempt)).contribs = [] ∧ (tNoP .preempt).preq = some .preempt ∧ (tNoP .preempt).tvec = 0xFFFFFFFF ∧
    (sc (tNoP .preempt)).mayHalt (tNoP .preempt) = true ∧
    (sc (tNoP .preempt)).mayHalt { tNoP .preempt with tiles := [{ tile0 with running := true }] } = false ∧
    256 ≤ ({ tBq with waited := 256 } : Team).waited ∧ tBq.pri + tBq.gain < 7 ∧ tBq.waited < 256 := by decide +kernel
/-- A cohort that has waited 4096 cycles for a cluster that cohorts of lower priority fill, one that has not, and one that fits. -/
def hdLo : Header := { hd with vbud := 1, sbud := 1, teams := 32, words := 32, tvec := 0x800 }
def laHi : Launch := { la with id := 2, num := 1, placed := [], hdr := { hdLo with pri := 3 } }
def laLo : Launch := { la with hdr := { hdLo with cohorts := 32 }, placed := List.range 32 }
def fillers : List Team := (List.range 32).map fun k => { tm with id := 10 + k, core := k, cohort := k, words := 1024, hdr := laLo.hdr, sbud := 16, vbud := 8 }
def sHi : State := { State.reset with
  launches := [laLo, laHi], cohorts := (List.range 32).map fun k => { co with idx := k, cores := [k] }, teams := fillers, cycle := 5000 }
theorem witness_BlocksTrapsAndPreemption_dispatcher :
    sHi.launch? 2 = some laHi ∧ sHi.placeOf laHi 0 = some (0, 0) ∧ laHi.waits 0 = true ∧ laHi.since + 4096 ≤ sHi.cycle ∧
    (sHi.poolsFit laHi.hdr true (fun _ => true) (0, 0)).isSome = false ∧ ({ sHi with cycle := 4000 } : State).cycle < laHi.since + 4096 ∧
    (({ sHi with teams := [] } : State).poolsFit laHi.hdr true (fun _ => true) (0, 0)).isSome = true ∧ laLo.waits 0 = false ∧
    sHi.evictable (0, 0) 3 ≠ [] := by decide +kernel


/-! ### Walks, the control page, the outside -/

def wk (va : Word) (who : List Requester) : Walk := { id := 3, core := 0, ctx := 0, vpage := va.toNat / 2 ^ 16, va := va, write := true, src := 1, who := who }
def lanesWho : List Requester := [.lanes 1 false 0]
def sWk (va : Word) (who : List Requester) (m : Memory) (r : List FaultRec) : State := { sc tS with walks := [wk va who], mem := m, records := r }
def frec : FaultRec := ⟨0, 4, 0, 0, 3, lanesWho⟩
/-- Walks of 33 pages: the last has to wait. -/
def wks : List Walk := (List.range 33).map fun k => { wk (BitVec.ofNat 64 (0x30000 + 0x10000 * k)) lanesWho with id := k }
/-- Tables with a leaf, without an entry, and with a malformed root; a walk that runs and one that has to wait; a record to write, none to
write, one that is pending, and a queue that is full. -/
theorem witness_WalksAndAnswers :
    (sWk 0x30000 lanesWho tables []).walks.find? (fun x => x.id == 3) = some (wk 0x30000 lanesWho) ∧
    (sWk 0x30000 lanesWho tables []).walkRuns (wk 0x30000 lanesWho) = true ∧ ((sWk 0x30000 lanesWho tables []).pagesAsked 0).length ≤ 32 ∧
    ({ sc tS with walks := wks } : State).walkRuns { wk 0x230000 lanesWho with id := 32 } = false ∧
    (sWk 0x30000 lanesWho tables []).walkTables 0 0 0x30000 = (.leaf 0 true .cached, 30) ∧ (sWk 0 [] tables []).tlb.length + 1 ≤ 2048 ∧
    (sWk 0x40000000 lanesWho tables []).walkTables 0 0 0x40000000 = (.absent, 30) ∧
    (sWk 0x30000 lanesWho [(0, 3)] []).walkTables 0 0 0x30000 = (.malformed, 16) ∧
    ((sWk 0x30000 lanesWho tables []).die 0).fqFull = false ∧ ((sWk 0x30000 lanesWho tables []).die 0).fqwait = [] ∧
    ((sc tS).die 0).present = true ∧ ({ Die.reset 0 with fqtail := 16 } : Die).fqFull = true ∧
    ([wk 0x30000 [.prefetch 0 0x30000]].find? fun x => !(askers [x]).isEmpty) = none ∧
    ([wk 0x30000 lanesWho].find? fun x => !(askers [x]).isEmpty) = some (wk 0x30000 lanesWho) ∧
    (sWk 0x30000 lanesWho [] [frec]).records = [frec] ∧ frec.core = (wk 0x30000 lanesWho).core ∧ frec.vpage = (wk 0x30000 lanesWho).vpage ∧
    (wk 0x30000 lanesWho).who = [.lanes 1 false 0] := by decide +kernel
/-- Tables of two levels, and of four at a small page; a record that a parked fragment waits for, in a lane stream and at trap level, and
an answer behind an access that waits. -/
def deep : Memory := [(0, 1), (1, 0x10), (0x1000, 1), (0x1001, 0x20), (0x2000, 1), (0x2001, 0x30), (0x3000, 1), (0x3001, 0x40), (0x4018, 0x07), (0x401A, 5)]
def tPk : Team := { lt ends with split := { frags := [(0, { valid := true, pc := 8, mask := ends, state := 3 })] } }
def tPkH : Team := { tPk with trapLevel := true }
def ctlMsg : Msg := ⟨9, 2 ^ 16, 0, .home, .external (ctlKey 0 0x028) .read false, ctlKey 0 0x028, 8⟩
theorem witness_WalksAndAnswers_answers :
    pteOf ((sWk 0 [] tables []).word 0) 0 true = .next 0x1000 ∧ pteOf ((sWk 0 [] tables []).word 0x1000) 0 false = .next 0x2000 ∧
    pteOf ((sWk 0 [] tables []).word 0x2000) 1 false = .leaf 0 true .cached ∧
    (sWk 0x30000 lanesWho deep []).walkTables 0 0 0x30000 = (.leaf 0x50000 true .cached, 16) ∧
    pteOf ((sWk 0 [] deep []).word 0x2000) 1 false = .next 0x3000 ∧ pteOf ((sWk 0 [] deep []).word 0x3000) 2 false = .next 0x4000 ∧
    (0 : Word).getLsbD 0 = false ∧ 0x3000 % 4096 = 0 ∧ 0x3300 % 256 = 0 ∧ 0x40000000 % 2 ^ 30 = 0 ∧ (sc tPk).ctlQueued 0 0x028 = false ∧
    ({ sc tPk with msgs := [ctlMsg] } : State).ctlQueued 0 0x028 = true ∧ (sc tPk).records.find? (fun r => r.die == 0 && r.seq % 2 ^ 32 == 4) = none ∧
    ({ sc tPk with records := [frec] } : State).records.find? (fun r => r.die == 0 && r.seq % 2 ^ 32 == 4) = some frec ∧
    (sc tPk).teams = [tPk] ∧ frec.who = [.lanes tPk.id false 0] ∧ (tPk.split.frag 0).valid = true ∧ (tPk.split.frag 0).state = 3 ∧
    tPkH.trapLevel = true ∧ (sc tPkH).teams = [tPkH] ∧ (tPkH.split.frag 0).state = 3 := by decide +kernel
/-- A die that is there and one that is not; an invalidation, a generation and a window in progress; ring queues empty and not. -/
def dieBusy : Die := { Die.reset 0 with invals := [(some 0, some 3)], rtgenNext := some 7, pinwinNext := [(31, some 32)] }
def sBusy : State := { sc tS with dies := SMap.wr {} (sc tS).dies 0 dieBusy }
def ringMsg : Msg := { far0 with place := .ring 0 true }
theorem witness_ControlPage :
    (∀ off, sBusy.ctlQueued 0 off = false) ∧ (∀ off, ({ sBusy with msgs := [ringMsg] } : State).ctlQueued 0 off = false) ∧
    ({ sBusy with msgs := [ctlMsg] } : State).ctlQueued 0 0x028 = true ∧ (sBusy.die 0).present = true ∧ (sBusy.die 0).invals ≠ [] ∧
    (sBusy.die 0).rtgenNext = some 7 ∧ ((sc tS).die 0).rtgenNext = none ∧ sBusy.msgs = [] ∧ ringMsg.place = .ring 0 true ∧
    ({ sBusy with msgs := [ringMsg] } : State).hopFailed 0 true = false ∧ SMap.rd none (sBusy.die 0).pinwinNext 31 = some 32 ∧
    (sBusy.allocs 31).all (fun a => a.2 == 0) = true ∧ (sBusy.allocs 0).any (fun a => a.2 != 0) = true ∧ (sBusy.die 0).stage < 3 ∧
    ¬ ({ Die.reset 0 with stage := 3 } : Die).stage < 3 ∧ ((absent1 (sc tS)).die 3).present = false := ⟨fun _ => rfl, fun _ => rfl, by decide +kernel⟩
/-- A host at die 0, an absent die, and no host; no collective under way; a team of the die that may halt and one that may not; a token at
its largest count, and a host launch whose page is refused. -/
def hpost : Post := ⟨0, 2, {}, none, some 0x30080⟩
theorem witness_OutsideWorld :
    ((sc tS).die 3).present = true ∧ (sc tS).hostDie = some 0 ∧
    ({ sc tS with dies := (sc tS).dies.map fun p => (p.1, { p.2 with linkUp := false }) } : State).hostDie = none ∧
    ((absent1 (sc tS)).die ((3 * 2 ^ 37 + 8) / 2 ^ 37 % 4)).present = false ∧ (2 ^ 39 - 8) / 2 ^ 37 % 4 = 3 ∧ (absent1 (sc tS)).hostDie ≠ none ∧
    (sc tS).insts = [] ∧ (sc tS).team? 1 = some tS ∧ tS.core / 32 = 0 ∧ ((sc tS).die 0).fqFull = false ∧ ((sc tS).die 0).fqwait = [] ∧
    (sc tS).mayHalt tS = true ∧ (sc tS).mayHalt { tS with tiles := [{ tile0 with running := true }] } = false ∧
    0x0FFF / 4096 % 4 = 0 ∧ SMap.rd 0 ({ Die.reset 0 with tokens := [(0xFFF, 0xFFFF)] } : Die).tokens (0x0FFF % 4096) = 0xFFFF ∧
    ({ sc tS with posts := [hpost] } : State).posts = [hpost] ∧ hpost.die = 0 ∧ hpost.unread = some 0x30080 ∧ 0x30080 / 2 ^ 16 = 3 ∧ 0x30080 < 2 ^ 48 := by decide +kernel

/-! ### Steps -/

/-- The scalar word at the team's counter, and the lane word at its fragment's. -/
def code (bs : List Byte) (page : Nat) : CodeSlot := { core := 0, slot := page, landed := true, ctx := 0, image := 0, page := page, bytes := bs }
def sStep (a : Act) (T : Team) (x : List CodeSlot) : State := { sc T with agenda := [⟨3, a⟩], slots := x, cur := none }
def scWord : List CodeSlot := [code (List.replicate 64 0 ++ leBytes 4 0x401837FF) 0]
def lnWord : List CodeSlot := [code (List.replicate 96 0 ++ leBytes 12 0x000020040200000200000000) 0]
def noWord : List CodeSlot := [code (List.replicate 128 0xFF) 0]
/-- Fragments at words 8 and 9, of which the first moves first; a critical team of the partition; a fragment that enters a block. -/
def tTwo : Team := { tL with split := { frags := [(0, { tL.frag 0 with mask := 1 }), (1, { tL.frag 0 with mask := 0x80000000, order := 1, pc := 8 })] } }
def tCr : Team := { tS with id := 2, crit := true }
def tEn : Team := { tL with split := { frags := [(0, { tL.frag 0 with pc := 341, seq := true })] } }
theorem witness_StepRunsTheWord :
    (sStep (.scalar 1) tS scWord).team? 1 = some tS ∧ (sStep (.scalar 1) tS scWord).stopped tS = false ∧ (sStep (.scalar 1) tS scWord).critHolds tS = false ∧
    ({ sStep (.scalar 1) tS scWord with teams := [tS, tCr], cycle := 1 } : State).critHolds tS = true ∧ (sStep (.scalar 1) tS scWord).choice = ⟨3, .scalar 1⟩ ∧
    tS.isOrdinary = true ∧ 0 ≤ tS.spc ∧ tS.spc ≤ 0xFFFFFFFC ∧ (sStep (.scalar 1) tS scWord).landedSlot tS 0 = scWord.head? ∧
    decodeBytes (((code (List.replicate 64 0 ++ leBytes 4 0x401837FF) 0).bytes.drop 64).take 4) = .ok (.saddImm 6 6 0x7FF) ∧
    (sStep (.scalar 1) tS []).landedSlot tS 0 = none ∧ (sStep (.scalar 1) tS []).pagePending tS 0 = false ∧
    (sStep (.scalar 1) tS [{ code [] 0 with landed := false }]).landedSlot tS 0 = none ∧
    (sStep (.scalar 1) tS [{ code [] 0 with landed := false }]).pagePending tS 0 = true ∧ ({ tS with spc := -4 } : Team).spc < 0 ∧
    (decodeBytes (((noWord.getD 0 (code [] 0)).bytes.drop 64).take 4)).isOk = false := by decide +kernel
theorem witness_StepRunsTheWord_lanes :
    (sStep (.lane 1 0) tL lnWord).choice = ⟨3, .lane 1 0⟩ ∧ tL.mayMove 0 = true ∧ (tL.frag 0).state = 0 ∧
    (sStep (.lane 1 0) tL lnWord).mayIssue tL 0 = true ∧ (sStep (.lane 1 1) tTwo lnWord).mayIssue tTwo 1 = false ∧ tTwo.mayMove 1 = true ∧
    tW.mayMove 0 = true ∧ (tW.frag 0).state = 2 ∧ (tW.frag 0).wait.isSome = true ∧ tL.mayMove 1 = false ∧ 0 ≤ (tL.frag 0).pc ∧
    (sStep (.lane 1 0) tL lnWord).landedSlot tL (tL.hdr.laneBase / 4096 + 0) = lnWord.head? ∧
    decodeBytes (((code (List.replicate 96 0 ++ leBytes 12 0x000020040200000200000000) 0).bytes.drop 96).take 12) =
      .ok (.iadd ⟨whole, .i64, 2, reg 2, slotSrc 0⟩ false) ∧
    (sStep (.lane 1 0) tL []).pagePending tL 0 = false ∧ (sStep (.lane 1 0) tL [{ code [] 0 with landed := false }]).pagePending tL 0 = true ∧
    (tEn.frag 0).seq = true ∧ (tEn.frag 0).pc.toNat % 341 = 0 ∧
    (sStep (.lane 1 0) tEn [code (List.replicate 4092 0 ++ leBytes 4 0x8000) 0]).blockEnd tEn 0 = true ∧
    (sStep (.lane 1 0) tEn [code (List.replicate 4096 0) 0]).blockEnd tEn 0 = false ∧
    (sStep (.scalar 1) tL []).traps tL ((sStep (.scalar 1) tL []).issueScalarWord tL) = true := by decide +kernel
/-- A well-formed instruction of each length has a word, and the invariant holds right after reset. -/
theorem witness_DecodeEncode :
    (Instr.saddImm 6 6 0x7FF).wf = true ∧ (Instr.iadd ⟨whole, .i64, 2, reg 2, slotSrc 0⟩ false).wf = true := by decide +kernel
theorem reset_inv : Inv State.reset := ⟨by decide +kernel, rfl, rfl⟩
theorem witness_StepKeepsInv :
    Inv (sStep (.scalar 1) tS scWord) ∧ (match step (sStep (.scalar 1) tS scWord) with | .next t => decide (((t.team? 1).getD tm).spc = 68) | _ => false) = true :=
  ⟨⟨by decide +kernel, rfl, rfl⟩, by decide +kernel⟩

/-! ### More of the premises: numbers -/

/-- Intervals with members, around zero and away from it, and two that do not meet. -/
theorem witness_RoundingAndEnclosure_members :
    let num : Dy → ℝ := fun d => d.m * (2 : ℝ) ^ d.e
    let bd : Bd → EReal := fun b => match b with
      | .ninf => ⊥
      | .pinf => ⊤
      | .fin d => (num d : EReal)
    let mem := fun (x : ℝ) (i : Iv) => ∃ a b, i = some (a, b) ∧ bd a ≤ (x : EReal) ∧ (x : EReal) ≤ bd b
    let one : Iv := some (.fin ⟨1, 0⟩, .fin ⟨3, 0⟩)
    let two : Iv := some (.fin ⟨4, 0⟩, .fin ⟨5, 0⟩)
    (∃ x, mem x one ∧ 0 < x) ∧ (∃ x, mem x two) ∧ ¬ mem 0 one ∧ mem 0 (some (.ninf, .pinf)) ∧ ¬ ∃ z, mem z one ∧ mem z two := by
  refine ⟨⟨2, ⟨_, _, rfl, EReal.coe_le_coe_iff.2 ?_, EReal.coe_le_coe_iff.2 ?_⟩, ?_⟩,
    ⟨5, _, _, rfl, EReal.coe_le_coe_iff.2 ?_, EReal.coe_le_coe_iff.2 ?_⟩, ?_, ⟨_, _, rfl, bot_le, le_top⟩, ?_⟩
  iterate 5 (· norm_num)
  · rintro ⟨a, b, h1, h, -⟩
    obtain ⟨rfl, rfl⟩ := by simpa using h1
    exact absurd (EReal.coe_le_coe_iff.1 h) (by norm_num)
  · rintro ⟨z, ⟨a, b, h1, -, h⟩, c, d, h2, h', -⟩
    obtain ⟨rfl, rfl⟩ := by simpa using h1
    obtain ⟨rfl, rfl⟩ := by simpa using h2
    have := (EReal.coe_le_coe_iff.1 h).trans' (EReal.coe_le_coe_iff.1 h')
    norm_num at this
/-- Patterns of every kind of interval: bounded, open at one end and at both, canonical empty, and ill-formed; and of every class of
point. -/
theorem witness_LaneIntervalUnary_patterns :
    f32 ∈ [f32, f64] ∧ fb16 ∈ [f32, f64, fb16] ∧ (f32.readIv 0x3F800000 0x40400000).iv = some (.fin ⟨0x800000, -23⟩, .fin ⟨0xC00000, -22⟩) ∧
    (f32.readIv 0xFF800000 0x40400000).iv = some (.ninf, .fin ⟨0xC00000, -22⟩) ∧ (f32.readIv 0x3F800000 0x7F800000).iv = some (.fin ⟨0x800000, -23⟩, .pinf) ∧
    (f32.readIv 0xFF800000 0x7F800000).iv = some (.ninf, .pinf) ∧ f32.readIv 0x7F800000 0xFF800000 = ⟨none, 0⟩ ∧
    f32.readIv 0x40400000 0x3F800000 = ⟨none, fNV ||| fIL⟩ ∧ (f32.read 0x7FC00000).isNan = true ∧ (f32.read 0x3F800000).isNan = false ∧
    (f32.inf false = 0x7F800000 ∧ f32.inf true = 0xFF800000 ∧ f32.infBits = 0x7F800000 ∧ f32.nanBits = 0x7FC00000 ∧ f32.signBit = 0x80000000 ∧ f32.mb = 23) ∧
    (0xFF800000 : Nat) % 0x80000000 = 0x7F800000 ∧ 2 ^ 23 ≤ 0x3F800000 ∧ 0x007FFFFF < 2 ^ 23 ∧ 0x7F800001 < 0x7FC00000 := by decide +kernel
/-- Ends of intervals in order, and numbers that compare. -/
theorem witness_LaneFloatPredicates_numbers :
    (FV.nan false).isNan = true ∧ (FV.inf true).isNan = false ∧ (FV.fin false 1 0).isNan = false ∧
    let num : Dy → ℝ := fun d => d.m * (2 : ℝ) ^ d.e
    let bd : Bd → EReal := fun b => match b with
      | .ninf => ⊥
      | .pinf => ⊤
      | .fin d => (num d : EReal)
    bd .ninf ≤ bd .pinf ∧ bd (.fin ⟨1, 0⟩) ≤ bd (.fin ⟨3, 0⟩) := by
  refine ⟨rfl, rfl, rfl, bot_le, ?_⟩
  exact EReal.coe_le_coe_iff.2 (by norm_num)
/-- Blocks with a special value and without one; accumulators that are a NaN, infinite and a number; an empty interval and a bounded one. -/
def blk (spec : Bool) : Blk := { mids := [⟨3, 0⟩], rads := [⟨1, 0⟩], spec := spec }
theorem witness_MatrixEngine_numbers :
    (blk true).spec = true ∧ (blk false).spec = false ∧ (f32.read 0x7FC00000).isNan = true ∧ f32.read 0x7F800000 = .inf false ∧
    f32.read 0x3F800000 = .fin false 0x800000 (-23) ∧ (0x7FC00000 : Nat) < 2 ^ 32 ∧ (f32.readIv 0x7F800000 0xFF800000).iv = none ∧
    (f32.readIv 0x3F800000 0x40400000).iv = some (.fin ⟨0x800000, -23⟩, .fin ⟨0xC00000, -22⟩) ∧
    (let num : Dy → ℝ := fun d => d.m * (2 : ℝ) ^ d.e
     num ⟨4, 0⟩ = num ⟨1, 0⟩ + num ⟨3, 0⟩) := by
  refine ⟨rfl, rfl, by decide +kernel, by decide +kernel, by decide +kernel, by decide +kernel, by decide +kernel, by decide +kernel, ?_⟩
  norm_num

/-! ### More of the premises: the streams -/

/-- Poisoned bytes, as an access finds them at the home and in its core's copy. -/
def sBadL (T : Team) : State := { ln T with poison := [0x10017] }
theorem witness_LaneAccess_poison :
    (∀ wide, (sBadL tM).readsBad 1 0 (tM.frag 0).hist wide 0x10010 8 .cached = true) ∧
    (∀ wide, (ln tM).readsBad 1 0 (tM.frag 0).hist wide 0x10010 8 .cached = false) ∧
    (∀ v ∈ ({ denied who0 (ln tM) with verdicts := [⟨who0, 0, 3, false⟩] } : State).verdicts, v.parked = false) ∧
    ({ denied who0 (ln tM) with verdicts := [⟨who0, 0, 3, false⟩] } : State).translate who0 0 0 0x30000 = .refused ∧
    (∀ wide, sPoison.readsBad 1 0 tS.shist wide 0x10000 8 .cached = true) ∧ (∀ wide, (sc tS).readsBad 1 0 tS.shist wide 0x10000 8 .cached = false) ∧
    (sSw 1 [swEv true]).evBad (swEv true) = false ∧ ({ sSw 1 [swEv true] with poison := [0x10003] } : State).evBad (swEv true) = true := by decide +kernel
/-- What a fence of the scalar stream waits for; an LQ of a DET launch before its block, with it under way and with it ended, in a handler
and not. -/
def storeS : Ev := { store1 with st := .sent }
def tLq (b : Bool) (at' : Option Int) : Team := { det tS with queue := if b then [{ entry := 4 }] else [], lqAt := at' }
def tLh' : Team := { det tS with trapLevel := true, swait := some 0 }
theorem witness_ScalarStreamOrder_fences :
    (sc tS).releaseOwn 1 0 tS.linkFills.shist .system = true ∧ ({ sc tH with evs := [store1] } : State).releaseOwn 1 0 tH.linkFills.shist .device = false ∧
    ({ sc tH with evs := [storeS] } : State).releaseOwn 1 0 tH.linkFills.shist .device = false ∧
    (tLq false none).counted = true ∧ (tLq false none).lq = [] ∧ (tLq false none).block = none ∧ (tLq false none).trapLevel = false ∧
    (tLq false none).lqAt ≠ some tS.spc ∧ (tLq true (some tS.spc)).lqAt = some tS.spc ∧ (tLq true (some tS.spc)).lq ≠ [] ∧
    (tLq false (some tS.spc)).lq = [] ∧ tLh'.trapLevel = true ∧ tLh'.swait ≠ none ∧ (det tTrap).swait = none ∧ (det tTrap).counted = true ∧
    (sc (tLq false none)).cur = some ⟨1, none⟩ ∧ (sc (tLq true (some tS.spc))).team? 1 = some (tLq true (some tS.spc)) ∧
    sBlock.pageLanded (tLq false none) (tS.lanePage 340) = true := by decide +kernel
/-- A completion stamp at a home of the launch's die, at one of another die, and on a page that is mapped read-only. -/
def stampAt (d : Nat) (m : Memory) : State := ({ sc tS with mem := m } : State).drainCores [0]
theorem witness_RegionsAndMarking_stamps :
    (stampAt 0 tables).ownDie 0 0x30000 = true ∧ (stampAt 0 tables).portFailed 0 0x30000 = false ∧
    (stampAt 0 tables).dispKey 1 0 0x30000 = some (0x30000, true) ∧ (stampAt 0 tables).ownDie 32 0x30000 = false ∧
    (stampAt 0 ((0x2000, 3) :: tables.filter fun x => x.1 != 0x2000)).dispKey 0 0 0x30000 = some (0x30000, false) ∧ isPad 0x30000 = false ∧ isCtl 0x30000 = false ∧
    laSt.token = none ∧ laSt.hdr.stampAddr = 0x30000 := by decide +kernel
/-- CALLI to one function from both lanes, to two of which one is no function, and to a target outside the code. -/
def tCa (x y : Word) : Team := withV (lt ends) [((1, 0), x), ((1, 31), y)]
theorem calli_targets {T : Team} {slot : Nat} {a : Src} {ts : List (Nat × LaneMask)}
    (hm : ∀ x ∈ ts, ∀ l < 1024, x.2.getLsbD l = ((T.frag slot).mask.getLsbD l && decide (l < T.lanes) && (T.srcW a l).toNat == x.1))
    (h1 : ∀ x ∈ ts, ∃ l, l < T.lanes ∧ (T.frag slot).mask.getLsbD l = true ∧ (T.srcW a l).toNat = x.1)
    (h2 : ∀ l < T.lanes, (T.frag slot).mask.getLsbD l = true → ∃ x ∈ ts, x.1 = (T.srcW a l).toNat) :
    ∀ t m, (t, m) ∈ ts ↔ (∃ l, l < T.lanes ∧ (T.frag slot).mask.getLsbD l = true ∧ (T.srcW a l).toNat = t) ∧
      ∀ l < 1024, m.getLsbD l = ((T.frag slot).mask.getLsbD l && decide (l < T.lanes) && (T.srcW a l).toNat == t) := by
  refine fun t m => ⟨fun h => ⟨h1 _ h, hm _ h⟩, fun ⟨⟨l, hl, hf, ht⟩, h⟩ => ?_⟩
  obtain ⟨x, hx, hxt⟩ := h2 l hl hf
  obtain rfl : t = x.1 := by rw [hxt, ht]
  obtain rfl : m = x.2 := BitVec.eq_of_getLsbD_eq fun l hl => by rw [h l hl, hm x hx l hl]
  exact hx
theorem witness_ControlCalls_targets :
    LaneReady (sCall (tCa 12 12)) (tCa 12 12) 0 whole { srcs := [(reg 1, 1)] } ∧ LaneReady (sCall (tCa 12 13)) (tCa 12 13) 0 whole { srcs := [(reg 1, 1)] } ∧
    LaneReady (sCall (tCa 12 0x1000000)) (tCa 12 0x1000000) 0 whole { srcs := [(reg 1, 1)] } ∧
    (∀ t m, (t, m) ∈ [(12, ends)] ↔ (∃ l, l < (tCa 12 12).lanes ∧ ((tCa 12 12).frag 0).mask.getLsbD l = true ∧ ((tCa 12 12).srcW (reg 1) l).toNat = t) ∧
      ∀ l < 1024, m.getLsbD l = (((tCa 12 12).frag 0).mask.getLsbD l && decide (l < (tCa 12 12).lanes) && ((tCa 12 12).srcW (reg 1) l).toNat == t)) ∧
    (∀ t m, (t, m) ∈ [(12, (1 : LaneMask)), (13, 0x80000000)] ↔ (∃ l, l < (tCa 12 13).lanes ∧ ((tCa 12 13).frag 0).mask.getLsbD l = true ∧ ((tCa 12 13).srcW (reg 1) l).toNat = t) ∧
      ∀ l < 1024, m.getLsbD l = (((tCa 12 13).frag 0).mask.getLsbD l && decide (l < (tCa 12 13).lanes) && ((tCa 12 13).srcW (reg 1) l).toNat == t)) ∧
    (sCall (tCa 12 12)).callee (tCa 12 12) 12 = .budget 16 ∧ 16 ≤ (tCa 12 12).vbud ∧ (sCall (tCa 12 13)).callee (tCa 12 13) 13 = .trap 0x01 ∧
    ({ ln (tCa 12 13) with slots := [{ pend with page := 0, slot := 0 }] } : State).callee (tCa 12 13) 12 = .wait ∧ 2 ^ 24 ≤ 0x1000000 ∧
    ({ tCa 12 12 with vbud := 8 } : Team).vbud < 16 :=
  ⟨⟨⟨rfl, rfl⟩, by decide +kernel, by decide +kernel⟩, ⟨⟨rfl, rfl⟩, by decide +kernel, by decide +kernel⟩, ⟨⟨rfl, rfl⟩, by decide +kernel, by decide +kernel⟩,
    calli_targets (by decide +kernel) (by decide +kernel) (by decide +kernel), calli_targets (by decide +kernel) (by decide +kernel) (by decide +kernel), by decide +kernel⟩
/-- A table of two levels with a second fragment that is not at join, and tables without levels whose second fragment runs, is at LEND; a
lane that holds an item, before and after its stores are out; an EXIT that leaves a lane. -/
def tOp : Team := { tC with split := { tC.split with frags := [(0, tC.frag 0), (1, { valid := true, pc := 20, level := 2, mask := 2 })] } }
def tAt (st : Nat) : Team := { tL with split := { frags := [(0, tL.frag 0), (1, { valid := true, pc := 9, state := st, order := 1, mask := 4 })] } }
def tHo : Team := { tDh with hdr := hd, mask := ends }
theorem witness_ControlLeaves_exits :
    LaneCurrent (ln tOp) tOp 0 ∧ LaneCurrent (ln (tAt 0)) (tAt 0) 0 ∧ LaneCurrent (ln tHo) tHo 0 ∧ tOp.sp.depth = 2 ∧
    ((tOp.frag 1).valid = true ∧ (tOp.frag 1).level = 2 ∧ (tOp.frag 1).state ≠ 1) ∧
    (∀ e < 2, ∀ p ∈ tOp.sp.frags, p.1 ≠ 0 → p.2.valid = true → p.2.level = e → p.2.brk ≠ some (tOp.sp.entry (e + 1)).uid) ∧
    (tAt 0).sp.depth = 0 ∧ ((tAt 0).frag 1).valid = true ∧ ((tAt 0).frag 1).state ≠ 4 ∧ ((tAt 4).frag 1).state = 4 ∧
    (∀ p ∈ (tAt 4).sp.frags, p.1 ≠ 0 → p.2.valid = true → p.2.state = 4) ∧ tHo.isOrdinary = true ∧
    (lanesOf (tHo.execMask (tHo.frag 0) whole) tHo.lanes).filter (fun l => (tHo.item l).isSome) = lanes2 ∧
    ({ ln tHo with evs := [store1] } : State).releaseOk 1 0 (tHo.frag 0).hist .device = false ∧ (ln tHo).releaseOk 1 0 (tHo.frag 0).hist .device = true ∧
    (lanesOf (tL.execMask (tL.frag 0) whole) tL.lanes).filter (fun l => (tL.item l).isSome) = [] ∧
    (tL.frag 0).mask &&& ~~~(tL.execMask (tL.frag 0) ⟨1, .t⟩) ≠ 0 ∧ (tL.frag 0).mask &&& ~~~(tL.execMask (tL.frag 0) whole) = 0 ∧
    tL.sp.joinAt (tL.frag 0).level ≠ some ((tL.frag 0).pc + 1) ∧ (tL.frag 0).level = tL.sp.depth := ⟨⟨rfl, rfl⟩, ⟨rfl, rfl⟩, ⟨rfl, rfl⟩, by decide +kernel⟩
theorem witness_LaneScalarWrites_pair :
    LaneReady (ln tL) tL 0 whole { srcs := srcsOf .iv64 [reg 318], scalar := scalarRun .iv64 126 } ∧ (126 : BitVec 7).toNat % 2 = 0 ∧
    LaneReady (ln tL) tL 0 whole { srcs := srcsOf .i64 [reg 319], scalar := scalarRun .i64 127 } ∧ isPair .iv64 = true ∧ isPair .i64 = false :=
  ⟨lane_ready _ (by decide +kernel) _, by decide +kernel, lane_ready _ (by decide +kernel) _, rfl, rfl⟩

/-! ### More of the premises: tickets, barriers, copies, confluence -/

/-- A pass in a DET launch that is due and holds back a wait; one that does not. -/
def sDue (T : Team) : State := { sTk T 3 with launches := [{ la with hdr := { hd with teams := 8 } }] }
theorem witness_LaneTickets_due :
    (sDue tT).passDue 1 = true ∧ (sTk tT 0).passDue 1 = false ∧ (det tT).counted = true ∧
    ({ sTk tLh 0 with evs := [store1] } : State).releaseOk 1 0 (tLh.frag 0).hist .device = false ∧
    heldBack (({ sTk tLh 0 with evs := [{ store1 with acq := true }] } : State).older (tLh.frag 0).hist) = true := by decide +kernel
/-- A PBWAIT whose last lane is left, and the last team to reach a BAR.cohort, with another of its cohort there. -/
def barw : LaneWait := ⟨.bar whole true, 5, .bar false, 0⟩
def tThere : Team := { tBar with id := 2, tidx := 1, split := { frags := [(0, { valid := true, pc := 8, mask := 5, state := 2, wait := some barw })] } }
def sBar : State := { ln tBar with teams := [tBar, tThere] }
theorem witness_LaneBarriers_ends :
    (((waiting pbw (.reads (laneBit 31) true 0) tB).spOf false).frag 0).wait = some ⟨pbw, ends, .reads (laneBit 31) true 0, 0⟩ ∧
    sBar.cur = some ⟨1, some 0⟩ ∧ sBar.team? 1 = some tBar ∧ tBar.isOrdinary = true ∧ tBar.sp.frags = [(0, tBar.frag 0)] ∧
    (∀ X ∈ sBar.teams, ∀ Y ∈ sBar.teams, X.id = Y.id → X = Y) ∧
    (sBar.teams.filter fun X => X.launch == 1 && X.cohort == 0 && X.isOrdinary) = [tBar, tThere] ∧ tThere.arrived true = true ∧
    (∀ X ∈ [tBar, tThere], sBar.releaseOk X.id X.core (X.sp.live.flatMap fun p => p.2.hist) (sBar.cohortScope tBar) = true) ∧
    (tBar.frag 0).wait = none ∧ (tBar.frag 0).level = 0 ∧ (tThere.frag 0).valid = true ∧ tThere.sp.depth = 0 := by decide +kernel
/-- A step of a barrier that may be taken: of an initialisation, a wait whose phase has come and one whose phase has not. -/
def barEv (op : EvOp) : Ev := { ev0 op (.wait false 0 31) (2 ^ 60) with scope := .team }
def bar0 : Bar := { gen := 3, pa := 1, ea := 1, pb := 0, eb := 0, broken := true }
def sBe (op : EvOp) : State := (sEv (barEv op) []).setBar 0 (2 ^ 60) bar0
theorem witness_PhaseBarriers_steps :
    (∀ op ∈ [EvOp.pbinit 1 0, .pbexp 1, .pbarv 1, .pbwait true 2, .pbwait true 3],
      (sBe op).ev? 60 = some (barEv op) ∧ (barEv op).isPadEv = true ∧ (barEv op).st = .issued ∧ (barEv op).rel = false ∧
      (sBe op).frozen (barEv op) = false ∧ heldBack ((sBe op).older (barEv op).preds) = false ∧ (sBe op).padBusy (barEv op) = false) ∧
    (sBe (.pbexp 1)).bar (2 ^ 60) = bar0 ∧ bar0.reached true 2 = true ∧ bar0.reached true 3 = false ∧
    (bar0.gen < 256 ∧ bar0.pa < 2 ^ 24 ∧ bar0.ea < 2 ^ 24 ∧ bar0.pb < 2 ^ 32 ∧ bar0.eb < 2 ^ 32) := by decide +kernel
/-- A copy's record that an older atomic holds back, and a full table of copies. -/
theorem witness_LaneCopies_held :
    ({ ln tCp with evs := [{ store1 with key := 0x10000, op := .cas 0 0 }] } : State).mayPeek 0 [7] (spanOf 0x10000 64 .cached) = false ∧
    ((List.range 32).filter fun n => ((List.range 32).map fun k => { cp0 with id := k, slot := k }).all fun c =>
      c.team != some 1 || c.ended || c.slot != n) = [] := by decide +kernel
/-- An OBJREG whose answers are back, sound or not, and whose answers are not all back; the last answer at trap level, and with a trap
raised; a wave hit by a trap with loads and stores out; a core of the paired cluster that is full. -/
def regs : Instr := .objreg whole ⟨reg 4, 0⟩ (reg 1)
def tRg : Team := waiting regs (.objreg ends) tCf
def rg (i : Nat) (p : ReqAt) (bad : Bool) : Req := { rq i (.register 64 0 0) p with grp := 1, slot := 0, bad := bad, team := 1 }
def sRg (rs : List Req) : State := { ln tRg with reqs := rs }
theorem witness_LaneConfluence_answers :
    (sRg []).cur = some ⟨1, some 0⟩ ∧ (sRg []).team? 1 = some tRg ∧ (tRg.frag 0).wait = some ⟨regs, ends, .objreg ends, 0⟩ ∧ tRg.raised = none ∧
    (∀ bad, ((sRg [rg 30 .back bad]).reqs.filter fun r => r.team == 1 && r.h == false && r.slot == 0 && r.kind.isRegister && !r.dropped) = [rg 30 .back bad]) ∧
    (rg 30 .back true).fresh = false ∧ (rg 31 .sent false).place ≠ .back := by decide +kernel
theorem witness_ConfluenceUnits_answers :
    ({ tRg with trapLevel := true } : Team).trapLevel ≠ (rg 30 .answered false).h ∧ ({ tRg with raised := some { cause := 1 } } : Team).raised ≠ none ∧
    (rg 30 .answered false).place = .answered ∧ (rg 30 .answered false).kind.isRegister = true ∧
    (sRg [rg 30 .answered false]).routeBroken (homeDie 0x10000) 0 = false ∧ (sRg [rg 30 .answered false]).reqs = [rg 30 .answered false] := by decide +kernel
def wTr : Team := { tWv with raised := some { cause := 1 } }
def wEvs (es : List Ev) : State := { ln wTr with evs := es, objs := [ob0] }
def fullCore (k : Nat) : List Team := [{ tm with id := 77, core := k, words := 1024, launch := 9, vbud := 8, sbud := 16 }]
theorem witness_ConfluenceUnits_waveEnds :
    (wEvs []).team? 1 = some wTr ∧ wTr.sort = .wave 7 ∧ wTr.raised = some { cause := 1 } ∧ ((wEvs []).abandon wTr).writesInFlight wTr = false ∧
    ((wEvs []).abandon wTr).storesOut wTr = true ∧ ((wEvs []).abandon wTr).endReady wTr = true ∧
    ((wEvs [store1]).abandon wTr).storesOut wTr = false ∧ ((wEvs [{ store1 with op := .rmw .add .i64 1, dst := .lane 3 0 .b64 }]).abandon wTr).writesInFlight wTr = true ∧
    (sRq [ob0] []).releaseOk 1 0 [] .device = true ∧ ({ sRq [ob0] [] with evs := [store1] } : State).releaseOk 1 0 [7] .device = false ∧
    (let s := sRq [{ ob0 with packed := [30] }] [rq 30 (.comb 0 4) (.inWave 0)]
     let k := 32 * (s.unitOf ob0.key).1 + 2 * (s.unitOf ob0.key).2
     let q := { s with teams := s.teams ++ fullCore k }
     s.roomFor k (takes 1 8 16) = true ∧ q.roomFor k (takes 1 8 16) = false ∧ q.roomFor (k + 1) (takes 1 8 16) = true ∧
       q.spanReady (k + 1) laC = true ∧ (q.partition (k + 1)).isSome = true ∧
       ({ q with teams := q.teams ++ fullCore (k + 1) } : State).roomFor (k + 1) (takes 1 8 16) = false) := by decide +kernel
/-- A descriptor that may not be read yet; a communicator that a failed link makes invalid; a stamp that cannot be reached. -/
def cutCo : State := { sCo with contribs := [ct 0, { ct 1 with core := 32 }], dies := SMap.wr {} sCo.dies 1 { sCo.die 1 with failed := 3 } }
theorem witness_Collectives_refused :
    ({ sCo with evs := [{ store1 with key := 0x10000, op := .cas 0 0 }] } : State).mayPeek 0 [7] [(0x10000, .cached)] = false ∧
    (1 ∈ cutCo.contributorDies 1 0x10000 tree0) ∧ cutCo.routeBroken 1 (cutCo.homeOf 0 0x10000) = true ∧
    cutCo.contribs.head? = some (ct 0) ∧ (ct 0).leftCore = true ∧ cutCo.routeBroken (dieOf (ct 0).core) (cutCo.homeOf (ct 0).core (ct 0).key) = false ∧
    cutCo.insts = [] ∧ cutCo.comms = [] ∧
    sCo.contributorDies 1 0x10000 tree0 = [0] ∧ sCo.routeBroken 0 (sCo.homeOf 0 0x10000) = false ∧ sCo.insts = [] ∧
    sCo.cutOff (32 * sCo.homeOf 0 0x10000) tree0.stamp = false ∧ sCo.portFailed (sCo.homeOf 0 0x10000) tree0.stamp = false ∧
    sCo.comms = [] := by decide +kernel

/-! ### More of the premises: cisterns, the order machine -/

/-- A slot that can be reached and one past a failed link; the victims after one; a victim's last entry that its owner takes back in the
same cycle, and one of an earlier cycle. -/
def coV2 : Cohort := { coV with idx := 2 }
def sTwoV : State := { sVi coV with cohorts := [coF, coV, coV2] }
def tLast (cyc : Nat) : Team := tTh (some (1, cyc, it 1))
def sLast (cyc : Nat) : State := { sVi coV with teams := [tLast cyc], cycle := 5 }
theorem witness_Cisterns_steals :
    (sVi coS).reachable 0 0x11080 = true ∧ (hit 0 3).reachable 0 (128 * 2 ^ 31) = false ∧
    sTwoV.victims coF hdS none = [coV, coV2] ∧ sTwoV.victims coF hdS (some (stealRank 0 0, 1)) = [coV2] ∧
    sTwoV.victims coF hdS (some (stealRank 0 0, 2)) = [] ∧
    ((sLast 5).teams = [tLast 5] ∧ (tLast 5).launch = coV.launch ∧ (tLast 5).sp.live = [(0, (tLast 5).sp.frag 0)] ∧
      ((tLast 5).sp.frag 0).wait = some (stealing (some (1, 5, it 1))) ∧ coV.idx = 1 ∧ (sLast 5).cohort? 1 0 = some coF) ∧
    (sLast 5).cycle ≤ 5 ∧ 4 < (sLast 4).cycle ∧
    (∀ X ∈ (sLast 4).teams, X.launch = 1 → ∀ p ∈ X.sp.live, p.2.wait = some (stealing (some (1, 4, it 1)))) := by decide +kernel
/-- Records and tiles whose bytes are sound and poisoned. -/
theorem witness_TilesAndElementTeams_sound :
    (sHu.readsBad 1 0 [] false 0x10108 1 .cached = false) ∧ ({ sHu with poison := [0x10108] } : State).readsBad 1 0 [] false 0x10108 1 .cached = true := by
  decide
/-- A set of the core copy with room and one without, whose oldest line is clean or dirty; a line that may be filled and one that may not. -/
def way (k : Nat) (d : BitVec 128) : Line := { core := 0, line := 512 * (k + 1), valid := BitVec.allOnes 128, dirty := d }
def ways (d : BitVec 128) : List Line := (List.range 8).map fun k => way k (if k = 7 then d else 0)
def sWays (d : BitVec 128) : State := { ln tL with lines := ways d }
def mates0 (s : State) (line : Nat) : List Line := s.lines.filter fun l => l.core == 0 && l.line % 512 == line % 512
theorem witness_OrderMachineSteps_sets :
    (mates0 (sWays 0) 0).length = 8 ∧ (∀ l ∈ mates0 (sWays 0) 0, l.line ≠ 0) ∧ (mates0 (sWays 0) 0).getLast? = some (way 7 0) ∧
    (sWays 0).line? 0 (way 7 0).line = some (way 7 0) ∧ (mates0 (sWays 5) 0).getLast? = some (way 7 5) ∧ (way 7 5).dirty ≠ 0 ∧
    (mates0 (sWays 0) 1).length < 8 ∧ (sWays 0).canFill 0 0 = true ∧ (sLn ln0).canFill 0 0x200 = false ∧ (sWays 5).canFill 0 0 = true ∧
    Scope.isWide .core = false := by decide +kernel
/-- Accesses that act at a pad bank, each as it may and as something holds it back: a handler, an older pad access, a release. -/
def pEv (op : EvOp) : Ev := { ev0 op (.lane 5 31 .b64) (2 ^ 60) with region := 1 }
def sPd (op : EvOp) (full : Bool) : State := { sEv (pEv op) [] with tags := if full then [] else [2 ^ 60] }
def padOps : List EvOp := [.store [1, 2, 3, 4], .rmw .add .i64 5, .cas 0 1, .ldfe 1, .stfe [1, 2, 3, 4], .waitRead .eq 5 false, .waitRead .eq 0 false]
def handlerT : Team := { tL with trapLevel := true }
theorem witness_OrderMachineSteps_pads :
    (∀ op ∈ padOps, (sPd op true).ev? 60 = some (pEv op) ∧ (sPd op true).groupOf (pEv op) = [pEv op] ∧ (pEv op).isPadEv = true ∧
      (pEv op).st = .issued ∧ (sPd op true).team? 1 = some tL ∧ (∀ X ∈ (sPd op true).teams, X.id = 1 → X = tL) ∧
      heldBack ((sPd op true).older (pEv op).preds) = false ∧ (sPd op true).frozen (pEv op) = false ∧ (sPd op true).padBusy (pEv op) = false ∧
      (pEv op).rel = false) ∧
    (sPd (.ldfe 1) true).tagFull (2 ^ 60) ≠ (sPd (.ldfe 1) false).tagFull (2 ^ 60) ∧ pEv (.ldfe 1) = { pEv (.stfe [1, 2, 3, 4]) with op := .ldfe 1 } ∧
    condHolds .eq ((sPd (.waitRead .eq 5 false) true).word (2 ^ 60)) 5 = false ∧ condHolds .eq ((sPd (.waitRead .eq 0 false) true).word (2 ^ 60)) 0 = true ∧
    ({ sPd (.waitRead .eq 5 false) true with teams := [handlerT] } : State).frozen { pEv (.waitRead .eq 5 false) with dst := .wait false 0 31 } = true ∧
    ({ ln tL with evs := [store1] } : State).releaseOk 1 0 [7] .device = false := by decide +kernel
/-- The read of a wait at a home, satisfied or not; an LDH that may be made and one that an older atomic holds back. -/
def hEv (b : Bool) : Ev := { ev0 (.waitRead .eq (if b then 0 else 5) false) (.wait false 0 31) 0x10000 with scope := .system, strong := true, acq := true, st := .sent }
def sHm (x : Bool) : State := { sEv (hEv x) [] with msgs := [home0] }
def ldhEv : Ev := { hullEv with id := 60, grp := 1, preds := [7], op := .hull layC .iv64 [([(0x10000, .cached)], 0, none)] }
theorem witness_OrderMachineSteps_waits :
    (∀ x, (sHm x).msgs = [home0] ∧ home0.body = .access 60 ∧ (sHm x).portFailed 0 0x10000 = false ∧ (sHm x).ev? 60 = some (hEv x) ∧
      (sHm x).groupOf (hEv x) = [hEv x] ∧ isCtl (hEv x).key = false ∧ (sHm x).ownDie 0 0x10000 = true ∧ (sHm x).frozen (hEv x) = false ∧
      (sHm x).evBad (hEv x) = false) ∧
    condHolds .eq ((sHm true).word 0x10000) 0 = true ∧ condHolds .eq ((sHm false).word 0x10000) 5 = false ∧
    ({ sHm true with poison := [0x10001] } : State).evBad (hEv true) = true ∧
    (sEv ldhEv []).ev? 60 = some ldhEv ∧ (sEv ldhEv []).canHull ldhEv = true ∧ (sTwo (casAt 0x10000) ldhEv).canHull ldhEv = false ∧
    isPad ldhEv.key = false ∧ (sEv ldhEv []).olderAtoms [] = [] ∧ (sEv loadEv []).homeHeld loadEv = false := by decide +kernel
/-- Waits that meet poison: of the scalar stream and of lanes; one that a handler has interrupted, and one of a team with a trap raised. -/
def sBw (T : Team) (e : Ev) : State := { ln T with evs := [e], poison := [0x10003] }
theorem witness_WaitsThatFail_poison :
    (sBw tLim wEv).evBad wEv = true ∧ (sBw tLim wEv).ev? 60 = some wEv ∧ tLim.raised = none ∧ (sLim tLim).evBad wEv = false ∧
    (sBw tW lEv).evBad lEv = true ∧ (sBw tW lEv).frozen lEv = false ∧ (sBw { tW with trapLevel := true } lEv).frozen lEv = true ∧
    ({ tW with raised := some { cause := 6 } } : Team).raised ≠ none := by decide +kernel

/-! ### More of the premises: work, blocks, the outside -/

/-- A held atomic's launch under DET with what a LAUNCH waits for; a code sector whose home cannot be reached. -/
theorem witness_CreateWork_waits :
    (sc tJ).releaseOwn 1 0 tJ.linkFills.shist .device = true ∧
    ({ sc { tJ with shist := [7] } with evs := [storeS] } : State).releaseOwn 1 0 [7] .device = false ∧
    ((sc tJ).setTeam { tJ.linkFills with committed := true }).turn { tJ.linkFills with committed := true } = true ∧
    ((behind (late tJ) (sc (late tJ))).setTeam { (late tJ).linkFills with committed := true }).turn { (late tJ).linkFills with committed := true } = false ∧
    (((sc tJ).setTeam tJ).dropClean 0).readsBad 1 0 tJ.linkFills.shist true 0x10000 128 .cached = false ∧
    (({ sc tJ with poison := [0x10003] } : State).dropClean 0).readsBad 1 0 tJ.linkFills.shist true 0x10000 128 .cached = true ∧
    sCode.cutOff 0 0x10000 = false ∧ sCode.portFailed 0 0x10000 = false ∧ (hit 0 3).cutOff 0 (128 * 2 ^ 31) = true ∧ isPad 0x10000 = false ∧
    heldBack (sCode.older pend.preds) = false := by decide +kernel
/-- A header that HLAUNCH posted, whose page is mapped, walked for and refused, with poisoned bytes and without. -/
def unreadPo : Post := ⟨0, 0, {}, none, some 0x10080⟩
def sUn (l : List TlbEntry) (p : List Nat) : State := { State.reset with posts := [po, unreadPo].tail, tlb := l, poison := p, mem := [(0x10080, 1)] }
def refusedPo : State := { sUn [] [] with verdicts := [⟨.dispatcher 0, 0, 1, false⟩] }
theorem witness_HeadersPlacementAndTasks_unread :
    (sUn dtlb []).ask (.dispatcher 0) 0 0 0x10080 false 2 = .ok 0x10080 .cached false ∧ refusedPo.ask (.dispatcher 0) 0 0 0x10080 false 2 = .refused ∧
    (sUn dtlb []).posts.find? (fun x => x.die == 0) = some unreadPo ∧ unreadPo.unread = some 0x10080 ∧ ((sUn dtlb []).die 0).present = true ∧
    0x10080 < 2 ^ 47 ∧ 0x10080 % 128 = 0 ∧ (sUn dtlb []).posts = [] ++ unreadPo :: [] ∧
    (sUn dtlb []).poisoned 0x10080 128 = false ∧
    (sUn dtlb [0x10083]).poisoned 0x10080 128 = true ∧ refusedPo.posts = [unreadPo] ∧
    (match (sUn [] []).ask (.dispatcher 0) 0 0 0x10080 false 2 with | .wait _ => true | _ => false) = true := ⟨rfl, rfl, by decide +kernel⟩
/-- A team that halts with its stores out and with a store still to leave; a team that a request halts; cohorts that may be asked, one of
which was asked lately. -/
def tOver : Team := { tS with raised := some { cause := 6, resume := 64 }, tvec := 0xFFFFFFFF }
def sOver (es : List Ev) : State := { sc tOver with evs := es }
theorem witness_BlocksTrapsAndPreemption_halts :
    tOver.isWave = false ∧ tOver.dying = false ∧ tOver.trapLevel = false ∧ ((sOver []).abandon tOver).writesInFlight tOver = false ∧
    ((sOver []).abandon tOver).storesOut tOver = true ∧ ((sOver []).abandon tOver).endReady tOver = true ∧
    ((sOver [store1]).abandon tOver).storesOut tOver = false ∧ ((sOver [wEv]).abandon tOver).evs = [] ∧
    (sc tBq).team? 1 = some tBq ∧ ((sc { tBq with dying := true }).abandon { tBq with dying := true }).mayHalt { tBq with dying := true } = true := by decide +kernel
def sAsk : State := { sHi with teams := sHi.teams.map fun T => if T.core = 0 then { T with asked := some 4000 } else T }
theorem witness_BlocksTrapsAndPreemption_candidates :
    (sHi.cohorts.filter fun x => x.cores.any fun k => k == 0 || k == 1).length = 2 ∧
    (∀ x ∈ sHi.cohorts, sHi.recentlyAsked x = false) ∧ sAsk.recentlyAsked { co with idx := 0, cores := [0] } = true ∧
    (∀ T ∈ sHi.teams, T.tvec ≠ 0xFFFFFFFF) ∧ ((sHi.without sHi.cohorts).poolsFit laHi.hdr true (fun _ => true) (0, 0)).isSome = true ∧
    (sHi.poolsFit laHi.hdr true (fun _ => true) (0, 0)).isSome = false := by decide +kernel
/-- An error in a line that a core copy holds and in a landed slot; a fault queue with room. -/
theorem witness_OutsideWorld_errors :
    (sLn ln0).line? 0 (0x10000 / 128) = some ln0 ∧ ln0.core = 0 ∧ ln0.line = 0x10000 / 128 ∧ (∀ x ∈ (sLn ln0).lines, x.core = 0 → x.line = 0x10000 / 128 → x = ln0) ∧
    ln0.valid.extractLsb' (0x10000 % 128 / 8 * 8) 8 ≠ 0 ∧ 0x10000 < 2 ^ 39 ∧ ({ ln tL with slots := [held] } : State).slots = [held] ∧ held.landed = true ∧
    held.core = 0 ∧ 4088 < 4096 ∧ ((sLn ln0).die 0).fqFull = false ∧ ((sLn ln0).die 0).fqwait = [] ∧ ((sLn ln0).die 0).present = true ∧
    (sc tS).team? 1 = some tS ∧ tS.core / 32 = 0 ∧ ((sc tS).abandon tS).mayHalt tS = true := by decide +kernel
/-- A ring queue that holds back a route switch: a message that can move, and one of the die at another die. -/
theorem witness_ControlPage_routes :
    (∃ m ∈ ({ sBusy with msgs := [ringMsg] } : State).msgs, m.place = .ring 0 true) ∧ ({ sBusy with msgs := [ringMsg] } : State).hopFailed 0 true = false ∧
    sBusy.msgs = [] ∧ (0x3000000 : Nat) % 128 = 0 := by decide +kernel

end Sys2Proof.Tests
end

section
/-!
PROOF. The scalar flags (R56 to R58): what a flag reads after a write, what a ready scalar instruction that writes a flag or
a register leaves, and from these SCMP, SKOP and SSEL.
-/
namespace Sys2Proof.Machine

/-! ### Flags -/

@[simp] theorem triOf_bits (v : Tri) : triOf v.bits = v := by cases v <;> rfl

/-- The flag word as sixteen bits in two-bit fields: a written field reads as written, every other as before. -/
theorem extractField_writeField (w : BitVec 16) (v : BitVec 2) {j k : Nat} (hj : j < 8) (hk : k < 8) :
    ((w &&& ~~~((3 : BitVec 16) <<< (2 * k))) ||| (v.setWidth 16 <<< (2 * k))).extractLsb' (2 * j) 2 =
      if j = k then v else w.extractLsb' (2 * j) 2 := by
  have fieldMask : ∀ n (h : n < 16), (3#16)[n] = decide (n < 2) := by decide
  apply BitVec.eq_of_getLsbD_eq
  intro i hi
  have inWord : 2 * j + i < 16 := by omega
  by_cases hjk : j = k
  · subst hjk
    simp [hi, inWord, fieldMask]
  · have apart : 2 * j + i < 2 * k ∨ 1 + 2 * k < 2 * j + i := by omega
    obtain below | above := apart
    · simp [hi, hjk, inWord, below]
    · have pastField : 2 ≤ 2 * j + i - 2 * k := by omega
      simp [hi, hjk, inWord, fieldMask, Nat.not_le.mpr above, BitVec.getLsbD_of_ge v _ pastField]

/-- A flag after a write: the written one reads as written, every other as before. -/
theorem Team.kf_setK (T : Team) (k j : BitVec 3) (v : Tri) :
    (T.setK k.toNat v).kf j.toNat = if j = k then v else T.kf j.toNat := by
  simp only [Team.kf, Team.setK, extractField_writeField _ _ j.isLt k.isLt, BitVec.toNat_inj]
  split
  · exact triOf_bits v
  · rfl

@[simp] theorem Team.kf_linkFills (T : Team) (k : Nat) : T.linkFills.kf k = T.kf k := rfl
@[simp] theorem Team.sreg_linkFills (T : Team) (n : Nat) : T.linkFills.sreg n = T.sreg n := rfl

/-! ### What a ready scalar instruction leaves -/

section
variable {s : State} {T : Team} {ns rs : List Nat} {i : Instr} {f : Team → Team}

/-- A ready instruction whose effect is the write of one flag. -/
theorem ScalarReady.setsFlag {k : BitVec 3} {v : Tri} (h : ScalarReady s T ns rs) (hi : exec i s = s.scalarOp ns rs f)
    (hf : f T.linkFills = T.linkFills.setK k.toNat v) : ScalarSetsFlag s T i k v :=
  ⟨(T.linkFills.setK k.toNat v).nextS, by rw [hi, h.op, hf], fun j => T.kf_setK k j v, rfl⟩

/-- A ready instruction whose effect is the write of one scalar register. -/
theorem ScalarReady.writes {d : Nat} {v : Word} (h : ScalarReady s T ns rs) (hi : exec i s = s.scalarOp ns rs f)
    (hf : f T.linkFills = T.linkFills.setS d v) : ScalarWrites s T i d v := by
  refine ⟨(T.linkFills.setS d v).nextS, by rw [hi, h.op, hf], fun r => T.linkFills.sreg_setS d r v,
    fun r => T.linkFills.sIsEmpty_setS d r v, ?_⟩
  rw [Team.setS_eq]
  rfl

end

/-! ### SCMP -/

theorem exec_scmp (k : BitVec 3) (a b : BitVec 7) (c : Cond) (s : State) :
    exec (.scmp k a b c) s = execScmp k a b c s := rfl

theorem asInt_toNat (x : Word) : asInt true 64 x.toNat = x.toInt := by
  have := x.isLt
  rw [BitVec.toInt_eq_toNat_cond, asInt]
  simp only [Bool.true_and, decide_eq_true_eq]
  split <;> split <;> omega

/-- The condition that SCMP evaluates is the one of R39. -/
theorem condHolds_iff (c : Cond) (x y : Word) : condHolds c x y = true ↔ condOf c x y := by
  simp only [condHolds, condElem, asInt_toNat]
  cases c <;> simp [condOf, BitVec.toNat_inj]

theorem ScalarReady.scmp {s : State} {T : Team} {a b : BitVec 7} (h : ScalarReady s T [a.toNat, b.toNat] [a.toNat, b.toNat])
    (k : BitVec 3) (c : Cond) :
    ScalarSetsFlag s T (.scmp k a b c) k (triB (condHolds c (T.sreg a.toNat) (T.sreg b.toNat))) :=
  h.setsFlag (exec_scmp k a b c s) (by simp)

/-! ### SKOP -/

theorem exec_skop (d a b : BitVec 3) (op : KOp) (s : State) : exec (.skop d a b op) s = execSkop d a b op s := rfl

/-- False decides an AND, and true an OR, whatever the other operand is. -/
theorem triAnd_eq (x y : Tri) : triAnd x y = if x = .f ∨ y = .f then .f else if x = .t ∧ y = .t then .t else .u := by
  simp [triAnd]

theorem triOr_eq (x y : Tri) : triOr x y = if x = .t ∨ y = .t then .t else if x = .f ∧ y = .f then .f else .u := by
  simp [triOr]

theorem ScalarReady.skop {s : State} {T : Team} (h : ScalarReady s T [] []) {d a b : BitVec 3} {op : KOp} {v : Tri}
    (hv : KOp.apply op (T.kf a.toNat) (T.kf b.toNat) = v) : ScalarSetsFlag s T (.skop d a b op) d v :=
  h.setsFlag (exec_skop d a b op s) (by simp [hv])

/-! ### SSEL -/

theorem exec_ssel (d a b : BitVec 7) (k : BitVec 3) (s : State) : exec (.ssel d a b k) s = execSsel d a b k s := rfl

theorem ScalarReady.ssel {s : State} {T : Team} {d a b : BitVec 7}
    (h : ScalarReady s T [d.toNat, a.toNat, b.toNat] [a.toNat, b.toNat]) (k : BitVec 3) :
    ScalarWrites s T (.ssel d a b k) d.toNat (if T.kf k.toNat = .t then T.sreg a.toNat else T.sreg b.toNat) :=
  h.writes (exec_ssel d a b k s) (by simp)

/-- Settles O3, an instruction at a time: each is a ready scalar operation that writes one flag or one register. -/
theorem scalarFlags : Obligations.ScalarFlags := by
  intro s T
  refine ⟨fun k a b c h => ⟨fun holds => ?_, fun fails => ?_⟩, fun d a b h => ?_, fun d a b k h => h.ssel k⟩
  · simpa [(condHolds_iff ..).mpr holds, triB] using h.scmp k c
  · simpa [mt (condHolds_iff ..).mp fails, triB] using h.scmp k c
  · exact ⟨h.skop (triAnd_eq _ _), h.skop (triOr_eq _ _), h.skop rfl, h.skop (if_congr beq_iff_eq rfl rfl),
      h.skop (if_congr beq_iff_eq rfl rfl), h.skop (if_congr beq_iff_eq rfl rfl), h.skop rfl, h.skop rfl⟩

end Sys2Proof.Machine
end

section
/-!
PROOF. Lane integer arithmetic and lane bits (R119 to R126): each operation on one element, then what a ready lane
instruction whose result is given element by element leaves, and from these the instructions.
-/
namespace Sys2Proof.Machine

/-! ### Numbers of n bits -/

theorem wrapTo_lt (n : Nat) (x : Int) : wrapTo n x < 2 ^ n := by
  have hpos : (0 : Int) < 2 ^ n := by positivity
  have := Int.emod_lt_of_pos x hpos
  rw [wrapTo, Int.toNat_lt_of_ne_zero (Nat.two_pow_pos n).ne']
  exact_mod_cast this

theorem wrapTo_natCast {n k : Nat} (h : k < 2 ^ n) : wrapTo n k = k := by
  rw [wrapTo, Int.emod_eq_of_lt (Int.natCast_nonneg k) (by exact_mod_cast h), Int.toNat_natCast]

/-- Wrapping a number is taking the bit vector of that width. -/
theorem wrapTo_eq_toNat (n : Nat) (x : Int) : wrapTo n x = (BitVec.ofInt n x).toNat := by
  simp [wrapTo]

/-- The signed reading of n bits is that of a bit vector. -/
theorem asInt_eq_toInt {n : Nat} (x : BitVec n) : asInt true n x.toNat = x.toInt := by
  cases n with
  | zero => simp [asInt, BitVec.of_length_zero]
  | succ m =>
    have half : 2 ^ m ≤ x.toNat ↔ ¬ 2 * x.toNat < 2 ^ (m + 1) := by rw [Nat.pow_succ]; omega
    simp only [asInt, BitVec.toInt_eq_toNat_cond, Bool.true_and, Nat.add_sub_cancel, ge_iff_le, decide_eq_true_eq, half,
      ite_not]
    push_cast
    rfl

theorem asInt_bounds {m a : Nat} (ha : a < 2 ^ (m + 1)) : -2 ^ m ≤ asInt true (m + 1) a ∧ asInt true (m + 1) a < 2 ^ m := by
  have ha' : (a : Int) < 2 * 2 ^ m := by rw [mul_comm, ← pow_succ]; exact_mod_cast ha
  have half : (2 ^ m ≤ a) ↔ (2 : Int) ^ m ≤ a := by exact_mod_cast Iff.rfl
  simp only [asInt, Bool.true_and, Nat.add_sub_cancel, ge_iff_le, decide_eq_true_eq, half, pow_succ]
  split <;> omega

theorem elemOf_lt (ty : LTy) (w : Word) (e : Nat) : elemOf ty w e < 2 ^ elemW ty := Nat.mod_lt _ (Nat.two_pow_pos _)

/-! ### Integer operations on one element (R120 to R122) -/

/-- Every result is a number of n bits; the remainder by zero is the dividend. -/
theorem iElem_lt (op : IBin) (signed sat : Bool) {n a : Nat} (b : Nat) (ha : a < 2 ^ n) :
    iElem op signed sat n a b < 2 ^ n := by
  have hout : ∀ p, (if sat then wrapTo n (clampInt signed n p) else wrapTo n p) < 2 ^ n := fun p => by
    split <;> exact wrapTo_lt ..
  cases op with
  | add | sub | mul => exact hout _
  | mulh | min | max => exact wrapTo_lt ..
  | div =>
    simp only [iElem]
    split
    · exact Nat.sub_one_lt (Nat.two_pow_pos n).ne'
    · exact wrapTo_lt ..
  | rem =>
    simp only [iElem]
    split
    · exact ha
    · exact wrapTo_lt ..

/-- The sum, difference and product are clamped before they wrap. -/
theorem wrapTo_clamp (sat signed : Bool) (n : Nat) (p : Int) :
    (if sat then wrapTo n (clampInt signed n p) else wrapTo n p) = wrapTo n (if sat then clampInt signed n p else p) :=
  (apply_ite ..).symm

theorem iElem_rem (signed : Bool) (n a b : Nat) :
    iElem .rem signed false n a b = if asInt signed n b = 0 then a else
      wrapTo n (asInt signed n a - (asInt signed n a).tdiv (asInt signed n b) * asInt signed n b) := by
  rw [iElem, Int.tmod_def, mul_comm]

/-- Clamping a magnitude changes only one past the signed range. -/
theorem clampInt_natCast (m k : Nat) : clampInt true (m + 1) k = (min k (2 ^ m - 1) : Nat) := by
  have hpos := Nat.two_pow_pos m
  simp only [clampInt, if_true, Nat.add_sub_cancel, Nat.cast_min, Nat.cast_sub hpos]
  push_cast
  have : (0 : Int) < 2 ^ m := by positivity
  omega

/-- The magnitude; only the least number has one past the signed range, and SAT clamps it. -/
theorem iAbs_elem (sat : Bool) {n a : Nat} (hn : 0 < n) (ha : a < 2 ^ n) :
    (if sat then wrapTo n (clampInt true n (asInt true n a).natAbs) else wrapTo n (asInt true n a).natAbs) =
      if asInt true n a = -2 ^ (n - 1) then (if sat then 2 ^ (n - 1) - 1 else 2 ^ (n - 1)) else (asInt true n a).natAbs := by
  obtain ⟨m, rfl⟩ := Nat.exists_eq_add_one_of_ne_zero hn.ne'
  obtain ⟨lower, upper⟩ := asInt_bounds ha
  generalize asInt true (m + 1) a = x at *
  have hcast : ((2 ^ m : Nat) : Int) = 2 ^ m := by push_cast; rfl
  have hwrap : ∀ k ≤ 2 ^ m, wrapTo (m + 1) (k : Nat) = k := fun k hk =>
    wrapTo_natCast (hk.trans_lt (Nat.pow_lt_pow_succ one_lt_two))
  rw [clampInt_natCast, Nat.add_sub_cancel, hwrap _ (by omega), hwrap _ (by omega)]
  by_cases least : x = -2 ^ m
  · have : x.natAbs = 2 ^ m := by omega
    simp [least]
  · have : x.natAbs ≤ 2 ^ m - 1 := by omega
    simp [least, this]

/-! ### Shifts on one element (R124) -/

section
variable {n a : Nat} (b : Nat)

theorem bElem_shl : bElem .shl n a b = (BitVec.ofNat n a <<< (b % n)).toNat := by
  simp [bElem, Nat.shiftLeft_eq]

theorem bElem_shr (ha : a < 2 ^ n) : bElem .shr n a b = (BitVec.ofNat n a >>> (b % n)).toNat := by
  simp [bElem, Nat.shiftRight_eq_div_pow, Nat.mod_eq_of_lt ha]

theorem bElem_sar (ha : a < 2 ^ n) : bElem .sar n a b = ((BitVec.ofNat n a).sshiftRight (b % n)).toNat := by
  have hread : asInt true n a = (BitVec.ofNat n a).toInt := by
    rw [← asInt_eq_toInt, BitVec.toNat_ofNat, Nat.mod_eq_of_lt ha]
  rw [bElem, wrapTo_eq_toNat, hread, BitVec.sshiftRight, Int.shiftRight_eq_div_pow]
  push_cast
  rfl

/-- A rotation joins the bits that stay and the bits that come round, which do not overlap. -/
theorem bElem_rot (hn : 0 < n) (ha : a < 2 ^ n) : bElem .rot n a b = ((BitVec.ofNat n a).rotateLeft (b % n)).toNat := by
  have hk : b % n < n := Nat.mod_lt _ hn
  have round : a / 2 ^ (n - b % n) < 2 ^ (b % n) := by
    rw [Nat.div_lt_iff_lt_mul (Nat.two_pow_pos _), ← Nat.pow_add]
    rwa [Nat.add_sub_cancel' hk.le]
  have inWidth : a / 2 ^ (n - b % n) < 2 ^ n := (Nat.div_le_self ..).trans_lt ha
  rw [BitVec.toNat_rotateLeft, BitVec.toNat_ofNat, Nat.mod_eq_of_lt ha, Nat.mod_mod, Nat.shiftRight_eq_div_pow]
  change (a * 2 ^ (b % n) + a / 2 ^ (n - b % n)) % 2 ^ n = _
  rw [← Nat.shiftLeft_eq, Nat.shiftLeft_add_eq_or_of_lt round, Nat.or_mod_two_pow, Nat.mod_eq_of_lt inWidth]

end

/-! ### Counts on one element (R125) -/

theorem popNat_eq_countP (n x : Nat) : popNat n x = (List.range n).countP x.testBit := by
  rw [popNat, List.countP_eq_length_filter]

theorem popNat_le (n x : Nat) : popNat n x ≤ n := by
  simpa [popNat] using List.length_filter_le x.testBit (List.range n)

theorem log2Fuel_eq_log2 (f : Nat) {n : Nat} (h : n < 2 ^ f) : log2Fuel f n = n.log2 := by
  induction f generalizing n with
  | zero => simp [log2Fuel, show n = 0 by simpa using h]
  | succ f ih =>
    rw [log2Fuel, Nat.log2_def]
    by_cases small : n < 2
    · simp [small]
    · rw [if_neg small, if_pos (Nat.le_of_not_lt small), ih (by rw [Nat.pow_succ] at h; omega)]

theorem ilog2_eq_log2 (n : Nat) : ilog2 n = n.log2 := by
  rw [ilog2]
  split
  · next h => exact log2Fuel_eq_log2 64 h
  · rfl

/-- The leading zeros of x in n bits: none of x's bits stands in them, and the bit below them is one. -/
theorem clzNat_spec {n x : Nat} (hx : x < 2 ^ n) :
    clzNat n x ≤ n ∧ x < 2 ^ (n - clzNat n x) ∧ (clzNat n x < n → x.testBit (n - 1 - clzNat n x) = true) := by
  by_cases zero : x = 0
  · simp [clzNat, zero]
  · have inWidth : x.log2 < n := (Nat.log2_lt zero).mpr hx
    rw [clzNat, if_neg zero, ilog2_eq_log2, show n - (n - 1 - x.log2) = x.log2 + 1 by omega,
      show n - 1 - (n - 1 - x.log2) = x.log2 by omega]
    exact ⟨by omega, Nat.lt_log2_self, fun _ => Nat.testBit_log2 zero⟩

/-! ### Bit fields (R126) -/

theorem fieldSpec_eq (f : Word) :
    fieldSpec f = (f.toNat % 64, min (min (f.toNat / 256 % 128) 64) (64 - f.toNat % 64)) := by
  simp [fieldSpec, bitsAt]

/-- The result is one register, and BFI sets no flag. -/
theorem iBfi_eq_word (a b f : Word) : iBfi a b f = ((iBfi a b f).1.even.toPair, 0) := by
  simp [iBfi]

section
variable {f : Word} {p w : Nat} (hf : fieldSpec f = (p, w))
include hf

/-- The field as a bit vector of its width, extended with its sign for .i64 and with zeros else. -/
theorem iBfx_eq (ty : LTy) (a : Word) : iBfx ty a f =
    (Word.toPair (if ty = .i64 then (a.extractLsb' p w).signExtend 64 else (a.extractLsb' p w).setWidth 64), 0) := by
  have field : bitsAt a.toNat p w = (a.extractLsb' p w).toNat := by
    simp [bitsAt, Nat.shiftRight_eq_div_pow]
  simp only [iBfx, hf, field, lowPair]
  generalize a.extractLsb' p w = x
  by_cases empty : w = 0
  · subst empty
    simp only [BitVec.of_length_zero, if_true]
    split <;> rfl
  · rw [if_neg empty, asInt_eq_toInt, BitVec.ofNat_toNat]
    rfl

/-- The field of the result holds the low bits of b, every other bit is that of a. -/
theorem getLsbD_iBfi (a b : Word) {k : Nat} (hk : k < 64) : (iBfi a b f).1.even.getLsbD k =
    if p ≤ k ∧ k < p + w then b.getLsbD (k - p) else a.getLsbD k := by
  simp only [iBfi, hf, toPair_even]
  have mask : (BitVec.ofNat 64 ((2 ^ w - 1) * 2 ^ p)).getLsbD k = decide (p ≤ k ∧ k < p + w) := by
    rw [BitVec.getLsbD_ofNat, Nat.testBit_mul_two_pow, Nat.testBit_two_pow_sub_one]
    by_cases low : p ≤ k
    · simp [hk, low, Nat.sub_lt_iff_lt_add' low]
    · simp [low]
  have moved : (BitVec.ofNat 64 (b.toNat % 2 ^ w * 2 ^ p)).getLsbD k =
      (decide (p ≤ k) && (decide (k - p < w) && b.getLsbD (k - p))) := by
    rw [BitVec.getLsbD_ofNat, Nat.testBit_mul_two_pow, Nat.testBit_mod_two_pow, BitVec.testBit_toNat]
    simp [hk]
  rw [BitVec.getLsbD_or, BitVec.getLsbD_and, BitVec.getLsbD_and, BitVec.getLsbD_not, mask, moved]
  by_cases inField : p ≤ k ∧ k < p + w
  · simp [inField, show k - p < w by omega]
  · simp [inField, hk]

end

/-! ### Registers given by their elements -/

/-- A result that sets no flag and whose elements are those given. -/
def ElemsAre (ty : LTy) (r : Res) (f : Nat → Nat) : Prop :=
  r.2 = 0 ∧ ∀ e < elemCount ty, elemOf ty r.1.even e = f e

theorem ElemsAre.congr {ty : LTy} {r : Res} {f f' : Nat → Nat} (h : ElemsAre ty r f) (hf : ∀ e, f e = f' e) :
    ElemsAre ty r f' := funext hf ▸ h

section
variable (ty : LTy) (a b c : Word)

theorem map1_elems {r : Nat → Nat} (hr : ∀ e, r (elemOf ty a e) < 2 ^ elemW ty) :
    ElemsAre ty (map1 ty (fun x => (r x, 0)) a) fun e => r (elemOf ty a e) :=
  ⟨(map1_flags ..).trans (orElems_zero ty), fun e he => (elemOf_map1 _ _ _ _ he).trans (Nat.mod_eq_of_lt (hr e))⟩

theorem map2_elems {r : Nat → Nat → Nat} (hr : ∀ e, r (elemOf ty a e) (elemOf ty b e) < 2 ^ elemW ty) :
    ElemsAre ty (map2 ty (fun x y => (r x y, 0)) a b) fun e => r (elemOf ty a e) (elemOf ty b e) :=
  ⟨(map2_flags ..).trans (orElems_zero ty), fun e he => (elemOf_map2 _ _ _ _ _ he).trans (Nat.mod_eq_of_lt (hr e))⟩

theorem map3_elems {r : Nat → Nat → Nat → Nat} (hr : ∀ e, r (elemOf ty a e) (elemOf ty b e) (elemOf ty c e) < 2 ^ elemW ty) :
    ElemsAre ty (map3 ty (fun x y z => (r x y z, 0)) a b c) fun e => r (elemOf ty a e) (elemOf ty b e) (elemOf ty c e) :=
  ⟨(map3_flags ..).trans (orElems_zero ty), fun e he => (elemOf_map3 _ _ _ _ _ _ he).trans (Nat.mod_eq_of_lt (hr e))⟩

theorem iBin_elems (hty : ty ≠ .ivi32) (op : IBin) (sat : Bool) : ElemsAre ty (iBin op ty sat a b)
    fun e => iElem op (isSigned ty) sat (elemW ty) (elemOf ty a e) (elemOf ty b e) := by
  simp only [iBin, if_neg hty]
  exact map2_elems ty a b fun e => iElem_lt op _ sat _ (elemOf_lt ty a e)

theorem iMad_elems : ElemsAre ty (iMad ty a b c) fun e => wrapTo (elemW ty)
    (asInt (isSigned ty) (elemW ty) (elemOf ty a e) * asInt (isSigned ty) (elemW ty) (elemOf ty b e) +
      asInt (isSigned ty) (elemW ty) (elemOf ty c e)) :=
  map3_elems ty a b c fun _ => wrapTo_lt ..

theorem iAbs_elems (hs : isSigned ty = true) (sat : Bool) : ElemsAre ty (iAbs ty sat a) fun e =>
    let n := elemW ty
    let x := asInt (isSigned ty) n (elemOf ty a e)
    if x = -2 ^ (n - 1) then (if sat then 2 ^ (n - 1) - 1 else 2 ^ (n - 1)) else x.natAbs := by
  rw [hs]
  exact (map1_elems ty a fun _ => by split <;> exact wrapTo_lt ..).congr fun e =>
    iAbs_elem sat (elemW_pos ty) (elemOf_lt ty a e)

theorem iPopc_elems : ElemsAre ty (iPopc ty a) fun e => popNat (elemW ty) (elemOf ty a e) :=
  map1_elems ty a fun _ => (popNat_le ..).trans_lt Nat.lt_two_pow_self

theorem iClz_elems : ElemsAre ty (iClz ty a) fun e => clzNat (elemW ty) (elemOf ty a e) :=
  map1_elems ty a fun e => (clzNat_spec (elemOf_lt ty a e)).1.trans_lt Nat.lt_two_pow_self

end

/-! ### What a ready lane instruction leaves -/

theorem isPair_eq_false {ty : LTy} (h : ty ≠ .iv64) : isPair ty = false := by simpa using (isPair_iv64 ty).not.mpr h

section
variable {s : State} {T : Team} {slot : Nat} {i : Instr} {g : Guard} {n : Names} {ty : LTy} {d : BitVec 9}
variable {a b : Team → Nat → Pair} {val : Team → Nat → Res}

/-- An instruction whose result is one register and sets no flag. -/
theorem LaneReady.writesWord {w : Nat → Word} (h : LaneReady s T slot g n) (hty : ty ≠ .iv64)
    (hi : exec i s = s.laneOp g n fun T q l => q.put ty d l (val T l)) (hv : ∀ l, val T l = ((w l).toPair, 0)) :
    LaneWrites s T slot i g false d (fun l => (w l).toPair) fun _ => 0 :=
  (isPair_eq_false hty ▸ h.writes ty d val hi).congr (fun l => by rw [hv]) fun l => by rw [hv]

/-- An instruction whose result is given by elements. -/
theorem LaneReady.elems {f : Nat → Nat → Nat} (h : LaneReady s T slot g n) (hty : ty ≠ .iv64)
    (hi : exec i s = s.laneOp g n fun T q l => q.put ty d l (val T l)) (hv : ∀ l, ElemsAre ty (val T l) (f l)) :
    LaneElems s T slot i g ty d f :=
  (isPair_eq_false hty ▸ h.writes ty d val hi).elems (fun l => (hv l).1) fun l => (hv l).2

/-- An integer operation on two operands. -/
theorem LaneReady.binary {op : IBin} {sat : Bool} {f : Nat → Nat → Nat} (h : LaneReady s T slot g n)
    (hty : ty ∈ [LTy.i32, .n32, .i64, .n64])
    (hi : exec i s = s.laneOp g n fun T q l => q.put ty d l (iBin op ty sat (a T l).even (b T l).even))
    (hf : ∀ l e, iElem op (isSigned ty) sat (elemW ty) (elemOf ty (a T l).even e) (elemOf ty (b T l).even e) = f l e) :
    LaneElems s T slot i g ty d f :=
  h.elems (ne_of_mem_of_not_mem hty (by decide)) hi fun l =>
    (iBin_elems ty _ _ (ne_of_mem_of_not_mem hty (by decide)) op sat).congr (hf l)

/-- A shift or a rotation of each element. -/
theorem LaneReady.shift {op : BOp} {x : Nat → Nat → BitVec (elemW ty)} (h : LaneReady s T slot g n) (hty : ty ≠ .iv64)
    (hi : exec i s = s.laneOp g n fun T q l =>
      q.put ty d l (map2 ty (fun x y => (bElem op (elemW ty) x y, 0)) (a T l).even (b T l).even))
    (hx : ∀ l e, bElem op (elemW ty) (elemOf ty (a T l).even e) (elemOf ty (b T l).even e) = (x l e).toNat) :
    LaneElems s T slot i g ty d fun l e => (x l e).toNat :=
  h.elems hty hi fun l => (map2_elems ty _ _ fun e => by rw [hx]; exact (x l e).isLt).congr (hx l)

end

/-! ### The instructions -/

theorem isSigned_of_mem {ty : LTy} (h : ty ∈ [LTy.i32, .i64]) : isSigned ty = true := by
  simp only [List.mem_cons, List.not_mem_nil, or_false] at h
  obtain rfl | rfl := h <;> rfl

/-- Settles O6, a family of instructions at a time: the binary operations, IMAD, IABS, then IDIV and IREM, each in the
register and the immediate form. -/
theorem laneIntegers : Obligations.LaneIntegers := by
  refine ⟨fun s T slot sat => ⟨fun o hty h => ?binary, fun o hty h => ?binaryImm⟩, fun s T slot =>
    ⟨fun o hty h => ?mad, fun o hty h => ?madImm, fun o sat hty h => ?abs, fun o hty h => ⟨?div, ?rem⟩,
      fun o hty h => ⟨?divImm, ?remImm⟩⟩⟩
  case binary | binaryImm =>
    exact ⟨h.binary hty rfl fun _ _ => wrapTo_clamp .., h.binary hty rfl fun _ _ => wrapTo_clamp ..,
      h.binary hty rfl fun _ _ => wrapTo_clamp .., h.binary hty rfl fun _ _ => rfl, h.binary hty rfl fun _ _ => rfl,
      h.binary hty rfl fun _ _ => rfl⟩
  case mad | madImm => exact h.elems (ne_of_mem_of_not_mem hty (by decide)) rfl fun _ => iMad_elems ..
  case abs => exact h.elems (ne_of_mem_of_not_mem hty (by decide)) rfl fun _ => iAbs_elems _ _ (isSigned_of_mem hty) _
  case div | divImm => exact h.binary hty rfl fun _ _ => rfl
  case rem | remImm => exact h.binary hty rfl fun _ _ => iElem_rem ..

/-- Settles O7: the word operations and the shifts in both forms, then the counts and the bit fields. -/
theorem laneBits : Obligations.LaneBits := by
  refine ⟨fun s T slot => ⟨fun o hty h => ?wordsAndShifts, fun o hty h => ?wordsAndShiftsImm⟩, fun s T slot =>
    ⟨fun o hty h => ⟨?popc, ?clz⟩, fun o hty h => ?bfx, fun o hty h => ?bfxImm, fun o hty h => ?bfi,
      fun o hty h => ?bfiImm⟩⟩
  all_goals have hiv : o.ty ≠ .iv64 := ne_of_mem_of_not_mem hty (by decide)
  case wordsAndShifts | wordsAndShiftsImm =>
    exact ⟨h.writesWord hiv rfl fun _ => rfl, h.writesWord hiv rfl fun _ => rfl, h.writesWord hiv rfl fun _ => rfl,
      h.writesWord hiv rfl fun _ => rfl, h.shift hiv rfl fun _ _ => bElem_shl _,
      h.shift hiv rfl fun _ _ => bElem_shr _ (elemOf_lt ..), h.shift hiv rfl fun _ _ => bElem_sar _ (elemOf_lt ..),
      h.shift hiv rfl fun _ _ => bElem_rot _ (elemW_pos _) (elemOf_lt ..)⟩
  case popc => exact h.elems hiv rfl fun _ => (iPopc_elems ..).congr fun _ => popNat_eq_countP ..
  case clz => exact ⟨_, h.elems hiv rfl fun _ => iClz_elems .., fun _ _ _ => clzNat_spec (elemOf_lt ..)⟩
  case bfx | bfxImm => exact h.writesWord hiv rfl fun _ => iBfx_eq (fieldSpec_eq _) ..
  case bfi | bfiImm =>
    exact ⟨_, h.writesWord hiv rfl fun _ => iBfi_eq_word .., fun _ _ hk => getLsbD_iBfi (fieldSpec_eq _) _ _ hk⟩

end Sys2Proof.Machine
end
